-- ==== Sys2Proof/Word.lean ====
section
/-! DEFINITION. The words of the SX-9640 (R7, R18): little-endian bytes, 32-bit lane values, 64-bit sheaf
values and addresses, and the flag quadruple of a condition-code register (R34). -/

namespace Sys2Proof

/-- One byte of memory (R7). -/
abbrev Byte := BitVec 8
/-- A lane value, the contents of a v register (R18). -/
abbrev W32 := BitVec 32
/-- A sheaf value, an address, a PC or a bell value (R5, R18, R238). -/
abbrev Word := BitVec 64
/-- One bit per lane slot of a sheaf (R11). -/
abbrev Mask := BitVec 32
/-- A condition-code register, `[3:0]` = V, C, Z, S (R34). -/
abbrev CcVal := BitVec 4

/-- The flags of R34 packed as the manual numbers them: S in bit 0, Z in bit 1, C in bit 2, V in bit 3. -/
def mkFlags (s z c v : Bool) : CcVal :=
  BitVec.ofNat 4 (s.toNat + 2 * z.toNat + 4 * c.toNat + 8 * v.toNat)

def flagS (f : CcVal) : Bool := f.getLsbD 0
def flagZ (f : CcVal) : Bool := f.getLsbD 1
def flagC (f : CcVal) : Bool := f.getLsbD 2
def flagV (f : CcVal) : Bool := f.getLsbD 3

end Sys2Proof
end

