-- ==== Sys2Proof/Config.lean ====
section
/-! DEFINITION. What one package fixes, and the free values: constants without a body for everything the
manual leaves open, so that no proof can rest on a value of theirs. -/

namespace Sys2Proof.Config

/-- Free value: how many bell ticks pass in the n-th step (R5; no rule says how long a step takes).
(DESIGN CHOICE, log 2.) -/
opaque stepTicks : Nat → Nat
/-- Free value: which of several possible next steps is the n-th one (R48, R53). (DESIGN CHOICE, log 3.) -/
opaque pick : Nat → Nat
/-- Free value: the promised bell time of the n-th copy command (R235, "a best estimate and not a bound").
(DESIGN CHOICE, log 7.) -/
opaque promise : Nat → Word
/-- Where the driver reserves the spill area of each core (R27) and its slot of the frost region (R365): device addresses in
KIND 0 frames outside every pool. (DESIGN CHOICE, log 66.) -/
opaque spillBase : Nat → Nat
opaque frostBase : Nat → Nat
/-- Free value: the CHECK word of an arena record (R326, "the device's own"). (DESIGN CHOICE, log 8.) -/
opaque arenaCheck : List Word → BitVec 32
/-- The slice hash of the tile revision (R243): line number to slice of its home die. (DESIGN CHOICE, log 9.) -/
opaque sliceOf : Nat → Nat
/-- The CXL port behind which a TIER 1 frame's expander lies (R307 names none). (DESIGN CHOICE, log 9.) -/
opaque portOf : Nat → Nat
/-- Tile revision of each physical core (R366, R371). (DESIGN CHOICE, log 9.) -/
opaque tileRevision : Nat → BitVec 32
/-- Security version held in fuses (R411). (DESIGN CHOICE, log 9.) -/
opaque fuseVersion : Nat
/-- The SPDM answers of R413 that the manual does not give bit by bit: certificate chain, digests,
measurement digests and signatures, by request. (PRESUMED, log 10.) -/
opaque certByte : Nat → Byte
opaque certDigest : Nat → BitVec 384
opaque measurement : Nat → BitVec 384
opaque signature : Nat → BitVec 768
/-- Free value: whether the n-th slot fetched after a store to code is the old value or the new (R57).
(DESIGN CHOICE, log 12.) -/
opaque fetchOld : Nat → Bool
/-- Free value: which word value the n-th overlapped copy word takes (R236). (DESIGN CHOICE, log 13.) -/
opaque overlapOld : Nat → Bool
/-- Free value: the page number KVCOW writes when no page is free (R206 gives a value to a pair destination only).
(DESIGN CHOICE, log 15.) -/
opaque kvcowNone : Nat → W32

/-- Free value: the identifier given to the n-th accepted launch, before it is moved past 0 and past those in use (R318).
(DESIGN CHOICE, log 6.) -/
opaque launchNumber : Nat → W32
/-- Page requests the host allows in flight beyond one (R303, the allocation of the PRI capability). (DESIGN CHOICE, log 17.) -/
opaque priMore : Nat
def priAlloc : Nat := priMore + 1
/-- Bed images the lift region of a partition holds beyond the 16 kept for escalations and one more (R357). (DESIGN CHOICE, log 17.) -/
opaque liftMore : Nat → Nat
def liftRoom (part : Nat) : Nat := liftMore part + 17
/-- Records the sample buffer and the trace buffer of an issue partition hold beyond one (R418, R424). (DESIGN CHOICE, log 17.) -/
opaque sampleMore : Nat
opaque traceMore : Nat
def sampleRoom : Nat := sampleMore + 1
def traceRoom : Nat := traceMore + 1
/-- Whether the head core's firmware holds the section layouts of a tile revision (R371).
(DESIGN CHOICE, log 17.) -/
opaque holdsLayout : BitVec 32 → Bool

/-- Free value: whether the n-th dirty line of a die that is reset cannot be written back (R408).
(DESIGN CHOICE, log 19.) -/
opaque lineLost : Nat → Bool
/-- Whether the firmware images that a boot finds are refused (R411). (DESIGN CHOICE, log 4.) -/
opaque bootRefused : Nat → Bool

/-- Free value: what the n-th predicate run returns (R420; a predicate is a program of the debug core, whose instructions
the manual does not give). (DESIGN CHOICE, log 20.) -/
opaque predicate : Nat → Bool

end Sys2Proof.Config
end

