-- ==== Sys2Proof/Machine/Data.lean ====
section
/-! DEFINITION. Plain containers of the machine: a table of pairs, and 32 lanes. Everything here is structural,
so that the kernel can evaluate it. -/

namespace Sys2Proof.Machine

/-! ### Tables: lists of key and value -/

/-- The value a table holds under a key, if any. -/
def aget {κ α : Type} [DecidableEq κ] : List (κ × α) → κ → Option α
  | [], _ => none
  | (k', v) :: t, k => if k' = k then some v else aget t k

/-- The table with a value put under a key: in its place, or at the end. -/
def aset {κ α : Type} [DecidableEq κ] : List (κ × α) → κ → α → List (κ × α)
  | [], k, v => [(k, v)]
  | (k', v') :: t, k, v => if k' = k then (k, v) :: t else (k', v') :: aset t k v

/-- The table without a key. -/
def adel {κ α : Type} [DecidableEq κ] : List (κ × α) → κ → List (κ × α)
  | [], _ => []
  | (k', v') :: t, k => if k' = k then adel t k else (k', v') :: adel t k

/-- The table with the value under a key changed; unchanged where the key is absent. -/
def amod {κ α : Type} [DecidableEq κ] : List (κ × α) → κ → (α → α) → List (κ × α)
  | [], _, _ => []
  | (k', v') :: t, k, f => if k' = k then (k', f v') :: t else (k', v') :: amod t k f

/-- Every value of a table changed. -/
def amap {κ α : Type} (t : List (κ × α)) (f : κ → α → α) : List (κ × α) := t.map fun e => (e.1, f e.1 e.2)

/-- The keys whose values satisfy a test, in the table's order. -/
def akeys {κ α : Type} (t : List (κ × α)) (p : κ → α → Bool) : List κ := (t.filter fun e => p e.1 e.2).map (·.1)

/-! ### Lanes 0 to 31 (R11) -/

/-- The lanes of a sheaf in ascending order. -/
def allLanes : List (Fin 32) :=
  [0, 1, 2, 3, 4, 5, 6, 7, 8, 9, 10, 11, 12, 13, 14, 15, 16, 17, 18, 19, 20, 21, 22, 23, 24, 25, 26, 27, 28, 29, 30, 31]

/-- One value per lane, by lane. -/
def lanesOf {α : Type} (f : Fin 32 → α) : Vector α 32 := ⟨⟨allLanes.map f⟩, rfl⟩

/-- Every entry of a vector changed. -/
def vmap {α β : Type} {n : Nat} (v : Vector α n) (f : α → β) : Vector β n := ⟨⟨v.toList.map f⟩, by simp⟩

/-- Bit l of a mask (R11). -/
def hasLane (m : Mask) (l : Fin 32) : Bool := m.getLsbD l

/-- The mask of the lanes that satisfy a test. -/
def maskOf (p : Fin 32 → Bool) : Mask :=
  allLanes.foldr (fun l m => if p l then m ||| (1#32 <<< l.val) else m) 0#32

/-- The lanes of a mask, ascending (R52). -/
def lanesIn (m : Mask) : List (Fin 32) := allLanes.filter (hasLane m)

/-- The lowest lane of a mask. -/
def lowestLane (m : Mask) : Option (Fin 32) := (lanesIn m).head?

/-- The lane of a number, modulo 32. -/
def laneOf (n : Nat) : Fin 32 := ⟨n % 32, Nat.mod_lt n (by decide)⟩

/-- The number of lanes in a mask. -/
def laneCount (m : Mask) : Nat := (lanesIn m).length

/-- The largest of a list of bell values; 0 where it is empty. -/
def maxWord (l : List Word) : Word := l.foldl (fun a b => if a.toNat < b.toNat then b else a) 0

/-- Sign extension of a 32-bit lane value (R52). -/
def sext64 (x : W32) : Word := x.signExtend 64
def zext64 (x : W32) : Word := x.setWidth 64
/-- The low and high halves of a pair (R19). -/
def loHalf (x : Word) : W32 := x.setWidth 32
def hiHalf (x : Word) : W32 := (x >>> 32).setWidth 32
def joinPair (lo hi : W32) : Word := hi ++ lo

/-- An address is canonical when bits 63 to 55 are all equal (R238). -/
def canonical (a : Word) : Bool := (a.setWidth 56).signExtend 64 == a

/-- The little-endian value of a list of bytes (R7). -/
def bytesToNat : List Byte → Nat
  | [] => 0
  | b :: t => b.toNat + 256 * bytesToNat t

/-- The n little-endian bytes of a number (R7). -/
def natToBytes : Nat → Nat → List Byte
  | 0, _ => []
  | n + 1, x => BitVec.ofNat 8 x :: natToBytes n (x / 256)

end Sys2Proof.Machine
end

