-- ==== Sys2Proof/Syntax.lean ====
section
/-! DEFINITION. The steps of the SX-9640, one constructor per row of spec/opcode_table.json: the 167
instructions of Tables 2.11 and 2.12 with their operand forms, and the 118 operations and events. -/

namespace Sys2Proof

/-! ### Operand forms of the instructions -/

/-- A guard (R35): the CC select and the condition of Table 1.2. -/
structure Guard where
  cc : BitVec 2
  cond : BitVec 4
  deriving DecidableEq, Repr

/-- The guard that is always true (R35). -/
def Guard.al : Guard := ⟨0, 0⟩

/-- A v source with its last-read mark (R22) and empty policy (R30; true is trap). -/
structure VSrc where
  reg : BitVec 8
  last : Bool
  trap : Bool
  deriving DecidableEq, Repr

/-- The crossbar kinds 0 to 6 of Table 2.5. -/
inductive Xbar where
  | straight
  | rot (k : BitVec 5)
  | bcast (k : BitVec 5)
  | fly (k : BitVec 5)
  | mirror
  | up (k : BitVec 5)
  | down (k : BitVec 5)
  deriving DecidableEq, Repr

/-- The B operand (R63, R64): a v register through the crossbar, or a sheaf register (XK = 7). -/
inductive BSrc where
  | lane (v : VSrc) (x : Xbar)
  | sheaf (r : BitVec 6)
  deriving DecidableEq, Repr

/-- The rounding modes of Table 2.4 (R103). -/
inductive Rounding where
  | rn | rz | rp | rm
  deriving DecidableEq, Repr

/-- Flag setting (R61, R83): the c register written, or none when SF = 0. -/
abbrev SetFlags := Option (BitVec 2)

/-- Integer, one source A (IABS, POPC, CLZ, BREV). -/
structure OpA where
  g : Guard
  d : BitVec 8
  a : VSrc
  fl : SetFlags
  deriving DecidableEq, Repr

/-- Integer, one source B (MOV). -/
structure OpB where
  g : Guard
  d : BitVec 8
  b : BSrc
  fl : SetFlags
  deriving DecidableEq, Repr

/-- Integer, sources A and B. -/
structure OpAB where
  g : Guard
  d : BitVec 8
  a : VSrc
  b : BSrc
  fl : SetFlags
  deriving DecidableEq, Repr

/-- Sources A and B with the signedness bit U of R89 (true is .u). -/
structure OpABU where
  g : Guard
  d : BitVec 8
  a : VSrc
  b : BSrc
  uns : Bool
  fl : SetFlags
  deriving DecidableEq, Repr

/-- Sources A and B with a carry-in c register (R85). -/
structure OpABK where
  g : Guard
  d : BitVec 8
  a : VSrc
  b : BSrc
  k : BitVec 2
  fl : SetFlags
  deriving DecidableEq, Repr

/-- Sources A, B and C (IMAD, BFI). -/
structure OpABC where
  g : Guard
  d : BitVec 8
  a : VSrc
  b : BSrc
  c : VSrc
  fl : SetFlags
  deriving DecidableEq, Repr

/-- A compare writing flags only (ICMP, ICMP64, FCMP). -/
structure OpCmp where
  g : Guard
  a : VSrc
  b : BSrc
  k : BitVec 2
  deriving DecidableEq, Repr

/-- SEL (R87): the 6-bit C field is a guard over the fibre's c registers. -/
structure OpSel where
  g : Guard
  d : BitVec 8
  a : VSrc
  b : BSrc
  sel : Guard
  fl : SetFlags
  deriving DecidableEq, Repr

/-- LEA (R88): U and the shift sh. -/
structure OpLea where
  g : Guard
  d : BitVec 8
  a : VSrc
  b : BSrc
  uns : Bool
  sh : BitVec 3
  fl : SetFlags
  deriving DecidableEq, Repr

/-- Form LI with a source A (R65, R90). -/
structure OpI where
  g : Guard
  d : BitVec 8
  a : VSrc
  imm : BitVec 24
  fl : SetFlags
  deriving DecidableEq, Repr

/-- MOVI: form LI without a source. -/
structure OpMovi where
  g : Guard
  d : BitVec 8
  imm : BitVec 24
  fl : SetFlags
  deriving DecidableEq, Repr

/-- ICMPI. -/
structure OpCmpI where
  g : Guard
  a : VSrc
  imm : BitVec 24
  k : BitVec 2
  deriving DecidableEq, Repr

/-- Float, source A, rounded (R123 kind "m"). -/
structure FopA where
  g : Guard
  d : BitVec 8
  a : VSrc
  rm : Rounding
  deriving DecidableEq, Repr

/-- Float, source A, exact. -/
structure FopAX where
  g : Guard
  d : BitVec 8
  a : VSrc
  deriving DecidableEq, Repr

/-- Float, sources A and B, rounded. -/
structure FopAB where
  g : Guard
  d : BitVec 8
  a : VSrc
  b : BSrc
  rm : Rounding
  deriving DecidableEq, Repr

/-- Float, sources A and B, exact (FMIN, FMAX). -/
structure FopABX where
  g : Guard
  d : BitVec 8
  a : VSrc
  b : BSrc
  deriving DecidableEq, Repr

/-- Float, sources A, B and C, rounded. -/
structure FopABC where
  g : Guard
  d : BitVec 8
  a : VSrc
  b : BSrc
  c : VSrc
  rm : Rounding
  deriving DecidableEq, Repr

/-- CVTFI and CVTIF: signedness and rounding. -/
structure CvtU where
  g : Guard
  d : BitVec 8
  a : VSrc
  uns : Bool
  rm : Rounding
  deriving DecidableEq, Repr

/-- CVTF8 (R136): the pair (true is .b2) and NAN. -/
structure CvtF8 where
  g : Guard
  d : BitVec 8
  a : VSrc
  b : BSrc
  hi : Bool
  nan : Bool
  rm : Rounding
  deriving DecidableEq, Repr

/-- CVTF4 (R137): the byte written. -/
structure CvtF4 where
  g : Guard
  d : BitVec 8
  a : VSrc
  b : BSrc
  byte : BitVec 2
  rm : Rounding
  deriving DecidableEq, Repr

/-- An exact conversion that selects an element (bit width of the selector in the type). -/
structure CvtSel (n : Nat) where
  g : Guard
  d : BitVec 8
  a : VSrc
  sel : BitVec n
  deriving DecidableEq, Repr

/-- The targets of SCLQ (R138). -/
inductive SclTarget where
  | e4m3 | int8 | int4
  deriving DecidableEq, Repr

/-- SCLQ. -/
structure OpSclq where
  g : Guard
  d : BitVec 8
  a : VSrc
  target : SclTarget
  deriving DecidableEq, Repr

/-- PERM: two v sources, no crossbar (Table 3.5). -/
structure OpPerm where
  g : Guard
  d : BitVec 8
  a : VSrc
  b : VSrc
  deriving DecidableEq, Repr

/-- XMOV kinds (Table 3.5). -/
inductive XmovKind where
  | rot | fly | up | down
  deriving DecidableEq, Repr

structure OpXmov where
  g : Guard
  d : BitVec 8
  a : VSrc
  b : VSrc
  kind : XmovKind
  deriving DecidableEq, Repr

/-- VOTE modes (R97). -/
inductive VoteMode where
  | any | all | ballot | eq
  deriving DecidableEq, Repr

structure OpVote where
  g : Guard
  d : BitVec 8
  a : VSrc
  mode : VoteMode
  deriving DecidableEq, Repr

structure OpMatch where
  g : Guard
  d : BitVec 8
  a : VSrc
  w64 : Bool
  deriving DecidableEq, Repr

/-- The reductions of Table 3.6. -/
inductive RedOp where
  | add | mins | minu | maxs | maxu | and | or | xor | fmin | fmax | fadd
  deriving DecidableEq, Repr

structure OpRedux where
  g : Guard
  d : BitVec 8
  a : VSrc
  op : RedOp
  deriving DecidableEq, Repr

structure OpScan where
  g : Guard
  d : BitVec 8
  a : VSrc
  op : RedOp
  excl : Bool
  deriving DecidableEq, Repr

/-- The lane V2S reads (R98): a named lane, or the lowest participant. -/
inductive V2sLane where
  | lane (k : BitVec 5)
  | first
  deriving DecidableEq, Repr

structure OpV2s where
  g : Guard
  d : BitVec 6
  a : VSrc
  from_ : V2sLane
  w64 : Bool
  deriving DecidableEq, Repr

/-- The per-fibre special registers of Table 1.3. -/
inductive VSpecial where
  | lane | widlo | widhi | ranklo | rankhi | parentlo | parenthi | linlo | linhi
  | belllo | bellhi | core | die | fpflags
  deriving DecidableEq, Repr

structure OpVsrd where
  g : Guard
  d : BitVec 8
  sel : VSpecial
  deriving DecidableEq, Repr

/-- WIDTH of form LM (Table 2.7). -/
inductive Width where
  | b8 | h16 | w32 | d64 | q128
  deriving DecidableEq, Repr

/-- SCOPE (Table 2.7). -/
inductive Scope where
  | fib | shf | bed | clu | die | dev | sys
  deriving DecidableEq, Repr

/-- The lane address of form LM: `s[SB] + sext v[A]`, or the pair A:A+1 (R66). -/
inductive LmBase where
  | sum (sb : BitVec 6)
  | pair
  deriving DecidableEq, Repr

/-- The common part of a form LM address. -/
structure LmAddr where
  base : LmBase
  a : VSrc
  off : BitVec 14
  deriving DecidableEq, Repr

/-- LD, LDB (ORD is .acq), LDS. -/
structure OpLoad where
  g : Guard
  d : BitVec 8
  addr : LmAddr
  width : Width
  sgn : Bool
  scope : Scope
  acq : Bool
  deriving DecidableEq, Repr

/-- ST (ORD is .rel), STS. -/
structure OpStore where
  g : Guard
  d : VSrc
  addr : LmAddr
  width : Width
  scope : Scope
  rel : Bool
  deriving DecidableEq, Repr

structure OpLds where
  g : Guard
  d : BitVec 8
  addr : LmAddr
  width : Width
  sgn : Bool
  deriving DecidableEq, Repr

structure OpSts where
  g : Guard
  d : VSrc
  addr : LmAddr
  width : Width
  deriving DecidableEq, Repr

/-- LDF and LDW: `.late` selects the LATE trap (R177). -/
structure OpLdf where
  g : Guard
  d : BitVec 8
  addr : LmAddr
  late : Bool
  deriving DecidableEq, Repr

structure OpSte where
  g : Guard
  d : VSrc
  addr : LmAddr
  deriving DecidableEq, Repr

structure OpPrf where
  g : Guard
  addr : LmAddr
  scope : Scope
  deriving DecidableEq, Repr

structure OpCwb where
  g : Guard
  addr : LmAddr
  deriving DecidableEq, Repr

structure OpPgdrop where
  g : Guard
  d : BitVec 8
  addr : LmAddr
  deriving DecidableEq, Repr

/-- The operations of Table 7.3. -/
inductive Aop where
  | add | and | or | xor | mins | minu | maxs | maxu | xchg | fadd | fmin | fmax
  deriving DecidableEq, Repr

/-- ORDER of an atomic (R181). -/
inductive Order where
  | relaxed | acq | rel | ar
  deriving DecidableEq, Repr

structure OpAtom where
  g : Guard
  d : BitVec 8
  a : VSrc
  b : VSrc
  aop : Aop
  scope : Scope
  order : Order
  deriving DecidableEq, Repr

structure OpAcas where
  g : Guard
  d : BitVec 8
  a : VSrc
  b : VSrc
  c : VSrc
  scope : Scope
  order : Order
  deriving DecidableEq, Repr

structure OpRed where
  g : Guard
  a : VSrc
  b : VSrc
  w64 : Bool
  aop : Aop
  scope : Scope
  rel : Bool
  deriving DecidableEq, Repr

/-- The operations of Table 7.5. -/
inductive SatomOp where
  | add | and | or | xor | min (sgn : Bool) | max (sgn : Bool) | xchg
  deriving DecidableEq, Repr

structure OpSatom where
  g : Guard
  d : VSrc
  addr : LmAddr
  w64 : Bool
  op : SatomOp
  ret : Bool
  deriving DecidableEq, Repr

/-- KIND of FENCE (R189). -/
inductive FenceKind where
  | acq | rel | full
  deriving DecidableEq, Repr

structure OpFence where
  g : Guard
  kind : FenceKind
  scope : Scope
  deriving DecidableEq, Repr

structure OpCtake where
  g : Guard
  d : BitVec 8
  a : VSrc
  b : VSrc
  k : BitVec 2
  deriving DecidableEq, Repr

structure OpCgive where
  g : Guard
  d : BitVec 8
  a : VSrc
  b : VSrc
  deriving DecidableEq, Repr

/-- CPEEK and CROLL. -/
structure OpCread where
  g : Guard
  d : BitVec 8
  a : VSrc
  deriving DecidableEq, Repr

/-- KVAPP and KVCOW: one source and a c register. -/
structure OpKvA where
  g : Guard
  d : BitVec 8
  a : VSrc
  k : BitVec 2
  deriving DecidableEq, Repr

structure OpKvMap where
  g : Guard
  d : BitVec 8
  a : VSrc
  b : VSrc
  k : BitVec 2
  deriving DecidableEq, Repr

structure OpKvShare where
  g : Guard
  a : VSrc
  b : VSrc
  k : BitVec 2
  deriving DecidableEq, Repr

structure OpKvDrop where
  g : Guard
  d : BitVec 8
  a : VSrc
  deriving DecidableEq, Repr

structure OpRsmp where
  g : Guard
  d : BitVec 8
  a : VSrc
  b : VSrc
  deriving DecidableEq, Repr

structure OpAccrd where
  g : Guard
  d : BitVec 8
  tile : BitVec 6
  deriving DecidableEq, Repr

structure OpAccwr where
  g : Guard
  a : VSrc
  tile : BitVec 6
  deriving DecidableEq, Repr

/-- Sheaf word with D, A and B (Table 3.4). -/
structure SopAB where
  g : Guard
  d : BitVec 6
  a : BitVec 6
  b : BitVec 6
  deriving DecidableEq, Repr

structure SopA where
  g : Guard
  d : BitVec 6
  a : BitVec 6
  deriving DecidableEq, Repr

structure SopCmp where
  g : Guard
  k : BitVec 2
  a : BitVec 6
  b : BitVec 6
  deriving DecidableEq, Repr

structure SopCmpI where
  g : Guard
  k : BitVec 2
  a : BitVec 6
  imm : BitVec 30
  deriving DecidableEq, Repr

structure SopAI where
  g : Guard
  d : BitVec 6
  a : BitVec 6
  imm : BitVec 30
  deriving DecidableEq, Repr

structure SopI where
  g : Guard
  d : BitVec 6
  imm : BitVec 30
  deriving DecidableEq, Repr

structure SopSst where
  g : Guard
  a : BitVec 6
  b : BitVec 6
  imm : BitVec 30
  deriving DecidableEq, Repr

/-- The per-sheaf special registers of Table 1.4. -/
inductive SSpecial where
  | bell | seat | bed | sheaf | launch | seed | pool | trellis | hvec | tdepth | mprog | notice | fpflags
  deriving DecidableEq, Repr

structure SopSrd where
  g : Guard
  d : BitVec 6
  sel : SSpecial
  deriving DecidableEq, Repr

structure SopSwr where
  g : Guard
  a : BitVec 6
  sel : SSpecial
  deriving DecidableEq, Repr

/-- BRA and BRAS: offset in slots. -/
structure SopBra where
  g : Guard
  off : BitVec 30
  deriving DecidableEq, Repr

/-- BRX and RET: target register. -/
structure SopBrx where
  g : Guard
  a : BitVec 6
  deriving DecidableEq, Repr

structure SopCall where
  g : Guard
  d : BitVec 6
  off : BitVec 30
  deriving DecidableEq, Repr

/-- JOIN and MEET: reconvergence barrier. -/
structure SopBar where
  g : Guard
  k : BitVec 3
  deriving DecidableEq, Repr

/-- A guard and nothing else (YIELD, EXIT, TRIG, DWAIT, RTE, BKPT). -/
structure SopG where
  g : Guard
  deriving DecidableEq, Repr

structure SopNap where
  g : Guard
  a : BitVec 6
  imm : BitVec 30
  deriving DecidableEq, Repr

structure SopBedBar where
  g : Guard
  k : BitVec 4
  deriving DecidableEq, Repr

structure SopArrv where
  g : Guard
  d : BitVec 6
  k : BitVec 4
  deriving DecidableEq, Repr

structure SopWaitb where
  g : Guard
  a : BitVec 6
  k : BitVec 4
  deriving DecidableEq, Repr

structure SopSpawn where
  g : Guard
  d : BitVec 6
  a : BitVec 6
  k : BitVec 2
  deriving DecidableEq, Repr

structure SopTrap where
  g : Guard
  code : BitVec 16
  deriving DecidableEq, Repr

/-- The frame FRMRD and FRMWR name (R160). -/
inductive FrameSel where
  | index (i : BitVec 2)
  | own
  deriving DecidableEq, Repr

/-- The frame fields FRMRD reads (Table 6.5). -/
inductive FrmRdField where
  | cause | info | addr | mask | fpc | bell | pc | cc
  deriving DecidableEq, Repr

/-- The frame fields FRMWR writes (Table 6.5). -/
inductive FrmWrField where
  | pc | cc | cull
  deriving DecidableEq, Repr

structure SopFrmrd where
  g : Guard
  d : BitVec 6
  a : BitVec 6
  frame : FrameSel
  field : FrmRdField
  deriving DecidableEq, Repr

structure SopFrmwr where
  g : Guard
  a : BitVec 6
  b : BitVec 6
  frame : FrameSel
  field : FrmWrField
  deriving DecidableEq, Repr

/-- Operand formats of the matrix unit (Table 9.3). -/
inductive MFmt where
  | e4m3 | int8 | n4 | bf16 | fp16
  deriving DecidableEq, Repr

/-- The first scale register and byte of a scaled matrix command (R227, R229). -/
structure ScaleSel where
  sv : BitVec 8
  start : BitVec 2
  deriving DecidableEq, Repr

structure SopMma where
  g : Guard
  d : BitVec 6
  a : BitVec 6
  tile : BitVec 6
  afmt : MFmt
  bfmt : MFmt
  scale : Option ScaleSel
  accum : Bool
  deriving DecidableEq, Repr

structure SopAccz where
  g : Guard
  tile : BitVec 6
  int32 : Bool
  deriving DecidableEq, Repr

/-- Memory formats of ACCST and ACCLDM (Table 9.6). -/
inductive TFmt where
  | w32 | bf16 | fp16 | e4m3
  deriving DecidableEq, Repr

structure SopAccst where
  g : Guard
  d : BitVec 6
  a : BitVec 6
  tile : BitVec 6
  fmt : TFmt
  deriving DecidableEq, Repr

structure SopAccldm where
  g : Guard
  d : BitVec 6
  a : BitVec 6
  tile : BitVec 6
  fmt : TFmt
  int32 : Bool
  deriving DecidableEq, Repr

/-- RESV and RESVX: $pool, or the pool named by s[A][7:0] (R203). -/
structure SopResv where
  g : Guard
  d : BitVec 6
  pool : Option (BitVec 6)
  deriving DecidableEq, Repr

/-! ### What the operations and events carry -/

/-- A byte address after translation: device frame space (TIER 0 and 1), host I/O translated (TIER 2), or
a frame of a peer (TIER 3) (R241). -/
inductive Loc where
  | dev (a : Nat)
  | host (a : Nat)
  | peer (p a : Nat)
  deriving DecidableEq, Repr

/-- A data access that a request of the device names (R302, R419). -/
inductive AccKind where
  | load | store | atomic | engine | fetch | prefetch
  deriving DecidableEq, Repr

/-- Load data on its way to the lanes of one long-latency operation (R168): lane and value. -/
structure LoadResp where
  sheaf : Nat
  op : Nat
  data : List (Nat × BitVec 128)
  deriving DecidableEq, Repr

/-- A write completion time on its way to the issuing fibres (R170). -/
structure TwResp where
  sheaf : Nat
  op : Nat
  lanes : Mask
  tw : Word
  deriving DecidableEq, Repr

/-- Old values of an atomic on their way to the lanes (R183), with the Tw of the operation. -/
structure AtomResp where
  sheaf : Nat
  op : Nat
  vals : List (Nat × Word)
  tw : Word
  deriving DecidableEq, Repr

/-- The answer of a counter or reserve instruction (R197 to R203): per lane a value and, for CTAKE, whether
it succeeded; for RESV and RESVX the one sheaf value is carried as lane 0. -/
structure CtrResp where
  sheaf : Nat
  op : Nat
  vals : List (Nat × Word × Bool)
  /-- The completion time, as of an atomic (R202); 0 of a read. -/
  tw : Word
  deriving DecidableEq, Repr

/-- The answer of the front end to a SPAWN (R153). -/
structure SpawnResp where
  sheaf : Nat
  /-- The request it answers. -/
  key : Nat
  beds : Word
  flags : CcVal
  deriving DecidableEq, Repr

/-- A deferred fault on its way to its fibres (R345). -/
structure FaultMsg where
  sheaf : Nat
  lanes : Mask
  cause : BitVec 8
  addr : Word
  info : W32
  fpc : Word
  op : Option Nat
  cmd : Option Nat
  /-- Whether R352 logs it. -/
  log : Bool
  deriving DecidableEq, Repr

/-- The answer of a KV agent for one lane (R207): value and flags, or the cause, address and INFO of a trap. -/
structure KvResp where
  sheaf : Nat
  op : Nat
  lane : Nat
  value : Word
  flags : CcVal
  trap : Option (BitVec 8 × Word × W32)
  tw : Word
  /-- Metadata lines of the step: copies of them that the issuing tile took before it are dropped (R207, R268). -/
  drop : List Loc
  deriving DecidableEq, Repr

/-- A response that the port of a frosted tile writes as a late-arrival record (R369). -/
inductive Response where
  | load (r : LoadResp)
  | tw (r : TwResp)
  | atom (r : AtomResp)
  | ctr (r : CtrResp)
  | spawn (r : SpawnResp)
  | fault (r : FaultMsg)
  | kv (r : KvResp)
  | notice (sheaf : Nat) (bits : BitVec 2)
  deriving DecidableEq, Repr

/-- The lanes of one load that wait for the data of a line request (R246, R247): each with its offset in the line, and how
many of the cluster's stores to the line, still on their way behind the request, the load comes after (R249, R261). -/
structure LineWait where
  sheaf : Nat
  op : Nat
  lanes : List (Nat × Nat)
  seen : Nat
  deriving DecidableEq, Repr

/-- A line request of a core at a home slice (R246, R262), with its sector mask. -/
structure HomeReq where
  core : Nat
  line : Loc
  ldb : Bool
  /-- A prefetch, and whether it installs in L1 (R178). -/
  prefetch : Option Bool
  mask : BitVec 4
  who : List LineWait
  deriving DecidableEq, Repr

/-- Who issued a write that is on its way to its home. -/
inductive WriteSrc where
  | fibres (sheaf op : Nat) (lanes : Mask) (core : Nat)
  | hub
  deriving DecidableEq, Repr

/-- A write on its way to its home (R262): the bytes by offset in the line; `cwb` asks for the writeback of
R179; `charged` says that 4 sectors were charged to the pool for it (R281). -/
structure WriteMsg where
  src : WriteSrc
  line : Loc
  bytes : List (Nat × Byte)
  cwb : Bool
  charged : Bool
  deriving DecidableEq, Repr

/-- An atomic's operation on one word (R182, R186). -/
inductive AtomFn where
  | rmw (op : Aop)
  | cas
  deriving DecidableEq, Repr

/-- The atomics of one batch on one word, on their way to where they execute (R184, Table 7.4): lane,
operand b and compare value c. -/
structure AtomMsg where
  sheaf : Nat
  op : Nat
  core : Nat
  word : Loc
  w64 : Bool
  fn : AtomFn
  scope : Scope
  ret : Bool
  lanes : List (Nat × Word × Word)
  charged : Bool
  /-- Whether the cluster's combining buffer may merge it (R184), and the bell of its arrival there. -/
  merge : Bool
  bell : Word
  /-- The word it has read, where it acts as a load followed by a store (R185). -/
  read : Option Word
  deriving DecidableEq, Repr

/-- A CTAKE whose cluster's allowance was short, queued at its counter's home (R197, R198). -/
structure RefillMsg where
  sheaf : Nat
  op : Nat
  cluster : Nat
  ctr : Nat
  lanes : List (Nat × Nat)
  /-- A CPEEK, which only reads at the home (R202). -/
  peek : Bool
  deriving DecidableEq, Repr

/-- The five KV instructions (Table 8.8). -/
inductive KvKind where
  | app | map | share | drop | cow
  deriving DecidableEq, Repr

/-- One KV lane sent to its agent, and the lanes still to be sent (R397): lane, A and B. `sent` says that it has passed its
tile's port (R363). `failed` says that the charge of its copy has failed (R212), `held` which entry it holds while its page is
copied (R396, R399), `taken` the HEAD of the ring whose next page it copies to and the counter it has taken that page from, `charged` the lines of the copy that
are charged, with their pools, `uses` the ranges translated for it, which stay in use (R298); `got` what a peer has answered for lines of the copy, `wrote`, `due` and `tw` say that it is
written, how many answers peers still owe and its largest Tw, `bad` what a peer has refused (R311), `cow` whether HWCOW counts
for the step, once it has begun (R404). -/
structure KvMsg where
  sheaf : Nat
  op : Nat
  kind : KvKind
  lane : Nat
  a : W32
  b : W32
  rest : List (Nat × W32 × W32)
  sent : Bool
  failed : Bool
  held : Option Nat
  taken : Option (Nat × Nat)
  charged : List (Loc × Nat)
  uses : List (Word × Nat)
  got : List (Loc × List Byte)
  wrote : Bool
  due : Nat
  tw : Word
  bad : Option (BitVec 8 × Word × W32)
  cow : Option Bool
  deriving DecidableEq, Repr

/-- A SPAWN record sent to the front end (R153); `slot` is the arena slot it is being written to (R326). -/
structure SpawnMsg where
  sheaf : Nat
  /-- The batch that waits for the answer, by the key of its hold. -/
  key : Nat
  entry : Word
  arg : Word
  first : Word
  count : Word
  slot : Option Nat
  deriving DecidableEq, Repr

/-- A clone's image on its way to its lane (R394). -/
structure CloneMsg where
  launch : Nat
  parentSheaf : Nat
  parentLane : Nat
  destSheaf : Nat
  destLane : Nat
  rank : Word
  parentRank : Word
  lineage : Word
  ordinal : W32
  d : Nat
  deriving DecidableEq, Repr

/-- A command of a host ring: its ring and the eight words of Table 14.2. -/
structure Command where
  ring : Nat
  seq : Nat
  words : List Word
  deriving DecidableEq, Repr

/-- A ring registration (R313). -/
structure RingReg where
  part : Nat
  base : Word
  entries : Nat
  cqBase : Word
  cqEntries : Nat
  asn : Nat
  vector : Nat
  deriving DecidableEq, Repr

/-- A page-table entry decoded (Table 10.1). -/
structure Pte where
  v : Bool
  r : Bool
  w : Bool
  x : Bool
  s : Bool
  surr : Bool
  moving : Bool
  size : BitVec 2
  tier : BitVec 2
  kind : BitVec 2
  pool : BitVec 8
  rsv : BitVec 3
  frame : BitVec 40
  deriving DecidableEq, Repr

/-- An update the driver asks of the head core (R298): the entry's byte address in frame space, its new
value, and the range whose translations are removed. -/
structure UpdateReq where
  asn : Nat
  entryAddr : Nat
  value : Word
  va : Word
  len : Nat
  deriving DecidableEq, Repr

/-- An ATS Translation Completion (R301, R302): `exec` is not asked for. -/
structure AtsReply where
  die : Nat
  fn : Nat
  pasid : Option (BitVec 20)
  page : Nat
  trans : Nat
  r : Bool
  w : Bool
  untranslatedOnly : Bool
  deriving DecidableEq, Repr

/-- The page request responses of Table 13.4. -/
inductive PrgCode where
  | success | invalid | failure
  deriving DecidableEq, Repr

structure PrgReply where
  fn : Nat
  pasid : Option (BitVec 20)
  page : Nat
  code : PrgCode
  deriving DecidableEq, Repr

/-- An ATS Invalidate Request (R304). -/
structure InvReq where
  fn : Nat
  pasid : Option (BitVec 20)
  page : Nat
  pages : Nat
  deriving DecidableEq, Repr

/-- A host access to device memory through the CXL.mem window (R306): a frame space address. -/
structure HostWrite where
  part : Nat
  addr : Nat
  bytes : List Byte
  deriving DecidableEq, Repr

/-- What a peer asks of this device (R308, R311). -/
inductive PeerOp where
  | read (len : Nat)
  /-- Bytes by offset from the address. -/
  | write (bytes : List (Nat × Byte))
  /-- The atomics of one batch on one word, combined (R184, R120): lane, operand and compare value. -/
  | atomic (fn : AtomFn) (w64 : Bool) (ls : List (Nat × Word × Word))
  | cwb
  /-- Asks for the report of R310 about a line, before a write of it or, for a CWB, without a charge. -/
  | report (cwb : Bool)
  deriving DecidableEq, Repr

structure PeerReq where
  peer : Nat
  addr : Nat
  op : PeerOp
  deriving DecidableEq, Repr

/-- What a peer answers to an access of this device (R309 to R311). -/
inductive PeerCode where
  | data (bytes : List Byte)
  /-- The old values of a combined atomic, in the order of its operands (R184). -/
  | olds (vs : List Word)
  | done
  | charged
  | chargeFailed (pool : BitVec 8)
  | error
  deriving DecidableEq, Repr

/-- The functions of Table 19.2. -/
inductive ModeFn where
  | walks | cow | relief | migration | predicates
  deriving DecidableEq, Repr

/-- Which queue or engine a rung of the reset ladder names (R407). -/
inductive QueueSel where
  | ring (r : Nat)
  | matrix (core seat : Nat)
  | copy (core seat : Nat)
  deriving DecidableEq, Repr

inductive EngineSel where
  | matrix (core : Nat)
  | copy (core : Nat)
  deriving DecidableEq, Repr

/-- The fields of a watch range (Table 20.3). -/
structure WatchRange where
  base : Word
  limit : Word
  asn : Nat
  sel : BitVec 4
  action : BitVec 2
  en : Bool
  pred : Word
  deriving DecidableEq, Repr

/-- A trace condition (R424). -/
inductive TraceCond where
  | never
  | pc (launch : Nat) (pc : Word)
  | watch
  | bell (t : Word)
  deriving DecidableEq, Repr

/-- An aperture a driver opens to a peer (R311). -/
structure Aperture where
  peer : Nat
  firstFrame : Nat
  frames : Nat
  w : Bool
  deriving DecidableEq, Repr

/-- The mailbox settings with no row of their own (R403), each with its rule. -/
inductive MailReg where
  /-- R292: an address space -/
  | addressSpace (asn part root : Nat) (pasid : Option (BitVec 20))
  | removeSpace (asn : Nat)
  /-- R332: a partition's clusters, in order -/
  | clusters (part : Nat) (cs : List Nat)
  /-- R241, R279: creation of a frame outside the path of an update (tables, regions) -/
  | frame (no : Nat) (tier kind : BitVec 2) (pool : Option (Nat × Nat))
  /-- R257 -/
  | hotCold (part hot cold : Nat)
  /-- R258: the driver takes the requests of the migration queue -/
  | takeMigrations
  /-- R303 -/
  | priTimeout (ticks : Nat)
  /-- R311 -/
  | aperture (ap : Aperture)
  /-- R340 -/
  | budget (pool die b : Nat)
  /-- R418 -/
  | samplePeriod (core part cycles : Nat)
  /-- R419 -/
  | watch (die n : Nat) (w : WatchRange)
  /-- R424 -/
  | trace (core part : Nat) (start stop : TraceCond) (wraps : Bool)
  /-- R159 -/
  | claimBreakpoints (part : Nat) (on : Bool)
  /-- R352: the driver reads the error log -/
  | readLog (part : Nat)
  /-- R279: the CXL capacity assigned to pools, in sectors -/
  | cxlPools (sectors : Nat)
  /-- R277: the driver dumps a page in its packed form -/
  | dumpPage (asn : Nat) (va : Word)
  /-- R277: the driver restores a page from its packed form -/
  | restorePage (asn : Nat) (va : Word) (image : List Byte)
  deriving DecidableEq, Repr

/-- Identity of a page group and a migration's destination (R257, R289, R290): the page's entry, its first
frame, its page count in frames, and where it goes. -/
structure MigrateReq where
  asn : Nat
  entryAddr : Nat
  va : Word
  newTier : BitVec 2
  newFrame : Nat
  newKind : BitVec 2
  newPool : BitVec 8
  deriving DecidableEq, Repr

/-- A hit of a watch range (R420): the die and range, the issuing sheaf and lane or the engine command, the
address and the access kind. -/
structure WatchHit where
  die : Nat
  range : Nat
  sheaf : Nat
  lane : Option Nat
  cmd : Option Nat
  pc : Word
  addr : Word
  kind : AccKind
  /-- The store data, where there is one. -/
  data : List Byte
  deriving DecidableEq, Repr

/-! ### The steps -/

/-- One constructor per row of spec/opcode_table.json, in the table's order. -/
inductive Instr where
  -- three-register integer (R84)
  | iadd (o : OpAB) | isub (o : OpAB) | iadc (o : OpABK) | isbc (o : OpABK)
  | imul (o : OpAB) | imulh (o : OpABU) | imad (o : OpABC) | imin (o : OpABU) | imax (o : OpABU)
  | iabs (o : OpA) | icmp (o : OpCmp) | and (o : OpAB) | or (o : OpAB) | xor (o : OpAB) | andn (o : OpAB)
  | shl (o : OpAB) | shr (o : OpAB) | sar (o : OpAB) | rol (o : OpAB)
  | bfx (o : OpABU) | bfi (o : OpABC) | popc (o : OpA) | clz (o : OpA) | brev (o : OpA)
  | sel (o : OpSel) | mov (o : OpB) | iadd64 (o : OpAB) | isub64 (o : OpAB) | imulw (o : OpABU)
  | lea (o : OpLea) | icmp64 (o : OpCmp)
  -- with an immediate (R90)
  | iaddi (o : OpI) | imuli (o : OpI) | andi (o : OpI) | ori (o : OpI) | xori (o : OpI)
  | shli (o : OpI) | shri (o : OpI) | sari (o : OpI) | icmpi (o : OpCmpI) | movi (o : OpMovi)
  | movhi (o : OpI) | leai (o : OpI)
  -- floating point (R126 to R133)
  | fadd (o : FopAB) | fsub (o : FopAB) | fmul (o : FopAB) | ffma (o : FopABC)
  | fmin (o : FopABX) | fmax (o : FopABX) | fcmp (o : OpCmp) | fneg (o : FopAX) | fabs (o : FopAX)
  | frcp (o : FopA) | frsq (o : FopA) | fsqrt (o : FopA) | fdiv (o : FopAB) | fexp2 (o : FopA)
  | flog2 (o : FopA) | frnd (o : FopA) | fclass (o : FopAX) | fscalb (o : FopAB)
  | hadd2 (o : FopAB) | hmul2 (o : FopAB) | hfma2 (o : FopABC) | bfma2 (o : FopABC) | bdot2 (o : FopABC)
  -- conversions (R134 to R139)
  | cvtfi (o : CvtU) | cvtif (o : CvtU) | cvtfh (o : FopAB) | cvthf (o : CvtSel 1) | cvtfb (o : FopAB)
  | cvtbf (o : CvtSel 1) | cvtf8 (o : CvtF8) | cvt8f (o : CvtSel 2) | cvtf4 (o : CvtF4)
  | cvt4f (o : CvtSel 3) | sclq (o : OpSclq) | sclf (o : CvtSel 2)
  -- lane crossing (R94 to R99)
  | perm (o : OpPerm) | xmov (o : OpXmov) | vote (o : OpVote) | matchv (o : OpMatch)
  | redux (o : OpRedux) | scanx (o : OpScan) | v2s (o : OpV2s) | vsrd (o : OpVsrd)
  -- memory (R163 to R192)
  | ld (o : OpLoad) | ldb (o : OpLoad) | st (o : OpStore) | lds (o : OpLds) | sts (o : OpSts)
  | ldf (o : OpLdf) | ste (o : OpSte) | ldw (o : OpLdf) | prf (o : OpPrf) | cwb (o : OpCwb)
  | pgdrop (o : OpPgdrop) | atom (o : OpAtom) | atom64 (o : OpAtom) | acas (o : OpAcas)
  | acas64 (o : OpAcas) | red (o : OpRed) | satom (o : OpSatom) | fence (o : OpFence)
  -- counters, KV, population (R194 to R219)
  | ctake (o : OpCtake) | cgive (o : OpCgive) | cpeek (o : OpCread) | croll (o : OpCread)
  | kvapp (o : OpKvA) | kvmap (o : OpKvMap) | kvshare (o : OpKvShare) | kvdrop (o : OpKvDrop)
  | kvcow (o : OpKvA) | rsmp (o : OpRsmp) | accrd (o : OpAccrd) | accwr (o : OpAccwr)
  -- sheaf arithmetic, memory and special registers (R91 to R93)
  | sadd (o : SopAB) | ssub (o : SopAB) | smul (o : SopAB) | sand (o : SopAB) | sor (o : SopAB)
  | sxor (o : SopAB) | sshl (o : SopAB) | sshr (o : SopAB) | ssar (o : SopAB) | scmp (o : SopCmp)
  | smov (o : SopA) | saddi (o : SopAI) | smovi (o : SopI) | smovhi (o : SopI) | sld (o : SopAI)
  | sst (o : SopSst) | srd (o : SopSrd) | swr (o : SopSwr) | scmpi (o : SopCmpI)
  -- control (R140 to R162)
  | bra (o : SopBra) | bras (o : SopBra) | brx (o : SopBrx) | call (o : SopCall) | ret (o : SopBrx)
  | join (o : SopBar) | meet (o : SopBar) | yield (o : SopG) | exit (o : SopG) | nap (o : SopNap)
  | bar (o : SopBedBar) | arrv (o : SopArrv) | waitb (o : SopWaitb) | spawn (o : SopSpawn)
  | trig (o : SopG) | dwait (o : SopG)
  -- engine commands and reserve (R220 to R237, R203)
  | mma (o : SopMma) | mmaloop (o : SopMma) | accz (o : SopAccz) | accst (o : SopAccst)
  | accldm (o : SopAccldm) | xcopy (o : SopA) | xgather (o : SopA) | xfill (o : SopA) | xscat (o : SopA)
  | resv (o : SopResv) | resvx (o : SopResv)
  -- traps (R156 to R162)
  | trap (o : SopTrap) | rte (o : SopG) | bkpt (o : SopG) | frmrd (o : SopFrmrd) | frmwr (o : SopFrmwr)
  -- operations and events
  | dictionaryCode (slot : Word) (k : Nat)
  | rowRefill (sheaf name : Nat)
  | setAside (sheaf : Nat)
  | napWake (sheaf : Nat)
  | doorbell (ring : Nat) (value : Word)
  | launch (c : Command) | dma (c : Command) | signal (c : Command)
  | config (c : Command) | raise (c : Command) | lower (c : Command) | balloon (c : Command)
  | completionRecord (ring : Nat)
  | ringRegistration (r : RingReg)
  | ringRestart (ring : Nat)
  | completionQueueHead (ring : Nat) (head : Nat)
  | bedPlacement (part : Nat)
  | scratchpadReclaim (core : Nat)
  | spawnRequest (m : SpawnMsg)
  | bedCompletion (launch bed : Nat)
  | dwaitReady (sheaf : Nat)
  | loadResponse (r : LoadResp)
  | homeRead (m : HomeReq)
  | homeWrite (m : WriteMsg)
  | twReturn (r : TwResp)
  | atomicExecution (m : AtomMsg)
  | atomicReturn (r : AtomResp)
  | settle (line : Nat)
  | allowanceRefill (m : RefillMsg)
  | allowanceReturn (cluster : Nat)
  | holderReport (cluster ctr : Nat)
  | reservePublish (part pool : Nat)
  | capwaitExpiry (part pool : Nat)
  | reliefGrant (part pool : Nat)
  | pageWalk (sheaf op : Nat)
  | walkAnswer (asn : Nat) (va : Word) (updated : Option UpdateReq)
  | walkAnswerTimeout (asn : Nat) (va : Word)
  | update (u : UpdateReq)
  | atsCompletion (r : AtsReply)
  | prgResponse (r : PrgReply)
  | pageRequestTimeout (fn : Nat) (page : Nat)
  | priReenable (fn : Nat)
  | invalidateRequest (r : InvReq)
  | invalidateCompletion (r : InvReq)
  | hostSnoop (line : Nat) (write : Option (List (Nat × Byte)))
  | hostRead (addr len : Nat)
  | hostWrite (m : HostWrite)
  | peerAccess (m : PeerReq)
  | peerAnswer (id : Nat) (code : PeerCode)
  | peerTimeout (id : Nat)
  | cxlPortDown (port : Nat)
  | cxlRetrainTimeout (port : Nat)
  | epochEnd
  | migration (m : MigrateReq)
  | matrixCommandStart (core seat : Nat)
  | matrixStep (core seat : Nat)
  | tileRowTransfer (core seat : Nat)
  | copyUnit (core seat cmd : Nat)
  | promisedBellTime (core seat cmd : Nat)
  | engineFault (core seat cmd : Nat)
  | kvAgentStep (m : KvMsg)
  | rsmpDeciding (launch : Nat)
  | cloneLanding (m : CloneMsg)
  | rsmpRelease (launch : Nat)
  | deferredFault (m : FaultMsg)
  | escalationEnd (launch bed : Nat)
  | escalationCull (launch bed : Nat)
  | escalationRetry (launch bed : Nat) (handler : Word)
  | lift (launch bed : Nat)
  | replant (launch bed : Nat)
  | stopRequest (core : Nat)
  | frostSeal (core : Nat)
  | lateArrival (core : Nat) (r : Response)
  | thaw (image target : Nat)
  | modeChange (part : Nat) (fn : ModeFn) (assisted : Bool)
  | aideRestart (aide : Nat)
  | frontEndRestart
  | heartbeat
  | hubTimerExpiry
  | queueReset (q : QueueSel)
  | engineReset (e : EngineSel)
  | partitionReset (part : Nat)
  | dieReset (die : Nat)
  | functionLevelReset (part : Nat)
  | perstN
  | resetN
  | pwrgd
  | recoveryImage (version : Nat) (ecdsaOk lmsOk : Bool)
  | thermalThrottle (die : Nat)
  | thermalTrip (die : Nat)
  | powerCap (watts : Nat)
  | getVersion
  | getCapabilities
  | negotiateAlgorithms (offersP384 : Bool)
  | getDigests
  | getCertificate (offset length : Nat)
  | challenge (nonce : Nat)
  | getMeasurements (index : Nat)
  | bandwidthPeriod (die : Nat)
  | stallSample (core part : Nat)
  | watchHit (h : WatchHit)
  | predicateResult (h : WatchHit) (result : Bool)
  | predicateOverrun (h : WatchHit)
  | preciseStop (core part : Nat)
  | stopResume (core part : Nat)
  | engineResume (core seat cmd : Nat)
  | traceTrigger (core part : Nat) (start stop : Bool)
  | registerWrite (r : MailReg)
  | homeSliceEviction (line : Loc)
  | counterReturn (r : CtrResp)
  | watchdogReport (agent : Option Nat)
  | endLaunch (launch : Nat)
  | cxlPortRetrained (port : Nat)
  | ralecLinkDown (link : Nat)
  | ralecLinkRetrained (link : Nat)
  | physicalFunctionFlr
  | thermalThrottleEnd (die : Nat)
  | pwrgdFall
  deriving DecidableEq, Repr

end Sys2Proof
end

