-- ==== Sys2Proof/Machine/State.lean ====
section
/-! DEFINITION. The state of the machine: everything the manual names, as plain data, and its value after reset. -/

namespace Sys2Proof.Machine

/-! ### Fibres and sheafs (R10, R11) -/

/-- A fibre's status (R44); a fibre that has exited has no state and is no longer in its slot. A fibre whose batch is
current and waits stays `ready` here: `Sheaf.statusOf` gives the status of Table 1.5. -/
inductive Status where
  | ready | waiting | atBarrier | onFault | atRte
  deriving DecidableEq, Repr

/-- What a parked or waiting fibre waits for. -/
inductive Park where
  | none
  /-- R143 -/
  | meet (k : BitVec 3)
  /-- R147, parked by BAR -/
  | bar (k : BitVec 4)
  /-- R147, parked by ARRV until the phase is no longer the one given; D is the token register -/
  | arrv (k : BitVec 4) (phase : W32) (d : BitVec 6)
  /-- R146 -/
  | nap (t : Word)
  /-- R147 -/
  | waitb (k : BitVec 4) (token : W32)
  /-- R155 -/
  | dwait
  /-- R214: weight, target and destination, and the names marked as last reads -/
  | rsmp (w n : W32) (d : BitVec 8) (last : List (BitVec 8))
  deriving DecidableEq, Repr

/-- A fence that has issued for a fibre and has not completed (R190): what it waits for and at which scope. -/
structure Fence where
  acq : Bool
  rel : Bool
  scope : Scope
  deriving DecidableEq, Repr

/-- A fibre (R10), with the horizon and floor the core keeps for it (R266). -/
structure Fibre where
  pc : Word
  cc : Vector CcVal 4
  ccFull : BitVec 4
  status : Status
  park : Park
  /-- PC of the instruction on which the fibre is parked (Table 15.1). -/
  parkPc : Word
  wid : Word
  rank : Word
  parent : Word
  lineage : Word
  fpflags : BitVec 5
  horizon : Word
  floor : Word
  /-- Lines written since the last release at clu or wider (R190). -/
  written : List Loc
  /-- Lines on which it has read, since its last release at die or wider, a store of its cluster that was still on its way
  home (R192). -/
  seen : List Loc
  /-- The fence that its next access to memory waits for (R190). -/
  fence : Option Fence
  deriving DecidableEq, Repr

/-- Exit kinds (R44). -/
inductive ExitKind where
  | exited | culled
  deriving DecidableEq, Repr

/-- A lane slot (R11): held by a fibre, or dormant or empty with the exit kind of the last fibre. -/
inductive Lane where
  | held (f : Fibre)
  | dormant (e : Option ExitKind)
  | empty (e : Option ExitKind)
  deriving DecidableEq, Repr

/-- A physical row (R21, R29, R33); a spilled row (R26) keeps every value, live and full bit. -/
structure Row where
  vals : Vector W32 32
  live : Mask
  full : Mask
  spilled : Bool
  prod : Word
  deriving DecidableEq, Repr

/-- What kind of long-latency operation is outstanding (R173), with its destination. -/
inductive OpKind where
  | load (d : BitVec 8) (width : Width) (sgn ldb : Bool)
  | sload (d : BitVec 6)
  | store
  | cwb
  /-- The pages it surrenders, by lane, each with its entry's address (R180). -/
  | pgdrop (d : BitVec 8) (pages : List (Nat × Pte × Nat))
  | atomic (d : Option (BitVec 8)) (w64 : Bool)
  | counter (d : BitVec 8) (pair : Bool) (k : Option (BitVec 2))
  | reserve (d : BitVec 6)
  | kv (d : Option (BitVec 8)) (pair : Bool) (k : Option (BitVec 2))
  | rsmp (d : BitVec 8)
  /-- ARRV, V2S and SRD of $bell (R29), and SATOM with its return value. -/
  | token (d : BitVec 6)
  | pad (d : BitVec 8) (w64 : Bool)
  | engine (cmd : Nat)
  deriving DecidableEq, Repr

/-- An outstanding operation and its replay record (R173, R354): lanes still due, lanes translated and sent. -/
structure OpRec where
  pc : Word
  kind : OpKind
  due : Mask
  sent : Mask
  /-- Lanes whose fibre has left: what arrives for them is discarded (R149). -/
  gone : Mask
  addrs : Vector Word 32
  /-- Watch hits that have been decided, by lane and range (R420), and lanes with a fault on its way (R345). -/
  watched : List (Nat × Nat)
  faulted : Mask
  /-- The scope of the FENCE.acq that follows a load with ORD = 1 (R171). -/
  acq : Option Scope
  deriving DecidableEq, Repr

/-- A prefetch on its way to its translation (R178): the lanes not sent, their addresses, whether L1 takes the lines. -/
structure PrfRec where
  due : Mask
  addrs : Vector Word 32
  l1 : Bool
  deriving DecidableEq, Repr

/-- What RTE reissues (R354). -/
inductive Replay where
  | load (o : OpRec)
  | command (core seat cmd : Nat)
  deriving DecidableEq, Repr

/-- A trap frame (Table 15.2); `rte` holds the lanes that have executed RTE on it (R162). -/
structure Frame where
  cause : BitVec 8
  info : W32
  addr : Word
  mask : Mask
  fpc : Word
  bell : Word
  pcs : Vector Word 32
  ccs : Vector (BitVec 16) 32
  replay : Option Replay
  rte : Mask
  deriving DecidableEq, Repr

/-- An escalation record (R350) with the deferred faults held with it. -/
structure Escalation where
  frame : Frame
  held : List FaultMsg
  deriving DecidableEq, Repr

/-- A trap found for one lane (R343, R157). -/
structure LaneFault where
  lane : Fin 32
  cause : BitVec 8
  addr : Word
  info : W32
  /-- Whether R352 logs it. -/
  log : Bool
  deriving DecidableEq, Repr

/-- What an engine command does, from its captured record (R220, R227 to R236, R323). -/
inductive CmdBody where
  | mma (tile : BitVec 6) (afmt bfmt : MFmt) (accum : Bool) (a aStride b bStride aInc bInc : Word) (count : Nat)
      (scales : List (List Byte))
  | accz (tile : BitVec 6) (int32 : Bool)
  | accst (tile : BitVec 6) (fmt : TFmt) (addr stride : Word)
  | accldm (tile : BitVec 6) (fmt : TFmt) (int32 : Bool) (addr stride : Word)
  | xcopy (src srcStride dst dstStride : Word) (rowBytes rows : Nat)
  | xfill (dst : Word) (bytes : Nat) (pattern : W32)
  | xgather (slots : List Word) (dst : Word) (bytes : Nat)
  | xscat (slots : List Word) (src : Word) (bytes : Nat)
  | dma (src dst : Word) (len : Nat)
  deriving DecidableEq, Repr

/-- An engine command in a queue (R220 to R226): its issuer, what it does, its status and promise registers, the units done and
whether it has started, is stopped by a fault (R224) or suspended (R421), the CODE with which it is to end, and for
the unit in progress its fault, its watch decision and what peers have answered. -/
structure Cmd where
  id : Nat
  core : Nat
  seat : Nat
  part : Nat
  launch : Nat
  asn : Nat
  sheaf : Nat
  bed : Nat
  lanes : Mask
  wid : Word
  pc : Word
  body : CmdBody
  status : Option (BitVec 6)
  promise : Option (BitVec 6)
  units : Nat
  started : Bool
  stopped : Bool
  suspendAfter : Bool
  suspended : Bool
  abandon : Option Nat
  nonfin : Bool
  tmax : Word
  /-- Lines charged and not yet written, each with its pool (R285). -/
  charged : List (Loc × Nat)
  /-- Destination lines owned, by virtual line (R221). -/
  owned : List (Word × Loc)
  /-- Scratchpad words emptied and not yet written (R221). -/
  emptied : List Nat
  /-- Watch hits of the unit that have been decided, by address and range (R420). -/
  watched : List (Nat × Nat)
  fault : Option (BitVec 8 × Word × W32 × Bool)
  got : List (Loc × List Byte)
  /-- The unit's local writes are made and its peers' answers awaited. -/
  wrote : Bool
  peersDue : Nat
  /-- Destination words that a later unit reads, by address, as they stood before they were written (R236, R323). -/
  olds : List (Word × W32)
  /-- Line requests of the unit whose bandwidth token has been taken (R340). -/
  tokens : Nat
  deriving DecidableEq, Repr

/-- The hold of an instruction in progress for a batch (R46, R167, R177, R220): whether it waits, since when and for
what (Table 20.2), how far it has come, the lanes that have acted, the lines charged with their pools, and what has
been answered. (DEDUCED, log 22.) -/
structure Hold where
  waiting : Bool
  since : Word
  reason : BitVec 8
  src : BitVec 8
  srcKind : BitVec 2
  phase : Nat
  acted : Mask
  charged : List (Loc × Nat)
  chargeFailed : Bool
  faults : List LaneFault
  answer : Option SpawnResp
  watched : List (Nat × Nat)
  /-- For ACCRD and ACCWR: the commands they wait for have keys below it, 0 for none (R234). -/
  turn : Nat
  /-- The slot of the instruction in progress, as it was fetched (R57). -/
  word : Option Word
  /-- The batch's place in a pool's queue (R283), or the key of its SPAWN (R153); 0 for none. -/
  ticket : Nat
  /-- Line requests whose bandwidth token has been taken (R340). -/
  tokens : Nat
  /-- The sheaf registers as the instruction has read them (R167, R220), and the command captured (R220). -/
  snap : Option (Vector Word 64)
  cmd : Option Cmd
  deriving DecidableEq, Repr

/-- No instruction is in progress. -/
def Hold.none : Hold := ⟨false, 0, 0, 0, 0, 0, 0, [], false, [], .none, [], 0, .none, 0, 0, .none, .none⟩

/-- A batch set aside with the instruction in progress for it (R46). -/
structure Aside where
  lanes : Mask
  hold : Hold
  deriving DecidableEq, Repr

/-- An ARRV whose token is still due (R147). -/
structure ArrvRec where
  d : BitVec 6
  k : BitVec 4
  due : Mask
  /-- Its place among the long-latency operations (R173). -/
  op : Nat
  deriving DecidableEq, Repr

/-- A sheaf (R11) and what the core keeps for it. -/
structure Sheaf where
  core : Nat
  slot : Nat
  part : Nat
  seat : Nat
  launch : Nat
  bed : Nat
  index : Nat
  lanes : Vector Lane 32
  sregs : Vector Word 64
  sfull : BitVec 64
  /-- Producer PC of each empty s register (R33). -/
  sprod : List (Nat × Word)
  /-- Completion times attached to s registers (R223). -/
  stime : List (Nat × Word)
  scs : Vector CcVal 4
  scfull : BitVec 4
  bars : Vector Mask 8
  /-- The rename map with the rows it names (R21); an absent name is unmapped. -/
  rows : List (Nat × Row)
  /-- The trap stack, most recent frame first (R158). -/
  frames : List Frame
  escalated : List Escalation
  fpflags : BitVec 5
  notice : BitVec 2
  trellis : Word
  /-- The current batch (R45); no lane when one is to be selected. -/
  batch : Mask
  ages : List (Word × Nat)
  aside : List Aside
  /-- The current batch put by while a set-aside batch is tried again (R46). -/
  putBy : Option (Mask × Hold)
  ops : List (Nat × OpRec)
  /-- Prefetches that have not been sent (R178). -/
  prfs : List (Nat × PrfRec)
  arrvs : List ArrvRec
  hold : Hold
  /-- The PC after the instruction in progress (R58): the model's own, set by the fetch. -/
  npc : Word
  /-- Issue cycles of its pipe since it became a candidate or last issued (R337). -/
  wait : Nat
  /-- The bell at that event: its age is the time since (R337). -/
  age : Nat
  yielded : Bool
  lastIssue : Nat
  deriving DecidableEq, Repr

/-! ### Beds, seats and launches (R12 to R14) -/

/-- A byte memory: address and byte, addresses strictly rising, no entry equal to what an unlisted address
reads as. -/
abbrev Memory := List Host.Cell

/-- A bed barrier (R147): phase and arrived fibres, by sheaf and lane. -/
structure BedBar where
  phase : W32
  arrived : List (Nat × Fin 32)
  deriving DecidableEq, Repr

inductive BedStatus where
  | resident
  /-- Its issue has stopped and it is being drained (R356). -/
  | lifting
  | lifted | completing
  deriving DecidableEq, Repr

/-- The driver's choice for an escalated bed, applied on replant (R350). -/
inductive EscChoice where
  | cull
  | retry (handler : Word)
  deriving DecidableEq, Repr

/-- A bed (R12). `wid` is its work identifier [63:WB]; `image` names the seat image it left (R358). -/
structure Bed where
  launch : Nat
  core : Nat
  seat : Nat
  wid : Word
  group : Word
  status : BedStatus
  sheafs : List Nat
  pad : Memory
  padEmpty : List Nat
  units : Nat
  bars : Vector BedBar 16
  image : Option Nat
  escalated : Bool
  choice : Option EscChoice
  /-- The largest Tw its stores have returned (R149). -/
  tw : Word
  deriving DecidableEq, Repr

/-- An accumulator tile (R14): its type and 256 elements, row by row, with uncorrectable-error marks (R377). -/
structure Tile where
  int32 : Bool
  elems : Vector W32 256
  bad : List Nat
  deriving DecidableEq, Repr

/-- A tile of zeros of type FP32 (R14). -/
def Tile.zero : Tile := ⟨false, Vector.replicate 256 0, []⟩

/-- A seat (R13). -/
structure Seat where
  launch : Nat
  dict : List Word
  tiles : List (Nat × Tile)
  mq : List Cmd
  cq : List Cmd
  hvec : Word
  mprog : Word
  deriving DecidableEq, Repr

/-- A launch header (Table 6.2). -/
structure Header where
  entry : Word
  hwcow : Bool
  grplvl : Nat
  clulvl : Nat
  bedlvl : Nat
  widths : List Nat
  scratch : Nat
  window : Word
  seed : Word
  popcap : Nat
  pool : BitVec 8
  handler : Word
  overflow : Word
  ovfsize : Nat
  dict : Word
  dictn : Nat
  hasdep : Bool
  after : W32
  mapb : W32
  mapw : Nat
  mapa : Nat
  deriving DecidableEq, Repr

/-- A participant of an RSMP (R390). -/
structure RsmpRec where
  sheaf : Nat
  lane : Fin 32
  rank : Word
  w : W32
  n : W32
  d : BitVec 8
  deriving DecidableEq, Repr

/-- What one survivor receives at the release (R217). -/
structure RsmpKeep where
  sheaf : Nat
  lane : Fin 32
  rank : Word
  parent : Word
  lineage : Word
  value : W32
  d : BitVec 8
  deriving DecidableEq, Repr

/-- An RSMP past its deciding phase: survivors, clones still to land, and clones landed (R390). -/
structure RsmpRun where
  keep : List RsmpKeep
  due : Nat
  landed : List (Nat × Fin 32)
  deriving DecidableEq, Repr

/-- A launch and its launch table entry (R318 to R329). -/
structure Launch where
  number : W32
  tag : W32
  part : Nat
  asn : Nat
  cls : Nat
  hdr : Header
  dict : List Word
  ring : Nat
  seq : Nat
  irq : Bool
  arg : Word
  counter : Word
  groups : List Nat
  completed : Bool
  rsmpCount : Word
  rsmp : Option RsmpRun
  producer : Option Nat
  /-- Cluster bindings (R334): wid[63:WK] and cluster. -/
  bound : List (Nat × Nat)
  /-- The head core has been told that a bed of it cannot be placed, and none has been placed since (R336). -/
  told : Bool
  deriving DecidableEq, Repr

/-- A range waiting for placement (R326), in the queue of a die or in arena slot `arena` of its launch; `ahead` names beds
placed before the next one, which its cluster held back (R335). -/
structure SpawnRec where
  launch : Nat
  die : Nat
  arena : Option Nat
  entry : Word
  arg : Word
  first : Word
  count : Nat
  next : Nat
  ahead : List Nat
  seed : Bool
  deriving DecidableEq, Repr

/-- A seat image (R358). -/
structure SeatImage where
  launch : Nat
  seat : Seat
  deriving DecidableEq, Repr

/-! ### Memory copies, homes and translation -/

/-- A copy of a line in an L1 or a cluster cache (R248, R251); `granted` is the largest lease end a cluster cache
has granted from it. -/
structure Copy where
  bytes : List Byte
  valid : BitVec 4
  leaseEnd : Word
  fetch : Word
  granted : Word
  deriving DecidableEq, Repr

/-- What a home keeps for a line (R262, R221, R264, R281, R408). -/
structure HomeLine where
  lastwrite : Option Word
  leasemax : Word
  /-- Commands that own it, in the order they took it (R221, R225). -/
  engine : List Nat
  /-- The cluster that owns it, with the Tw0 of its taking it (R264). -/
  cluster : Option (Nat × Word)
  dirty : Option Nat
  committed : Nat
  /-- The block's code in its frame's sidecar while the line is dirty (R276). -/
  code : Nat
  poison : Bool
  deriving DecidableEq, Repr

/-- A created frame (R241, R279): tier, kind, pool (partition and number; none outside every pool), and whether PGDROP
surrendered it. -/
structure FrameInfo where
  tier : BitVec 2
  kind : BitVec 2
  pool : Option (Nat × Nat)
  surrendered : Bool
  deriving DecidableEq, Repr

/-- An address space (R292). -/
structure Space where
  part : Nat
  root : Nat
  pasid : Option (BitVec 20)
  deriving DecidableEq, Repr

/-- A cached translation (R296): page base, page bytes, leaf. -/
structure TlbEntry where
  asn : Nat
  cluster : Nat
  base : Word
  bytes : Nat
  entry : Nat
  pte : Pte
  deriving DecidableEq, Repr

/-- An ATC entry (R301). -/
structure AtcEntry where
  die : Nat
  fn : Nat
  pasid : Option (BitVec 20)
  page : Nat
  trans : Nat
  r : Bool
  w : Bool
  deriving DecidableEq, Repr

/-- An ATS request in flight, whether an invalidation has marked it, completions still to be discarded for it, and who
waits for it, with whether that access writes (R301, R302, R304). -/
structure AtsReq where
  die : Nat
  fn : Nat
  pasid : Option (BitVec 20)
  page : Nat
  marked : Bool
  stale : Nat
  waiters : List ((Nat × Option Nat) × Bool)
  deriving DecidableEq, Repr

/-- A page request in flight, or its decided outcome (R303): `answer` is the fault cause the waiting lanes take. -/
structure PageReq where
  fn : Nat
  pasid : Option (BitVec 20)
  page : Nat
  write : Bool
  sent : Word
  answer : Option (BitVec 8)
  retried : Bool
  /-- Who waits: sheaf and operation, or sheaf alone for a held batch, or an engine command. -/
  waiters : List (Nat × Option Nat)
  /-- The dies whose lanes wait: each makes the new ATS request after Success. -/
  dies : List Nat
  /-- Not sent yet: the host's allocation is used up. -/
  held : Bool
  /-- Its page request group index (R303). -/
  index : Nat
  deriving DecidableEq, Repr

/-- A host-assisted walk of a 64 KiB piece waiting for the driver (R294, R297), whether it was declined, and the requests
merged into it. -/
structure WalkWait where
  asn : Nat
  va : Word
  since : Word
  declined : Bool
  waiters : List (Nat × Option Nat)
  deriving DecidableEq, Repr

/-- What waits for a peer's answer (R308 to R311). -/
inductive PeerWait where
  | load (sheaf op : Nat) (lanes : Mask) (line : Loc)
  | write (sheaf op : Nat) (lanes : Mask)
  | atomic (sheaf op : Nat) (lanes : List Nat) (ret : Bool)
  /-- The report of R310 for lanes of a held batch, each with its address. -/
  | charge (sheaf : Nat) (lanes : List (Nat × Word)) (line : Loc)
  | engine (cmd : Nat) (line : Loc)
  | kv (sheaf lane : Nat) (line : Loc)
  /-- An instruction fetch for the cache lines of a seat (R56, R308). -/
  | fetch (seatKey : Nat) (line : Loc)
  | inbound (key : Nat)
  | move (asn : Nat) (va : Word) (line : Loc)
  /-- A read or write of the front end, by its key, for a partition (R318). -/
  | hub (key part : Nat) (line : Loc)
  deriving DecidableEq, Repr

structure PeerPending where
  peer : Nat
  addr : Nat
  op : PeerOp
  va : Word
  sent : Word
  what : PeerWait
  deriving DecidableEq, Repr

/-- A migration under way (R289, R290): the entry before it, the pool and sectors charged and whether that charge or a peer's
answer failed; whether MOVING is set, the contents copied and the entry switched; what peers have answered and still owe. -/
structure MoveRec where
  req : MigrateReq
  old : Word
  charged : Option (Nat × Nat)
  failed : Bool
  marked : Bool
  copied : Bool
  switched : Bool
  got : List (Loc × List Byte)
  due : Nat
  deriving DecidableEq, Repr

/-- What a write from outside the cores is: the host's, a peer's, or a SIGNAL command's (R306, R308, R324). -/
inductive InReq where
  | host (w : HostWrite)
  | peer (m : PeerReq)
  | signal (ring seq : Nat)
  deriving DecidableEq, Repr

/-- A write from outside in progress: lines charged with their pools, whether a charge has failed, and a peer's pool whose charge
did, the old values an atomic read, and the completion time once it is made. -/
structure Inbound where
  key : Nat
  req : InReq
  charged : List (Loc × Nat)
  failed : Bool
  peerPool : Option (BitVec 8)
  olds : List Word
  tw : Option Word
  /-- Lines of it whose page has moved while it was held, with where they lie now (R289), and peers' answers still due. -/
  placed : List (Loc × Loc)
  due : Nat
  deriving DecidableEq, Repr

/-- Access counts of a page group (R257). -/
structure GroupCount where
  tier : BitVec 2
  count : Nat
  cold : Nat
  since : Nat
  deriving DecidableEq, Repr

/-- A migration request (R258): group, promote or demote, count. -/
structure MigReq where
  group : Nat
  promote : Bool
  count : Nat
  deriving DecidableEq, Repr

/-! ### Counters and pools -/

/-- An allowance held at a cluster cache (R197), with the figure its home last heard of it (R201), the total its home last
told the holder (R199), and when it was last used. -/
structure Allow where
  amount : Nat
  reported : Nat
  told : Nat
  used : Nat
  deriving DecidableEq, Repr

/-- Who waits for a pool's reserve (R283, R287). -/
inductive Waiter where
  | sheaf (uid ticket : Nat)
  | command (ring seq : Nat)
  | hub (key : Nat)
  | kv (uid lane : Nat)
  | move (asn : Nat) (va : Word)
  deriving DecidableEq, Repr

/-- A request in a pool's queue, of a cluster; its CAPWAIT runs from its arrival at the head. -/
structure WaitCharge where
  who : Waiter
  cl : Nat
  amount : Nat
  deadline : Option Word
  deriving DecidableEq, Repr

/-- A pool (R279 to R286). -/
structure Pool where
  ctrl : Nat
  granted : Nat
  ceiling : Nat
  ratio : Nat
  committed : Nat
  promised : Nat
  remain : Nat
  allow : List (Nat × Allow)
  queue : List WaitCharge
  /-- Requests of the queue that have been decided, and not been taken up: whether they were met. A LOWER that failed has the
  reserve at its roll call as its amount (R283, R287). -/
  decided : List (WaitCharge × Bool)
  published : Nat
  /-- Since when the published figure is behind (R41). -/
  stale : Option Word
  reliefDone : Nat
  /-- Whether the host has been asked for relief that it has not granted in full yet (R285, R404). -/
  asked : Bool
  deriving DecidableEq, Repr

/-- Who waits at a core's port for a token (R341): a held batch, a load's operation, or an engine command. -/
inductive PortWait where
  | batch (uid ticket : Nat)
  | op (uid k : Nat)
  | cmd (id : Nat)
  deriving DecidableEq, Repr

/-- Bandwidth tokens of a pool on a die (R340 to R342): those the counter's home holds, the allowances of the ports by core,
and the requests that wait, in the order of their arrival, each with its core. -/
structure Budget where
  base : Nat
  tokens : Nat
  ports : List (Nat × Nat)
  queue : List (Nat × PortWait)
  debt : Nat
  waited : Bool
  deriving DecidableEq, Repr

/-! ### Front end and device services -/

/-- A command read from a ring and not completed (R314). -/
structure PendingCmd where
  seq : Nat
  words : List Word
  started : Bool
  /-- The hub-die copy command of a DMA, 0 for none. -/
  cmd : Nat
  deriving DecidableEq, Repr

/-- A completion record (R317). -/
structure Record where
  w0 : Word
  w1 : Word
  irq : Bool
  /-- The largest Tw of the command's writes, and the sheafs with writes on their way: both come before the record (R317). -/
  tw : Word
  writers : List Nat
  deriving DecidableEq, Repr

structure Ring where
  reg : RingReg
  readCount : Nat
  pending : List PendingCmd
  stopped : Bool
  cqHead : Nat
  cqTail : Nat
  held : List Record
  deriving DecidableEq, Repr

/-- An error log entry (R352). -/
structure LogEntry where
  cause : BitVec 8
  addr : Word
  launch : W32
  asn : Nat
  bell : Word
  fpc : Word
  deriving DecidableEq, Repr

/-- What a partition has (R332, R404, R352). -/
structure Partition where
  clusters : List Nat
  walksAssisted : Bool
  cowAssisted : Bool
  reliefAssisted : Bool
  migrationAssisted : Bool
  predicatesAssisted : Bool
  log : List LogEntry
  overwritten : Nat
  hot : Nat
  cold : Nat
  breakpoints : Bool
  deriving DecidableEq, Repr

/-- What the head core tells the driver. -/
inductive Report where
  | ringStopped (ring : Nat)
  | updateRefused (asn : Nat)
  | escalation (launch : W32) (bed : Word) (cause : BitVec 8)
  | orphan (core seat : Nat)
  | capacityWait (part pool : Nat)
  | reliefAsked (part pool amount : Nat)
  | walkAsked (asn : Nat) (va : Word)
  | migrationAbandoned (group : Nat)
  | migrationAsked (r : MigReq)
  | pageRequestFailed (fn : Nat)
  | portDown (port : Nat)
  | rsmpTooLarge (launch : W32)
  | predicateAsked (h : WatchHit)
  | frontEndRestarted
  | thawRefused (image : Nat)
  | thawMismatch (image : Nat)
  | dieReset (die : Nat)
  | functionReset (part : Nat)
  | placementBlocked (launch : Nat)
  | stopMoved (core target : Nat)
  /-- What the driver reads of the error log (R352) and takes of the migration queue (R258). -/
  | errorLog (part : Nat) (log : List LogEntry) (overwritten : Nat)
  | migrations (rs : List MigReq) (drops : Nat)
  deriving DecidableEq, Repr

/-- A frost image (R366 to R370): header fields and the late arrivals, in order. -/
structure Image where
  core : Nat
  part : Nat
  stopBell : Word
  sealBell : Option Word
  /-- OUTSTAND, and the tile's credit counter at the stop (R364). -/
  outstand : Nat
  credits : Nat
  /-- SEATLAUNCH: $launch of seats 0 to 3, 0 for a free one. -/
  seats : List W32
  lateSeal : Nat
  late : List (Word × Response)
  sections : List Nat
  tampered : Bool
  deriving DecidableEq, Repr

/-- A stall sample (Table 20.1). -/
structure Sample where
  core : Nat
  part : Nat
  bell : Word
  launch : W32
  reason : BitVec 8
  slot : Nat
  src : BitVec 8
  kind : BitVec 2
  wpc : Word
  bpc : Word
  wait : Nat
  deriving DecidableEq, Repr

/-- A trace record (R424). -/
structure TraceRec where
  core : Nat
  part : Nat
  bell : Word
  sheaf : Nat
  pc : Word
  batch : Mask
  lanePipe : Bool
  deriving DecidableEq, Repr

/-- A trace unit (R424, R425). -/
structure TraceUnit where
  start : TraceCond
  stop : TraceCond
  wraps : Bool
  on : Bool
  deriving DecidableEq, Repr

/-- What a core's debug and frost controls hold (R363, R418, R422, R424). -/
structure CoreState where
  frosted : Option Nat
  stopped : BitVec 4
  /-- The receive queue (R361): results that have arrived and stand, in order, before a stopped partition (R422). -/
  receive : List Response
  /-- Notices that the front end holds for the tile while it is frosted (R369). -/
  notices : List Response
  periods : List (Nat × Nat)
  traces : List (Nat × TraceUnit)
  softErrors : Nat
  lent : Nat
  /-- By seat × 2 + array, 1 for the float array: cycles waited (R385). -/
  seqWaited : List (Nat × Nat)
  /-- Seat last chosen, by array (R385). -/
  seqLast : List (Nat × Nat)
  lastSheaf : List (Nat × Nat)
  deriving DecidableEq, Repr

def CoreState.idle : CoreState := ⟨.none, 0, [], [], [], [], 0, 0, [], [], []⟩

/-- The record of a watch hit (R420): the hit, the bell, the issuer's $launch and work identifier and, where the issuer is a command, its
core, its seat and whether its engine is the matrix engine. -/
structure HitRec where
  hit : WatchHit
  bell : Word
  launch : W32
  wid : Word
  place : Option (Nat × Nat × Bool)
  deriving DecidableEq, Repr

/-- A dump of a precise stop (R422). -/
structure Dump where
  core : Nat
  part : Nat
  bell : Word
  sheafs : List Sheaf
  deriving DecidableEq, Repr

/-- SPDM answers (R413). -/
inductive SpdmAnswer where
  | version (major minor : Nat)
  | capabilities (cert chal meas secureSessions : Bool)
  | algorithms (ecdsaP384 sha384 : Bool)
  | digests (d : BitVec 384)
  | certificate (bytes : List Byte)
  | challengeAuth (nonce : Nat) (sig : BitVec 768)
  | measurements (index : Nat) (m : List (BitVec 384))
  | error
  deriving DecidableEq, Repr

/-- What the host link carries out of the device. -/
inductive HostOut where
  | atsRequest (r : AtsReq)
  | pageRequest (r : PageReq)
  | invalidated (r : InvReq)
  | readData (bytes : List Byte)
  | readError
  | writeDone
  | writeError
  | snoopDone (line : Nat)
  | interrupt (part vector : Nat)
  | peerRequest (id : Nat) (p : PeerPending)
  | peerReply (code : PeerCode)
  | spdm (a : SpdmAnswer)
  | flrDone (part : Nat)
  /-- A page dumped in its packed form, a page restored, or the error to the requester of either (R277). -/
  | pageDump (bytes : List Byte)
  | pageRestored
  | pageError
  deriving DecidableEq, Repr

/-- The device-wide registers and marks of chapter 19. -/
structure Services where
  powered : Bool
  booted : Bool
  recovery : Bool
  failed : Bool
  alert : Bool
  thermtrip : Bool
  heartbeat : Word
  /-- The bell at which the hub timer was last serviced (R406). -/
  serviced : Nat
  /-- The bell of each watched processor's last report (R405): aide cores 0 to 5, and the front end as 6. -/
  heard : List (Nat × Nat)
  powerCap : Nat
  throttling : List Nat
  keyDrawn : Bool
  images : Nat
  spdmVersion : Bool
  spdmAlgs : Bool
  /-- CXL ports that retrain, since when, and ports that have not recovered (R410). -/
  cxlDown : List (Nat × Word)
  cxlFailed : List Nat
  ralecDown : List (Nat × Word)
  deriving DecidableEq, Repr

/-! ### What is on its way -/

/-- A message in flight or an input from outside: the operations and events of the opcode table, as data. -/
inductive Event where
  | rowRefill (sheaf name : Nat)
  | setAside (sheaf : Nat)
  | napWake (sheaf : Nat)
  | doorbell (ring : Nat) (value : Word)
  | launch (c : Command) | dma (c : Command) | signal (c : Command)
  | config (c : Command) | raise (c : Command) | lower (c : Command) | balloon (c : Command)
  | completionRecord (ring : Nat)
  | ringRegistration (r : RingReg)
  | ringRestart (ring : Nat)
  | completionQueueHead (ring : Nat) (head : Nat)
  | bedPlacement (part : Nat)
  | scratchpadReclaim (core : Nat)
  | spawnRequest (m : SpawnMsg)
  | bedCompletion (launch bed : Nat)
  | dwaitReady (sheaf : Nat)
  | loadResponse (r : LoadResp)
  | homeRead (m : HomeReq)
  | homeWrite (m : WriteMsg)
  | twReturn (r : TwResp)
  | atomicExecution (m : AtomMsg)
  | atomicReturn (r : AtomResp)
  | settle (line : Nat)
  | allowanceRefill (m : RefillMsg)
  | allowanceReturn (cluster : Nat)
  | holderReport (cluster ctr : Nat)
  | reservePublish (part pool : Nat)
  | capwaitExpiry (part pool : Nat)
  | reliefGrant (part pool : Nat)
  | pageWalk (sheaf op : Nat)
  | walkAnswer (asn : Nat) (va : Word) (updated : Option UpdateReq)
  | walkAnswerTimeout (asn : Nat) (va : Word)
  | update (u : UpdateReq)
  | atsCompletion (r : AtsReply)
  | prgResponse (r : PrgReply)
  | pageRequestTimeout (fn : Nat) (page : Nat)
  | priReenable (fn : Nat)
  | invalidateRequest (r : InvReq)
  | invalidateCompletion (r : InvReq)
  | hostSnoop (line : Nat) (write : Option (List (Nat × Byte)))
  | hostRead (addr len : Nat)
  | hostWrite (m : HostWrite)
  | peerAccess (m : PeerReq)
  | peerAnswer (id : Nat) (code : PeerCode)
  | peerTimeout (id : Nat)
  | cxlPortDown (port : Nat)
  | cxlRetrainTimeout (port : Nat)
  | epochEnd
  | migration (m : MigrateReq)
  | matrixCommandStart (core seat : Nat)
  | matrixStep (core seat : Nat)
  | tileRowTransfer (core seat : Nat)
  | copyUnit (core seat cmd : Nat)
  | promisedBellTime (core seat cmd : Nat)
  | engineFault (core seat cmd : Nat)
  | kvAgentStep (m : KvMsg)
  | rsmpDeciding (launch : Nat)
  | cloneLanding (m : CloneMsg)
  | rsmpRelease (launch : Nat)
  | deferredFault (m : FaultMsg)
  | escalationEnd (launch bed : Nat)
  | escalationCull (launch bed : Nat)
  | escalationRetry (launch bed : Nat) (handler : Word)
  | lift (launch bed : Nat)
  | replant (launch bed : Nat)
  | stopRequest (core : Nat)
  | frostSeal (core : Nat)
  | lateArrival (core : Nat) (r : Response)
  | thaw (image target : Nat)
  | modeChange (part : Nat) (fn : ModeFn) (assisted : Bool)
  | aideRestart (aide : Nat)
  | frontEndRestart
  | heartbeat
  | hubTimerExpiry
  | queueReset (q : QueueSel)
  | engineReset (e : EngineSel)
  | partitionReset (part : Nat)
  | dieReset (die : Nat)
  | functionLevelReset (part : Nat)
  | perstN
  | resetN
  | pwrgd
  | recoveryImage (version : Nat) (ecdsaOk lmsOk : Bool)
  | thermalThrottle (die : Nat)
  | thermalTrip (die : Nat)
  | powerCap (watts : Nat)
  | getVersion
  | getCapabilities
  | negotiateAlgorithms (offersP384 : Bool)
  | getDigests
  | getCertificate (offset length : Nat)
  | challenge (nonce : Nat)
  | getMeasurements (index : Nat)
  | bandwidthPeriod (die : Nat)
  | stallSample (core part : Nat)
  | watchHit (h : WatchHit)
  | predicateResult (h : WatchHit) (result : Bool)
  | predicateOverrun (h : WatchHit)
  | preciseStop (core part : Nat)
  | stopResume (core part : Nat)
  | engineResume (core seat cmd : Nat)
  | traceTrigger (core part : Nat) (start stop : Bool)
  | registerWrite (r : MailReg)
  | homeSliceEviction (line : Loc)
  | counterReturn (r : CtrResp)
  | watchdogReport (agent : Option Nat)
  | endLaunch (launch : Nat)
  | cxlPortRetrained (port : Nat)
  | ralecLinkDown (link : Nat)
  | ralecLinkRetrained (link : Nat)
  | physicalFunctionFlr
  | thermalThrottleEnd (die : Nat)
  | pwrgdFall
  deriving DecidableEq, Repr

/-! ### The whole machine -/

structure State where
  bell : Word
  /-- The model's own counter for free values (log 2). -/
  free : Nat
  /-- The model's own source of fresh keys. -/
  nextId : Nat
  /-- Messages in flight and inputs from outside, oldest first (log 3). -/
  events : List Event
  /-- The sheaf whose batch issues (log 3). -/
  cur : Nat
  issues : Nat
  sheafs : List (Nat × Sheaf)
  beds : List (Nat × Bed)
  /-- By core × 4 + seat. -/
  seats : List (Nat × Seat)
  launches : List (Nat × Launch)
  spawns : List SpawnRec
  seatImages : List (Nat × SeatImage)
  cores : List (Nat × CoreState)
  mem : Memory
  hostMem : Memory
  l1 : List ((Nat × Loc) × Copy)
  cluster : List ((Nat × Loc) × Copy)
  homes : List (Loc × HomeLine)
  /-- Instruction cache lines by seat (core × 4 + seat) and line (R57). -/
  icache : List ((Nat × Loc) × List Byte)
  /-- By slice (die × 512 + slice). -/
  watermarks : List (Nat × Word)
  frames : List (Nat × FrameInfo)
  spaces : List (Nat × Space)
  tlb : List TlbEntry
  walkWaits : List WalkWait
  /-- Updates in progress, which hold the walks of their ranges, each with the entry it replaced (R298). -/
  holding : List (UpdateReq × Word)
  /-- Pages that move (R289). -/
  moves : List MoveRec
  /-- Frames unmapped, each with the bell from which it may be reused (R299). -/
  resting : List (Nat × Word)
  atc : List AtcEntry
  atsReqs : List AtsReq
  pageReqs : List PageReq
  priOff : List Nat
  priTimeout : Nat
  /-- Invalidations not completed, each with the translated pages it removed (R304). -/
  invalidates : List (InvReq × List Nat)
  inbound : List Inbound
  /-- Fetches that a peer refused or did not answer: the cause to be taken, by seat and line (R311). -/
  fetchBad : List ((Nat × Loc) × BitVec 8)
  /-- Lines that a peer has sent for a fetch that waits; they are never cached (R308). -/
  fetchGot : List ((Nat × Loc) × List Byte)
  peers : List (Nat × PeerPending)
  /-- Requests a Ralec link that is down has not carried yet (R410). -/
  peerHeld : List Nat
  apertures : List Aperture
  groups : List (Nat × GroupCount)
  migrations : List MigReq
  migrationDrops : Nat
  /-- Allowances of counter lines: cluster and line address (R197). -/
  allows : List ((Nat × Nat) × Allow)
  /-- Totals a counter had until a CTAKE or CGIVE changed them: counter, bell of the change, total (R201). -/
  totals : List (Nat × Word × Nat)
  /-- By partition × 256 + pool. -/
  pools : List (Nat × Pool)
  /-- LPDDR6 sectors in use, and the dies on which a writeback has found none free (R278). -/
  used0 : Nat
  starved : List Nat
  /-- The CXL capacity assigned to pools, in sectors (R279). -/
  cxlPools : Nat
  budgets : List ((Nat × Nat) × Budget)
  parts : List (Nat × Partition)
  rings : List (Nat × Ring)
  /-- Lines that the front end has read for a command or a record, or written at a peer, by its key; none where a peer failed
  (R318, R326). -/
  hubGot : List ((Nat × Loc) × Option (List Byte))
  /-- Commands of the hub-die copy engine (R323). -/
  hub : List Cmd
  images : List (Nat × Image)
  watches : List ((Nat × Nat) × WatchRange)
  hits : List HitRec
  overruns : Nat
  samples : List Sample
  sampleDrops : Nat
  traces : List TraceRec
  dumps : List Dump
  hitLog : List HitRec
  reports : List Report
  out : List HostOut
  dev : Services
  deriving DecidableEq, Repr

/-- Why the machine stops with a fault. -/
inductive Fault where
  /-- Raised by `step` when nothing can ever happen again: the device is powered off and no input is waiting.
  Safe: the manual gives no step here. -/
  | powerOff
  deriving DecidableEq, Repr

/-- Why an instruction has no meaning. -/
inductive Refusal where
  /-- Raised by an arm of `exec` whose instruction has no meaning yet. Safe: nothing is claimed of it. -/
  | notModelled (mnemonic : String)
  deriving DecidableEq, Repr

/-- The services after reset: powered, booted, no failure (log 4); HEARTBEAT and the cap as log 1 says.
(DESIGN CHOICE, log 1.) -/
def Services.reset : Services :=
  ⟨true, true, false, false, false, false, 0, 0, [], 3200, [], true, 0, false, false, [], [], []⟩

/-- The machine right after the whole-device rung and boot (R407, R412): no launch, bed, ring, pool or address space
exists, memory lists nothing. (DESIGN CHOICE, log 1.) (DESIGN CHOICE, log 4.) -/
def State.reset : State where
  bell := 0
  free := 0
  nextId := 1
  events := []
  cur := 0
  issues := 0
  sheafs := []
  beds := []
  seats := []
  launches := []
  spawns := []
  seatImages := []
  cores := []
  mem := []
  hostMem := []
  l1 := []
  cluster := []
  homes := []
  icache := []
  watermarks := []
  frames := []
  spaces := []
  tlb := []
  walkWaits := []
  holding := []
  moves := []
  resting := []
  atc := []
  atsReqs := []
  pageReqs := []
  priOff := []
  priTimeout := 10000000000
  invalidates := []
  inbound := []
  fetchBad := []
  fetchGot := []
  peers := []
  peerHeld := []
  apertures := []
  groups := []
  migrations := []
  migrationDrops := 0
  allows := []
  totals := []
  pools := []
  used0 := 0
  starved := []
  cxlPools := 0
  budgets := []
  parts := []
  rings := []
  hubGot := []
  hub := []
  images := []
  watches := []
  hits := []
  overruns := 0
  samples := []
  sampleDrops := 0
  traces := []
  dumps := []
  hitLog := []
  reports := []
  out := []
  dev := Services.reset

end Sys2Proof.Machine
end

