-- ==== Sys2Proof/Machine/Flags.lean ====
section
/-! DEFINITION. Guard conditions (R35, Table 1.2) and the flag classes of R83 (Table 3.1). -/

namespace Sys2Proof.Machine

/-- Table 1.2: whether a condition holds of a flag quadruple. -/
def condHolds (cond : BitVec 4) (f : CcVal) : Bool :=
  match cond.toNat with
  | 0 => true
  | 1 => flagZ f
  | 2 => !flagZ f
  | 3 => flagS f
  | 4 => !flagS f
  | 5 => flagV f
  | 6 => !flagV f
  | 7 => flagC f
  | 8 => !flagC f
  | 9 => flagC f && !flagZ f
  | 10 => !flagC f || flagZ f
  | 11 => flagS f == flagV f
  | 12 => flagS f != flagV f
  | 13 => !flagZ f && flagS f == flagV f
  | 14 => flagZ f || flagS f != flagV f
  | _ => flagV f

/-- The value of an n-bit result as the flags S and Z see it (R83). -/
def signOf {n : Nat} (r : BitVec n) : Bool := r.msb
def zeroOf {n : Nat} (r : BitVec n) : Bool := r == 0#n

/-- Whether an exact signed value lies outside the n-bit range (Table 3.1, V). -/
def outsideSigned (n : Nat) (x : Int) : Bool := x < -(2 : Int) ^ (n - 1) || (2 : Int) ^ (n - 1) ≤ x

/-- Class add: a + b + cin with its flags. -/
def addWith {n : Nat} (a b : BitVec n) (cin : Bool) : BitVec n × CcVal :=
  let r := a + b + BitVec.ofNat n cin.toNat
  (r, mkFlags (signOf r) (zeroOf r) (decide (2 ^ n ≤ a.toNat + b.toNat + cin.toNat))
    (outsideSigned n (a.toInt + b.toInt + cin.toNat)))

/-- Class sub: a − b − borrow with its flags. -/
def subWith {n : Nat} (a b : BitVec n) (borrow : Bool) : BitVec n × CcVal :=
  let r := a - b - BitVec.ofNat n borrow.toNat
  (r, mkFlags (signOf r) (zeroOf r) (decide (b.toNat + borrow.toNat ≤ a.toNat))
    (outsideSigned n (a.toInt - b.toInt - borrow.toNat)))

/-- Class mul: the low product with its flags. -/
def mulWith {n : Nat} (a b : BitVec n) : BitVec n × CcVal :=
  let r := a * b
  (r, mkFlags (signOf r) (zeroOf r) (decide (2 ^ n ≤ a.toNat * b.toNat)) (outsideSigned n (a.toInt * b.toInt)))

/-- Class log: S and Z of the result, C and V clear. -/
def logFlags {n : Nat} (r : BitVec n) : CcVal := mkFlags (signOf r) (zeroOf r) false false

/-- A result of class log with its flags. -/
def logOf {n : Nat} (r : BitVec n) : BitVec n × CcVal := (r, logFlags r)

/-- IABS sets V where the operand has no absolute value in 32 bits (Table 3.2). -/
def absWith (a : W32) : W32 × CcVal :=
  let r := if a.msb then 0 - a else a
  (r, mkFlags (signOf r) (zeroOf r) false (a == 0x80000000#32))

end Sys2Proof.Machine
end

