-- ==== Sys2Proof/Machine/Alu.lean ====
section
/-! DEFINITION. The integer results of Tables 3.2 and 3.3 as functions of the operand values. -/

namespace Sys2Proof.Machine

/-- Shift left, 0 for amounts of the width or more. -/
def shiftL {n : Nat} (a : BitVec n) (k : Nat) : BitVec n := if n ≤ k then 0#n else a <<< k
/-- Shift right with zero fill, 0 for amounts of the width or more. -/
def shiftR {n : Nat} (a : BitVec n) (k : Nat) : BitVec n := if n ≤ k then 0#n else a >>> k
/-- Shift right with sign fill, copies of the sign for amounts of the width or more. -/
def shiftA {n : Nat} (a : BitVec n) (k : Nat) : BitVec n := if n ≤ k then a.sshiftRight n else a.sshiftRight k

/-- IMULH: the high word of the product, signed or unsigned (R89). -/
def mulHigh (uns : Bool) (a b : W32) : W32 :=
  if uns then BitVec.ofNat 32 (a.toNat * b.toNat / 2 ^ 32) else BitVec.ofInt 32 ((a.toInt * b.toInt) / 2 ^ 32)

/-- IMULW: the 64-bit product. -/
def mulWide (uns : Bool) (a b : W32) : Word :=
  if uns then BitVec.ofNat 64 (a.toNat * b.toNat) else BitVec.ofInt 64 (a.toInt * b.toInt)

/-- The comparison of IMIN and IMAX. -/
def lessThan {n : Nat} (uns : Bool) (a b : BitVec n) : Bool := if uns then a.ult b else a.slt b
def minOf {n : Nat} (uns : Bool) (a b : BitVec n) : BitVec n := if lessThan uns b a then b else a
def maxOf {n : Nat} (uns : Bool) (a b : BitVec n) : BitVec n := if lessThan uns a b then b else a

/-- The mask of the low w bits. -/
def lowMask (w : Nat) : W32 := BitVec.ofNat 32 (2 ^ w - 1)

/-- Position and width of a bit field (R86). -/
def fieldPos (b : W32) : Nat := b.toNat % 32
def fieldWidth (b : W32) : Nat := min (b.toNat / 256 % 64) 32

/-- BFX (R86). -/
def bitExtract (uns : Bool) (a b : W32) : W32 :=
  let p := fieldPos b
  let w := fieldWidth b
  let x := if uns then a >>> p else a.sshiftRight p
  if w = 0 then 0 else
    let y := x &&& lowMask w
    if !uns && x.getLsbD (w - 1) then y ||| ~~~(lowMask w) else y

/-- BFI (R86): c with bits p to min(p + w, 32) − 1 replaced by the low bits of a. -/
def bitInsert (a b c : W32) : W32 :=
  let m := lowMask (fieldWidth b) <<< fieldPos b
  (c &&& ~~~m) ||| ((a <<< fieldPos b) &&& m)

/-- POPC. -/
def popCount (a : W32) : W32 := BitVec.ofNat 32 (laneCount a)

/-- CLZ: leading zero bits, 32 for 0. -/
def leadZeros (a : W32) : W32 :=
  BitVec.ofNat 32 (if a = 0 then 32 else 31 - Nat.log2 a.toNat)

/-- BREV: bit i moved to bit 31 − i. -/
def bitReverse (a : W32) : W32 := maskOf fun l => a.getLsbD (31 - l.val)

/-- MOVHI (Table 3.3). -/
def moveHigh (a : W32) (imm : BitVec 24) : W32 := imm.setWidth 8 ++ a.setWidth 24

/-- LEA: the scaled offset (R88). -/
def scaledOffset (uns : Bool) (b : W32) (sh : BitVec 3) : Word :=
  (if uns then zext64 b else sext64 b) <<< sh.toNat

end Sys2Proof.Machine
end

