-- ==== Sys2Proof/Machine/Ops.lean ====
section
/-! DEFINITION. The named operations over the sheafs: lanes, rows, s, c and sc registers; waiting; barriers;
leaving a sheaf; TAKING AN EXCEPTION (R157, R158, R347, R350) and the return from one (R162). -/

namespace Sys2Proof.Machine

/-! ### Lanes and fibres -/

def Lane.fib? : Lane → Option Fibre
  | .held f => some f
  | _ => none

def Lane.isHeld : Lane → Bool
  | .held _ => true
  | _ => false

def Lane.mod (g : Fibre → Fibre) : Lane → Lane
  | .held f => .held (g f)
  | e => e

/-- A sheaf with no fibre, read where no sheaf is named. -/
def Sheaf.blank : Sheaf where
  core := 0
  slot := 0
  part := 0
  seat := 0
  launch := 0
  bed := 0
  index := 0
  lanes := Vector.replicate 32 (.empty none)
  sregs := Vector.replicate 64 0
  sfull := BitVec.allOnes 64
  sprod := []
  stime := []
  scs := Vector.replicate 4 0
  scfull := BitVec.allOnes 4
  bars := Vector.replicate 8 0
  rows := []
  frames := []
  escalated := []
  fpflags := 0
  notice := 0
  trellis := 0
  batch := 0
  ages := []
  aside := []
  putBy := none
  ops := []
  prfs := []
  arrvs := []
  hold := Hold.none
  npc := 0
  wait := 0
  age := 0
  yielded := false
  lastIssue := 0

/-- Lanes held by a fibre (R11). -/
def Sheaf.held (sh : Sheaf) : Mask := maskOf fun l => sh.lanes[l].isHeld

/-- Lanes whose fibre satisfies a test. -/
def Sheaf.lanesWhere (sh : Sheaf) (p : Fibre → Bool) : Mask :=
  maskOf fun l => match sh.lanes[l] with
    | .held f => p f
    | _ => false

def Sheaf.readyLanes (sh : Sheaf) : Mask := sh.lanesWhere fun f => f.status = .ready

/-- The fibres that issue: the current batch less whoever is no longer ready (R45, R346). -/
def Sheaf.issuing (sh : Sheaf) : Mask := sh.batch &&& sh.readyLanes

/-- One value of a lane's fibre, with a value for a slot without fibre. -/
def Sheaf.fib {α : Type} (sh : Sheaf) (l : Fin 32) (d : α) (g : Fibre → α) : α :=
  match sh.lanes[l] with
  | .held f => g f
  | _ => d

def Sheaf.pcOf (sh : Sheaf) (l : Fin 32) : Word := sh.fib l 0 (·.pc)

/-- Change the fibres of the lanes of a mask. -/
def Sheaf.modFibs (sh : Sheaf) (m : Mask) (g : Fin 32 → Fibre → Fibre) : Sheaf :=
  { sh with lanes := lanesOf fun l => if hasLane m l then sh.lanes[l].mod (g l) else sh.lanes[l] }

/-- The PC at which the current batch stands (R45). -/
def Sheaf.batchPc (sh : Sheaf) : Word := ((lowestLane sh.issuing).map sh.pcOf).getD 0

/-! ### Vector registers (R21, R29) -/

/-- A row as AllocRow gives it (R21): values 0, no lane live, every lane full. -/
def Row.fresh : Row := ⟨Vector.replicate 32 0, 0, BitVec.allOnes 32, false, 0⟩

def Sheaf.row? (sh : Sheaf) (n : BitVec 8) : Option Row := aget sh.rows n.toNat

/-- ReadLane (R21). -/
def Sheaf.readLane (sh : Sheaf) (n : BitVec 8) (l : Fin 32) : W32 :=
  match sh.row? n with
  | some r => r.vals[l]
  | none => 0

/-- The full bit a read of lane l of name n meets; an unmapped name is full (R33). -/
def Sheaf.fullLane (sh : Sheaf) (n : BitVec 8) (l : Fin 32) : Bool :=
  match sh.row? n with
  | some r => hasLane r.full l
  | none => true

def Sheaf.setRow (sh : Sheaf) (n : BitVec 8) (r : Row) : Sheaf := { sh with rows := aset sh.rows n.toNat r }

/-- WriteLane (R21) for the lanes of a mask, each written full and live. -/
def Sheaf.writeRow (sh : Sheaf) (n : BitVec 8) (m : Mask) (x : Fin 32 → W32) : Sheaf :=
  if m = 0 then sh else
    let r := (sh.row? n).getD Row.fresh
    sh.setRow n { r with vals := lanesOf fun l => if hasLane m l then x l else r.vals[l],
                         live := r.live ||| m, full := r.full ||| m }

/-- A producer clears the full bits of its destination lanes at issue (R29), with its PC (R33). -/
def Sheaf.emptyRow (sh : Sheaf) (n : BitVec 8) (m : Mask) (pc : Word) : Sheaf :=
  if m = 0 then sh else
    let r := (sh.row? n).getD Row.fresh
    sh.setRow n { r with full := r.full &&& ~~~m, prod := pc }

/-- Kill (R21) for the lanes of a mask. -/
def Sheaf.killRow (sh : Sheaf) (n : BitVec 8) (m : Mask) : Sheaf :=
  match sh.row? n with
  | some r => sh.setRow n { r with live := r.live &&& ~~~m }
  | none => sh

/-- Lanes of a name written before its last-read mark is applied live on: the write follows the kill (R22). -/
def Sheaf.reviveRow (sh : Sheaf) (n : BitVec 8) (m : Mask) : Sheaf :=
  match sh.row? n with
  | some r => sh.setRow n { r with live := r.live ||| m }
  | none => sh

/-- The registers of an operand of n registers from a name (R19). -/
def regRange (r : BitVec 8) : Nat → List (BitVec 8)
  | 0 => []
  | n + 1 => r :: regRange (r + 1) n

/-- Registers of a WIDTH (R168). -/
def widthRegs (w : Width) : Nat :=
  match w with
  | .d64 => 2
  | .q128 => 4
  | _ => 1

/-- The v registers an outstanding operation is to write. -/
def OpKind.vregs : OpKind → List (BitVec 8)
  | .load d w _ _ => regRange d (widthRegs w)
  | .pgdrop d _ | .rsmp d => [d]
  | .atomic (some d) w64 | .pad d w64 => regRange d (if w64 then 2 else 1)
  | .counter d pair _ | .kv (some d) pair _ => regRange d (if pair then 2 else 1)
  | _ => []

/-- Lanes of a name whose value an outstanding operation is still to write (R29). -/
def Sheaf.dueAt (sh : Sheaf) (n : BitVec 8) : Mask :=
  sh.ops.foldl (fun m o => if o.2.kind.vregs.contains n then m ||| (o.2.due &&& ~~~o.2.gone) else m) 0

/-- What keeps a name's row (R21): a live lane that a fibre holds, or one whose value is still due, which R29 keeps
empty until then. (DEDUCED, log 64.) -/
def Sheaf.keeps (sh : Sheaf) (n : BitVec 8) (r : Row) : Bool := (r.live ||| sh.dueAt n) &&& sh.held ≠ 0

/-- FreeCheck (R21). -/
def Sheaf.freeCheck (sh : Sheaf) (n : BitVec 8) : Sheaf :=
  match sh.row? n with
  | some r => if sh.keeps n r then sh else { sh with rows := adel sh.rows n.toNat }
  | none => sh

/-- FreeCheck over every mapped name, when a fibre exits (R22). -/
def Sheaf.freeCheckAll (sh : Sheaf) : Sheaf :=
  { sh with rows := sh.rows.filter fun e => sh.keeps (BitVec.ofNat 8 e.1) e.2 }

/-- The pair vN:vN+1 at a lane (R19). -/
def Sheaf.readPair (sh : Sheaf) (n : BitVec 8) (l : Fin 32) : Word :=
  joinPair (sh.readLane n l) (sh.readLane (n + 1) l)

/-- Both halves written together (R88). -/
def Sheaf.writePair (sh : Sheaf) (n : BitVec 8) (m : Mask) (x : Fin 32 → Word) : Sheaf :=
  (sh.writeRow n m fun l => loHalf (x l)).writeRow (n + 1) m fun l => hiHalf (x l)

/-! ### Sheaf registers and flags -/

def Sheaf.readS (sh : Sheaf) (r : BitVec 6) : Word := sh.sregs[r.toNat]
def Sheaf.fullS (sh : Sheaf) (r : BitVec 6) : Bool := sh.sfull.getLsbD r.toNat

/-- A write of an s register: full, without a completion time (R223). -/
def Sheaf.writeS (sh : Sheaf) (r : BitVec 6) (x : Word) : Sheaf :=
  { sh with sregs := sh.sregs.set r.toNat x, sfull := sh.sfull ||| (1#64 <<< r.toNat),
            sprod := adel sh.sprod r.toNat, stime := adel sh.stime r.toNat }

/-- A producer empties its s register at issue (R29, R33). -/
def Sheaf.emptyS (sh : Sheaf) (r : BitVec 6) (pc : Word) : Sheaf :=
  { sh with sfull := sh.sfull &&& ~~~(1#64 <<< r.toNat), sprod := aset sh.sprod r.toNat pc,
            stime := adel sh.stime r.toNat }

def Sheaf.readSc (sh : Sheaf) (k : BitVec 2) : CcVal := sh.scs[k.toNat]
def Sheaf.fullSc (sh : Sheaf) (k : BitVec 2) : Bool := sh.scfull.getLsbD k.toNat
def Sheaf.writeSc (sh : Sheaf) (k : BitVec 2) (x : CcVal) : Sheaf :=
  { sh with scs := sh.scs.set k.toNat x, scfull := sh.scfull ||| (1#4 <<< k.toNat) }

def Fibre.readC (f : Fibre) (k : BitVec 2) : CcVal := f.cc[k.toNat]
def Fibre.fullC (f : Fibre) (k : BitVec 2) : Bool := f.ccFull.getLsbD k.toNat
def Fibre.writeC (f : Fibre) (k : BitVec 2) (x : CcVal) : Fibre :=
  { f with cc := f.cc.set k.toNat x, ccFull := f.ccFull ||| (1#4 <<< k.toNat) }
def Fibre.emptyC (f : Fibre) (k : BitVec 2) : Fibre := { f with ccFull := f.ccFull &&& ~~~(1#4 <<< k.toNat) }

/-- c3 to c0 as a frame saves them (Table 6.5). -/
def Fibre.ccBits (f : Fibre) : BitVec 16 := f.cc[3] ++ f.cc[2] ++ f.cc[1] ++ f.cc[0]
def Fibre.setCc (f : Fibre) (x : BitVec 16) : Fibre :=
  { f with cc := ⟨⟨[x.extractLsb' 0 4, x.extractLsb' 4 4, x.extractLsb' 8 4, x.extractLsb' 12 4]⟩, rfl⟩,
           ccFull := BitVec.allOnes 4 }

/-- Sticky floating-point flags of a fibre and of its sheaf (R42). -/
def Sheaf.raiseFp (sh : Sheaf) (m : Mask) (x : Fin 32 → BitVec 5) : Sheaf :=
  let sh' := sh.modFibs m fun l f => { f with fpflags := f.fpflags ||| x l }
  { sh' with fpflags := (lanesIn m).foldl (fun a l => a ||| x l) sh.fpflags }

/-- A lane word's guard for one fibre (R36). -/
def guardOf (g : Guard) (f : Fibre) : Bool := condHolds g.cond (f.readC g.cc)

/-- Lanes of a mask whose guard holds. -/
def Sheaf.guarded (sh : Sheaf) (g : Guard) (m : Mask) : Mask :=
  maskOf fun l => hasLane m l && sh.fib l false (guardOf g)

/-- Whether some lane of a mask has the named c register empty (R31). -/
def Sheaf.ccEmpty (sh : Sheaf) (k : BitVec 2) (m : Mask) : Bool :=
  (lanesIn m).any fun l => !sh.fib l true (·.fullC k)

/-- Whether a guard reads its c register (R35: condition 0 ignores it). -/
def guardReads (g : Guard) : Bool := g.cond ≠ 0

/-! ### The issuing sheaf -/

def State.sheaf? (s : State) (u : Nat) : Option Sheaf := aget s.sheafs u
def State.shf (s : State) : Sheaf := (s.sheaf? s.cur).getD Sheaf.blank
def State.modSheaf (s : State) (u : Nat) (g : Sheaf → Sheaf) : State := { s with sheafs := amod s.sheafs u g }
/-- Put the issuing sheaf back. -/
def State.setShf (s : State) (sh : Sheaf) : State := s.modSheaf s.cur fun _ => sh
/-- A step that follows, or a message on its way. -/
def State.post (s : State) (e : Event) : State := { s with events := s.events ++ [e] }
def State.report (s : State) (r : Report) : State := { s with reports := s.reports ++ [r] }
def State.emit (s : State) (o : HostOut) : State := { s with out := s.out ++ [o] }
/-- A step that cannot happen yet keeps its place before the later ones of its channel. (DEDUCED, log 22.) -/
def State.again (s : State) (e : Event) : State := { s with events := e :: s.events }
/-- A fresh key. -/
def State.fresh (s : State) : Nat × State := (s.nextId, { s with nextId := s.nextId + 1 })

def State.seatKey (core seat : Nat) : Nat := core * 4 + seat
def State.seat? (s : State) (core seat : Nat) : Option Seat := aget s.seats (State.seatKey core seat)
def State.modSeat (s : State) (core seat : Nat) (g : Seat → Seat) : State :=
  { s with seats := amod s.seats (State.seatKey core seat) g }
def State.launch? (s : State) (k : Nat) : Option Launch := aget s.launches k
def State.modLaunch (s : State) (k : Nat) (g : Launch → Launch) : State := { s with launches := amod s.launches k g }
def State.bed? (s : State) (k : Nat) : Option Bed := aget s.beds k
def State.modBed (s : State) (k : Nat) (g : Bed → Bed) : State := { s with beds := amod s.beds k g }
def State.coreState (s : State) (c : Nat) : CoreState := (aget s.cores c).getD CoreState.idle
def State.modCore (s : State) (c : Nat) (g : CoreState → CoreState) : State :=
  { s with cores := aset s.cores c (g (s.coreState c)) }
def clusterOf (core : Nat) : Nat := core / 4
def dieOf (core : Nat) : Nat := core / 128 % 4
def frostedCore (s : State) (c : Nat) : Bool := (s.coreState c).frosted.isSome

/-- The vector in force (R40). -/
def State.hvec (s : State) (sh : Sheaf) : Word := ((s.seat? sh.core sh.seat).map (·.hvec)).getD 0

/-- The batch has completed its instruction: its fibres stand at the next PC (R58) and nothing is in progress. -/
def Sheaf.advance (sh : Sheaf) (m : Mask) : Sheaf :=
  { sh.modFibs m fun _ f => { f with pc := sh.npc } with hold := Hold.none }

/-- A switch point (R46): the sheaf selects a new batch. -/
def Sheaf.switch (sh : Sheaf) : Sheaf := { sh with batch := 0, hold := Hold.none }

/-- Fibres leave their batch, set aside or not (R344, R149). -/
def Sheaf.unbatch (sh : Sheaf) (m : Mask) : Sheaf :=
  { sh with
    batch := sh.batch &&& ~~~m
    aside := (sh.aside.map fun a => { a with lanes := a.lanes &&& ~~~m }).filter fun a => a.lanes ≠ 0
    putBy := sh.putBy.map fun p => (p.1 &&& ~~~m, p.2) }

/-- The instruction waits (R30 step 2, R31, R32 and the holds of R46): nothing changes but the hold, which records
the reason of Table 20.2 and the register waited for. -/
def Sheaf.await (sh : Sheaf) (bell : Word) (reason : BitVec 8) (kind : BitVec 2) (src : BitVec 8) : Sheaf :=
  { sh with hold := { sh.hold with waiting := true, since := if sh.hold.waiting then sh.hold.since else bell,
                                   reason := reason, srcKind := kind, src := src } }

def State.await (s : State) (reason : BitVec 8) (kind : BitVec 2) (src : BitVec 8) : State :=
  s.setShf (s.shf.await s.bell reason kind src)

/-- Whether a wait is one of those that R46 turns into a switch point after 64 cycles: an empty register, a full count of
operations, a charge or translation hold, a full queue. A fetch, a fence (R190), a spill refill (R26) and a bandwidth
token (R341) are none; reason 0 stands for the first two, which Table 20.2 does not list. (DEDUCED, log 65.) -/
def Hold.yields (h : Hold) : Bool := h.waiting && (h.reason = 1 || h.reason = 2 || h.reason = 3 || h.reason = 4)

/-- Whether the instruction has not issued: it waits for its fetch, a register, a place among the operations, a queue
or a fence, and its batch is no candidate meanwhile (R337). -/
def Hold.unissued (h : Hold) : Bool :=
  h.waiting && h.phase = 0 && h.acted = 0 && (h.reason = 0 || h.reason = 1 || h.reason = 2 || h.reason = 4)

/-- The status of a fibre as Table 1.5 gives it: one of a current batch that waits is waiting. -/
def Sheaf.statusOf (sh : Sheaf) (l : Fin 32) (f : Fibre) : Status :=
  if f.status = .ready && hasLane sh.batch l && sh.hold.yields then .waiting else f.status

/-- The sheaf with its fibres' statuses as Table 1.5 gives them, as a dump shows it (R422). -/
def Sheaf.shown (sh : Sheaf) : Sheaf := sh.modFibs (BitVec.allOnes 32) fun l f => { f with status := sh.statusOf l f }

/-! ### Physical rows (R26, R27) -/

/-- Rows of a core's register file: 24,576 (Table 16.2). -/
def physicalRows : Nat := 24576

/-- A lifted bed has given up its sheaf slots and rows (R356). -/
def State.isLifted (s : State) (sh : Sheaf) : Bool :=
  match s.bed? sh.bed with
  | some b => b.status = .lifted
  | none => false

/-- Physical rows in use on a core. -/
def State.rowsUsed (s : State) (core : Nat) : Nat :=
  (s.sheafs.map fun e => if e.2.core = core && !s.isLifted e.2 then (e.2.rows.filter fun r => !r.2.spilled).length else 0).sum

/-- The sheaf of a core that issued least recently among those with a row to spill, other than the one named.
(DEDUCED, log 54.) -/
def State.spillVictim (s : State) (core but : Nat) : Option Nat :=
  (s.sheafs.foldl (fun (b : Option (Nat × Nat)) e =>
    if e.2.core = core && e.1 ≠ but && !s.isLifted e.2 && e.2.rows.any (fun r => !r.2.spilled) then
      match b with
      | none => some (e.1, e.2.lastIssue)
      | some x => if e.2.lastIssue < x.2 then some (e.1, e.2.lastIssue) else b
    else b) none).map (·.1)

/-- Spill the first row of a sheaf that is not spilled; values, live and full bits stay (R26, R28). -/
def spillFirst : List (Nat × Row) → List (Nat × Row)
  | [] => []
  | (n, r) :: t => if r.spilled then (n, r) :: spillFirst t else (n, { r with spilled := true }) :: t

/-- Spill n rows of a core, none of them from the sheaf named (R26). -/
def State.spillRows : Nat → State → Nat → Nat → State
  | 0, s, _, _ => s
  | n + 1, s, core, u =>
    match s.spillVictim core u with
    | none => s
    | some v => State.spillRows n (s.modSheaf v fun sh => { sh with rows := spillFirst sh.rows }) core u

/-- AllocRow's room for the names of a sheaf that are not mapped: rows are spilled until one is free for each (R26). -/
def State.roomIn (s : State) (u : Nat) (names : List (BitVec 8)) : State :=
  match s.sheaf? u with
  | none => s
  | some sh =>
    let need := (names.filter fun d => (sh.row? d).isNone).length
    if need = 0 then s else s.spillRows (s.rowsUsed sh.core + need - physicalRows) sh.core u

/-- The image of a spilled row (R27): 128 bytes of lane values, its live bits and its full bits. -/
def Row.image (r : Row) : List Byte :=
  r.vals.toList.flatMap (fun x => natToBytes 4 x.toNat) ++ natToBytes 4 r.live.toNat ++ natToBytes 4 r.full.toNat

/-- The spill area of a core (R27): 256 row images of each of 512 sheafs, 17 MiB. -/
def spillAreaBytes : Nat := 512 * 256 * 136

/-- Where the image of a name of a sheaf slot lies in its core's spill area. (DESIGN CHOICE, log 66.) -/
def Sheaf.spillOffset (sh : Sheaf) (name : Nat) : Nat := ((sh.part * 128 + sh.slot) * 256 + name) * 136

/-- What a core's spill area holds: the images of its sheafs' spilled rows, at their addresses. (DESIGN CHOICE, log 66.) -/
def State.spillArea (s : State) (core : Nat) : List (Nat × List Byte) :=
  (s.sheafs.filter fun e => e.2.core = core && !s.isLifted e.2).flatMap fun e =>
    (e.2.rows.filter fun r => r.2.spilled).map fun r => (Config.spillBase core + e.2.spillOffset r.1, r.2.image)

/-! ### Error log (R352) -/

def State.part? (s : State) (p : Nat) : Option Partition := aget s.parts p
def State.modPart (s : State) (p : Nat) (g : Partition → Partition) : State := { s with parts := amod s.parts p g }

/-- The log holds 256 entries; the oldest is overwritten and counted. -/
def Partition.logs (p : Partition) (e : LogEntry) : Partition :=
  if p.log.length < 256 then { p with log := p.log ++ [e] }
  else { p with log := p.log.tail ++ [e], overwritten := p.overwritten + 1 }

def State.logFor (s : State) (launch : Nat) (cause : BitVec 8) (addr fpc : Word) : State :=
  match s.launch? launch with
  | some la => s.modPart la.part fun p => p.logs ⟨cause, addr, la.number, la.asn, s.bell, fpc⟩
  | none => s

/-! ### Barriers (R143, R147, R148) -/

/-- Wake a parked fibre: ready at its PC. -/
def Fibre.wake (f : Fibre) : Fibre := { f with status := .ready, park := .none }

def Fibre.parkAt (f : Fibre) (st : Status) (p : Park) (npc : Word) : Fibre :=
  { f with status := st, park := p, parkPc := f.pc, pc := npc }

def Sheaf.bar (sh : Sheaf) (k : BitVec 3) : Mask := sh.bars[k.toNat]
def Sheaf.setBar (sh : Sheaf) (k : BitVec 3) (m : Mask) : Sheaf := { sh with bars := sh.bars.set k.toNat m }

/-- Fibres parked at a MEET on k. -/
def Sheaf.atMeet (sh : Sheaf) (k : BitVec 3) : Mask :=
  sh.lanesWhere fun f => f.status = .atBarrier && f.park = .meet k

/-- Test (R143). -/
def Sheaf.testBar (sh : Sheaf) (k : BitVec 3) : Sheaf :=
  let b := sh.bar k
  if b ≠ 0 && b &&& ~~~sh.atMeet k = 0 then (sh.modFibs b fun _ f => f.wake).setBar k 0 else sh

/-- Remove (R143): the lanes leave every reconvergence mask. -/
def Sheaf.leaveBars (sh : Sheaf) (m : Mask) : Sheaf :=
  [0, 1, 2, 3, 4, 5, 6, 7].foldl
    (fun sh (k : BitVec 3) => if sh.bar k &&& m = 0 then sh else (sh.setBar k (sh.bar k &&& ~~~m)).testBar k) sh

/-- The live set of a bed (R147). -/
def State.liveOf (s : State) (b : Bed) : List (Nat × Fin 32) :=
  b.sheafs.flatMap fun u => match s.sheaf? u with
    | some sh => (lanesIn sh.held).map fun l => (u, l)
    | none => []

def Bed.bar (b : Bed) (k : BitVec 4) : BedBar := b.bars[k.toNat]
def Bed.setBar (b : Bed) (k : BitVec 4) (x : BedBar) : Bed := { b with bars := b.bars.set k.toNat x }

/-- An ARRV arrival of lanes at a phase: its token is written with the batch's last arrival (R147). -/
def Sheaf.arrive (sh : Sheaf) (k : BitVec 4) (m : Mask) (phase : W32) : Sheaf :=
  let rs := sh.arrvs.map fun r => if r.k = k then { r with due := r.due &&& ~~~m } else r
  (rs.filter fun r => r.due = 0).foldl (fun sh r => { sh.writeS r.d (zext64 phase) with ops := adel sh.ops r.op })
    { sh with arrvs := rs.filter fun r => r.due ≠ 0 }

/-- One sheaf at the completion of a phase of k: fibres parked by BAR and those whose WAITB token is past are
ready. -/
def Sheaf.phaseDone (sh : Sheaf) (k : BitVec 4) (phase : W32) : Sheaf :=
  sh.modFibs (sh.lanesWhere fun f => f.park = .bar k || (match f.park with
    | .waitb k' t => k' = k && t ≠ phase
    | _ => false)) fun _ f => f.wake

/-- Lanes parked by ARRV on k in an earlier phase. -/
def Sheaf.lateArrv (sh : Sheaf) (k : BitVec 4) (phase : W32) : Mask :=
  sh.lanesWhere fun f => match f.park with
    | .arrv k' p _ => k' = k && p ≠ phase
    | _ => false

/-- Complete (R147); the fuel bounds the phases that follow at once from fibres parked by ARRV. -/
def State.completeBar : Nat → State → Nat → BitVec 4 → State
  | 0, s, _, _ => s
  | n + 1, s, bk, k =>
    match s.bed? bk with
    | none => s
    | some b =>
      let live := s.liveOf b
      if live ≠ [] && live.all fun e => (b.bar k).arrived.contains e then
        let ph := (b.bar k).phase + 1
        let late := b.sheafs.flatMap fun u => match s.sheaf? u with
          | some sh => (lanesIn (sh.lateArrv k ph)).map fun l => (u, l)
          | none => []
        let s1 := s.modBed bk fun b => b.setBar k ⟨ph, late⟩
        let s2 := b.sheafs.foldl (fun s u => s.modSheaf u fun sh =>
          let m := sh.lateArrv k ph
          (((sh.phaseDone k ph).modFibs m fun _ f => f.wake).arrive k m ph)) s1
        State.completeBar n s2 bk k
      else s

/-- Complete applied to all sixteen barriers (R148). -/
def State.completeAll (s : State) (bk : Nat) : State :=
  [0, 1, 2, 3, 4, 5, 6, 7, 8, 9, 10, 11, 12, 13, 14, 15].foldl (fun s (k : BitVec 4) => s.completeBar 4 bk k) s

/-- Lanes of a sheaf leave arrived[k] of its bed (R148). -/
def State.leaveArrivedAt (s : State) (bk u : Nat) (k : BitVec 4) (m : Mask) : State :=
  s.modBed bk fun b => b.setBar k { b.bar k with
    arrived := (b.bar k).arrived.filter fun e => !(e.1 = u && hasLane m e.2) }

/-- Lanes of a sheaf leave the arrived sets of its bed (R148). -/
def State.leaveArrived (s : State) (bk u : Nat) (m : Mask) : State :=
  s.modBed bk fun b => { b with bars := vmap b.bars fun x =>
    { x with arrived := x.arrived.filter fun e => !(e.1 = u && hasLane m e.2) } }

/-! ### Long-latency operations (R173) -/

/-- Put a long-latency operation on record (R173, R354). -/
def State.addOp (s : State) (o : OpRec) : Nat × State :=
  let (k, s1) := s.fresh
  (k, s1.modSheaf s1.cur fun sh => { sh with ops := sh.ops ++ [(k, o)] })

/-- The 65th long-latency operation waits to issue (R173). -/
def Sheaf.opsFull (sh : Sheaf) : Bool := sh.ops.length ≥ 64

/-- An operation without address whose result is on its way from its issue (R29): the values of its lanes. -/
def State.addResult (s : State) (kind : OpKind) (m : Mask) (x : Fin 32 → BitVec 128) : State :=
  let (k, s1) := s.addOp ⟨s.shf.batchPc, kind, m, m, 0, Vector.replicate 32 0, [], 0, none⟩
  s1.post (.loadResponse ⟨s.cur, k, (lanesIn m).map fun l => (l.val, x l)⟩)

/-! ### The return from an exception (R162, R349) -/

/-- Frames every fibre of whose mask has executed RTE. -/
def Frame.returned (f : Frame) : Bool := f.mask ≠ 0 && f.mask &&& ~~~f.rte = 0

/-- The release of a frame: saved PC and c registers restored, its fibres ready, the frame removed (R162). -/
def Sheaf.releaseFrame (sh : Sheaf) (i : Nat) (f : Frame) : Sheaf :=
  { sh.modFibs f.mask fun l x => { (x.setCc f.ccs[l]).wake with pc := f.pcs[l] } with
    frames := sh.frames.eraseIdx i }

/-- The queue of which seat holds a command. -/
def State.seatOf (s : State) (cmd : Nat) : Option (Nat × Seat) :=
  s.seats.find? fun e => (e.2.mq ++ e.2.cq).any fun c => c.id = cmd

/-- The command as it stands in its queue. -/
def State.cmd? (s : State) (id : Nat) : Option Cmd :=
  match s.hub.find? fun d => d.id = id with
  | some d => some d
  | none => (s.seatOf id).bind fun (e : Nat × Seat) => (e.2.mq ++ e.2.cq).find? fun d => d.id = id

/-- Change one command, of the seats' queues or of the hub die. -/
def State.modCmd (s : State) (cmd : Nat) (g : Cmd → Cmd) : State :=
  let go := fun c : Cmd => if c.id = cmd then g c else c
  { s with seats := amap s.seats fun _ t => { t with mq := t.mq.map go, cq := t.cq.map go }
           hub := s.hub.map go }

/-- Post an event that is not already waiting. -/
def State.postOnce (s : State) (e : Event) : State := if s.events.contains e then s else s.post e

/-- Whether a command moves its progress by rows of a tile. -/
def CmdBody.byRow : CmdBody → Bool
  | .accst .. | .accldm .. => true
  | _ => false

/-- The next unit of a command is to be done (R385, R233, R236); seat commands only. -/
def State.kick (s : State) (cmd : Nat) : State :=
  match s.seatOf cmd with
  | none => s
  | some (key, t) =>
    if t.cq.any fun c => c.id = cmd then s.postOnce (.copyUnit (key / 4) (key % 4) cmd)
    else match t.mq.find? fun c => c.id = cmd with
      | some c => s.postOnce (if !c.started then .matrixCommandStart (key / 4) (key % 4)
          else if c.body.byRow then .tileRowTransfer (key / 4) (key % 4) else .matrixStep (key / 4) (key % 4))
      | none => s

/-- An operation empties its destinations for the lanes still due (R29). -/
def OpRec.empties (o : OpRec) (sh : Sheaf) : Sheaf :=
  let sh1 := o.kind.vregs.foldl (fun sh r => sh.emptyRow r (o.due &&& sh.held) o.pc) sh
  match o.kind with
  | .sload d => sh1.emptyS d o.pc
  | _ => sh1

/-- The fence of a load with ORD = 1 is to come again after its reissue (R171). -/
def Sheaf.again (sh : Sheaf) (o : Nat × OpRec) : Sheaf :=
  let sh1 := { sh with ops := sh.ops ++ [o] }
  match o.2.acq with
  | some sc => sh1.modFibs o.2.due fun _ f => { f with fence := some ((f.fence.map fun x => { x with acq := true }).getD
      ⟨true, false, sc⟩) }
  | none => sh1

/-- Reissue of what a frame recorded (R354): the load for the lanes still due, or the stopped command. -/
def State.reissue (s : State) (u : Nat) (r : Option Replay) : State :=
  match r with
  | none => s
  | some (.load o) => if o.due = 0 then s else
    let (k, s) := s.fresh
    ((s.roomIn u o.kind.vregs).modSheaf u fun sh => (o.empties sh).again (k, { o with sent := 0 })).post (.pageWalk u k)
  | some (.command _ _ cmd) => (s.modCmd cmd fun c => { c with stopped := false, fault := none }).kick cmd

/-- A load is reissued for the lanes still in its frame. -/
def Replay.only (r : Replay) (m : Mask) : Replay :=
  match r with
  | .load o => .load { o with due := o.due &&& m, sent := 0, watched := [], faulted := 0 }
  | c => c

/-- A stopped command whose frame is gone ends with CODE 0x12, which is logged with its fault (R351, R352, R354). -/
def State.endStopped (s : State) (cmd : Nat) : State :=
  let s1 := match s.cmd? cmd with
    | some c => match c.fault with
      | some f => s.logFor c.launch f.1 f.2.1 c.pc
      | none => s.logFor c.launch 0x0E 0 c.pc
    | none => s
  (s1.modCmd cmd fun c => { c with abandon := some 0x12 }).reissue 0 (some (.command 0 0 cmd))

/-- Release every frame that has been returned from (R162, R349); the fuel is the depth of the stack. -/
def State.settleFrames : Nat → State → Nat → State
  | 0, s, _ => s
  | n + 1, s, u =>
    match s.sheaf? u with
    | none => s
    | some sh =>
      match sh.frames.findIdx? Frame.returned with
      | none => s
      | some i =>
        match sh.frames[i]? with
        | none => s
        | some f => State.settleFrames n ((s.modSheaf u fun sh => sh.releaseFrame i f).reissue u (f.replay.map
            (·.only f.mask))) u

/-- Commands that a frame's replay record, or a fault held with an escalation record, has stopped: core, seat, command. -/
def Frame.stops (f : Frame) : List (Nat × Nat × Nat) :=
  match f.replay with
  | some (.command c t k) => [(c, t, k)]
  | _ => []
def Escalation.stops (sh : Sheaf) (e : Escalation) : List (Nat × Nat × Nat) :=
  e.frame.stops ++ e.held.filterMap fun m => m.cmd.map fun k => (sh.core, sh.seat, k)

/-- Frames and escalation records whose mask has become empty are removed; a stopped command of theirs ends, and the driver is
told (R349, R351, R354). -/
def State.dropFrames (s : State) (u : Nat) (m : Mask) : State :=
  match s.sheaf? u with
  | none => s
  | some sh =>
    let fs := sh.frames.map fun f => { f with mask := f.mask &&& ~~~m }
    let es := sh.escalated.map fun e => { e with frame := { e.frame with mask := e.frame.mask &&& ~~~m } }
    let s1 := s.modSheaf u fun sh => { sh with frames := fs.filter (·.mask ≠ 0),
                                               escalated := es.filter (·.frame.mask ≠ 0) }
    let ends := (fs.filter (·.mask = 0)).flatMap Frame.stops ++ (es.filter (·.frame.mask = 0)).flatMap (Escalation.stops sh)
    let s2 := ends.foldl (fun s c => (s.report (.orphan c.1 c.2.1)).endStopped c.2.2) s1
    s2.settleFrames 4 u

/-! ### Leaving (R149) -/

/-- The fibres of a launch: sheaf and lane. -/
def State.population (s : State) (la : Nat) : List (Nat × Fin 32) :=
  s.sheafs.flatMap fun e => if e.2.launch = la then (lanesIn e.2.held).map fun l => (e.1, l) else []

/-- Whether a fibre has arrived at RSMP. -/
def Fibre.atRsmp (f : Fibre) : Bool := match f.park with
  | .rsmp .. => true
  | _ => false

/-- Whether a launch has fibres, each of them at RSMP, and no RSMP that is being completed (R214). -/
def State.gathered (s : State) (la : Nat) : Bool :=
  let p := s.population la
  let arrived := p.all fun e => match s.sheaf? e.1 with
    | some sh => sh.fib e.2 false Fibre.atRsmp
    | none => false
  let running := ((s.launch? la).map fun l => l.rsmp.isSome).getD true
  p ≠ [] && arrived && !running

/-- RSMP is asked to decide when some fibre of the launch is at RSMP and each one is (R214). -/
def State.pollRsmp (s : State) (la : Nat) : State :=
  if s.gathered la && !s.events.any (· = .rsmpDeciding la) then s.post (.rsmpDeciding la) else s

/-- What a lane becomes when its fibre leaves (R12). -/
def State.freedLane (s : State) (la : Nat) (k : ExitKind) : Lane :=
  match s.launch? la with
  | some l => if l.hdr.popcap ≠ 0 then .dormant (some k) else .empty (some k)
  | none => .empty (some k)

/-- When the last live fibre of a bed has left, the bed completes (R149 step 4); a bed in which clones are still to land
has not lost its last fibre (R218, R219). -/
def State.pollBed (s : State) (bk : Nat) : State :=
  match s.bed? bk with
  | none => s
  | some b =>
    let landing := ((s.launch? b.launch).map fun l => l.rsmp.isSome).getD false
    if s.liveOf b = [] && b.status ≠ .completing && !landing then
      (s.modBed bk fun b => { b with status := .completing }).post (.bedCompletion b.launch bk)
    else s

/-- Fibres of a sheaf exit (R149): they leave masks, arrivals and frames, their slots are freed, FreeCheck runs over
every name, and whatever only waited for them goes on. -/
def State.leave (s : State) (u : Nat) (m : Mask) (k : ExitKind) : State :=
  match s.sheaf? u with
  | none => s
  | some sh =>
    if m &&& sh.held = 0 then s else
      let lane := s.freedLane sh.launch k
      let gone := m &&& sh.held
      let s1 := s.modSheaf u fun sh =>
        let sh : Sheaf := { sh.unbatch gone with
          lanes := lanesOf fun l => if hasLane gone l then lane else sh.lanes[l]
          ops := amap sh.ops fun _ o => { o with gone := o.gone ||| (gone &&& o.due) } }
        let sh := sh.arrvs.foldl (fun sh r => sh.arrive r.k gone
          (((s.bed? sh.bed).map fun b => (b.bar r.k).phase).getD 0)) sh
        (sh.leaveBars gone).freeCheckAll
      let s2 := ((s1.dropFrames u gone).leaveArrived sh.bed u gone).completeAll sh.bed
      (s2.pollBed sh.bed).pollRsmp sh.launch

/-! ### Taking an exception (R157, R158, R347, R350) -/

/-- The lanes of a list of faults. -/
def faultMask (fs : List LaneFault) : Mask := maskOf fun l => fs.any fun f => f.lane = l

/-- The fault whose cause, address and INFO a frame shows: the lowest cause, in its lowest lane (R157). -/
def leadingFault : List LaneFault → Option LaneFault
  | [] => none
  | f :: fs =>
    match leadingFault fs with
    | none => some f
    | some g =>
      if g.cause.toNat < f.cause.toNat || (g.cause = f.cause && g.lane.val < f.lane.val) then some g else some f

/-- The frame of a trap (Table 15.2). -/
def frameOf (sh : Sheaf) (bell : Word) (lead : LaneFault) (m : Mask) (fpc : Word) (saved : Fin 32 → Word)
    (replay : Option Replay) : Frame where
  cause := lead.cause
  info := lead.info
  addr := lead.addr
  mask := m
  fpc := fpc
  bell := bell
  pcs := lanesOf saved
  ccs := lanesOf fun l => sh.fib l 0 Fibre.ccBits
  replay := replay
  rte := 0

/-- Whether a push escalates (R158). -/
def escalates (sh : Sheaf) (hvec : Word) : Bool :=
  sh.frames.length ≥ 4 || hvec = 0 || hvec.extractLsb' 0 3 ≠ 0

/-- The push of a frame (R347): each fibre of the mask is in handler at the vector. -/
def Sheaf.pushFrame (sh : Sheaf) (f : Frame) (hvec : Word) : Sheaf :=
  { ((sh.unbatch f.mask).modFibs f.mask fun _ x => { x.wake with pc := hvec }) with
    frames := f :: sh.frames }

/-- A push that escalates (R350): the fibres park on fault, the record is kept. -/
def Sheaf.escalate (sh : Sheaf) (f : Frame) : Sheaf :=
  { ((sh.unbatch f.mask).modFibs f.mask fun _ x => { x with status := .onFault, park := .none }) with
    escalated := sh.escalated ++ [⟨f, []⟩] }

/-- TAKING AN EXCEPTION: the fibres named leave their batch, a frame is pushed or the trap escalates, and what R352
logs is logged. `saved` is each fibre's saved PC. (DEDUCED, log 48.) -/
def State.takeTrap (s : State) (u : Nat) (fs : List LaneFault) (fpc : Word) (saved : Fin 32 → Word)
    (replay : Option Replay) : State :=
  match s.sheaf? u, leadingFault fs with
  | some sh, some lead =>
    let f := frameOf sh s.bell lead (faultMask fs &&& sh.held) fpc saved replay
    let s1 := if lead.log || lead.cause = 0x04 then s.logFor sh.launch lead.cause lead.addr fpc else s
    if escalates sh (s.hvec sh) then
      let s2 := s1.modSheaf u fun sh => sh.escalate f
      let s3 := (s2.logFor sh.launch lead.cause lead.addr fpc).modBed sh.bed fun b => { b with escalated := true }
      match s.launch? sh.launch, s.bed? sh.bed with
      | some la, some b => (s3.report (.escalation la.number b.wid lead.cause)).post (.lift sh.launch sh.bed)
      | _, _ => s3
    else s1.modSheaf u fun sh => sh.pushFrame f (s.hvec sh)
  | _, _ => s

/-- A trap of the issuing sheaf found at issue: each fibre's PC stays at the instruction, and the push is a switch
point (R344). -/
def State.trapAtIssue (s : State) (fs : List LaneFault) : State :=
  if fs = [] then s else
    let sh := s.shf
    (s.takeTrap s.cur fs sh.batchPc sh.pcOf none).modSheaf s.cur Sheaf.switch

/-- The same trap for every lane of a mask. -/
def sameFault (m : Mask) (cause : BitVec 8) (addr : Word) (info : W32) : List LaneFault :=
  (lanesIn m).map fun l => ⟨l, cause, addr, info, false⟩

/-- The illegal-instruction trap (R54, R80): for every fibre of the batch. -/
def State.illegal (s : State) (sub : BitVec 8) : State :=
  s.trapAtIssue (sameFault s.shf.issuing 0x01 0 (sub.setWidth 32))

/-- Lanes in handler: held by some frame's mask (R44). -/
def Sheaf.inHandler (sh : Sheaf) : Mask := sh.frames.foldl (fun m f => m ||| f.mask) 0

end Sys2Proof.Machine
end

