-- ==== Sys2Proof/Machine/Operands.lean ====
section
/-! DEFINITION. Operand forms (R63 to R66), what makes an instruction wait or trap at issue (R30 to R32, R173, R26),
and the two shared runners: a lane instruction acts once for each fibre of the batch, a sheaf instruction once per
batch (R47). -/

namespace Sys2Proof.Machine

/-! ### Sources -/

/-- A v operand of n registers: marks, which operand it is (Table 6.4, INFO[9:8]), and its crossbar kind. -/
structure VOp where
  reg : BitVec 8
  n : Nat
  last : Bool
  trap : Bool
  opnd : BitVec 2
  x : Xbar
  deriving DecidableEq, Repr

def vop (v : VSrc) (n : Nat) (opnd : BitVec 2) : VOp := ⟨v.reg, n, v.last, v.trap, opnd, .straight⟩

/-- Table 2.5: the source lane for lane l; none where the value is 0. -/
def xbarLane (x : Xbar) (l : Fin 32) : Option (Fin 32) :=
  match x with
  | .straight => some l
  | .rot k => some (laneOf (l.val + k.toNat))
  | .bcast k => some (laneOf k.toNat)
  | .fly k => some (laneOf (l.val ^^^ k.toNat))
  | .mirror => some (laneOf (31 - l.val))
  | .up k => if k.toNat ≤ l.val then some (laneOf (l.val - k.toNat)) else none
  | .down k => if l.val + k.toNat ≤ 31 then some (laneOf (l.val + k.toNat)) else none

/-- The v operands of a B source, n registers wide. -/
def bops (b : BSrc) (n : Nat) : List VOp :=
  match b with
  | .lane v x => [⟨v.reg, n, v.last, v.trap, 1, x⟩]
  | .sheaf _ => []

def bsregs : BSrc → List (BitVec 6)
  | .lane _ _ => []
  | .sheaf r => [r]

/-- The 32-bit B value of a lane (R63, R64). -/
def Sheaf.bval (sh : Sheaf) (b : BSrc) (l : Fin 32) : W32 :=
  match b with
  | .lane v x => match xbarLane x l with
    | some m => sh.readLane v.reg m
    | none => 0
  | .sheaf r => loHalf (sh.readS r)

/-- The 64-bit B value of a lane (R63, R64). -/
def Sheaf.bval64 (sh : Sheaf) (b : BSrc) (l : Fin 32) : Word :=
  match b with
  | .lane v x => match xbarLane x l with
    | some m => sh.readPair v.reg m
    | none => 0
  | .sheaf r => sh.readS r

/-- A lane that a read of a register at it finds empty: held by a fibre and not full (R95). -/
def Sheaf.emptyAt (sh : Sheaf) (r : BitVec 8) (m : Fin 32) : Bool := sh.lanes[m].isHeld && !sh.fullLane r m

/-- The lowest-numbered register that lane l finds empty in an operand (R30). -/
def Sheaf.emptyReg (sh : Sheaf) (o : VOp) (l : Fin 32) : Option (BitVec 8) :=
  match xbarLane o.x l with
  | some m => (regRange o.reg o.n).find? fun r => sh.emptyAt r m
  | none => none

/-! ### Readiness of a lane instruction -/

/-- What a lane instruction reads and writes. -/
structure LaneIns where
  g : Guard
  srcs : List VOp
  sregs : List (BitVec 6)
  ccs : List (BitVec 2)
  dests : List (BitVec 8)
  ccd : Option (BitVec 2)
  deriving DecidableEq, Repr

/-- Why an instruction waits: the reason of Table 20.2, the kind of register and its number (Table 20.1). -/
abbrev WaitFor := BitVec 8 × BitVec 2 × BitVec 8

/-- The EMPTY traps of R30 step 1 over a mask of lanes. -/
def Sheaf.emptyFaults (sh : Sheaf) (srcs : List VOp) (m : Mask) : List LaneFault :=
  (lanesIn m).filterMap fun l =>
    (srcs.findSome? fun o => if o.trap then (sh.emptyReg o l).map fun r => (r, o.opnd) else none).map
      fun e => ⟨l, 0x08, 0, 0#22 ++ e.2 ++ e.1, false⟩

/-- A v source without the trap policy that some lane of the mask finds empty (R30 step 2). -/
def Sheaf.waitsOnSrc (sh : Sheaf) (srcs : List VOp) (m : Mask) : Option (BitVec 8) :=
  (lanesIn m).findSome? fun l => srcs.findSome? fun o => if o.trap then none else sh.emptyReg o l

/-- A destination register with an empty lane of the mask (R32). -/
def Sheaf.waitsOnDest (sh : Sheaf) (dests : List (BitVec 8)) (m : Mask) : Option (BitVec 8) :=
  dests.find? fun d => (lanesIn m).any fun l => !sh.fullLane d l

/-- A name whose row is spilled (R26). -/
def Sheaf.spilledName (sh : Sheaf) (names : List (BitVec 8)) : Option (BitVec 8) :=
  names.find? fun n => match sh.row? n with
    | some r => r.spilled
    | none => false

def LaneIns.names (i : LaneIns) : List (BitVec 8) := i.srcs.flatMap (fun o => regRange o.reg o.n) ++ i.dests

/-- First of several reasons to wait. -/
def firstWait : List (Option WaitFor) → Option WaitFor
  | [] => none
  | some w :: _ => some w
  | none :: t => firstWait t

/-- What the lanes whose guard is true wait for, once those that trap EMPTY are gone (R30 step 2, R31, R32, R26). -/
def Sheaf.laneWait (sh : Sheaf) (i : LaneIns) (act : Mask) : Option WaitFor :=
  if act = 0 then none else
    firstWait [
      (sh.waitsOnSrc i.srcs act).map fun r => (0x01, 0, r),
      (i.sregs.find? fun r => !sh.fullS r).map fun r => (0x01, 1, r.setWidth 8),
      (i.ccs.find? fun k => sh.ccEmpty k act).map fun k => (0x01, 2, k.setWidth 8),
      (sh.waitsOnDest i.dests act).map fun r => (0x01, 0, r),
      (i.ccd.filter fun k => sh.ccEmpty k act).map fun k => (0x01, 2, k.setWidth 8),
      (sh.spilledName i.names).map fun r => (0x06, 0, r)]

/-- Readiness: the guard's register empty for some fibre makes the batch wait (R31); otherwise the faults, the
lanes that act and what they wait for. -/
inductive Ready where
  | guardEmpty (k : BitVec 2)
  | waits (faults : List LaneFault) (act : Mask) (w : WaitFor)
  | go (faults : List LaneFault) (act : Mask)
  deriving DecidableEq, Repr

def Sheaf.laneReady (sh : Sheaf) (i : LaneIns) : Ready :=
  if guardReads i.g && sh.ccEmpty i.g.cc sh.issuing then .guardEmpty i.g.cc else
    let act0 := sh.guarded i.g sh.issuing
    let fs := sh.emptyFaults i.srcs act0
    let act := act0 &&& ~~~faultMask fs
    match sh.laneWait i act with
    | some w => .waits fs act w
    | none => .go fs act

/-- The sheaf as an instruction in progress has read it: its s registers are those of its first try (R167). -/
def Sheaf.seen (sh : Sheaf) : Sheaf := { sh with sregs := sh.hold.snap.getD sh.sregs }

/-- An instruction that may be held has read its s registers. -/
def Sheaf.snapped (sh : Sheaf) : Sheaf := { sh with hold := { sh.hold with snap := some (sh.hold.snap.getD sh.sregs) } }

/-- What is still to be ready: s registers that have been read need not be full again. -/
def LaneIns.left (i : LaneIns) (sh : Sheaf) : LaneIns := { i with sregs := if sh.hold.snap.isSome then [] else i.sregs }

/-- Last-read marks (R22, R23): every fibre of the batch that did not trap, whatever its guard. -/
def Sheaf.killAll (sh : Sheaf) (srcs : List VOp) (m : Mask) : Sheaf :=
  srcs.foldl (fun sh o => if o.last then (regRange o.reg o.n).foldl (fun sh r => sh.killRow r m) sh else sh) sh

/-- The names of the sources marked as last reads. -/
def lastRegs (srcs : List VOp) : List (BitVec 8) := (srcs.filter (·.last)).flatMap fun o => regRange o.reg o.n

/-- FreeCheck of each source name (R22). -/
def Sheaf.freeSrcs (sh : Sheaf) (srcs : List VOp) : Sheaf :=
  srcs.foldl (fun sh o => (regRange o.reg o.n).foldl (fun sh r => sh.freeCheck r) sh) sh

/-- R191, R223: a source read of an s register with a completion time raises the horizon of the batch. -/
def Sheaf.takeTimes (sh : Sheaf) (rs : List (BitVec 6)) (m : Mask) : Sheaf :=
  match rs.filterMap fun r => aget sh.stime r.toNat with
  | [] => sh
  | ts => sh.modFibs m fun _ f => { f with horizon := maxWord (f.horizon :: ts) }

/-! ### Spilled names (R26) -/

/-- Room for the destination names of an instruction that are not mapped (R26). -/
def State.roomFor (s : State) (dests : List (BitVec 8)) : State := s.roomIn s.cur dests

/-- A stalled name is asked for (R26): its refill is on its way. -/
def State.askRefill (s : State) (names : List (BitVec 8)) : State :=
  match s.shf.spilledName names with
  | some n => if s.events.any (· = .rowRefill s.cur n.toNat) then s else s.post (.rowRefill s.cur n.toNat)
  | none => s

/-! ### The runners -/

/-- Push the frame of lanes that trapped while the rest of the batch stays where it is or has moved on: `old` is
the sheaf at issue (R344). -/
def State.trapLanes (s : State) (old : Sheaf) (fs : List LaneFault) : State :=
  if fs = [] then s else
    (s.takeTrap s.cur fs old.batchPc old.pcOf none).modSheaf s.cur Sheaf.switch

/-- A LANE INSTRUCTION that completes at issue. `eff old act sh` gives the sheaf after the writes: it reads the sheaf
as it was (R22), acts for the lanes of `act`, and changes the sheaf `sh`, whose last reads have been applied. -/
def State.laneStep (s : State) (i : LaneIns) (eff : Sheaf → Mask → Sheaf → Sheaf) : State :=
  let sh := s.shf
  if sh.issuing = 0 then s else
    match sh.laneReady i with
    | .guardEmpty k => s.await 0x01 2 (k.setWidth 8)
    | .waits fs _ w => if fs = [] then (s.await w.1 w.2.1 w.2.2).askRefill i.names else s.trapLanes sh fs
    | .go fs act =>
      let m := sh.issuing &&& ~~~faultMask fs
      let s1 := if act = 0 then s else s.roomFor i.dests
      let sh1 := (sh.takeTimes i.sregs m).killAll i.srcs m
      let sh2 := ((eff sh act sh1).freeSrcs i.srcs).advance m
      (s1.setShf sh2).trapLanes sh fs

/-- What a sheaf instruction waits for (R31, R32). -/
def Sheaf.sheafWait (sh : Sheaf) (srcs dests : List (BitVec 6)) (scd : Option (BitVec 2)) : Option WaitFor :=
  firstWait [
    (srcs.find? fun r => !sh.fullS r).map fun r => (0x01, 1, r.setWidth 8),
    (dests.find? fun r => !sh.fullS r).map fun r => (0x01, 1, r.setWidth 8),
    (scd.filter fun k => !sh.fullSc k).map fun k => (0x01, 3, k.setWidth 8)]

/-- A SHEAF INSTRUCTION: the guard over sc0 to sc3, a false guard passing the batch on without effect (R36, R140);
then what it waits for; then its effect `k`, which also moves the batch. (DEDUCED, log 23.) -/
def State.sheafStep (s : State) (g : Guard) (srcs dests : List (BitVec 6)) (scd : Option (BitVec 2))
    (k : State → State) : State :=
  let sh := s.shf
  if sh.issuing = 0 then s else
    if guardReads g && !sh.fullSc g.cc then s.await 0x01 3 (g.cc.setWidth 8)
    else if !condHolds g.cond (sh.readSc g.cc) then s.setShf (sh.advance sh.issuing)
    else match sh.sheafWait srcs dests scd with
      | some w => s.await w.1 w.2.1 w.2.2
      | none => k (s.setShf (sh.takeTimes srcs sh.issuing))

/-- A sheaf instruction that may be held once it has read its registers (R167, R220): from then on it is neither guarded nor
made to wait for them again, and `k` reads them through `Sheaf.seen`. -/
def State.heldStep (s : State) (g : Guard) (srcs dests : List (BitVec 6)) (scd : Option (BitVec 2)) (k : State → State) :
    State :=
  if s.shf.hold.snap.isSome && decide (s.shf.issuing ≠ 0) then k s
  else s.sheafStep g srcs dests scd fun s => k (s.setShf s.shf.snapped)

/-- The effect of a sheaf instruction that only changes its sheaf and moves the batch to the next PC. -/
def State.sheafDone (s : State) (f : Sheaf → Sheaf) : State :=
  s.setShf ((f s.shf).advance s.shf.issuing)

end Sys2Proof.Machine
end

