-- ==== Sys2Proof/Machine/Integer.lean ====
section
/-! DEFINITION. The integer lane instructions (R83 to R90, Tables 3.2 and 3.3), one meaning each over the shared
runner. -/

namespace Sys2Proof.Machine

/-- The outcome of an instruction. -/
abbrev Out := Host.Outcome State Fault Refusal

/-- The state after an outcome that goes on; the one before it otherwise. -/
def nextOr (s : State) (o : Out) : State :=
  match o with
  | .next t => t
  | _ => s

/-- Flags into c[k] for the lanes of a mask (R83); none where SF = 0. -/
def Sheaf.setFlags (sh : Sheaf) (fl : SetFlags) (m : Mask) (f : Fin 32 → CcVal) : Sheaf :=
  match fl with
  | some k => sh.modFibs m fun l x => x.writeC k (f l)
  | none => sh

/-- A lane instruction with a 32-bit result: `f` gives each lane its value and flags from the sheaf at issue. -/
def aluRun (s : State) (i : LaneIns) (d : BitVec 8) (fl : SetFlags) (f : Sheaf → Fin 32 → W32 × CcVal) : State :=
  s.laneStep i fun old act sh =>
    (sh.writeRow d act fun l => (f old l).1).setFlags fl act fun l => (f old l).2

/-- The same with a 64-bit result to the pair D:D+1 (R88). -/
def aluRun64 (s : State) (i : LaneIns) (d : BitVec 8) (fl : SetFlags) (f : Sheaf → Fin 32 → Word × CcVal) : State :=
  s.laneStep i fun old act sh =>
    (sh.writePair d act fun l => (f old l).1).setFlags fl act fun l => (f old l).2

/-- A compare: flags only. -/
def cmpRun (s : State) (i : LaneIns) (k : BitVec 2) (f : Sheaf → Fin 32 → CcVal) : State :=
  s.laneStep i fun old act sh => sh.setFlags (some k) act (f old)

def insA (g : Guard) (d : BitVec 8) (a : VSrc) (fl : SetFlags) : LaneIns := ⟨g, [vop a 1 0], [], [], [d], fl⟩
def insAB (g : Guard) (d : BitVec 8) (a : VSrc) (b : BSrc) (fl : SetFlags) : LaneIns :=
  ⟨g, vop a 1 0 :: bops b 1, bsregs b, [], [d], fl⟩
def insABC (g : Guard) (d : BitVec 8) (a : VSrc) (b : BSrc) (c : VSrc) (fl : SetFlags) : LaneIns :=
  ⟨g, vop a 1 0 :: bops b 1 ++ [vop c 1 2], bsregs b, [], [d], fl⟩

def runA (o : OpA) (f : W32 → W32 × CcVal) (s : State) : State :=
  aluRun s (insA o.g o.d o.a o.fl) o.d o.fl fun sh l => f (sh.readLane o.a.reg l)
def runAB (o : OpAB) (f : W32 → W32 → W32 × CcVal) (s : State) : State :=
  aluRun s (insAB o.g o.d o.a o.b o.fl) o.d o.fl fun sh l => f (sh.readLane o.a.reg l) (sh.bval o.b l)
def runABU (o : OpABU) (f : Bool → W32 → W32 → W32 × CcVal) (s : State) : State :=
  aluRun s (insAB o.g o.d o.a o.b o.fl) o.d o.fl fun sh l => f o.uns (sh.readLane o.a.reg l) (sh.bval o.b l)
/-- IADC and ISBC: the carry comes from c[k], which is a source (R85). -/
def runABK (o : OpABK) (f : W32 → W32 → Bool → W32 × CcVal) (s : State) : State :=
  aluRun s { insAB o.g o.d o.a o.b o.fl with ccs := [o.k] } o.d o.fl fun sh l =>
    f (sh.readLane o.a.reg l) (sh.bval o.b l) (sh.fib l false fun x => flagC (x.readC o.k))
def runABC (o : OpABC) (f : W32 → W32 → W32 → W32 × CcVal) (s : State) : State :=
  aluRun s (insABC o.g o.d o.a o.b o.c o.fl) o.d o.fl fun sh l =>
    f (sh.readLane o.a.reg l) (sh.bval o.b l) (sh.readLane o.c.reg l)

def execIadd (o : OpAB) (s : State) : Out := .next (runAB o (fun a b => addWith a b false) s)
def execIsub (o : OpAB) (s : State) : Out := .next (runAB o (fun a b => subWith a b false) s)
def execIadc (o : OpABK) (s : State) : Out := .next (runABK o (fun a b c => addWith a b c) s)
def execIsbc (o : OpABK) (s : State) : Out := .next (runABK o (fun a b c => subWith a b !c) s)
def execImul (o : OpAB) (s : State) : Out := .next (runAB o (fun a b => mulWith a b) s)
def execImulh (o : OpABU) (s : State) : Out := .next (runABU o (fun u a b => logOf (mulHigh u a b)) s)
def execImad (o : OpABC) (s : State) : Out := .next (runABC o (fun a b c => logOf (a * b + c)) s)
def execImin (o : OpABU) (s : State) : Out := .next (runABU o (fun u a b => logOf (minOf u a b)) s)
def execImax (o : OpABU) (s : State) : Out := .next (runABU o (fun u a b => logOf (maxOf u a b)) s)
def execIabs (o : OpA) (s : State) : Out := .next (runA o absWith s)
def execAnd (o : OpAB) (s : State) : Out := .next (runAB o (fun a b => logOf (a &&& b)) s)
def execOr (o : OpAB) (s : State) : Out := .next (runAB o (fun a b => logOf (a ||| b)) s)
def execXor (o : OpAB) (s : State) : Out := .next (runAB o (fun a b => logOf (a ^^^ b)) s)
def execAndn (o : OpAB) (s : State) : Out := .next (runAB o (fun a b => logOf (a &&& ~~~b)) s)
def execShl (o : OpAB) (s : State) : Out := .next (runAB o (fun a b => logOf (shiftL a b.toNat)) s)
def execShr (o : OpAB) (s : State) : Out := .next (runAB o (fun a b => logOf (shiftR a b.toNat)) s)
def execSar (o : OpAB) (s : State) : Out := .next (runAB o (fun a b => logOf (shiftA a b.toNat)) s)
def execRol (o : OpAB) (s : State) : Out := .next (runAB o (fun a b => logOf (a.rotateLeft (b.toNat % 32))) s)
def execBfx (o : OpABU) (s : State) : Out := .next (runABU o (fun u a b => logOf (bitExtract u a b)) s)
def execBfi (o : OpABC) (s : State) : Out := .next (runABC o (fun a b c => logOf (bitInsert a b c)) s)
def execPopc (o : OpA) (s : State) : Out := .next (runA o (fun a => logOf (popCount a)) s)
def execClz (o : OpA) (s : State) : Out := .next (runA o (fun a => logOf (leadZeros a)) s)
def execBrev (o : OpA) (s : State) : Out := .next (runA o (fun a => logOf (bitReverse a)) s)

/-- ICMP: the flags of a − b (R34). -/
def execIcmp (o : OpCmp) (s : State) : Out :=
  .next (cmpRun s ⟨o.g, vop o.a 1 0 :: bops o.b 1, bsregs o.b, [], [], some o.k⟩ o.k fun sh l =>
    (subWith (sh.readLane o.a.reg l) (sh.bval o.b l) false).2)

/-- SEL: the C field is a guard whose c register is a source (R87). -/
def execSel (o : OpSel) (s : State) : Out :=
  .next (aluRun s { insAB o.g o.d o.a o.b o.fl with ccs := if guardReads o.sel then [o.sel.cc] else [] } o.d o.fl
    fun sh l => logOf (if sh.fib l false (guardOf o.sel) then sh.readLane o.a.reg l else sh.bval o.b l))

def execMov (o : OpB) (s : State) : Out :=
  .next (aluRun s ⟨o.g, bops o.b 1, bsregs o.b, [], [o.d], o.fl⟩ o.d o.fl fun sh l => logOf (sh.bval o.b l))

/-- The operands of a 64-bit instruction with pairs A and B (R88). -/
def ins64 (g : Guard) (d : BitVec 8) (a : VSrc) (b : BSrc) (fl : SetFlags) : LaneIns :=
  ⟨g, vop a 2 0 :: bops b 2, bsregs b, [], [d, d + 1], fl⟩

def execIadd64 (o : OpAB) (s : State) : Out :=
  .next (aluRun64 s (ins64 o.g o.d o.a o.b o.fl) o.d o.fl fun sh l =>
    addWith (sh.readPair o.a.reg l) (sh.bval64 o.b l) false)
def execIsub64 (o : OpAB) (s : State) : Out :=
  .next (aluRun64 s (ins64 o.g o.d o.a o.b o.fl) o.d o.fl fun sh l =>
    subWith (sh.readPair o.a.reg l) (sh.bval64 o.b l) false)
def execImulw (o : OpABU) (s : State) : Out :=
  .next (aluRun64 s ⟨o.g, vop o.a 1 0 :: bops o.b 1, bsregs o.b, [], [o.d, o.d + 1], o.fl⟩ o.d o.fl fun sh l =>
    logOf (mulWide o.uns (sh.readLane o.a.reg l) (sh.bval o.b l)))
def execLea (o : OpLea) (s : State) : Out :=
  .next (aluRun64 s ⟨o.g, vop o.a 2 0 :: bops o.b 1, bsregs o.b, [], [o.d, o.d + 1], o.fl⟩ o.d o.fl fun sh l =>
    addWith (sh.readPair o.a.reg l) (scaledOffset o.uns (sh.bval o.b l) o.sh) false)
def execIcmp64 (o : OpCmp) (s : State) : Out :=
  .next (cmpRun s ⟨o.g, vop o.a 2 0 :: bops o.b 2, bsregs o.b, [], [], some o.k⟩ o.k fun sh l =>
    (subWith (sh.readPair o.a.reg l) (sh.bval64 o.b l) false).2)

/-! ### With an immediate (R90) -/

/-- i = sext(IMM24, 32). -/
def imm32 (i : BitVec 24) : W32 := i.signExtend 32

def runI (o : OpI) (f : W32 → W32 × CcVal) (s : State) : State :=
  aluRun s (insA o.g o.d o.a o.fl) o.d o.fl fun sh l => f (sh.readLane o.a.reg l)

def execIaddi (o : OpI) (s : State) : Out := .next (runI o (fun a => addWith a (imm32 o.imm) false) s)
def execImuli (o : OpI) (s : State) : Out := .next (runI o (fun a => mulWith a (imm32 o.imm)) s)
def execAndi (o : OpI) (s : State) : Out := .next (runI o (fun a => logOf (a &&& imm32 o.imm)) s)
def execOri (o : OpI) (s : State) : Out := .next (runI o (fun a => logOf (a ||| imm32 o.imm)) s)
def execXori (o : OpI) (s : State) : Out := .next (runI o (fun a => logOf (a ^^^ imm32 o.imm)) s)
def execShli (o : OpI) (s : State) : Out := .next (runI o (fun a => logOf (shiftL a o.imm.toNat)) s)
def execShri (o : OpI) (s : State) : Out := .next (runI o (fun a => logOf (shiftR a o.imm.toNat)) s)
def execSari (o : OpI) (s : State) : Out := .next (runI o (fun a => logOf (shiftA a o.imm.toNat)) s)
def execMovhi (o : OpI) (s : State) : Out := .next (runI o (fun a => logOf (moveHigh a o.imm)) s)
def execMovi (o : OpMovi) (s : State) : Out :=
  .next (aluRun s ⟨o.g, [], [], [], [o.d], o.fl⟩ o.d o.fl fun _ _ => logOf (imm32 o.imm))
def execIcmpi (o : OpCmpI) (s : State) : Out :=
  .next (cmpRun s ⟨o.g, [vop o.a 1 0], [], [], [], some o.k⟩ o.k fun sh l =>
    (subWith (sh.readLane o.a.reg l) (imm32 o.imm) false).2)
def execLeai (o : OpI) (s : State) : Out :=
  .next (aluRun64 s ⟨o.g, [vop o.a 2 0], [], [], [o.d, o.d + 1], o.fl⟩ o.d o.fl fun sh l =>
    addWith (sh.readPair o.a.reg l) (o.imm.signExtend 64) false)

end Sys2Proof.Machine
end

