-- ==== Sys2Proof/Machine/SheafOps.lean ====
section
/-! DEFINITION. Sheaf arithmetic (R91, Table 3.4) and the per-sheaf special registers (R39 to R43, R93, R387). -/

namespace Sys2Proof.Machine

/-- A sheaf instruction that writes one s register from others. -/
def sRun (s : State) (g : Guard) (srcs : List (BitVec 6)) (d : BitVec 6) (f : Sheaf → Word) : State :=
  s.sheafStep g srcs [d] none fun s => s.sheafDone fun sh => sh.writeS d (f sh)

def sRunAB (o : SopAB) (f : Word → Word → Word) (s : State) : State :=
  sRun s o.g [o.a, o.b] o.d fun sh => f (sh.readS o.a) (sh.readS o.b)

/-- A sheaf compare writes sc[k] with the sub class at 64 bits (R91). -/
def sCmp (s : State) (g : Guard) (srcs : List (BitVec 6)) (k : BitVec 2) (f : Sheaf → CcVal) : State :=
  s.sheafStep g srcs [] (some k) fun s => s.sheafDone fun sh => sh.writeSc k (f sh)

def imm64 (i : BitVec 30) : Word := i.signExtend 64

def execSadd (o : SopAB) (s : State) : Out := .next (sRunAB o (fun a b => a + b) s)
def execSsub (o : SopAB) (s : State) : Out := .next (sRunAB o (fun a b => a - b) s)
def execSmul (o : SopAB) (s : State) : Out := .next (sRunAB o (fun a b => a * b) s)
def execSand (o : SopAB) (s : State) : Out := .next (sRunAB o (fun a b => a &&& b) s)
def execSor (o : SopAB) (s : State) : Out := .next (sRunAB o (fun a b => a ||| b) s)
def execSxor (o : SopAB) (s : State) : Out := .next (sRunAB o (fun a b => a ^^^ b) s)
def execSshl (o : SopAB) (s : State) : Out := .next (sRunAB o (fun a b => shiftL a b.toNat) s)
def execSshr (o : SopAB) (s : State) : Out := .next (sRunAB o (fun a b => shiftR a b.toNat) s)
def execSsar (o : SopAB) (s : State) : Out := .next (sRunAB o (fun a b => shiftA a b.toNat) s)
def execSmov (o : SopA) (s : State) : Out := .next (sRun s o.g [o.a] o.d fun sh => sh.readS o.a)
def execSaddi (o : SopAI) (s : State) : Out := .next (sRun s o.g [o.a] o.d fun sh => sh.readS o.a + imm64 o.imm)
def execSmovi (o : SopI) (s : State) : Out := .next (sRun s o.g [] o.d fun _ => imm64 o.imm)
/-- SMOVHI reads s[D] as a source (R91). -/
def execSmovhi (o : SopI) (s : State) : Out :=
  .next (sRun s o.g [o.d] o.d fun sh => o.imm.signExtend 34 ++ (sh.readS o.d).setWidth 30)
def execScmp (o : SopCmp) (s : State) : Out :=
  .next (sCmp s o.g [o.a, o.b] o.k fun sh => (subWith (sh.readS o.a) (sh.readS o.b) false).2)
def execScmpi (o : SopCmpI) (s : State) : Out :=
  .next (sCmp s o.g [o.a] o.k fun sh => (subWith (sh.readS o.a) (imm64 o.imm) false).2)

/-! ### Special registers -/

/-- WB and the other field sums of R15 and R16: the bits below level n. -/
def Header.bitsBelow (h : Header) (n : Nat) : Nat := (h.widths.take n).sum

/-- $core: the placement number of a core within its die (R43, R332): the cores of a die in the order the driver
gave their clusters. -/
def State.placement (s : State) (part core : Nat) : Nat × Nat :=
  match s.part? part with
  | none => (0, 0)
  | some p =>
    let dies := (p.clusters.map fun c => c / 32 % 4).eraseDups
    let die := (dies.findIdx? fun d => d = dieOf core).getD 0
    let mine := p.clusters.filter fun c => c / 32 % 4 = dieOf core
    let k := (mine.findIdx? fun c => c = clusterOf core).getD 0
    (die, k * 4 + core % 4)

/-- The launch of a sheaf. -/
def State.launchOf (s : State) (sh : Sheaf) : Option Launch := s.launch? sh.launch

/-- Table 1.4: the value SRD reads (R39), zero-extended. -/
def State.special (s : State) (sh : Sheaf) (sel : SSpecial) : Word :=
  match sel with
  | .bell => s.bell
  | .seat => BitVec.ofNat 64 sh.seat
  | .bed => ((s.bed? sh.bed).map (·.wid)).getD 0
  | .sheaf => BitVec.ofNat 64 sh.index
  | .launch => ((s.launchOf sh).map fun l => l.number.setWidth 64).getD 0
  | .seed => ((s.launchOf sh).map (·.hdr.seed)).getD 0
  | .pool => ((s.launchOf sh).map fun l => l.hdr.pool.setWidth 64).getD 0
  | .trellis => sh.trellis
  | .hvec => s.hvec sh
  | .tdepth => BitVec.ofNat 64 sh.frames.length
  | .mprog => ((s.seat? sh.core sh.seat).map (·.mprog)).getD 0
  | .notice => sh.notice.setWidth 64
  | .fpflags => sh.fpflags.setWidth 64

/-- SRD (R93); of $bell the value arrives later (R29). -/
def execSrd (o : SopSrd) (s : State) : Out :=
  .next (s.sheafStep o.g [] [o.d] none fun s =>
    let x := s.special s.shf o.sel
    if o.sel ≠ .bell then s.sheafDone fun sh => sh.writeS o.d x
    else if s.shf.opsFull then s.await 0x02 0 0
    else (s.addResult (.token o.d) s.shf.issuing fun _ => x.setWidth 128).sheafDone fun sh => sh.emptyS o.d s.shf.batchPc)

/-- A write to $mprog is acted on only while the head matrix command is stopped (R230, R387): the reissue starts at
the step written, ends at once when that is the count or more, or is abandoned when bit 63 is set. -/
def Cmd.progress (c : Cmd) (x : Word) : Cmd :=
  if !c.stopped then c
  else if x.msb then { c with abandon := some 0x06, units := x.toNat % 32768 }
  else { c with units := x.toNat }

def State.writeMprog (s : State) (sh : Sheaf) (x : Word) : State :=
  s.modSeat sh.core sh.seat fun t => match t.mq with
    | c :: rest => if c.stopped then { t with mq := c.progress x :: rest, mprog := x } else t
    | [] => t

/-- SWR (R39 to R42, R93): $notice is write-one-to-clear; $fpflags also masks each fibre of the batch; a write to
$mprog with no frame on the stack is refused with subcode 0x0C (R39). -/
def execSwr (o : SopSwr) (s : State) : Out :=
  if o.sel = .mprog && s.shf.frames = [] && s.shf.issuing ≠ 0 then .next (s.illegal 0x0C) else
  .next (s.sheafStep o.g [o.a] [] none fun s =>
    let sh := s.shf
    let x := sh.readS o.a
    match o.sel with
    | .trellis => s.sheafDone fun sh => { sh with trellis := x }
    | .hvec => (s.modSeat sh.core sh.seat fun t => { t with hvec := x }).sheafDone id
    | .mprog => (s.writeMprog sh x).sheafDone id
    | .notice => s.sheafDone fun sh => { sh with notice := sh.notice &&& ~~~(x.setWidth 2) }
    | .fpflags => s.sheafDone fun sh =>
        { sh.modFibs sh.issuing fun _ f => { f with fpflags := f.fpflags &&& x.setWidth 5 } with
          fpflags := x.setWidth 5 }
    | _ => s.illegal 0x0C)

end Sys2Proof.Machine
end

