-- ==== Sys2Proof/Machine/Crossing.lean ====
section
/-! DEFINITION. The lane-crossing instructions (R94 to R98) and VSRD (R37). REDUX and SCANX stand with the floating-point
operations they share. -/

namespace Sys2Proof.Machine

/-- Read A of another lane, chosen per lane by `m` (none reads 0), under R95: the lane read is empty when its slot is
held and it is not full. -/
def crossRun (s : State) (g : Guard) (d : BitVec 8) (a b : VSrc) (m : Sheaf → Fin 32 → Option (Fin 32)) : State :=
  let sh := s.shf
  if sh.issuing = 0 then s else
    let base : LaneIns := ⟨g, [vop b 1 1], [], [], [d], none⟩
    if guardReads g && sh.ccEmpty g.cc sh.issuing then s.await 0x01 2 (g.cc.setWidth 8) else
      let act0 := sh.guarded g sh.issuing
      -- A's own lane stands first among the operands (R30); B must be read to know which lane of A is read.
      let far := fun l : Fin 32 => if sh.emptyAt b.reg l then none else (m sh l).filter fun k => sh.emptyAt a.reg k
      let fa := if a.trap then (lanesIn act0).filterMap fun l => (far l).map fun _ =>
        (⟨l, 0x08, 0, 0#22 ++ 0#2 ++ a.reg, false⟩ : LaneFault) else []
      let fb := (sh.emptyFaults base.srcs act0).filter fun f => !(fa.any fun g => g.lane = f.lane)
      let fs := fa ++ fb
      let act := act0 &&& ~~~faultMask fs
      let ws := if (lanesIn act).any fun l => (far l).isSome then some ((0x01, 0, a.reg) : WaitFor) else none
      match firstWait [ws, sh.laneWait { base with srcs := [{ vop a 1 0 with x := .straight, n := 0 }, vop b 1 1] } act,
          if act = 0 then none else (sh.spilledName [a.reg]).map fun r => (0x06, 0, r)] with
      | some w => if fs = [] then (s.await w.1 w.2.1 w.2.2).askRefill [a.reg, b.reg, d] else s.trapLanes sh fs
      | none =>
        let bt := sh.issuing &&& ~~~faultMask fs
        let s1 := if act = 0 then s else s.roomFor [d]
        let srcs := [vop a 1 0, vop b 1 1]
        let sh1 := (sh.killAll srcs bt).writeRow d act fun l => match m sh l with
          | some k => sh.readLane a.reg k
          | none => 0
        (s1.setShf ((sh1.freeSrcs srcs).advance bt)).trapLanes sh fs

/-- PERM: A at the lane v[B][4:0] (Table 3.5). -/
def execPerm (o : OpPerm) (s : State) : Out :=
  .next (crossRun s o.g o.d o.a o.b fun sh l => some (laneOf (sh.readLane o.b.reg l).toNat))

/-- XMOV: the crossbar kinds rot, fly, up and down with a per-fibre amount v[B][4:0]. -/
def xmovKind (k : XmovKind) (n : BitVec 5) : Xbar :=
  match k with
  | .rot => .rot n
  | .fly => .fly n
  | .up => .up n
  | .down => .down n

def execXmov (o : OpXmov) (s : State) : Out :=
  .next (crossRun s o.g o.d o.a o.b fun sh l => xbarLane (xmovKind o.kind ((sh.readLane o.b.reg l).setWidth 5)) l)

/-- A lane instruction whose participants see one another's A (R94). -/
def voteRun (s : State) (g : Guard) (d : BitVec 8) (a : VSrc) (n : Nat) (f : Sheaf → Mask → Fin 32 → W32) : State :=
  s.laneStep ⟨g, [vop a n 0], [], [], [d], none⟩ fun old act sh => sh.writeRow d act (f old act)

/-- VOTE (R97). -/
def voteValue (mode : VoteMode) (sh : Sheaf) (a : BitVec 8) (act : Mask) : W32 :=
  let yes := maskOf fun l => hasLane act l && sh.readLane a l ≠ 0
  match mode with
  | .any => if yes ≠ 0 then 1 else 0
  | .all => if yes = act then 1 else 0
  | .ballot => yes
  | .eq => match (lanesIn act).map (sh.readLane a) with
    | [] => 1
    | x :: t => if t.all (· = x) then 1 else 0

def execVote (o : OpVote) (s : State) : Out :=
  .next (voteRun s o.g o.d o.a 1 fun sh act _ => voteValue o.mode sh o.a.reg act)

/-- MATCH (Table 3.5). -/
def execMatchv (o : OpMatch) (s : State) : Out :=
  .next (voteRun s o.g o.d o.a (if o.w64 then 2 else 1) fun sh act l =>
    maskOf fun j => hasLane act j && (if o.w64 then sh.readPair o.a.reg j == sh.readPair o.a.reg l
      else sh.readLane o.a.reg j == sh.readLane o.a.reg l))

/-- The lane V2S reads (R98). -/
def v2sLane (w : V2sLane) (act : Mask) : Option (Fin 32) :=
  match w with
  | .lane k => some (laneOf k.toNat)
  | .first => lowestLane act

/-- V2S (R98): one read for the whole batch; every participant counts as a reading fibre of it; s[D] is
empty until the value arrives (R29). -/
def execV2s (o : OpV2s) (s : State) : Out :=
  .next (
    let sh := s.shf
    let n := if o.w64 then 2 else 1
    if sh.issuing = 0 then s else
    if guardReads o.g && sh.ccEmpty o.g.cc sh.issuing then s.await 0x01 2 (o.g.cc.setWidth 8) else
    let act := sh.guarded o.g sh.issuing
    let src := vop o.a n 0
    let pass := fun (sh' : Sheaf) => ((sh'.killAll [src] sh.issuing).freeSrcs [src]).advance sh.issuing
    if act = 0 then s.setShf (pass sh) else
    match v2sLane o.from_ act with
    | none => s.setShf (pass sh)
    | some m =>
      match (regRange o.a.reg n).find? fun r => sh.emptyAt r m with
      | some r =>
        if o.a.trap then
          let bt := sh.issuing &&& ~~~act
          (s.setShf (((sh.killAll [src] bt).freeSrcs [src]).advance bt)).trapLanes sh
            (sameFault act 0x08 0 (0#24 ++ r))
        else s.await 0x01 0 r
      | none =>
        if !sh.fullS o.d then s.await 0x01 1 (o.d.setWidth 8) else
        match sh.spilledName (regRange o.a.reg n) with
        | some r => (s.await 0x06 0 r).askRefill (regRange o.a.reg n)
        | none =>
          if sh.opsFull then s.await 0x02 0 0 else
          let x := if o.w64 then sh.readPair o.a.reg m else zext64 (sh.readLane o.a.reg m)
          (s.addResult (.token o.d) sh.issuing fun _ => x.setWidth 128).modSheaf s.cur fun x =>
            pass (x.emptyS o.d sh.batchPc))

/-- Table 1.3: the value VSRD reads for a fibre. -/
def State.laneSpecial (s : State) (sh : Sheaf) (sel : VSpecial) (l : Fin 32) : W32 :=
  match sel with
  | .lane => BitVec.ofNat 32 l.val
  | .widlo => sh.fib l 0 fun f => loHalf f.wid
  | .widhi => sh.fib l 0 fun f => hiHalf f.wid
  | .ranklo => sh.fib l 0 fun f => loHalf f.rank
  | .rankhi => sh.fib l 0 fun f => hiHalf f.rank
  | .parentlo => sh.fib l 0 fun f => loHalf f.parent
  | .parenthi => sh.fib l 0 fun f => hiHalf f.parent
  | .linlo => sh.fib l 0 fun f => loHalf f.lineage
  | .linhi => sh.fib l 0 fun f => hiHalf f.lineage
  | .belllo => loHalf s.bell
  | .bellhi => hiHalf s.bell
  | .core => BitVec.ofNat 32 (s.placement (((s.launchOf sh).map (·.part)).getD 0) sh.core).2
  | .die => BitVec.ofNat 32 (s.placement (((s.launchOf sh).map (·.part)).getD 0) sh.core).1
  | .fpflags => sh.fib l 0 fun f => f.fpflags.setWidth 32

/-- VSRD (R37, R94). -/
def execVsrd (o : OpVsrd) (s : State) : Out :=
  .next (s.laneStep ⟨o.g, [], [], [], [o.d], none⟩ fun old act sh =>
    sh.writeRow o.d act fun l => s.laneSpecial old o.sel l)

end Sys2Proof.Machine
end

