-- ==== Sys2Proof/Machine/Num.lean ====
section
/-! DEFINITION. Number formats and rounding (R100 to R109): exact values, Round, the exception flags, the special
functions of R106, and the narrow formats. -/

namespace Sys2Proof.Machine

/-- A floating-point format of Table 4.2: exponent and fraction bits. -/
structure Fmt where
  eb : Nat
  fb : Nat
  deriving DecidableEq, Repr

def fp32 : Fmt := ⟨8, 23⟩
def fp16 : Fmt := ⟨5, 10⟩
def bf16 : Fmt := ⟨8, 7⟩

def Fmt.bias (f : Fmt) : Nat := 2 ^ (f.eb - 1) - 1
/-- Exponent of the subnormal grid: the weight of the least significant fraction bit there. -/
def Fmt.grid (f : Fmt) : Int := 1 - (f.bias : Int) - f.fb
def Fmt.ones (f : Fmt) : Nat := 2 ^ f.eb - 1
def Fmt.signBit (f : Fmt) : Nat := 2 ^ (f.eb + f.fb)
/-- The default NaN (R102). -/
def Fmt.nan (f : Fmt) : Nat := f.ones * 2 ^ f.fb + 2 ^ (f.fb - 1)
def Fmt.inf (f : Fmt) : Nat := f.ones * 2 ^ f.fb

/-- An exact value: a NaN, an infinity, or m × 2^e with a sign; m = 0 is a signed zero. -/
inductive FVal where
  | nan (sig : Bool)
  | inf (neg : Bool)
  | fin (neg : Bool) (m : Nat) (e : Int)
  deriving DecidableEq, Repr

/-- The value of a bit pattern (R101). -/
def unpackF (f : Fmt) (x : Nat) : FVal :=
  let s := decide (x / f.signBit % 2 = 1)
  let ex := x / 2 ^ f.fb % 2 ^ f.eb
  let fr := x % 2 ^ f.fb
  if ex = f.ones then (if fr = 0 then .inf s else .nan (fr < 2 ^ (f.fb - 1)))
  else if ex = 0 then .fin s fr f.grid
  else .fin s (fr + 2 ^ f.fb) (ex + f.grid - 1)

/-- Exception flags (R42): NV, DZ, OF, UF, NX from bit 0 up. -/
abbrev Exc := BitVec 5
def excNV : Exc := 1
def excDZ : Exc := 2
def excOF : Exc := 4
def excUF : Exc := 8
def excNX : Exc := 16

/-- A delivered pattern with its exceptions. -/
abbrev FOut := Nat × Exc

/-- Bits of a number, 0 for 0. -/
def bitLen (m : Nat) : Nat := if m = 0 then 0 else Nat.log2 m + 1

/-- Whether a magnitude is rounded away from zero, given the last kept bit, the comparison of what is dropped with one
half (2 rem against 2^k), and the mode (Table 2.4). -/
def roundsUp (md : Rounding) (neg odd : Bool) (rem half : Nat) (sticky : Bool) : Bool :=
  let inexact := rem ≠ 0 || sticky
  match md with
  | .rn => half < 2 * rem || (2 * rem = half && (sticky || odd))
  | .rz => false
  | .rp => inexact && !neg
  | .rm => inexact && neg

/-- m × 2^e (and a little more where `sticky`) rounded to a multiple of 2^q: the multiple, and whether it is inexact. -/
def roundAt (md : Rounding) (neg : Bool) (m : Nat) (e : Int) (sticky : Bool) (q : Int) : Nat × Bool :=
  if q ≤ e then
    (m * 2 ^ (e - q).toNat + (if roundsUp md neg (m % 2 = 1) 0 1 sticky then 1 else 0), sticky)
  else
    let k := (q - e).toNat
    let hi := m / 2 ^ k
    let rem := m % 2 ^ k
    (hi + (if roundsUp md neg (hi % 2 = 1) rem (2 ^ k) sticky then 1 else 0), rem ≠ 0 || sticky)

/-- The overflow result of Table 4.4. -/
def overflowed (f : Fmt) (md : Rounding) (neg : Bool) : Nat :=
  let toInf : Bool := match md with
    | .rn => true
    | .rz => false
    | .rp => !neg
    | .rm => neg
  (if neg then f.signBit else 0) + (if toInf then f.inf else f.inf - 1)

/-- Round (R103, R104) of a finite value. -/
def roundF (f : Fmt) (md : Rounding) (neg : Bool) (m : Nat) (e : Int) (sticky : Bool) : FOut :=
  let sg := if neg then f.signBit else 0
  if m = 0 && !sticky then (sg, 0) else
    let q := e + bitLen m - (f.fb + 1)
    -- rounded with unbounded exponent
    let u := roundAt md neg m e sticky q
    let top := q + bitLen u.1 - 1
    if (f.bias : Int) < top then (overflowed f md neg, excOF ||| excNX) else
      let q' := if f.grid < q then q else f.grid
      let r := roundAt md neg m e sticky q'
      let bits := (q' - f.grid + 1).toNat * 2 ^ f.fb + r.1 - 2 ^ f.fb
      let tiny := top < 1 - (f.bias : Int)
      (sg + bits, (if r.2 then excNX else 0) ||| (if tiny && r.2 then excUF else 0))

/-- Round of any exact value, with the exceptions raised on the way. -/
def deliver (f : Fmt) (md : Rounding) (v : FVal × Exc) : FOut :=
  match v.1 with
  | .nan _ => (f.nan, v.2)
  | .inf neg => ((if neg then f.signBit else 0) + f.inf, v.2)
  | .fin neg m e => let r := roundF f md neg m e false; (r.1, r.2 ||| v.2)

/-! ### Exact arithmetic -/

def FVal.isSig : FVal → Bool
  | .nan s => s
  | _ => false
def FVal.isNan : FVal → Bool
  | .nan _ => true
  | _ => false
def FVal.neg : FVal → FVal
  | .nan s => .nan s
  | .inf n => .inf !n
  | .fin n m e => .fin (!n) m e
def FVal.isNeg : FVal → Bool
  | .nan _ => false
  | .inf n => n
  | .fin n _ _ => n

/-- NV for signalling operands (R102). -/
def sigExc (vs : List FVal) : Exc := if vs.any FVal.isSig then excNV else 0

/-- A signed integer multiple of 2^e. -/
def ofInt (x : Int) (e : Int) (zeroNeg : Bool) : FVal :=
  if x = 0 then .fin zeroNeg 0 e else .fin (x < 0) x.natAbs e

/-- ± m as an integer multiple of 2^q, for q at or below its exponent. -/
def scaled (neg : Bool) (m : Nat) (e q : Int) : Int :=
  let x : Int := (m * 2 ^ (e - q).toNat : Nat)
  if neg then -x else x

/-- Exact sum, with the zero signs of R103. -/
def addV (md : Rounding) (a b : FVal) : FVal × Exc :=
  match a, b with
  | .nan s, y => (.nan false, sigExc [.nan s, y])
  | x, .nan s => (.nan false, sigExc [x, .nan s])
  | .inf n, .inf n' => if n = n' then (.inf n, 0) else (.nan false, excNV)
  | .inf n, .fin .. => (.inf n, 0)
  | .fin .., .inf n => (.inf n, 0)
  | .fin n m e, .fin n' m' e' =>
    let q := if e ≤ e' then e else e'
    let zeroNeg := if m = 0 && m' = 0 && n = n' then n else md = .rm
    (ofInt (scaled n m e q + scaled n' m' e' q) q zeroNeg, 0)

/-- Exact product; ∞ × 0 is invalid. -/
def mulV (a b : FVal) : FVal × Exc :=
  match a, b with
  | .nan s, y => (.nan false, sigExc [.nan s, y])
  | x, .nan s => (.nan false, sigExc [x, .nan s])
  | .inf n, .inf n' => (.inf (n != n'), 0)
  | .inf n, .fin n' m _ => if m = 0 then (.nan false, excNV) else (.inf (n != n'), 0)
  | .fin n m _, .inf n' => if m = 0 then (.nan false, excNV) else (.inf (n != n'), 0)
  | .fin n m e, .fin n' m' e' => (.fin (n != n') (m * m') (e + e'), 0)

def fmaV (md : Rounding) (a b c : FVal) : FVal × Exc :=
  let p := mulV a b
  let r := addV md p.1 c
  (r.1, r.2 ||| p.2)

/-- Exact comparison of two values that are not NaN: less, equal. -/
def ltV (a b : FVal) : Bool :=
  match a, b with
  | .inf n, .inf n' => n && !n'
  | .inf n, .fin .. => n
  | .fin .., .inf n => !n
  | .fin n m e, .fin n' m' e' =>
    let q := if e ≤ e' then e else e'
    decide (scaled n m e q < scaled n' m' e' q)
  | _, _ => false

/-! ### Special functions (R106, Table 4.5) -/

/-- The integer square root, bit by bit from bit k down. -/
def isqrtFrom (x : Nat) : Nat → Nat → Nat
  | 0, r => r
  | k + 1, r => let t := r + 2 ^ k; isqrtFrom x k (if t * t ≤ x then t else r)

def isqrt (x : Nat) : Nat := isqrtFrom x (bitLen x / 2 + 1) 0

/-- A quotient of magnitudes at 64 more bits than needed. -/
def quotient (f : Fmt) (md : Rounding) (neg : Bool) (m : Nat) (e : Int) (m' : Nat) (e' : Int) : FOut :=
  let k := 64 + bitLen m'
  roundF f md neg (m * 2 ^ k / m') (e - e' - k) (m * 2 ^ k % m' ≠ 0)

def divV (md : Rounding) (a b : FVal) : FOut :=
  let sg (n : Bool) := if n then fp32.signBit else 0
  match a, b with
  | .nan s, y => (fp32.nan, sigExc [.nan s, y])
  | x, .nan s => (fp32.nan, sigExc [x, .nan s])
  | .inf _, .inf _ => (fp32.nan, excNV)
  | .inf n, .fin n' _ _ => (sg (n != n') + fp32.inf, 0)
  | .fin n _ _, .inf n' => (sg (n != n'), 0)
  | .fin n m e, .fin n' m' e' =>
    if m' = 0 then (if m = 0 then (fp32.nan, excNV) else (sg (n != n') + fp32.inf, excDZ))
    else if m = 0 then (sg (n != n'), 0)
    else quotient fp32 md (n != n') m e m' e'

/-- A magnitude with an even exponent. -/
def evenExp (m : Nat) (e : Int) : Nat × Int := if e % 2 = 0 then (m, e) else (2 * m, e - 1)

def sqrtV (md : Rounding) (a : FVal) : FOut :=
  match a with
  | .nan s => (fp32.nan, sigExc [.nan s])
  | .inf n => if n then (fp32.nan, excNV) else (fp32.inf, 0)
  | .fin n m e =>
    if m = 0 then ((if n then fp32.signBit else 0), 0) else if n then (fp32.nan, excNV) else
      let (m', e') := evenExp m e
      let x := m' * 2 ^ 80
      let r := isqrt x
      roundF fp32 md false r (e' / 2 - 40) (r * r ≠ x)

def rsqrtV (md : Rounding) (a : FVal) : FOut :=
  match a with
  | .nan s => (fp32.nan, sigExc [.nan s])
  | .inf n => if n then (fp32.nan, excNV) else (0, 0)
  | .fin n m e =>
    if m = 0 then ((if n then fp32.signBit else 0) + fp32.inf, excDZ) else if n then (fp32.nan, excNV) else
      let (m', e') := evenExp m e
      let x := 2 ^ 120 / m'
      let r := isqrt x
      roundF fp32 md false r (-(e' / 2) - 60) (r * r * m' ≠ 2 ^ 120)

/-- Bits of the fixed-point evaluation of 2^x and log₂ x (log 14). -/
def fixBits : Nat := 256

/-- 2 atanh(a / b) in units of 2^-fixBits, from term k on: `p` is (a/b)^(2k+1). -/
def atanhSum (a b : Nat) : Nat → Nat → Nat → Nat
  | 0, _, _ => 0
  | n + 1, k, p => 2 * p / (2 * k + 1) + atanhSum a b n (k + 1) (p * a / b * a / b)

def ln2Fix : Nat := atanhSum 1 3 90 0 (2 ^ fixBits / 3)

/-- e^y from term k on, `t` being y^k / k!. -/
def expSum (y : Nat) : Nat → Nat → Nat → Nat
  | 0, _, _ => 0
  | n + 1, k, t => t + expSum y n (k + 1) (t * y / 2 ^ fixBits / (k + 1))

/-- 2^x for a finite x: floor and fraction apart; integers give powers of two exactly. (DEDUCED, log 14.) -/
def exp2V (md : Rounding) (a : FVal) : FOut :=
  match a with
  | .nan s => (fp32.nan, sigExc [.nan s])
  | .inf n => if n then (0, 0) else (fp32.inf, 0)
  | .fin n m e =>
    if m = 0 then (roundF fp32 md false 1 0 false) else
      let clamp := fun (x : Int) => if x < -1024 then -1024 else if 1024 < x then 1024 else x
      if 0 ≤ e then roundF fp32 md false 1 (clamp (scaled n m (if e < 24 then e else 24) 0)) false
      else
        let k := (-e).toNat
        let x : Int := if n then -(m : Int) else m
        let i := x / (2 ^ k : Nat)
        let fr := (x % (2 ^ k : Nat)).toNat
        if fr = 0 then roundF fp32 md false 1 (clamp i) false
        else
          let y := fr * ln2Fix / 2 ^ k
          roundF fp32 md false (expSum y 70 0 (2 ^ fixBits) / 2 ^ 16) (clamp i - fixBits + 16) true

/-- log₂ x for a positive finite x. (DEDUCED, log 14.) -/
def log2V (md : Rounding) (a : FVal) : FOut :=
  match a with
  | .nan s => (fp32.nan, sigExc [.nan s])
  | .inf n => if n then (fp32.nan, excNV) else (fp32.inf, 0)
  | .fin n m e =>
    if m = 0 then (fp32.signBit + fp32.inf, excDZ) else if n then (fp32.nan, excNV) else
      let l := bitLen m - 1
      let i := e + l
      if m = 2 ^ l then deliver fp32 md (ofInt i 0 false, 0)
      else
        let num := m - 2 ^ l
        let den := m + 2 ^ l
        let fr := atanhSum num den 90 0 (num * 2 ^ fixBits / den) * 2 ^ fixBits / ln2Fix
        let t : Int := i * (2 ^ fixBits : Nat) + fr
        roundF fp32 md (t < 0) (t.natAbs / 2 ^ 16) (-(fixBits : Int) + 16) true

/-! ### Integers -/

/-- A finite value rounded to an integer under a mode, and whether it changed. -/
def toIntegral (md : Rounding) (n : Bool) (m : Nat) (e : Int) : Int × Bool :=
  if 0 ≤ e then (scaled n m (if e < 128 then e else 128) 0, false)
  else
    let r := roundAt md n m e false 0
    (if n then -(r.1 : Int) else r.1, r.2)

/-- ToInt (R135). -/
def toIntV (md : Rounding) (lo hi : Int) (a : FVal) : Int × Exc :=
  match a with
  | .nan _ => (0, excNV)
  | .inf n => (if n then lo else hi, excNV)
  | .fin n m e =>
    let r := toIntegral md n m e
    if r.1 < lo then (lo, excNV) else if hi < r.1 then (hi, excNV)
    else (r.1, if r.2 then excNX else 0)

/-! ### Narrow formats -/

/-- E4M3 (R107). -/
def unpackE4m3 (x : Byte) : FVal :=
  let ex := (x.extractLsb' 3 4).toNat
  let fr := (x.extractLsb' 0 3).toNat
  if ex = 15 ∧ fr = 7 then .nan false
  else if ex = 0 then .fin x.msb fr (-9)
  else .fin x.msb (fr + 8) ((ex : Int) - 10)

/-- ToE4M3 (R136). -/
def toE4m3 (md : Rounding) (nan : Bool) (a : FVal) : Byte × Exc :=
  let sg : Byte := if a.isNeg then 0x80 else 0
  match a with
  | .nan s => (0x7F, sigExc [.nan s])
  | .inf _ => if nan then (0x7F, excNV) else (sg ||| 0x7E, excOF ||| excNX)
  | .fin n m e =>
    let q := if (-9 : Int) < e + bitLen m - 4 then e + bitLen m - 4 else -9
    let r := roundAt md n m e false q
    let mag := (r.1 : Int) * (2 ^ (q + 9).toNat : Nat)
    if 448 * 512 < mag then ((if nan then 0x7F else sg ||| 0x7E), excOF ||| excNX)
    else
      let bits := (q + 10).toNat * 8 + r.1 - 8
      (sg ||| BitVec.ofNat 8 bits,
        if r.2 then excNX ||| (if r.1 ≠ 0 && decide (mag < 8) then excUF else 0) else 0)

/-- S8 (R109): the value of a scale, or poison. -/
def s8Value (x : Byte) : Option (Nat × Int) :=
  let e := (x.extractLsb' 3 5).toNat
  if e = 31 then none else if e = 0 then some (0, 0) else some (8 + (x.extractLsb' 0 3).toNat, (e : Int) - 18)

/-- Whether (8 + f) × 2^(e − 18) of code c is at least m × 2^k / t. -/
def s8Reaches (m : Nat) (k : Int) (t : Nat) (c : Nat) : Bool :=
  let v := (8 + c % 8) * t
  let ve := (c / 8 : Int) - 18
  let q := if ve ≤ k then ve else k
  decide (scaled false m k q ≤ scaled false v ve q)

def s8Equals (m : Nat) (k : Int) (t : Nat) (c : Nat) : Bool :=
  let v := (8 + c % 8) * t
  let ve := (c / 8 : Int) - 18
  let q := if ve ≤ k then ve else k
  decide (scaled false m k q = scaled false v ve q)

/-- SCLQ (R138). -/
def sclqV (t : Nat) (a : FVal) : Byte × Exc :=
  match a with
  | .nan s => (0xF8, sigExc [.nan s])
  | .inf _ => (0xF8, excNV)
  | .fin _ m e =>
    if m = 0 then (0, 0) else
      match ((List.range 240).map (· + 8)).find? (s8Reaches m e t) with
      | none => (0xF7, excOF ||| excNX)
      | some c => (BitVec.ofNat 8 c, if s8Equals m e t c then 0 else excNX)

/-! ### FP32 operations used in several places -/

def f32 (x : W32) : FVal := unpackF fp32 x.toNat
def out32 (r : FOut) : W32 × Exc := (BitVec.ofNat 32 r.1, r.2)

def fadd32 (md : Rounding) (a b : W32) : W32 × Exc := out32 (deliver fp32 md (addV md (f32 a) (f32 b)))
def fmul32 (md : Rounding) (a b : W32) : W32 × Exc := out32 (deliver fp32 md (mulV (f32 a) (f32 b)))
def ffma32 (md : Rounding) (a b c : W32) : W32 × Exc := out32 (deliver fp32 md (fmaV md (f32 a) (f32 b) (f32 c)))

/-- minimumNumber and maximumNumber (R127); −0 is less than +0. -/
def fminmax32 (max : Bool) (a b : W32) : W32 × Exc :=
  let va := f32 a
  let vb := f32 b
  let x := sigExc [va, vb]
  if va.isNan && vb.isNan then (0x7FC00000, x)
  else if va.isNan then (b, x)
  else if vb.isNan then (a, x)
  else
    let less := ltV va vb || (!ltV vb va && va.isNeg && !vb.isNeg)
    ((if less != max then a else b), x)

end Sys2Proof.Machine
end

