-- ==== Sys2Proof/Machine/Float.lean ====
section
/-! DEFINITION. The floating-point and conversion instructions (R122 to R139), REDUX and SCANX (R99). -/

namespace Sys2Proof.Machine

/-- A floating-point instruction: the result and the exceptions of each fibre whose guard is true (R124, R125). -/
def floatRun (s : State) (i : LaneIns) (d : BitVec 8) (f : Sheaf → Fin 32 → W32 × Exc) : State :=
  s.laneStep i fun old act sh =>
    (sh.writeRow d act fun l => (f old l).1).raiseFp act fun l => (f old l).2

def fins (g : Guard) (d : BitVec 8) (a : VSrc) : LaneIns := insA g d a none
def finsAB (g : Guard) (d : BitVec 8) (a : VSrc) (b : BSrc) : LaneIns := insAB g d a b none

def runF1 (o : FopA) (f : Rounding → W32 → W32 × Exc) (s : State) : State :=
  floatRun s (fins o.g o.d o.a) o.d fun sh l => f o.rm (sh.readLane o.a.reg l)
def runF1X (o : FopAX) (f : W32 → W32 × Exc) (s : State) : State :=
  floatRun s (fins o.g o.d o.a) o.d fun sh l => f (sh.readLane o.a.reg l)
def runF2 (o : FopAB) (f : Rounding → W32 → W32 → W32 × Exc) (s : State) : State :=
  floatRun s (finsAB o.g o.d o.a o.b) o.d fun sh l => f o.rm (sh.readLane o.a.reg l) (sh.bval o.b l)
def runF2X (o : FopABX) (f : W32 → W32 → W32 × Exc) (s : State) : State :=
  floatRun s (finsAB o.g o.d o.a o.b) o.d fun sh l => f (sh.readLane o.a.reg l) (sh.bval o.b l)
def runF3 (o : FopABC) (f : Rounding → W32 → W32 → W32 → W32 × Exc) (s : State) : State :=
  floatRun s (insABC o.g o.d o.a o.b o.c none) o.d fun sh l =>
    f o.rm (sh.readLane o.a.reg l) (sh.bval o.b l) (sh.readLane o.c.reg l)

/-! ### FP32 (Table 5.1) -/

def execFadd (o : FopAB) (s : State) : Out := .next (runF2 o fadd32 s)
def execFsub (o : FopAB) (s : State) : Out :=
  .next (runF2 o (fun md a b => out32 (deliver fp32 md (addV md (f32 a) (f32 b).neg))) s)
def execFmul (o : FopAB) (s : State) : Out := .next (runF2 o fmul32 s)
def execFfma (o : FopABC) (s : State) : Out := .next (runF3 o ffma32 s)
def execFmin (o : FopABX) (s : State) : Out := .next (runF2X o (fminmax32 false) s)
def execFmax (o : FopABX) (s : State) : Out := .next (runF2X o (fminmax32 true) s)

/-- The flags of Table 5.2. -/
def fcmpFlags (a b : FVal) : CcVal :=
  if a.isNan || b.isNan then mkFlags false false true true
  else if ltV a b then mkFlags true false false false
  else if ltV b a then mkFlags false false true false
  else mkFlags false true true false

/-- FCMP (R128). -/
def execFcmp (o : OpCmp) (s : State) : Out :=
  .next (s.laneStep ⟨o.g, vop o.a 1 0 :: bops o.b 1, bsregs o.b, [], [], some o.k⟩ fun old act sh =>
    let va := fun l => f32 (old.readLane o.a.reg l)
    let vb := fun l => f32 (old.bval o.b l)
    (sh.setFlags (some o.k) act fun l => fcmpFlags (va l) (vb l)).raiseFp act fun l => sigExc [va l, vb l])

def execFneg (o : FopAX) (s : State) : Out :=
  .next (runF1X o (fun a => (if (f32 a).isNan then 0x7FC00000 else a ^^^ 0x80000000, 0)) s)
def execFabs (o : FopAX) (s : State) : Out :=
  .next (runF1X o (fun a => (if (f32 a).isNan then 0x7FC00000 else a &&& 0x7FFFFFFF, 0)) s)
def execFrcp (o : FopA) (s : State) : Out :=
  .next (runF1 o (fun md a => out32 (divV md (.fin false 1 0) (f32 a))) s)
def execFrsq (o : FopA) (s : State) : Out := .next (runF1 o (fun md a => out32 (rsqrtV md (f32 a))) s)
def execFsqrt (o : FopA) (s : State) : Out := .next (runF1 o (fun md a => out32 (sqrtV md (f32 a))) s)
def execFdiv (o : FopAB) (s : State) : Out := .next (runF2 o (fun md a b => out32 (divV md (f32 a) (f32 b))) s)
def execFexp2 (o : FopA) (s : State) : Out := .next (runF1 o (fun md a => out32 (exp2V md (f32 a))) s)
def execFlog2 (o : FopA) (s : State) : Out := .next (runF1 o (fun md a => out32 (log2V md (f32 a))) s)

/-- FRND (R129). -/
def frnd32 (md : Rounding) (a : W32) : W32 × Exc :=
  match f32 a with
  | .nan s => (0x7FC00000, sigExc [.nan s])
  | .inf _ => (a, 0)
  | .fin n m e =>
    if 0 ≤ e then (a, 0) else
      let r := roundAt md n m e false 0
      (BitVec.ofNat 32 (roundF fp32 .rz n r.1 0 false).1, if r.2 then excNX else 0)

def execFrnd (o : FopA) (s : State) : Out := .next (runF1 o frnd32 s)

/-- FCLASS (R130). -/
def fclass32 (a : W32) : W32 :=
  match f32 a with
  | .nan true => 0x001
  | .nan false => 0x002
  | .inf true => 0x004
  | .inf false => 0x008
  | .fin n m _ =>
    if m = 0 then (if n then 0x100 else 0x200)
    else if 2 ^ 23 ≤ m then (if n then 0x010 else 0x020) else if n then 0x040 else 0x080

def execFclass (o : FopAX) (s : State) : Out := .next (runF1X o (fun a => (fclass32 a, 0)) s)

/-- FSCALB (R131); powers beyond ±1,024 end where ±1,024 does. -/
def fscalb32 (md : Rounding) (a b : W32) : W32 × Exc :=
  match f32 a with
  | .fin n m e =>
    let k := if b.toInt < -1024 then -1024 else if 1024 < b.toInt then 1024 else b.toInt
    out32 (roundF fp32 md n m (e + k) false)
  | v => out32 (deliver fp32 md (v, sigExc [v]))

def execFscalb (o : FopAB) (s : State) : Out := .next (runF2 o fscalb32 s)

/-! ### Packed pairs (R132, R133) -/

def half0 (x : W32) : Nat := (x.extractLsb' 0 16).toNat
def half1 (x : W32) : Nat := (x.extractLsb' 16 16).toNat

/-- {r1, r0} with the union of the exceptions. -/
def pack2 (r0 r1 : FOut) : W32 × Exc := (BitVec.ofNat 16 r1.1 ++ BitVec.ofNat 16 r0.1, r0.2 ||| r1.2)

def each2 (f : Fmt) (op : FVal → FVal → FVal → FOut) (a b c : W32) : W32 × Exc :=
  pack2 (op (unpackF f (half0 a)) (unpackF f (half0 b)) (unpackF f (half0 c)))
    (op (unpackF f (half1 a)) (unpackF f (half1 b)) (unpackF f (half1 c)))

def execHadd2 (o : FopAB) (s : State) : Out :=
  .next (runF2 o (fun md a b => each2 fp16 (fun x y _ => deliver fp16 md (addV md x y)) a b 0) s)
def execHmul2 (o : FopAB) (s : State) : Out :=
  .next (runF2 o (fun md a b => each2 fp16 (fun x y _ => deliver fp16 md (mulV x y)) a b 0) s)
def execHfma2 (o : FopABC) (s : State) : Out :=
  .next (runF3 o (fun md a b c => each2 fp16 (fun x y z => deliver fp16 md (fmaV md x y z)) a b c) s)
def execBfma2 (o : FopABC) (s : State) : Out :=
  .next (runF3 o (fun md a b c => each2 bf16 (fun x y z => deliver bf16 md (fmaV md x y z)) a b c) s)

/-- BDOT2 (R133): three exact terms, one rounding. -/
def bdot2 (md : Rounding) (a b c : W32) : W32 × Exc :=
  let a0 := unpackF bf16 (half0 a)
  let a1 := unpackF bf16 (half1 a)
  let b0 := unpackF bf16 (half0 b)
  let b1 := unpackF bf16 (half1 b)
  let vc := f32 c
  let p0 := mulV a0 b0
  let p1 := mulV a1 b1
  let t := [p0.1, p1.1, vc]
  let exc := p0.2 ||| p1.2 ||| sigExc [vc]
  let infs := t.filterMap fun v => match v with
    | .inf n => some n
    | _ => none
  if infs.contains true && infs.contains false then (0x7FC00000, exc ||| excNV)
  else if t.any FVal.isNan then (0x7FC00000, exc)
  else match infs with
    | n :: _ => out32 (deliver fp32 md (.inf n, exc))
    | [] =>
      let sum := (addV md (addV md p0.1 p1.1).1 vc).1
      let negZero := t.all FVal.isNeg || (md = .rm && !t.all fun v => match v with
        | .fin n m _ => !n && m = 0
        | _ => false)
      match sum with
      | .fin _ 0 e => out32 (deliver fp32 md (.fin negZero 0 e, exc))
      | v => out32 (deliver fp32 md (v, exc))

def execBdot2 (o : FopABC) (s : State) : Out := .next (runF3 o bdot2 s)

/-! ### Conversions (R134 to R139) -/

def cvtfi32 (uns : Bool) (md : Rounding) (a : W32) : W32 × Exc :=
  let r := toIntV md (if uns then 0 else -2 ^ 31) (if uns then 2 ^ 32 - 1 else 2 ^ 31 - 1) (f32 a)
  (BitVec.ofInt 32 r.1, r.2)

def execCvtfi (o : CvtU) (s : State) : Out :=
  .next (floatRun s (fins o.g o.d o.a) o.d fun sh l => cvtfi32 o.uns o.rm (sh.readLane o.a.reg l))

def cvtif32 (uns : Bool) (md : Rounding) (a : W32) : W32 × Exc :=
  out32 (deliver fp32 md (ofInt (if uns then (a.toNat : Int) else a.toInt) 0 false, 0))

def execCvtif (o : CvtU) (s : State) : Out :=
  .next (floatRun s (fins o.g o.d o.a) o.d fun sh l => cvtif32 o.uns o.rm (sh.readLane o.a.reg l))

/-- Two FP32 values to one packed pair. -/
def narrow2 (f : Fmt) (md : Rounding) (a b : W32) : W32 × Exc :=
  pack2 (deliver f md (f32 a, sigExc [f32 a])) (deliver f md (f32 b, sigExc [f32 b]))

def execCvtfh (o : FopAB) (s : State) : Out := .next (runF2 o (narrow2 fp16) s)
def execCvtfb (o : FopAB) (s : State) : Out := .next (runF2 o (narrow2 bf16) s)

/-- An exact widening to FP32. -/
def widen (v : FVal) : W32 × Exc := out32 (deliver fp32 .rn (v, sigExc [v]))

/-- An exact conversion of a selected element. -/
def runSel {n : Nat} (o : CvtSel n) (f : W32 → Nat → W32 × Exc) (s : State) : State :=
  floatRun s (fins o.g o.d o.a) o.d fun sh l => f (sh.readLane o.a.reg l) o.sel.toNat

def byteOf (x : W32) (k : Nat) : Byte := x.extractLsb' (8 * k) 8

def execCvthf (o : CvtSel 1) (s : State) : Out :=
  .next (runSel o (fun a k => widen (unpackF fp16 (if k = 0 then half0 a else half1 a))) s)
def execCvtbf (o : CvtSel 1) (s : State) : Out :=
  .next (runSel o (fun a k => widen (unpackF bf16 (if k = 0 then half0 a else half1 a))) s)

/-- CVTF8 (R136). -/
def cvtf8 (hi nan : Bool) (md : Rounding) (a b : W32) : W32 × Exc :=
  let ea := toE4m3 md nan (f32 a)
  let eb := toE4m3 md nan (f32 b)
  let pair : BitVec 16 := eb.1 ++ ea.1
  ((if hi then pair ++ 0#16 else 0#16 ++ pair), ea.2 ||| eb.2)

def execCvtf8 (o : CvtF8) (s : State) : Out :=
  .next (floatRun s (finsAB o.g o.d o.a o.b) o.d fun sh l =>
    cvtf8 o.hi o.nan o.rm (sh.readLane o.a.reg l) (sh.bval o.b l))
def execCvt8f (o : CvtSel 2) (s : State) : Out :=
  .next (runSel o (fun a k => widen (unpackE4m3 (byteOf a k))) s)

/-- CVTF4 (R137). -/
def cvtf4 (byte : BitVec 2) (md : Rounding) (a b : W32) : W32 × Exc :=
  let na := toIntV md (-8) 7 (f32 a)
  let nb := toIntV md (-8) 7 (f32 b)
  let p : Byte := BitVec.ofInt 4 nb.1 ++ BitVec.ofInt 4 na.1
  ((p.setWidth 32) <<< (8 * byte.toNat), na.2 ||| nb.2)

def execCvtf4 (o : CvtF4) (s : State) : Out :=
  .next (floatRun s (finsAB o.g o.d o.a o.b) o.d fun sh l =>
    cvtf4 o.byte o.rm (sh.readLane o.a.reg l) (sh.bval o.b l))
def execCvt4f (o : CvtSel 3) (s : State) : Out :=
  .next (runSel o (fun a k => widen (ofInt (a.extractLsb' (4 * k) 4).toInt 0 false)) s)

def sclTop (t : SclTarget) : Nat :=
  match t with
  | .e4m3 => 448
  | .int8 => 127
  | .int4 => 7

def execSclq (o : OpSclq) (s : State) : Out :=
  .next (floatRun s (fins o.g o.d o.a) o.d fun sh l =>
    let r := sclqV (sclTop o.target) (f32 (sh.readLane o.a.reg l))
    (r.1.setWidth 32, r.2))

/-- SCLF (R139). -/
def sclf32 (x : Byte) : W32 × Exc :=
  match s8Value x with
  | none => (0x7FC00000, excNV)
  | some (m, e) => out32 (deliver fp32 .rn (.fin false m e, 0))

def execSclf (o : CvtSel 2) (s : State) : Out := .next (runSel o (fun a k => sclf32 (byteOf a k)) s)

/-! ### REDUX and SCANX (R99, Table 3.6) -/

/-- One combination. -/
def redApply (op : RedOp) (a b : W32) : W32 × Exc :=
  match op with
  | .add => (a + b, 0)
  | .mins => (if b.slt a then b else a, 0)
  | .minu => (if b.ult a then b else a, 0)
  | .maxs => (if a.slt b then b else a, 0)
  | .maxu => (if a.ult b then b else a, 0)
  | .and => (a &&& b, 0)
  | .or => (a ||| b, 0)
  | .xor => (a ^^^ b, 0)
  | .fmin => fminmax32 false a b
  | .fmax => fminmax32 true a b
  | .fadd => fadd32 .rn a b

def redIdentity (op : RedOp) : W32 :=
  match op with
  | .add => 0
  | .minu => 0xFFFFFFFF
  | .mins => 0x7FFFFFFF
  | .maxs => 0x80000000
  | .maxu => 0
  | .and => 0xFFFFFFFF
  | .or | .xor => 0
  | .fmin => 0x7F800000
  | .fmax => 0xFF800000
  | .fadd => 0x80000000

/-- A lone NaN gives the default NaN, as every floating-point result that is a NaN does, and a signalling one raises NV (R102),
though no step is made. (DESIGN CHOICE, log 25.) -/
def redFirst (op : RedOp) (x : W32) : W32 × Exc :=
  match op with
  | .fmin | .fmax | .fadd => if (f32 x).isNan then (0x7FC00000, sigExc [f32 x]) else (x, 0)
  | _ => (x, 0)

/-- Fold over values in ascending lane order, from the first of them. (DEDUCED, log 25.) -/
def redFold (op : RedOp) : List W32 → W32 × Exc
  | [] => (redIdentity op, 0)
  | x :: xs =>
    if xs = [] then redFirst op x else
      xs.foldl (fun (r : W32 × Exc) y => let t := redApply op r.1 y; (t.1, t.2 ||| r.2)) (x, 0)

/-- REDUX and SCANX: each lane's value with the exceptions of every step, which all participants share. -/
def redRun (s : State) (g : Guard) (d : BitVec 8) (a : VSrc) (op : RedOp) (below : Fin 32 → Fin 32 → Bool) : State :=
  s.laneStep ⟨g, [vop a 1 0], [], [], [d], none⟩ fun old act sh =>
    let val := fun l => redFold op (((lanesIn act).filter (below l)).map fun m => old.readLane a.reg m)
    let exc := (lanesIn act).foldl (fun x l => x ||| (val l).2) 0
    (sh.writeRow d act fun l => (val l).1).raiseFp act fun _ => exc

def execRedux (o : OpRedux) (s : State) : Out := .next (redRun s o.g o.d o.a o.op fun _ _ => true)
def execScanx (o : OpScan) (s : State) : Out :=
  .next (redRun s o.g o.d o.a o.op fun l m => if o.excl then decide (m.val < l.val) else decide (m.val ≤ l.val))

end Sys2Proof.Machine
end

