-- ==== Sys2Proof/WellFormed.lean ====
section
/-! DEFINITION. The operand values an instruction may hold beyond what its type already says: register
alignment (R19, R66, R234), value ranges each instruction's description gives (Table 2.13 orders 8 and 13).
An event is well formed as it stands. -/

namespace Sys2Proof

/-- An even register number, the low half of a pair (R19). -/
def evenReg {n : Nat} (r : BitVec n) : Bool := !r.getLsbD 0
/-- A register number that starts a group of four (R19). -/
def quadReg {n : Nat} (r : BitVec n) : Bool := !r.getLsbD 0 && !r.getLsbD 1
/-- A register number that starts a group of eight (R234). -/
def octReg {n : Nat} (r : BitVec n) : Bool := !r.getLsbD 0 && !r.getLsbD 1 && !r.getLsbD 2

/-- The two marks are given only to a source that is read (R60): no further condition on a v source. -/
def Guard.wf (g : Guard) : Bool := g.cond ≠ 0 || g.cc = 0

/-- A 64-bit B operand: an even pair, or a whole sheaf register (R64, R88). -/
def BSrc.pairOk : BSrc → Bool
  | .lane v _ => evenReg v.reg
  | .sheaf _ => true

/-- D of a load or store by width (R66). -/
def Width.regOk (w : Width) (r : BitVec 8) : Bool :=
  match w with
  | .d64 => evenReg r
  | .q128 => quadReg r
  | _ => true

def LmAddr.wf (a : LmAddr) : Bool :=
  match a.base with
  | .sum _ => true
  | .pair => evenReg a.a.reg

/-- SGN is accepted on narrow loads only (Table 7.1). -/
def Width.sgnOk (w : Width) (sgn : Bool) : Bool :=
  match w with
  | .b8 | .h16 => true
  | _ => !sgn

def OpLoad.wf (o : OpLoad) : Bool := o.g.wf && o.addr.wf && o.width.regOk o.d && o.width.sgnOk o.sgn
def OpStore.wf (o : OpStore) : Bool := o.g.wf && o.addr.wf && o.width.regOk o.d.reg
def OpLds.wf (o : OpLds) : Bool := o.g.wf && o.addr.wf && o.width.regOk o.d && o.width.sgnOk o.sgn
def OpSts.wf (o : OpSts) : Bool := o.g.wf && o.addr.wf && o.width.regOk o.d.reg

/-- PRF accepts scopes 0 to 3 (Table 7.1). -/
def Scope.prfOk : Scope → Bool
  | .fib | .shf | .bed | .clu => true
  | _ => false

/-- The FP32 operations of Table 7.3, refused for 64-bit words. -/
def Aop.isFloat : Aop → Bool
  | .fadd | .fmin | .fmax => true
  | _ => false

def MFmt.isFloat : MFmt → Bool
  | .bf16 | .fp16 => true
  | _ => false

/-- Formats of one command (R227). -/
def SopMma.fmtOk (o : SopMma) : Bool :=
  o.afmt.isFloat == o.bfmt.isFloat && (o.scale.isNone || !o.afmt.isFloat)

/-- SHLI, SHRI and SARI accept 0 to 31 (R90). -/
def OpI.shiftOk (o : OpI) : Bool := o.imm.toNat < 32
/-- MOVHI: IMM24[23:8] is 0 (R90). -/
def OpI.byteOk (o : OpI) : Bool := o.imm.toNat < 256

/-- The per-fibre fields of Table 6.5 take a lane register; the others need A = 0 (R160). -/
def FrmRdField.perFibre : FrmRdField → Bool
  | .pc | .cc => true
  | _ => false

/-- Special registers SWR may write (Table 1.4). -/
def SSpecial.writable : SSpecial → Bool
  | .trellis | .hvec | .mprog | .notice | .fpflags => true
  | _ => false

/-- A well-formed instruction: exactly what `decode` can answer. -/
def Instr.wf : Instr → Bool
  | .iadd o | .isub o | .imul o | .and o | .or o | .xor o | .andn o
  | .shl o | .shr o | .sar o | .rol o => o.g.wf
  | .iadc o | .isbc o => o.g.wf
  | .imulh o | .imin o | .imax o | .bfx o => o.g.wf
  | .imad o | .bfi o => o.g.wf
  | .iabs o | .popc o | .clz o | .brev o => o.g.wf
  | .icmp o => o.g.wf
  | .sel o => o.g.wf && o.sel.wf
  | .mov o => o.g.wf
  | .iadd64 o | .isub64 o => o.g.wf && evenReg o.d && evenReg o.a.reg && o.b.pairOk
  | .imulw o => o.g.wf && evenReg o.d
  | .lea o => o.g.wf && evenReg o.d && evenReg o.a.reg
  | .icmp64 o => o.g.wf && evenReg o.a.reg && o.b.pairOk
  | .iaddi o | .imuli o | .andi o | .ori o | .xori o => o.g.wf
  | .shli o | .shri o | .sari o => o.g.wf && o.shiftOk
  | .icmpi o => o.g.wf
  | .movi o => o.g.wf
  | .movhi o => o.g.wf && o.byteOk
  | .leai o => o.g.wf && evenReg o.d && evenReg o.a.reg
  | .fadd o | .fsub o | .fmul o | .fdiv o | .fscalb o | .hadd2 o | .hmul2 o | .cvtfh o | .cvtfb o => o.g.wf
  | .ffma o | .hfma2 o | .bfma2 o | .bdot2 o => o.g.wf
  | .fmin o | .fmax o => o.g.wf
  | .fcmp o => o.g.wf
  | .fneg o | .fabs o | .fclass o => o.g.wf
  | .frcp o | .frsq o | .fsqrt o | .fexp2 o | .flog2 o | .frnd o => o.g.wf
  | .cvtfi o | .cvtif o => o.g.wf
  | .cvthf o | .cvtbf o => o.g.wf
  | .cvt8f o | .sclf o => o.g.wf
  | .cvt4f o => o.g.wf
  | .cvtf8 o => o.g.wf
  | .cvtf4 o => o.g.wf
  | .sclq o => o.g.wf
  | .perm o => o.g.wf
  | .xmov o => o.g.wf
  | .vote o => o.g.wf
  | .matchv o => o.g.wf && (!o.w64 || evenReg o.a.reg)
  | .redux o => o.g.wf
  | .scanx o => o.g.wf
  | .v2s o => o.g.wf && (!o.w64 || evenReg o.a.reg)
  | .vsrd o => o.g.wf
  | .ld o | .ldb o => o.wf
  | .st o => o.wf
  | .lds o => o.wf
  | .sts o => o.wf
  | .ldf o | .ldw o => o.g.wf && o.addr.wf
  | .ste o => o.g.wf && o.addr.wf
  | .prf o => o.g.wf && o.addr.wf && o.scope.prfOk
  | .cwb o => o.g.wf && o.addr.wf
  | .pgdrop o => o.g.wf && o.addr.wf
  | .atom o => o.g.wf && evenReg o.a.reg
  | .atom64 o => o.g.wf && evenReg o.a.reg && evenReg o.b.reg && evenReg o.d && !o.aop.isFloat
  | .acas o => o.g.wf && evenReg o.a.reg
  | .acas64 o => o.g.wf && evenReg o.a.reg && evenReg o.b.reg && evenReg o.c.reg && evenReg o.d
  | .red o => o.g.wf && evenReg o.a.reg && (!o.w64 || (evenReg o.b.reg && !o.aop.isFloat))
  | .satom o => o.g.wf && o.addr.wf && (!o.w64 || evenReg o.d.reg)
  | .fence o => o.g.wf
  | .ctake o => o.g.wf && evenReg o.a.reg
  | .cgive o => o.g.wf && evenReg o.a.reg
  | .cpeek o | .croll o => o.g.wf && evenReg o.a.reg && evenReg o.d
  | .kvapp o => o.g.wf && evenReg o.d
  | .kvcow o => o.g.wf
  | .kvmap o => o.g.wf && evenReg o.d
  | .kvshare o => o.g.wf
  | .kvdrop o => o.g.wf
  | .rsmp o => o.g.wf
  | .accrd o => o.g.wf && octReg o.d
  | .accwr o => o.g.wf && octReg o.a.reg
  | .sadd o | .ssub o | .smul o | .sand o | .sor o | .sxor o | .sshl o | .sshr o | .ssar o => o.g.wf
  | .scmp o => o.g.wf
  | .smov o => o.g.wf
  | .saddi o | .sld o => o.g.wf
  | .smovi o | .smovhi o => o.g.wf
  | .sst o => o.g.wf
  | .srd o => o.g.wf
  | .swr o => o.g.wf && o.sel.writable
  | .scmpi o => o.g.wf
  | .bra o | .bras o => o.g.wf
  | .brx o | .ret o => o.g.wf
  | .call o => o.g.wf
  | .join o | .meet o => o.g.wf
  | .yield o | .exit o | .trig o | .dwait o | .rte o | .bkpt o => o.g.wf
  | .nap o => o.g.wf
  | .bar o => o.g.wf
  | .arrv o => o.g.wf
  | .waitb o => o.g.wf
  | .spawn o => o.g.wf && o.a.toNat ≤ 60
  | .mma o => o.g.wf && o.fmtOk && o.a.toNat ≤ 58
  | .mmaloop o => o.g.wf && o.fmtOk && o.a.toNat ≤ 55
  | .accz o => o.g.wf
  | .accst o => o.g.wf && o.a.toNat ≤ 62
  | .accldm o => o.g.wf && o.a.toNat ≤ 62 && (!o.int32 || o.fmt == .w32)
  | .xcopy o | .xgather o | .xscat o => o.g.wf && o.d.toNat ≤ 62 && o.a.toNat ≤ 58
  | .xfill o => o.g.wf && o.d.toNat ≤ 62 && o.a.toNat ≤ 61
  | .resv o | .resvx o => o.g.wf
  | .trap o => o.g.wf
  | .frmrd o => o.g.wf && (o.field.perFibre || o.a = 0)
  | .frmwr o => o.g.wf
  | _ => true

/-- An instruction of a slot, as opposed to an operation or event (Tables 2.11 and 2.12). -/
def Instr.isEvent (i : Instr) : Bool :=
  match i with
  | .dictionaryCode .. | .rowRefill .. | .setAside .. | .napWake .. | .doorbell .. | .launch .. | .dma ..
  | .signal .. | .config .. | .raise .. | .lower .. | .balloon .. | .completionRecord .. | .ringRegistration ..
  | .ringRestart .. | .completionQueueHead .. | .bedPlacement .. | .scratchpadReclaim .. | .spawnRequest ..
  | .bedCompletion .. | .dwaitReady .. | .loadResponse .. | .homeRead .. | .homeWrite .. | .twReturn ..
  | .atomicExecution .. | .atomicReturn .. | .settle .. | .allowanceRefill .. | .allowanceReturn ..
  | .holderReport .. | .reservePublish .. | .capwaitExpiry .. | .reliefGrant .. | .pageWalk .. | .walkAnswer ..
  | .walkAnswerTimeout .. | .update .. | .atsCompletion .. | .prgResponse .. | .pageRequestTimeout ..
  | .priReenable .. | .invalidateRequest .. | .invalidateCompletion .. | .hostSnoop .. | .hostRead ..
  | .hostWrite .. | .peerAccess .. | .peerAnswer .. | .peerTimeout .. | .cxlPortDown .. | .cxlRetrainTimeout ..
  | .epochEnd | .migration .. | .matrixCommandStart .. | .matrixStep .. | .tileRowTransfer .. | .copyUnit ..
  | .promisedBellTime .. | .engineFault .. | .kvAgentStep .. | .rsmpDeciding .. | .cloneLanding ..
  | .rsmpRelease .. | .deferredFault .. | .escalationEnd .. | .escalationCull .. | .escalationRetry ..
  | .lift .. | .replant .. | .stopRequest .. | .frostSeal .. | .lateArrival .. | .thaw .. | .modeChange ..
  | .aideRestart .. | .frontEndRestart | .heartbeat | .hubTimerExpiry | .queueReset .. | .engineReset ..
  | .partitionReset .. | .dieReset .. | .functionLevelReset .. | .perstN | .resetN | .pwrgd | .recoveryImage ..
  | .thermalThrottle .. | .thermalTrip .. | .powerCap .. | .getVersion | .getCapabilities
  | .negotiateAlgorithms .. | .getDigests | .getCertificate .. | .challenge .. | .getMeasurements ..
  | .bandwidthPeriod .. | .stallSample .. | .watchHit .. | .predicateResult .. | .predicateOverrun ..
  | .preciseStop .. | .stopResume .. | .engineResume .. | .traceTrigger .. | .registerWrite ..
  | .homeSliceEviction .. | .counterReturn .. | .watchdogReport .. | .endLaunch .. | .cxlPortRetrained ..
  | .ralecLinkDown .. | .ralecLinkRetrained .. | .physicalFunctionFlr | .thermalThrottleEnd .. | .pwrgdFall => true
  | _ => false

end Sys2Proof
end

