-- ==== Sys2Proof/Decode.lean ====
section
/-! DEFINITION. From a 64-bit slot to an instruction or the subcode of the first failing check of Table 2.13
(R80), and back. Decoding is total on any slot; nothing of an encoding reaches the machine but through here. -/

namespace Sys2Proof

/-- What a word decodes to: an instruction, or the illegal-instruction subcode of Table 2.13. -/
abbrev Dec := Except (BitVec 8) Instr

/-- One check of Table 2.13: where `ok` fails, its subcode is the answer. -/
def req (ok : Bool) (sub : BitVec 8) (r : Dec) : Dec := if ok then r else .error sub

/-! ### The fields of the forms -/

/-- Form L3 (Tables 2.2 and 2.3). -/
structure L3F where
  op : BitVec 8
  g : Guard
  d : BitVec 8
  a : BitVec 8
  b : BitVec 8
  c : BitVec 8
  la : Bool
  lb : Bool
  lc : Bool
  ea : Bool
  eb : Bool
  ec : Bool
  md : BitVec 11
  deriving DecidableEq, Repr

/-- Form LI (Tables 2.2 and 2.6). -/
structure LIF where
  op : BitVec 8
  g : Guard
  d : BitVec 8
  a : BitVec 8
  imm : BitVec 24
  la : Bool
  ea : Bool
  md : BitVec 7
  deriving DecidableEq, Repr

/-- Form LM (Tables 2.2 and 2.7). -/
structure LMF where
  op : BitVec 8
  g : Guard
  d : BitVec 8
  a : BitVec 8
  sb : BitVec 6
  off : BitVec 14
  la : Bool
  ld : Bool
  ea : Bool
  ed : Bool
  width : BitVec 3
  sgn : Bool
  pair : Bool
  scope : BitVec 3
  ord : Bool
  deriving DecidableEq, Repr

/-- The sheaf word (Table 2.8). -/
structure SF where
  op : BitVec 8
  g : Guard
  d : BitVec 6
  a : BitVec 6
  b : BitVec 6
  imm : BitVec 30
  deriving DecidableEq, Repr

def unpackL3 (w : Word) : L3F where
  op := w.extractLsb' 55 8
  g := ⟨w.extractLsb' 53 2, w.extractLsb' 49 4⟩
  d := w.extractLsb' 41 8
  a := w.extractLsb' 33 8
  b := w.extractLsb' 25 8
  c := w.extractLsb' 17 8
  la := w.getLsbD 16
  lb := w.getLsbD 15
  lc := w.getLsbD 14
  ea := w.getLsbD 13
  eb := w.getLsbD 12
  ec := w.getLsbD 11
  md := w.extractLsb' 0 11

def packL3 (f : L3F) : Word :=
  0#1 ++ f.op ++ f.g.cc ++ f.g.cond ++ f.d ++ f.a ++ f.b ++ f.c ++ BitVec.ofBool f.la ++ BitVec.ofBool f.lb
    ++ BitVec.ofBool f.lc ++ BitVec.ofBool f.ea ++ BitVec.ofBool f.eb ++ BitVec.ofBool f.ec ++ f.md

def unpackLI (w : Word) : LIF where
  op := w.extractLsb' 55 8
  g := ⟨w.extractLsb' 53 2, w.extractLsb' 49 4⟩
  d := w.extractLsb' 41 8
  a := w.extractLsb' 33 8
  imm := w.extractLsb' 9 24
  la := w.getLsbD 8
  ea := w.getLsbD 7
  md := w.extractLsb' 0 7

def packLI (f : LIF) : Word :=
  0#1 ++ f.op ++ f.g.cc ++ f.g.cond ++ f.d ++ f.a ++ f.imm ++ BitVec.ofBool f.la ++ BitVec.ofBool f.ea ++ f.md

def unpackLM (w : Word) : LMF where
  op := w.extractLsb' 55 8
  g := ⟨w.extractLsb' 53 2, w.extractLsb' 49 4⟩
  d := w.extractLsb' 41 8
  a := w.extractLsb' 33 8
  sb := w.extractLsb' 27 6
  off := w.extractLsb' 13 14
  la := w.getLsbD 12
  ld := w.getLsbD 11
  ea := w.getLsbD 10
  ed := w.getLsbD 9
  width := w.extractLsb' 6 3
  sgn := w.getLsbD 5
  pair := w.getLsbD 4
  scope := w.extractLsb' 1 3
  ord := w.getLsbD 0

def packLM (f : LMF) : Word :=
  0#1 ++ f.op ++ f.g.cc ++ f.g.cond ++ f.d ++ f.a ++ f.sb ++ f.off ++ BitVec.ofBool f.la ++ BitVec.ofBool f.ld
    ++ BitVec.ofBool f.ea ++ BitVec.ofBool f.ed ++ f.width ++ BitVec.ofBool f.sgn ++ BitVec.ofBool f.pair
    ++ f.scope ++ BitVec.ofBool f.ord

def unpackS (w : Word) : SF where
  op := w.extractLsb' 54 8
  g := ⟨w.extractLsb' 52 2, w.extractLsb' 48 4⟩
  d := w.extractLsb' 42 6
  a := w.extractLsb' 36 6
  b := w.extractLsb' 30 6
  imm := w.extractLsb' 0 30

def packS (f : SF) : Word :=
  0b10#2 ++ f.op ++ f.g.cc ++ f.g.cond ++ f.d ++ f.a ++ f.b ++ f.imm

/-! ### Sub-fields -/

/-- The ordinary MOD layout (Table 2.4). -/
def L3F.xk (f : L3F) : BitVec 3 := f.md.extractLsb' 8 3
def L3F.xa (f : L3F) : BitVec 5 := f.md.extractLsb' 3 5
def L3F.opx2 (f : L3F) : Bool := f.md.getLsbD 2
def L3F.opx (f : L3F) : BitVec 2 := f.md.extractLsb' 0 2
def packMod (xk : BitVec 3) (xa : BitVec 5) (opx2 : Bool) (opx : BitVec 2) : BitVec 11 :=
  xk ++ xa ++ BitVec.ofBool opx2 ++ opx

def LIF.opx2 (f : LIF) : Bool := f.md.getLsbD 2
def LIF.opx (f : LIF) : BitVec 2 := f.md.extractLsb' 0 2
def LIF.mdHi (f : LIF) : BitVec 4 := f.md.extractLsb' 3 4

/-- SF = 0 requires OPX[1:0] = 00 (R62). -/
def flagsOk (opx2 : Bool) (opx : BitVec 2) : Bool := opx2 || opx = 0
def flagsOf (opx2 : Bool) (opx : BitVec 2) : SetFlags := if opx2 then some opx else none
def flagsBit : SetFlags → Bool
  | some _ => true
  | none => false
def flagsReg : SetFlags → BitVec 2
  | some k => k
  | none => 0

/-- A 6-bit guard field (R35, R87). -/
def guardOf6 (x : BitVec 8) : Guard := ⟨x.extractLsb' 4 2, x.extractLsb' 0 4⟩
def guardTo8 (g : Guard) : BitVec 8 := 0#2 ++ g.cc ++ g.cond

def roundingOf (x : BitVec 2) : Rounding :=
  match x.toNat with
  | 0 => .rn | 1 => .rz | 2 => .rp | _ => .rm
def Rounding.code : Rounding → BitVec 2
  | .rn => 0 | .rz => 1 | .rp => 2 | .rm => 3

/-- The crossbar of XK 0 to 6 (Table 2.5). -/
def xbarOf (xk : BitVec 3) (xa : BitVec 5) : Xbar :=
  match xk.toNat with
  | 1 => .rot xa | 2 => .bcast xa | 3 => .fly xa | 4 => .mirror | 5 => .up xa | 6 => .down xa | _ => .straight
def Xbar.xk : Xbar → BitVec 3
  | .straight => 0 | .rot _ => 1 | .bcast _ => 2 | .fly _ => 3 | .mirror => 4 | .up _ => 5 | .down _ => 6
def Xbar.xa : Xbar → BitVec 5
  | .straight => 0 | .rot k => k | .bcast k => k | .fly k => k | .mirror => 0 | .up k => k | .down k => k

/-- The reserved bits of a B operand (R63, R64): XA where the kind takes no amount; B[7:6], LB and EB under XK = 7. -/
def L3F.bOk (f : L3F) : Bool :=
  match f.xk.toNat with
  | 0 | 4 => f.xa = 0
  | 7 => f.xa = 0 && f.b.toNat < 64 && !f.lb && !f.eb
  | _ => true
def L3F.bSrc (f : L3F) : BSrc :=
  if f.xk = 7 then .sheaf (f.b.extractLsb' 0 6) else .lane ⟨f.b, f.lb, f.eb⟩ (xbarOf f.xk f.xa)
def BSrc.reg : BSrc → BitVec 8
  | .lane v _ => v.reg
  | .sheaf r => 0#2 ++ r
def BSrc.last : BSrc → Bool
  | .lane v _ => v.last
  | .sheaf _ => false
def BSrc.trap : BSrc → Bool
  | .lane v _ => v.trap
  | .sheaf _ => false
def BSrc.xk : BSrc → BitVec 3
  | .lane _ x => x.xk
  | .sheaf _ => 7
def BSrc.xa : BSrc → BitVec 5
  | .lane _ x => x.xa
  | .sheaf _ => 0

/-- Unused source fields (R60, R84). -/
def L3F.noA (f : L3F) : Bool := f.a = 0 && !f.la && !f.ea
def L3F.noB (f : L3F) : Bool := f.b = 0 && !f.lb && !f.eb
def L3F.noX (f : L3F) : Bool := f.xk = 0 && f.xa = 0
def L3F.noCmarks (f : L3F) : Bool := !f.lc && !f.ec
def L3F.noC (f : L3F) : Bool := f.c = 0 && f.noCmarks
def L3F.aSrc (f : L3F) : VSrc := ⟨f.a, f.la, f.ea⟩
def L3F.bPlain (f : L3F) : VSrc := ⟨f.b, f.lb, f.eb⟩
def L3F.cSrc (f : L3F) : VSrc := ⟨f.c, f.lc, f.ec⟩
def L3F.fOk (f : L3F) : Bool := flagsOk f.opx2 f.opx
def L3F.fl (f : L3F) : SetFlags := flagsOf f.opx2 f.opx
def L3F.bit0 (f : L3F) : Bool := f.c.getLsbD 0

/-- The base record an encoder fills in. -/
def L3F.mk0 (op : BitVec 8) (g : Guard) : L3F :=
  ⟨op, g, 0, 0, 0, 0, false, false, false, false, false, false, 0⟩
def L3F.withA (f : L3F) (a : VSrc) : L3F := { f with a := a.reg, la := a.last, ea := a.trap }
def L3F.withBP (f : L3F) (b : VSrc) : L3F := { f with b := b.reg, lb := b.last, eb := b.trap }
def L3F.withB (f : L3F) (b : BSrc) (opx2 : Bool) (opx : BitVec 2) : L3F :=
  { f with b := b.reg, lb := b.last, eb := b.trap, md := packMod b.xk b.xa opx2 opx }
def L3F.withC (f : L3F) (c : VSrc) : L3F := { f with c := c.reg, lc := c.last, ec := c.trap }
def boolTo8 (b : Bool) : BitVec 8 := if b then 1 else 0

/-! ### Form L3: decoders and encoders by operand form -/

def decL3A (f : L3F) (k : OpA → Instr) : Dec :=
  req (f.noB && f.noX && f.noC && f.fOk) 0x02 (.ok (k ⟨f.g, f.d, f.aSrc, f.fl⟩))
def encL3A (op : BitVec 8) (o : OpA) : L3F :=
  { (L3F.mk0 op o.g).withA o.a with d := o.d, md := packMod 0 0 (flagsBit o.fl) (flagsReg o.fl) }

def decL3B (f : L3F) (k : OpB → Instr) : Dec :=
  req (f.noA && f.bOk && f.noC && f.fOk) 0x02 (.ok (k ⟨f.g, f.d, f.bSrc, f.fl⟩))
def encL3B (op : BitVec 8) (o : OpB) : L3F :=
  { (L3F.mk0 op o.g).withB o.b (flagsBit o.fl) (flagsReg o.fl) with d := o.d }

def decL3AB (f : L3F) (k : OpAB → Instr) : Dec :=
  req (f.bOk && f.noC && f.fOk) 0x02 (.ok (k ⟨f.g, f.d, f.aSrc, f.bSrc, f.fl⟩))
def encL3AB (op : BitVec 8) (o : OpAB) : L3F :=
  { ((L3F.mk0 op o.g).withA o.a).withB o.b (flagsBit o.fl) (flagsReg o.fl) with d := o.d }

def decL3AB64 (f : L3F) (k : OpAB → Instr) : Dec :=
  req (f.bOk && f.noC && f.fOk) 0x02
    (req (evenReg f.d && evenReg f.a && f.bSrc.pairOk) 0x0B (.ok (k ⟨f.g, f.d, f.aSrc, f.bSrc, f.fl⟩)))
def encL3AB64 (op : BitVec 8) (o : OpAB) : L3F := encL3AB op o

def decL3ABU (f : L3F) (k : OpABU → Instr) : Dec :=
  req (f.bOk && f.noCmarks && f.c.toNat < 2 && f.fOk) 0x02 (.ok (k ⟨f.g, f.d, f.aSrc, f.bSrc, f.bit0, f.fl⟩))
def encL3ABU (op : BitVec 8) (o : OpABU) : L3F :=
  { ((L3F.mk0 op o.g).withA o.a).withB o.b (flagsBit o.fl) (flagsReg o.fl) with d := o.d, c := boolTo8 o.uns }

def decL3Imulw (f : L3F) (k : OpABU → Instr) : Dec :=
  req (f.bOk && f.noCmarks && f.c.toNat < 2 && f.fOk) 0x02
    (req (evenReg f.d) 0x0B (.ok (k ⟨f.g, f.d, f.aSrc, f.bSrc, f.bit0, f.fl⟩)))
def encL3Imulw (op : BitVec 8) (o : OpABU) : L3F := encL3ABU op o

def decL3ABK (f : L3F) (k : OpABK → Instr) : Dec :=
  req (f.bOk && f.noCmarks && f.c.toNat < 4 && f.fOk) 0x02
    (.ok (k ⟨f.g, f.d, f.aSrc, f.bSrc, f.c.extractLsb' 0 2, f.fl⟩))
def encL3ABK (op : BitVec 8) (o : OpABK) : L3F :=
  { ((L3F.mk0 op o.g).withA o.a).withB o.b (flagsBit o.fl) (flagsReg o.fl) with d := o.d, c := 0#6 ++ o.k }

def decL3ABC (f : L3F) (k : OpABC → Instr) : Dec :=
  req (f.bOk && f.fOk) 0x02 (.ok (k ⟨f.g, f.d, f.aSrc, f.bSrc, f.cSrc, f.fl⟩))
def encL3ABC (op : BitVec 8) (o : OpABC) : L3F :=
  { (((L3F.mk0 op o.g).withA o.a).withB o.b (flagsBit o.fl) (flagsReg o.fl)).withC o.c with d := o.d }

/-- ICMP: SF = 0 with OPX[1:0] = 00 is 0x0C, with another OPX 0x02 (R62). -/
def decL3Cmp (f : L3F) (k : OpCmp → Instr) : Dec :=
  req (f.d = 0 && f.bOk && f.noC && f.fOk) 0x02 (req f.opx2 0x0C (.ok (k ⟨f.g, f.aSrc, f.bSrc, f.opx⟩)))
def encL3Cmp (op : BitVec 8) (o : OpCmp) : L3F :=
  ((L3F.mk0 op o.g).withA o.a).withB o.b true o.k

def decL3Cmp64 (f : L3F) (k : OpCmp → Instr) : Dec :=
  req (f.d = 0 && f.bOk && f.noC && f.fOk) 0x02
    (req (evenReg f.a && f.bSrc.pairOk) 0x0B (req f.opx2 0x0C (.ok (k ⟨f.g, f.aSrc, f.bSrc, f.opx⟩))))
def encL3Cmp64 (op : BitVec 8) (o : OpCmp) : L3F := encL3Cmp op o

/-- FCMP: OPX[2] = 0 is 0x0C (R128). -/
def decL3Fcmp (f : L3F) (k : OpCmp → Instr) : Dec :=
  req (f.d = 0 && f.bOk && f.noC) 0x02 (req f.opx2 0x0C (.ok (k ⟨f.g, f.aSrc, f.bSrc, f.opx⟩)))
def encL3Fcmp (op : BitVec 8) (o : OpCmp) : L3F := encL3Cmp op o

def decL3Sel (f : L3F) (k : OpSel → Instr) : Dec :=
  req (f.bOk && f.noCmarks && f.c.toNat < 64 && f.fOk) 0x02
    (req (guardOf6 f.c).wf 0x0C (.ok (k ⟨f.g, f.d, f.aSrc, f.bSrc, guardOf6 f.c, f.fl⟩)))
def encL3Sel (op : BitVec 8) (o : OpSel) : L3F :=
  { ((L3F.mk0 op o.g).withA o.a).withB o.b (flagsBit o.fl) (flagsReg o.fl) with d := o.d, c := guardTo8 o.sel }

def decL3Lea (f : L3F) (k : OpLea → Instr) : Dec :=
  req (f.bOk && f.noCmarks && f.c.toNat < 16 && f.fOk) 0x02
    (req (evenReg f.d && evenReg f.a) 0x0B
      (.ok (k ⟨f.g, f.d, f.aSrc, f.bSrc, f.c.getLsbD 3, f.c.extractLsb' 0 3, f.fl⟩)))
def encL3Lea (op : BitVec 8) (o : OpLea) : L3F :=
  { ((L3F.mk0 op o.g).withA o.a).withB o.b (flagsBit o.fl) (flagsReg o.fl) with
    d := o.d, c := 0#4 ++ BitVec.ofBool o.uns ++ o.sh }

/-! Floating point and conversions (R122, R123): kind "m" needs OPX[2] = 0; kind "exact" needs OPX[1:0] = 00 too. -/

def decL3FA (f : L3F) (k : FopA → Instr) : Dec :=
  req (f.noB && f.noX && f.noC && !f.opx2) 0x02 (.ok (k ⟨f.g, f.d, f.aSrc, roundingOf f.opx⟩))
def encL3FA (op : BitVec 8) (o : FopA) : L3F :=
  { (L3F.mk0 op o.g).withA o.a with d := o.d, md := packMod 0 0 false o.rm.code }

def decL3FAX (f : L3F) (k : FopAX → Instr) : Dec :=
  req (f.noB && f.noX && f.noC && !f.opx2) 0x02 (req (f.opx = 0) 0x0C (.ok (k ⟨f.g, f.d, f.aSrc⟩)))
def encL3FAX (op : BitVec 8) (o : FopAX) : L3F := { (L3F.mk0 op o.g).withA o.a with d := o.d }

def decL3FAB (f : L3F) (k : FopAB → Instr) : Dec :=
  req (f.bOk && f.noC && !f.opx2) 0x02 (.ok (k ⟨f.g, f.d, f.aSrc, f.bSrc, roundingOf f.opx⟩))
def encL3FAB (op : BitVec 8) (o : FopAB) : L3F :=
  { ((L3F.mk0 op o.g).withA o.a).withB o.b false o.rm.code with d := o.d }

def decL3FABX (f : L3F) (k : FopABX → Instr) : Dec :=
  req (f.bOk && f.noC && !f.opx2) 0x02 (req (f.opx = 0) 0x0C (.ok (k ⟨f.g, f.d, f.aSrc, f.bSrc⟩)))
def encL3FABX (op : BitVec 8) (o : FopABX) : L3F :=
  { ((L3F.mk0 op o.g).withA o.a).withB o.b false 0 with d := o.d }

def decL3FABC (f : L3F) (k : FopABC → Instr) : Dec :=
  req (f.bOk && !f.opx2) 0x02 (.ok (k ⟨f.g, f.d, f.aSrc, f.bSrc, f.cSrc, roundingOf f.opx⟩))
def encL3FABC (op : BitVec 8) (o : FopABC) : L3F :=
  { (((L3F.mk0 op o.g).withA o.a).withB o.b false o.rm.code).withC o.c with d := o.d }

def decL3CvtU (f : L3F) (k : CvtU → Instr) : Dec :=
  req (f.noB && f.noX && f.noCmarks && f.c.toNat < 2 && !f.opx2) 0x02
    (.ok (k ⟨f.g, f.d, f.aSrc, f.bit0, roundingOf f.opx⟩))
def encL3CvtU (op : BitVec 8) (o : CvtU) : L3F :=
  { (L3F.mk0 op o.g).withA o.a with d := o.d, c := boolTo8 o.uns, md := packMod 0 0 false o.rm.code }

def decL3CvtSel (n : Nat) (f : L3F) (k : CvtSel n → Instr) : Dec :=
  req (f.noB && f.noX && f.noCmarks && f.c.toNat < 2 ^ n && !f.opx2) 0x02
    (req (f.opx = 0) 0x0C (.ok (k ⟨f.g, f.d, f.aSrc, f.c.setWidth n⟩)))
def encL3CvtSel (n : Nat) (op : BitVec 8) (o : CvtSel n) : L3F :=
  { (L3F.mk0 op o.g).withA o.a with d := o.d, c := o.sel.setWidth 8 }

def decL3CvtF8 (f : L3F) (k : CvtF8 → Instr) : Dec :=
  req (f.bOk && f.noCmarks && f.c.toNat < 4 && !f.opx2) 0x02
    (.ok (k ⟨f.g, f.d, f.aSrc, f.bSrc, f.c.getLsbD 1, f.c.getLsbD 0, roundingOf f.opx⟩))
def encL3CvtF8 (op : BitVec 8) (o : CvtF8) : L3F :=
  { ((L3F.mk0 op o.g).withA o.a).withB o.b false o.rm.code with
    d := o.d, c := 0#6 ++ BitVec.ofBool o.hi ++ BitVec.ofBool o.nan }

def decL3CvtF4 (f : L3F) (k : CvtF4 → Instr) : Dec :=
  req (f.bOk && f.noCmarks && f.c.toNat < 4 && !f.opx2) 0x02
    (.ok (k ⟨f.g, f.d, f.aSrc, f.bSrc, f.c.extractLsb' 0 2, roundingOf f.opx⟩))
def encL3CvtF4 (op : BitVec 8) (o : CvtF4) : L3F :=
  { ((L3F.mk0 op o.g).withA o.a).withB o.b false o.rm.code with d := o.d, c := 0#6 ++ o.byte }

def sclTargetOf (c : BitVec 8) : SclTarget :=
  match c.toNat with
  | 0 => .e4m3 | 1 => .int8 | _ => .int4
def SclTarget.code : SclTarget → BitVec 8
  | .e4m3 => 0 | .int8 => 1 | .int4 => 2

/-- SCLQ: target 3 is 0x0C (R134). -/
def decL3Sclq (f : L3F) (k : OpSclq → Instr) : Dec :=
  req (f.noB && f.noX && f.noCmarks && f.c.toNat < 4 && !f.opx2) 0x02
    (req (f.opx = 0 && f.c.toNat < 3) 0x0C (.ok (k ⟨f.g, f.d, f.aSrc, sclTargetOf f.c⟩)))
def encL3Sclq (op : BitVec 8) (o : OpSclq) : L3F :=
  { (L3F.mk0 op o.g).withA o.a with d := o.d, c := o.target.code }

/-! The lane-crossing group (R96). -/

def decL3Perm (f : L3F) (k : OpPerm → Instr) : Dec :=
  req (f.noC && f.md = 0) 0x02 (.ok (k ⟨f.g, f.d, f.aSrc, f.bPlain⟩))
def encL3Perm (op : BitVec 8) (o : OpPerm) : L3F :=
  { ((L3F.mk0 op o.g).withA o.a).withBP o.b with d := o.d }

def xmovOf (k : BitVec 3) : Option XmovKind :=
  match k.toNat with
  | 1 => some .rot | 3 => some .fly | 5 => some .up | 6 => some .down | _ => none
def XmovKind.code : XmovKind → BitVec 3
  | .rot => 1 | .fly => 3 | .up => 5 | .down => 6

/-- XMOV kinds 0, 2, 4 and 7 are 0x0C (R96). -/
def decL3Xmov (f : L3F) (k : OpXmov → Instr) : Dec :=
  req (f.noC && f.md.extractLsb' 0 8 = 0) 0x02
    (match xmovOf f.xk with
     | some x => .ok (k ⟨f.g, f.d, f.aSrc, f.bPlain, x⟩)
     | none => .error 0x0C)
def encL3Xmov (op : BitVec 8) (o : OpXmov) : L3F :=
  { ((L3F.mk0 op o.g).withA o.a).withBP o.b with d := o.d, md := o.kind.code ++ 0#8 }

def voteOf (m : BitVec 2) : VoteMode :=
  match m.toNat with
  | 0 => .any | 1 => .all | 2 => .ballot | _ => .eq
def VoteMode.code : VoteMode → BitVec 2
  | .any => 0 | .all => 1 | .ballot => 2 | .eq => 3

def decL3Vote (f : L3F) (k : OpVote → Instr) : Dec :=
  req (f.noB && f.noC && f.md.toNat < 4) 0x02 (.ok (k ⟨f.g, f.d, f.aSrc, voteOf f.opx⟩))
def encL3Vote (op : BitVec 8) (o : OpVote) : L3F :=
  { (L3F.mk0 op o.g).withA o.a with d := o.d, md := 0#9 ++ o.mode.code }

def decL3Match (f : L3F) (k : OpMatch → Instr) : Dec :=
  req (f.noB && f.noC && f.md.toNat < 2) 0x02
    (req (!f.md.getLsbD 0 || evenReg f.a) 0x0B (.ok (k ⟨f.g, f.d, f.aSrc, f.md.getLsbD 0⟩)))
def encL3Match (op : BitVec 8) (o : OpMatch) : L3F :=
  { (L3F.mk0 op o.g).withA o.a with d := o.d, md := 0#10 ++ BitVec.ofBool o.w64 }

def redOpOf (x : BitVec 4) : Option RedOp :=
  match x.toNat with
  | 0 => some .add | 1 => some .mins | 2 => some .minu | 3 => some .maxs | 4 => some .maxu | 5 => some .and
  | 6 => some .or | 7 => some .xor | 8 => some .fmin | 9 => some .fmax | 10 => some .fadd | _ => none
def RedOp.code : RedOp → BitVec 4
  | .add => 0 | .mins => 1 | .minu => 2 | .maxs => 3 | .maxu => 4 | .and => 5 | .or => 6 | .xor => 7
  | .fmin => 8 | .fmax => 9 | .fadd => 10

/-- Ops 11 to 15 are 0x0C (R99). -/
def decL3Redux (f : L3F) (k : OpRedux → Instr) : Dec :=
  req (f.noB && f.noC && f.md.toNat < 16) 0x02
    (match redOpOf (f.md.extractLsb' 0 4) with
     | some x => .ok (k ⟨f.g, f.d, f.aSrc, x⟩)
     | none => .error 0x0C)
def encL3Redux (op : BitVec 8) (o : OpRedux) : L3F :=
  { (L3F.mk0 op o.g).withA o.a with d := o.d, md := 0#7 ++ o.op.code }

def decL3Scan (f : L3F) (k : OpScan → Instr) : Dec :=
  req (f.noB && f.noC && f.md.toNat < 32) 0x02
    (match redOpOf (f.md.extractLsb' 0 4) with
     | some x => .ok (k ⟨f.g, f.d, f.aSrc, x, f.md.getLsbD 4⟩)
     | none => .error 0x0C)
def encL3Scan (op : BitVec 8) (o : OpScan) : L3F :=
  { (L3F.mk0 op o.g).withA o.a with d := o.d, md := 0#6 ++ BitVec.ofBool o.excl ++ o.op.code }

/-- V2S: D[7:6] is 0; MOD[4:0] is 0 under FIRST (R79, R98). -/
def decL3V2s (f : L3F) (k : OpV2s → Instr) : Dec :=
  req (f.noB && f.noC && f.d.toNat < 64 && f.md.toNat < 128 && (!f.md.getLsbD 5 || f.md.extractLsb' 0 5 = 0)) 0x02
    (req (!f.md.getLsbD 6 || evenReg f.a) 0x0B
      (.ok (k ⟨f.g, f.d.extractLsb' 0 6, f.aSrc, if f.md.getLsbD 5 then .first else .lane (f.md.extractLsb' 0 5),
        f.md.getLsbD 6⟩)))
def V2sLane.isFirst : V2sLane → Bool
  | .lane _ => false
  | .first => true
def V2sLane.code : V2sLane → BitVec 5
  | .lane k => k
  | .first => 0
def encL3V2s (op : BitVec 8) (o : OpV2s) : L3F :=
  { (L3F.mk0 op o.g).withA o.a with
    d := 0#2 ++ o.d, md := 0#4 ++ BitVec.ofBool o.w64 ++ BitVec.ofBool o.from_.isFirst ++ o.from_.code }

/-- Table 1.3. -/
def vSpecialOf (x : BitVec 8) : Option VSpecial :=
  match x.toNat with
  | 0x00 => some .lane | 0x01 => some .widlo | 0x02 => some .widhi | 0x03 => some .ranklo | 0x04 => some .rankhi
  | 0x05 => some .parentlo | 0x06 => some .parenthi | 0x07 => some .linlo | 0x08 => some .linhi
  | 0x09 => some .belllo | 0x0A => some .bellhi | 0x0B => some .core | 0x0C => some .die | 0x0D => some .fpflags
  | _ => none
def VSpecial.code : VSpecial → BitVec 8
  | .lane => 0x00 | .widlo => 0x01 | .widhi => 0x02 | .ranklo => 0x03 | .rankhi => 0x04 | .parentlo => 0x05
  | .parenthi => 0x06 | .linlo => 0x07 | .linhi => 0x08 | .belllo => 0x09 | .bellhi => 0x0A | .core => 0x0B
  | .die => 0x0C | .fpflags => 0x0D

def decL3Vsrd (f : L3F) (k : OpVsrd → Instr) : Dec :=
  req (f.noA && f.noB && f.noC && f.xk = 0) 0x02
    (match vSpecialOf (f.md.extractLsb' 0 8) with
     | some x => .ok (k ⟨f.g, f.d, x⟩)
     | none => .error 0x0C)
def encL3Vsrd (op : BitVec 8) (o : OpVsrd) : L3F :=
  { L3F.mk0 op o.g with d := o.d, md := 0#3 ++ o.sel.code }

/-! Atomics (R181, R182). -/

def scopeOf (x : BitVec 3) : Scope :=
  match x.toNat with
  | 0 => .fib | 1 => .shf | 2 => .bed | 3 => .clu | 4 => .die | 5 => .dev | _ => .sys
def Scope.code : Scope → BitVec 3
  | .fib => 0 | .shf => 1 | .bed => 2 | .clu => 3 | .die => 4 | .dev => 5 | .sys => 6

def aopOf (x : BitVec 4) : Option Aop :=
  match x.toNat with
  | 0 => some .add | 1 => some .and | 2 => some .or | 3 => some .xor | 4 => some .mins | 5 => some .minu
  | 6 => some .maxs | 7 => some .maxu | 8 => some .xchg | 9 => some .fadd | 10 => some .fmin | 11 => some .fmax
  | _ => none
def Aop.code : Aop → BitVec 4
  | .add => 0 | .and => 1 | .or => 2 | .xor => 3 | .mins => 4 | .minu => 5 | .maxs => 6 | .maxu => 7
  | .xchg => 8 | .fadd => 9 | .fmin => 10 | .fmax => 11

def orderOf (x : BitVec 2) : Order :=
  match x.toNat with
  | 0 => .relaxed | 1 => .acq | 2 => .rel | _ => .ar
def Order.code : Order → BitVec 2
  | .relaxed => 0 | .acq => 1 | .rel => 2 | .ar => 3

def L3F.aAop (f : L3F) : BitVec 4 := f.md.extractLsb' 7 4
def L3F.aScope (f : L3F) : BitVec 3 := f.md.extractLsb' 4 3
def L3F.aOrder (f : L3F) : BitVec 2 := f.md.extractLsb' 2 2
def L3F.aLow (f : L3F) : BitVec 2 := f.md.extractLsb' 0 2
def packAtom (a : Aop) (s : Scope) (o : Order) : BitVec 11 := a.code ++ s.code ++ o.code ++ 0#2

def decL3Atom (f : L3F) (k : OpAtom → Instr) : Dec :=
  req (f.noC && f.aLow = 0) 0x02 (req (f.aScope ≠ 7) 0x04 (req (evenReg f.a) 0x0B
    (match aopOf f.aAop with
     | some x => .ok (k ⟨f.g, f.d, f.aSrc, f.bPlain, x, scopeOf f.aScope, orderOf f.aOrder⟩)
     | none => .error 0x0C)))
def encL3Atom (op : BitVec 8) (o : OpAtom) : L3F :=
  { ((L3F.mk0 op o.g).withA o.a).withBP o.b with d := o.d, md := packAtom o.aop o.scope o.order }

def decL3Atom64 (f : L3F) (k : OpAtom → Instr) : Dec :=
  req (f.noC && f.aLow = 0) 0x02 (req (f.aScope ≠ 7) 0x04 (req (evenReg f.a && evenReg f.b && evenReg f.d) 0x0B
    (match aopOf f.aAop with
     | some x => req (!x.isFloat) 0x0C
        (.ok (k ⟨f.g, f.d, f.aSrc, f.bPlain, x, scopeOf f.aScope, orderOf f.aOrder⟩))
     | none => .error 0x0C)))
def encL3Atom64 (op : BitVec 8) (o : OpAtom) : L3F := encL3Atom op o

/-- ACAS requires AOP = 0 (R182). -/
def decL3Acas (f : L3F) (k : OpAcas → Instr) : Dec :=
  req (f.aLow = 0) 0x02 (req (f.aScope ≠ 7) 0x04 (req (evenReg f.a) 0x0B (req (f.aAop = 0) 0x0C
    (.ok (k ⟨f.g, f.d, f.aSrc, f.bPlain, f.cSrc, scopeOf f.aScope, orderOf f.aOrder⟩)))))
def encL3Acas (op : BitVec 8) (o : OpAcas) : L3F :=
  { (((L3F.mk0 op o.g).withA o.a).withBP o.b).withC o.c with d := o.d, md := packAtom .add o.scope o.order }

def decL3Acas64 (f : L3F) (k : OpAcas → Instr) : Dec :=
  req (f.aLow = 0) 0x02 (req (f.aScope ≠ 7) 0x04
    (req (evenReg f.a && evenReg f.b && evenReg f.c && evenReg f.d) 0x0B (req (f.aAop = 0) 0x0C
      (.ok (k ⟨f.g, f.d, f.aSrc, f.bPlain, f.cSrc, scopeOf f.aScope, orderOf f.aOrder⟩)))))
def encL3Acas64 (op : BitVec 8) (o : OpAcas) : L3F := encL3Acas op o

/-- RED: C[0] is W64; ORDER 00 and 10 only (R181, R182). -/
def decL3Red (f : L3F) (k : OpRed → Instr) : Dec :=
  req (f.d = 0 && f.noCmarks && f.c.toNat < 2 && f.aLow = 0) 0x02 (req (f.aScope ≠ 7) 0x04
    (req (evenReg f.a && (!f.bit0 || evenReg f.b)) 0x0B
      (match aopOf f.aAop with
       | some x => req (!(f.bit0 && x.isFloat) && !f.aOrder.getLsbD 0) 0x0C
          (.ok (k ⟨f.g, f.aSrc, f.bPlain, f.bit0, x, scopeOf f.aScope, f.aOrder.getLsbD 1⟩))
       | none => .error 0x0C)))
def encL3Red (op : BitVec 8) (o : OpRed) : L3F :=
  { ((L3F.mk0 op o.g).withA o.a).withBP o.b with
    c := boolTo8 o.w64, md := packAtom o.aop o.scope (if o.rel then .rel else .relaxed) }

/-! Counters, KV and population (R196, R206, R213). -/

def decL3Ctake (f : L3F) (k : OpCtake → Instr) : Dec :=
  req (f.noC && f.md.toNat < 4) 0x02 (req (evenReg f.a) 0x0B (.ok (k ⟨f.g, f.d, f.aSrc, f.bPlain, f.opx⟩)))
def encL3Ctake (op : BitVec 8) (o : OpCtake) : L3F :=
  { ((L3F.mk0 op o.g).withA o.a).withBP o.b with d := o.d, md := 0#9 ++ o.k }

def decL3Cgive (f : L3F) (k : OpCgive → Instr) : Dec :=
  req (f.noC && f.md = 0) 0x02 (req (evenReg f.a) 0x0B (.ok (k ⟨f.g, f.d, f.aSrc, f.bPlain⟩)))
def encL3Cgive (op : BitVec 8) (o : OpCgive) : L3F :=
  { ((L3F.mk0 op o.g).withA o.a).withBP o.b with d := o.d }

def decL3Cread (f : L3F) (k : OpCread → Instr) : Dec :=
  req (f.noB && f.noC && f.md = 0) 0x02 (req (evenReg f.a && evenReg f.d) 0x0B (.ok (k ⟨f.g, f.d, f.aSrc⟩)))
def encL3Cread (op : BitVec 8) (o : OpCread) : L3F := { (L3F.mk0 op o.g).withA o.a with d := o.d }

def decL3KvApp (f : L3F) (k : OpKvA → Instr) : Dec :=
  req (f.noB && f.noC && f.md.toNat < 4) 0x02 (req (evenReg f.d) 0x0B (.ok (k ⟨f.g, f.d, f.aSrc, f.opx⟩)))
def encL3KvApp (op : BitVec 8) (o : OpKvA) : L3F :=
  { (L3F.mk0 op o.g).withA o.a with d := o.d, md := 0#9 ++ o.k }

def decL3KvCow (f : L3F) (k : OpKvA → Instr) : Dec :=
  req (f.noB && f.noC && f.md.toNat < 4) 0x02 (.ok (k ⟨f.g, f.d, f.aSrc, f.opx⟩))
def encL3KvCow (op : BitVec 8) (o : OpKvA) : L3F := encL3KvApp op o

def decL3KvMap (f : L3F) (k : OpKvMap → Instr) : Dec :=
  req (f.noC && f.md.toNat < 4) 0x02 (req (evenReg f.d) 0x0B (.ok (k ⟨f.g, f.d, f.aSrc, f.bPlain, f.opx⟩)))
def encL3KvMap (op : BitVec 8) (o : OpKvMap) : L3F :=
  { ((L3F.mk0 op o.g).withA o.a).withBP o.b with d := o.d, md := 0#9 ++ o.k }

def decL3KvShare (f : L3F) (k : OpKvShare → Instr) : Dec :=
  req (f.d = 0 && f.noC && f.md.toNat < 4) 0x02 (.ok (k ⟨f.g, f.aSrc, f.bPlain, f.opx⟩))
def encL3KvShare (op : BitVec 8) (o : OpKvShare) : L3F :=
  { ((L3F.mk0 op o.g).withA o.a).withBP o.b with md := 0#9 ++ o.k }

def decL3KvDrop (f : L3F) (k : OpKvDrop → Instr) : Dec :=
  req (f.noB && f.noC && f.md = 0) 0x02 (.ok (k ⟨f.g, f.d, f.aSrc⟩))
def encL3KvDrop (op : BitVec 8) (o : OpKvDrop) : L3F := { (L3F.mk0 op o.g).withA o.a with d := o.d }

def decL3Rsmp (f : L3F) (k : OpRsmp → Instr) : Dec :=
  req (f.noC && f.md = 0) 0x02 (.ok (k ⟨f.g, f.d, f.aSrc, f.bPlain⟩))
def encL3Rsmp (op : BitVec 8) (o : OpRsmp) : L3F :=
  { ((L3F.mk0 op o.g).withA o.a).withBP o.b with d := o.d }

/-- ACCRD and ACCWR: the tile in MOD[5:0], the group at a multiple of 8 (R234). -/
def decL3Accrd (f : L3F) (k : OpAccrd → Instr) : Dec :=
  req (f.noA && f.noB && f.noC && f.md.toNat < 64) 0x02
    (req (octReg f.d) 0x0B (.ok (k ⟨f.g, f.d, f.md.extractLsb' 0 6⟩)))
def encL3Accrd (op : BitVec 8) (o : OpAccrd) : L3F := { L3F.mk0 op o.g with d := o.d, md := 0#5 ++ o.tile }

def decL3Accwr (f : L3F) (k : OpAccwr → Instr) : Dec :=
  req (f.d = 0 && f.noB && f.noC && f.md.toNat < 64) 0x02
    (req (octReg f.a) 0x0B (.ok (k ⟨f.g, f.aSrc, f.md.extractLsb' 0 6⟩)))
def encL3Accwr (op : BitVec 8) (o : OpAccwr) : L3F := { (L3F.mk0 op o.g).withA o.a with md := 0#5 ++ o.tile }

/-! ### Form LI (R65, R90, R189) -/

def LIF.noA (f : LIF) : Bool := f.a = 0 && !f.la && !f.ea
def LIF.aSrc (f : LIF) : VSrc := ⟨f.a, f.la, f.ea⟩
def LIF.fOk (f : LIF) : Bool := f.mdHi = 0 && flagsOk f.opx2 f.opx
def LIF.fl (f : LIF) : SetFlags := flagsOf f.opx2 f.opx
def packMd7 (fl : SetFlags) : BitVec 7 := 0#4 ++ BitVec.ofBool (flagsBit fl) ++ flagsReg fl

def decLII (f : LIF) (k : OpI → Instr) : Dec := req f.fOk 0x02 (.ok (k ⟨f.g, f.d, f.aSrc, f.imm, f.fl⟩))
def encLII (op : BitVec 8) (o : OpI) : LIF := ⟨op, o.g, o.d, o.a.reg, o.imm, o.a.last, o.a.trap, packMd7 o.fl⟩

def decLII64 (f : LIF) (k : OpI → Instr) : Dec :=
  req f.fOk 0x02 (req (evenReg f.d && evenReg f.a) 0x0B (.ok (k ⟨f.g, f.d, f.aSrc, f.imm, f.fl⟩)))
def encLII64 (op : BitVec 8) (o : OpI) : LIF := encLII op o

/-- SHLI, SHRI, SARI: an amount outside 0 to 31 is 0x0C. -/
def decLIIsh (f : LIF) (k : OpI → Instr) : Dec :=
  req f.fOk 0x02 (req (f.imm.toNat < 32) 0x0C (.ok (k ⟨f.g, f.d, f.aSrc, f.imm, f.fl⟩)))
def encLIIsh (op : BitVec 8) (o : OpI) : LIF := encLII op o

/-- MOVHI: IMM24[23:8] is reserved. -/
def decLIMovhi (f : LIF) (k : OpI → Instr) : Dec :=
  req (f.fOk && f.imm.toNat < 256) 0x02 (.ok (k ⟨f.g, f.d, f.aSrc, f.imm, f.fl⟩))
def encLIMovhi (op : BitVec 8) (o : OpI) : LIF := encLII op o

def decLIMovi (f : LIF) (k : OpMovi → Instr) : Dec :=
  req (f.noA && f.fOk) 0x02 (.ok (k ⟨f.g, f.d, f.imm, f.fl⟩))
def encLIMovi (op : BitVec 8) (o : OpMovi) : LIF := ⟨op, o.g, o.d, 0, o.imm, false, false, packMd7 o.fl⟩

def decLICmpI (f : LIF) (k : OpCmpI → Instr) : Dec :=
  req (f.d = 0 && f.fOk) 0x02 (req f.opx2 0x0C (.ok (k ⟨f.g, f.aSrc, f.imm, f.opx⟩)))
def encLICmpI (op : BitVec 8) (o : OpCmpI) : LIF :=
  ⟨op, o.g, 0, o.a.reg, o.imm, o.a.last, o.a.trap, packMd7 (some o.k)⟩

def fenceKindOf (x : BitVec 2) : Option FenceKind :=
  match x.toNat with
  | 0 => some .acq | 1 => some .rel | 2 => some .full | _ => none
def FenceKind.code : FenceKind → BitVec 2
  | .acq => 0 | .rel => 1 | .full => 2

def decLIFence (f : LIF) (k : OpFence → Instr) : Dec :=
  req (f.d = 0 && f.noA && f.imm = 0 && f.md.extractLsb' 0 2 = 0) 0x02 (req (f.md.extractLsb' 4 3 ≠ 7) 0x04
    (match fenceKindOf (f.md.extractLsb' 2 2) with
     | some x => .ok (k ⟨f.g, x, scopeOf (f.md.extractLsb' 4 3)⟩)
     | none => .error 0x0C))
def encLIFence (op : BitVec 8) (o : OpFence) : LIF :=
  ⟨op, o.g, 0, 0, 0, false, false, o.scope.code ++ o.kind.code ++ 0#2⟩

/-! ### Form LM (R66, R163) -/

def widthOf (x : BitVec 3) : Width :=
  match x.toNat with
  | 0 => .b8 | 1 => .h16 | 2 => .w32 | 3 => .d64 | _ => .q128
def Width.code : Width → BitVec 3
  | .b8 => 0 | .h16 => 1 | .w32 => 2 | .d64 => 3 | .q128 => 4

def LMF.addr (f : LMF) : LmAddr := ⟨if f.pair then .pair else .sum f.sb, ⟨f.a, f.la, f.ea⟩, f.off⟩
def LMF.dSrc (f : LMF) : VSrc := ⟨f.d, f.ld, f.ed⟩
def LmBase.isPair : LmBase → Bool
  | .sum _ => false
  | .pair => true
def LmBase.sb : LmBase → BitVec 6
  | .sum r => r
  | .pair => 0

/-- The checks every LM word shares, in the order of Table 2.13: reserved, WIDTH, SCOPE, alignment. -/
def reqLM (f : LMF) (resOk : Bool) (r : Dec) : Dec :=
  req (resOk && (!f.pair || f.sb = 0)) 0x02 (req (f.width.toNat < 5) 0x03 (req (f.scope ≠ 7) 0x04
    (req ((!f.pair || evenReg f.a) && (widthOf f.width).regOk f.d) 0x0B r)))
/-- D is a destination: no marks. -/
def LMF.destOk (f : LMF) : Bool := !f.ld && !f.ed
def LMF.noD (f : LMF) : Bool := f.d = 0 && f.destOk

def LMF.mk0 (op : BitVec 8) (g : Guard) (a : LmAddr) : LMF :=
  ⟨op, g, 0, a.a.reg, a.base.sb, a.off, a.a.last, false, a.a.trap, false, 0, false, a.base.isPair, 0, false⟩
def LMF.withD (f : LMF) (d : VSrc) : LMF := { f with d := d.reg, ld := d.last, ed := d.trap }

def decLMLoad (f : LMF) (k : OpLoad → Instr) : Dec :=
  reqLM f f.destOk (req ((widthOf f.width).sgnOk f.sgn) 0x0C
    (.ok (k ⟨f.g, f.d, f.addr, widthOf f.width, f.sgn, scopeOf f.scope, f.ord⟩)))
def encLMLoad (op : BitVec 8) (o : OpLoad) : LMF :=
  { LMF.mk0 op o.g o.addr with d := o.d, width := o.width.code, sgn := o.sgn, scope := o.scope.code, ord := o.acq }

def decLMStore (f : LMF) (k : OpStore → Instr) : Dec :=
  reqLM f true (req (!f.sgn) 0x0C (.ok (k ⟨f.g, f.dSrc, f.addr, widthOf f.width, scopeOf f.scope, f.ord⟩)))
def encLMStore (op : BitVec 8) (o : OpStore) : LMF :=
  { (LMF.mk0 op o.g o.addr).withD o.d with width := o.width.code, scope := o.scope.code, ord := o.rel }

def decLMLds (f : LMF) (k : OpLds → Instr) : Dec :=
  reqLM f f.destOk (req ((widthOf f.width).sgnOk f.sgn && f.scope = 2 && !f.ord) 0x0C
    (.ok (k ⟨f.g, f.d, f.addr, widthOf f.width, f.sgn⟩)))
def encLMLds (op : BitVec 8) (o : OpLds) : LMF :=
  { LMF.mk0 op o.g o.addr with d := o.d, width := o.width.code, sgn := o.sgn, scope := 2 }

def decLMSts (f : LMF) (k : OpSts → Instr) : Dec :=
  reqLM f true (req (!f.sgn && f.scope = 2 && !f.ord) 0x0C (.ok (k ⟨f.g, f.dSrc, f.addr, widthOf f.width⟩)))
def encLMSts (op : BitVec 8) (o : OpSts) : LMF :=
  { (LMF.mk0 op o.g o.addr).withD o.d with width := o.width.code, scope := 2 }

def decLMLdf (f : LMF) (k : OpLdf → Instr) : Dec :=
  reqLM f f.destOk (req (f.width = 2 && !f.sgn && f.scope = 2) 0x0C (.ok (k ⟨f.g, f.d, f.addr, f.ord⟩)))
def encLMLdf (op : BitVec 8) (o : OpLdf) : LMF :=
  { LMF.mk0 op o.g o.addr with d := o.d, width := 2, scope := 2, ord := o.late }

def decLMSte (f : LMF) (k : OpSte → Instr) : Dec :=
  reqLM f true (req (f.width = 2 && !f.sgn && f.scope = 2 && !f.ord) 0x0C (.ok (k ⟨f.g, f.dSrc, f.addr⟩)))
def encLMSte (op : BitVec 8) (o : OpSte) : LMF :=
  { (LMF.mk0 op o.g o.addr).withD o.d with width := 2, scope := 2 }

def decLMPrf (f : LMF) (k : OpPrf → Instr) : Dec :=
  reqLM f f.noD (req (f.width = 0 && !f.sgn && f.scope.toNat < 4 && !f.ord) 0x0C
    (.ok (k ⟨f.g, f.addr, scopeOf f.scope⟩)))
def encLMPrf (op : BitVec 8) (o : OpPrf) : LMF := { LMF.mk0 op o.g o.addr with scope := o.scope.code }

def decLMCwb (f : LMF) (k : OpCwb → Instr) : Dec :=
  reqLM f f.noD (req (f.width = 0 && !f.sgn && f.scope = 0 && !f.ord) 0x0C (.ok (k ⟨f.g, f.addr⟩)))
def encLMCwb (op : BitVec 8) (o : OpCwb) : LMF := LMF.mk0 op o.g o.addr

def decLMPgdrop (f : LMF) (k : OpPgdrop → Instr) : Dec :=
  reqLM f f.destOk (req (f.width = 2 && !f.sgn && f.scope = 0 && !f.ord) 0x0C (.ok (k ⟨f.g, f.d, f.addr⟩)))
def encLMPgdrop (op : BitVec 8) (o : OpPgdrop) : LMF := { LMF.mk0 op o.g o.addr with d := o.d, width := 2 }

def satomOf (x : BitVec 3) (sgn : Bool) : SatomOp :=
  match x.toNat with
  | 0 => .add | 1 => .and | 2 => .or | 3 => .xor | 4 => .min sgn | 5 => .max sgn | _ => .xchg
def SatomOp.code : SatomOp → BitVec 3
  | .add => 0 | .and => 1 | .or => 2 | .xor => 3 | .min _ => 4 | .max _ => 5 | .xchg => 6
def SatomOp.sgn : SatomOp → Bool
  | .min s => s
  | .max s => s
  | _ => false

/-- SATOM: WIDTH 2 or 3, SGN only on minimum and maximum (R188). -/
def decLMSatom (f : LMF) (k : OpSatom → Instr) : Dec :=
  reqLM f true (req ((f.width = 2 || f.width = 3) && (!f.sgn || f.scope = 4 || f.scope = 5)) 0x0C
    (.ok (k ⟨f.g, f.dSrc, f.addr, f.width = 3, satomOf f.scope f.sgn, f.ord⟩)))
def encLMSatom (op : BitVec 8) (o : OpSatom) : LMF :=
  { (LMF.mk0 op o.g o.addr).withD o.d with
    width := if o.w64 then 3 else 2, sgn := o.op.sgn, scope := o.op.code, ord := o.ret }

/-! ### The sheaf word (R67, R68, R91 to R93, R140, R203, R227 to R235) -/

def SF.mk0 (op : BitVec 8) (g : Guard) : SF := ⟨op, g, 0, 0, 0, 0⟩

def decSSAB (f : SF) (k : SopAB → Instr) : Dec := req (f.imm = 0) 0x02 (.ok (k ⟨f.g, f.d, f.a, f.b⟩))
def encSSAB (op : BitVec 8) (o : SopAB) : SF := ⟨op, o.g, o.d, o.a, o.b, 0⟩

def decSSCmp (f : SF) (k : SopCmp → Instr) : Dec :=
  req (f.d.toNat < 4 && f.imm = 0) 0x02 (.ok (k ⟨f.g, f.d.extractLsb' 0 2, f.a, f.b⟩))
def encSSCmp (op : BitVec 8) (o : SopCmp) : SF := ⟨op, o.g, 0#4 ++ o.k, o.a, o.b, 0⟩

def decSSA (f : SF) (k : SopA → Instr) : Dec := req (f.b = 0 && f.imm = 0) 0x02 (.ok (k ⟨f.g, f.d, f.a⟩))
def encSSA (op : BitVec 8) (o : SopA) : SF := ⟨op, o.g, o.d, o.a, 0, 0⟩

def decSSAI (f : SF) (k : SopAI → Instr) : Dec := req (f.b = 0) 0x02 (.ok (k ⟨f.g, f.d, f.a, f.imm⟩))
def encSSAI (op : BitVec 8) (o : SopAI) : SF := ⟨op, o.g, o.d, o.a, 0, o.imm⟩

def decSSI (f : SF) (k : SopI → Instr) : Dec := req (f.a = 0 && f.b = 0) 0x02 (.ok (k ⟨f.g, f.d, f.imm⟩))
def encSSI (op : BitVec 8) (o : SopI) : SF := ⟨op, o.g, o.d, 0, 0, o.imm⟩

def decSSst (f : SF) (k : SopSst → Instr) : Dec := req (f.d = 0) 0x02 (.ok (k ⟨f.g, f.a, f.b, f.imm⟩))
def encSSst (op : BitVec 8) (o : SopSst) : SF := ⟨op, o.g, 0, o.a, o.b, o.imm⟩

/-- Table 1.4. -/
def sSpecialOf (x : BitVec 8) : Option SSpecial :=
  match x.toNat with
  | 0x00 => some .bell | 0x01 => some .seat | 0x02 => some .bed | 0x03 => some .sheaf | 0x04 => some .launch
  | 0x05 => some .seed | 0x06 => some .pool | 0x07 => some .trellis | 0x08 => some .hvec | 0x09 => some .tdepth
  | 0x0A => some .mprog | 0x0B => some .notice | 0x0C => some .fpflags | _ => none
def SSpecial.code : SSpecial → BitVec 8
  | .bell => 0x00 | .seat => 0x01 | .bed => 0x02 | .sheaf => 0x03 | .launch => 0x04 | .seed => 0x05
  | .pool => 0x06 | .trellis => 0x07 | .hvec => 0x08 | .tdepth => 0x09 | .mprog => 0x0A | .notice => 0x0B
  | .fpflags => 0x0C

def decSSrd (f : SF) (k : SopSrd → Instr) : Dec :=
  req (f.a = 0 && f.b = 0 && f.imm.toNat < 256) 0x02
    (match sSpecialOf (f.imm.extractLsb' 0 8) with
     | some x => .ok (k ⟨f.g, f.d, x⟩)
     | none => .error 0x0C)
def encSSrd (op : BitVec 8) (o : SopSrd) : SF := ⟨op, o.g, o.d, 0, 0, 0#22 ++ o.sel.code⟩

def decSSwr (f : SF) (k : SopSwr → Instr) : Dec :=
  req (f.d = 0 && f.b = 0 && f.imm.toNat < 256) 0x02
    (match sSpecialOf (f.imm.extractLsb' 0 8) with
     | some x => req x.writable 0x0C (.ok (k ⟨f.g, f.a, x⟩))
     | none => .error 0x0C)
def encSSwr (op : BitVec 8) (o : SopSwr) : SF := ⟨op, o.g, 0, o.a, 0, 0#22 ++ o.sel.code⟩

def decSSCmpI (f : SF) (k : SopCmpI → Instr) : Dec :=
  req (f.d.toNat < 4 && f.b = 0) 0x02 (.ok (k ⟨f.g, f.d.extractLsb' 0 2, f.a, f.imm⟩))
def encSSCmpI (op : BitVec 8) (o : SopCmpI) : SF := ⟨op, o.g, 0#4 ++ o.k, o.a, 0, o.imm⟩

def decSBra (f : SF) (k : SopBra → Instr) : Dec :=
  req (f.d = 0 && f.a = 0 && f.b = 0) 0x02 (.ok (k ⟨f.g, f.imm⟩))
def encSBra (op : BitVec 8) (o : SopBra) : SF := ⟨op, o.g, 0, 0, 0, o.off⟩

def decSBrx (f : SF) (k : SopBrx → Instr) : Dec :=
  req (f.d = 0 && f.b = 0 && f.imm = 0) 0x02 (.ok (k ⟨f.g, f.a⟩))
def encSBrx (op : BitVec 8) (o : SopBrx) : SF := ⟨op, o.g, 0, o.a, 0, 0⟩

def decSCall (f : SF) (k : SopCall → Instr) : Dec :=
  req (f.a = 0 && f.b = 0) 0x02 (.ok (k ⟨f.g, f.d, f.imm⟩))
def encSCall (op : BitVec 8) (o : SopCall) : SF := ⟨op, o.g, o.d, 0, 0, o.off⟩

/-- JOIN and MEET: a barrier of 8 or more is 0x05. -/
def decSBar (f : SF) (k : SopBar → Instr) : Dec :=
  req (f.a = 0 && f.b = 0 && f.imm = 0) 0x02 (req (f.d.toNat < 8) 0x05 (.ok (k ⟨f.g, f.d.extractLsb' 0 3⟩)))
def encSBar (op : BitVec 8) (o : SopBar) : SF := ⟨op, o.g, 0#3 ++ o.k, 0, 0, 0⟩

def decSG (f : SF) (k : SopG → Instr) : Dec :=
  req (f.d = 0 && f.a = 0 && f.b = 0 && f.imm = 0) 0x02 (.ok (k ⟨f.g⟩))
def encSG (op : BitVec 8) (o : SopG) : SF := SF.mk0 op o.g

def decSNap (f : SF) (k : SopNap → Instr) : Dec := req (f.d = 0 && f.b = 0) 0x02 (.ok (k ⟨f.g, f.a, f.imm⟩))
def encSNap (op : BitVec 8) (o : SopNap) : SF := ⟨op, o.g, 0, o.a, 0, o.imm⟩

def decSBedBar (f : SF) (k : SopBedBar → Instr) : Dec :=
  req (f.d = 0 && f.a = 0 && f.b = 0 && f.imm.toNat < 16) 0x02 (.ok (k ⟨f.g, f.imm.extractLsb' 0 4⟩))
def encSBedBar (op : BitVec 8) (o : SopBedBar) : SF := ⟨op, o.g, 0, 0, 0, 0#26 ++ o.k⟩

def decSArrv (f : SF) (k : SopArrv → Instr) : Dec :=
  req (f.a = 0 && f.b = 0 && f.imm.toNat < 16) 0x02 (.ok (k ⟨f.g, f.d, f.imm.extractLsb' 0 4⟩))
def encSArrv (op : BitVec 8) (o : SopArrv) : SF := ⟨op, o.g, o.d, 0, 0, 0#26 ++ o.k⟩

def decSWaitb (f : SF) (k : SopWaitb → Instr) : Dec :=
  req (f.d = 0 && f.b = 0 && f.imm.toNat < 16) 0x02 (.ok (k ⟨f.g, f.a, f.imm.extractLsb' 0 4⟩))
def encSWaitb (op : BitVec 8) (o : SopWaitb) : SF := ⟨op, o.g, 0, o.a, 0, 0#26 ++ o.k⟩

def decSSpawn (f : SF) (k : SopSpawn → Instr) : Dec :=
  req (f.b = 0 && f.imm.toNat < 4) 0x02 (req (f.a.toNat ≤ 60) 0x0C (.ok (k ⟨f.g, f.d, f.a, f.imm.extractLsb' 0 2⟩)))
def encSSpawn (op : BitVec 8) (o : SopSpawn) : SF := ⟨op, o.g, o.d, o.a, 0, 0#28 ++ o.k⟩

def decSTrap (f : SF) (k : SopTrap → Instr) : Dec :=
  req (f.d = 0 && f.a = 0 && f.b = 0 && f.imm.toNat < 65536) 0x02 (.ok (k ⟨f.g, f.imm.extractLsb' 0 16⟩))
def encSTrap (op : BitVec 8) (o : SopTrap) : SF := ⟨op, o.g, 0, 0, 0, 0#14 ++ o.code⟩

def frameSelOf (x : BitVec 3) : Option FrameSel :=
  match x.toNat with
  | 0 => some (.index 0) | 1 => some (.index 1) | 2 => some (.index 2) | 3 => some (.index 3)
  | 7 => some .own | _ => none
def FrameSel.code : FrameSel → BitVec 3
  | .index i => 0#1 ++ i
  | .own => 7

/-- Table 6.5, read side. -/
def frmRdOf (x : BitVec 8) : Option FrmRdField :=
  match x.toNat with
  | 0x00 => some .cause | 0x01 => some .info | 0x02 => some .addr | 0x03 => some .mask | 0x04 => some .fpc
  | 0x05 => some .bell | 0x10 => some .pc | 0x11 => some .cc | _ => none
def FrmRdField.code : FrmRdField → BitVec 8
  | .cause => 0x00 | .info => 0x01 | .addr => 0x02 | .mask => 0x03 | .fpc => 0x04 | .bell => 0x05
  | .pc => 0x10 | .cc => 0x11

/-- A selector that takes no lane register (Table 6.5). -/
def frmPlain (x : BitVec 8) : Bool := x.toNat < 6

/-- FRMRD: A is reserved for the fields that are not per fibre; frames 4 to 6, an unknown selector and cull are 0x0C (R160).
(DEDUCED, log 53.) -/
def decSFrmrd (f : SF) (k : SopFrmrd → Instr) : Dec :=
  req (f.b = 0 && f.imm.toNat < 2048 && (!frmPlain (f.imm.extractLsb' 0 8) || f.a = 0)) 0x02
    (match frameSelOf (f.imm.extractLsb' 8 3), frmRdOf (f.imm.extractLsb' 0 8) with
     | some fr, some x => .ok (k ⟨f.g, f.d, f.a, fr, x⟩)
     | _, _ => .error 0x0C)
def encSFrmrd (op : BitVec 8) (o : SopFrmrd) : SF :=
  ⟨op, o.g, o.d, o.a, 0, 0#19 ++ o.frame.code ++ o.field.code⟩

/-- Table 6.5, write side. -/
def frmWrOf (x : BitVec 8) : Option FrmWrField :=
  match x.toNat with
  | 0x10 => some .pc | 0x11 => some .cc | 0x12 => some .cull | _ => none
def FrmWrField.code : FrmWrField → BitVec 8
  | .pc => 0x10 | .cc => 0x11 | .cull => 0x12

def decSFrmwr (f : SF) (k : SopFrmwr → Instr) : Dec :=
  req (f.d = 0 && f.imm.toNat < 2048 && (!frmPlain (f.imm.extractLsb' 0 8) || f.a = 0)) 0x02
    (match frameSelOf (f.imm.extractLsb' 8 3), frmWrOf (f.imm.extractLsb' 0 8) with
     | some fr, some x => .ok (k ⟨f.g, f.a, f.b, fr, x⟩)
     | _, _ => .error 0x0C)
def encSFrmwr (op : BitVec 8) (o : SopFrmwr) : SF :=
  ⟨op, o.g, 0, o.a, o.b, 0#19 ++ o.frame.code ++ o.field.code⟩

def mfmtOf (x : BitVec 4) : Option MFmt :=
  match x.toNat with
  | 0 => some .e4m3 | 1 => some .int8 | 2 => some .n4 | 3 => some .bf16 | 4 => some .fp16 | _ => none
def MFmt.code : MFmt → BitVec 4
  | .e4m3 => 0 | .int8 => 1 | .n4 => 2 | .bf16 => 3 | .fp16 => 4

/-- MMA and MMALOOP (R227): `amax` is the last A. -/
def decSMma (amax : Nat) (f : SF) (k : SopMma → Instr) : Dec :=
  let scaled := f.imm.getLsbD 5
  req (f.b = 0 && f.imm.extractLsb' 0 4 = 0 && (scaled || f.imm.extractLsb' 6 10 = 0)) 0x02
    (match mfmtOf (f.imm.extractLsb' 20 4), mfmtOf (f.imm.extractLsb' 16 4) with
     | some fa, some fb =>
        let o : SopMma := ⟨f.g, f.d, f.a, f.imm.extractLsb' 24 6, fa, fb,
          if scaled then some ⟨f.imm.extractLsb' 8 8, f.imm.extractLsb' 6 2⟩ else none, f.imm.getLsbD 4⟩
        req (o.fmtOk && f.a.toNat ≤ amax) 0x0C (.ok (k o))
     | _, _ => .error 0x0C)
def scaleBits : Option ScaleSel → BitVec 11
  | some s => s.sv ++ s.start ++ 1#1
  | none => 0
def encSMma (op : BitVec 8) (o : SopMma) : SF :=
  ⟨op, o.g, o.d, o.a, 0,
    o.tile ++ o.afmt.code ++ o.bfmt.code ++ scaleBits o.scale ++ BitVec.ofBool o.accum ++ 0#4⟩

def decSAccz (f : SF) (k : SopAccz → Instr) : Dec :=
  req (f.d = 0 && f.a = 0 && f.b = 0 && f.imm.extractLsb' 0 23 = 0) 0x02
    (.ok (k ⟨f.g, f.imm.extractLsb' 24 6, f.imm.getLsbD 23⟩))
def encSAccz (op : BitVec 8) (o : SopAccz) : SF :=
  ⟨op, o.g, 0, 0, 0, o.tile ++ BitVec.ofBool o.int32 ++ 0#23⟩

def tfmtOf (x : BitVec 4) : Option TFmt :=
  match x.toNat with
  | 0 => some .w32 | 1 => some .bf16 | 2 => some .fp16 | 3 => some .e4m3 | _ => none
def TFmt.code : TFmt → BitVec 4
  | .w32 => 0 | .bf16 => 1 | .fp16 => 2 | .e4m3 => 3

def decSAccst (f : SF) (k : SopAccst → Instr) : Dec :=
  req (f.b = 0 && f.imm.extractLsb' 0 19 = 0) 0x02
    (match tfmtOf (f.imm.extractLsb' 20 4) with
     | some x => req (!f.imm.getLsbD 19 && f.a.toNat ≤ 62) 0x0C
        (.ok (k ⟨f.g, f.d, f.a, f.imm.extractLsb' 24 6, x⟩))
     | none => .error 0x0C)
def encSAccst (op : BitVec 8) (o : SopAccst) : SF :=
  ⟨op, o.g, o.d, o.a, 0, o.tile ++ o.fmt.code ++ 0#20⟩

def decSAccldm (f : SF) (k : SopAccldm → Instr) : Dec :=
  req (f.b = 0 && f.imm.extractLsb' 0 19 = 0) 0x02
    (match tfmtOf (f.imm.extractLsb' 20 4) with
     | some x => req ((!f.imm.getLsbD 19 || x == .w32) && f.a.toNat ≤ 62) 0x0C
        (.ok (k ⟨f.g, f.d, f.a, f.imm.extractLsb' 24 6, x, f.imm.getLsbD 19⟩))
     | none => .error 0x0C)
def encSAccldm (op : BitVec 8) (o : SopAccldm) : SF :=
  ⟨op, o.g, o.d, o.a, 0, o.tile ++ o.fmt.code ++ BitVec.ofBool o.int32 ++ 0#19⟩

/-- The copy commands (R235): `amax` is the last A of Table 9.7. -/
def decSCopy (amax : Nat) (f : SF) (k : SopA → Instr) : Dec :=
  req (f.b = 0 && f.imm = 0) 0x02 (req (f.d.toNat ≤ 62 && f.a.toNat ≤ amax) 0x0C (.ok (k ⟨f.g, f.d, f.a⟩)))
def encSCopy (op : BitVec 8) (o : SopA) : SF := ⟨op, o.g, o.d, o.a, 0, 0⟩

/-- RESV and RESVX: P in IMM30[8]; with P = 0, A is 0 (R203). -/
def decSResv (f : SF) (k : SopResv → Instr) : Dec :=
  let p := f.imm.getLsbD 8
  req (f.b = 0 && (f.imm = 0 || f.imm = 0x100) && (p || f.a = 0)) 0x02
    (.ok (k ⟨f.g, f.d, if p then some f.a else none⟩))
def encSResv (op : BitVec 8) (o : SopResv) : SF :=
  match o.pool with
  | some a => ⟨op, o.g, o.d, a, 0, 0x100⟩
  | none => ⟨op, o.g, o.d, 0, 0, 0⟩

/-! ### The opcode maps -/

/-- Table 2.11, forms L3: the body of each assigned opcode; `none` for an opcode not of this form. -/
def decL3 (f : L3F) : Option Dec :=
  match f.op.toNat with
  | 0x00 => some (decL3AB f Instr.iadd)
  | 0x01 => some (decL3AB f Instr.isub)
  | 0x02 => some (decL3ABK f Instr.iadc)
  | 0x03 => some (decL3ABK f Instr.isbc)
  | 0x04 => some (decL3AB f Instr.imul)
  | 0x05 => some (decL3ABU f Instr.imulh)
  | 0x06 => some (decL3ABC f Instr.imad)
  | 0x07 => some (decL3ABU f Instr.imin)
  | 0x08 => some (decL3ABU f Instr.imax)
  | 0x09 => some (decL3A f Instr.iabs)
  | 0x0A => some (decL3Cmp f Instr.icmp)
  | 0x0B => some (decL3AB f Instr.and)
  | 0x0C => some (decL3AB f Instr.or)
  | 0x0D => some (decL3AB f Instr.xor)
  | 0x0E => some (decL3AB f Instr.andn)
  | 0x0F => some (decL3AB f Instr.shl)
  | 0x10 => some (decL3AB f Instr.shr)
  | 0x11 => some (decL3AB f Instr.sar)
  | 0x12 => some (decL3AB f Instr.rol)
  | 0x13 => some (decL3ABU f Instr.bfx)
  | 0x14 => some (decL3ABC f Instr.bfi)
  | 0x15 => some (decL3A f Instr.popc)
  | 0x16 => some (decL3A f Instr.clz)
  | 0x17 => some (decL3A f Instr.brev)
  | 0x18 => some (decL3Sel f Instr.sel)
  | 0x19 => some (decL3B f Instr.mov)
  | 0x1A => some (decL3AB64 f Instr.iadd64)
  | 0x1B => some (decL3AB64 f Instr.isub64)
  | 0x1C => some (decL3Imulw f Instr.imulw)
  | 0x1D => some (decL3Lea f Instr.lea)
  | 0x1E => some (decL3Cmp64 f Instr.icmp64)
  | 0x40 => some (decL3FAB f Instr.fadd)
  | 0x41 => some (decL3FAB f Instr.fsub)
  | 0x42 => some (decL3FAB f Instr.fmul)
  | 0x43 => some (decL3FABC f Instr.ffma)
  | 0x44 => some (decL3FABX f Instr.fmin)
  | 0x45 => some (decL3FABX f Instr.fmax)
  | 0x46 => some (decL3Fcmp f Instr.fcmp)
  | 0x47 => some (decL3FAX f Instr.fneg)
  | 0x48 => some (decL3FAX f Instr.fabs)
  | 0x49 => some (decL3FA f Instr.frcp)
  | 0x4A => some (decL3FA f Instr.frsq)
  | 0x4B => some (decL3FA f Instr.fsqrt)
  | 0x4C => some (decL3FAB f Instr.fdiv)
  | 0x4D => some (decL3FA f Instr.fexp2)
  | 0x4E => some (decL3FA f Instr.flog2)
  | 0x4F => some (decL3FA f Instr.frnd)
  | 0x50 => some (decL3FAX f Instr.fclass)
  | 0x51 => some (decL3FAB f Instr.fscalb)
  | 0x52 => some (decL3FAB f Instr.hadd2)
  | 0x53 => some (decL3FAB f Instr.hmul2)
  | 0x54 => some (decL3FABC f Instr.hfma2)
  | 0x55 => some (decL3FABC f Instr.bfma2)
  | 0x56 => some (decL3FABC f Instr.bdot2)
  | 0x58 => some (decL3CvtU f Instr.cvtfi)
  | 0x59 => some (decL3CvtU f Instr.cvtif)
  | 0x5A => some (decL3FAB f Instr.cvtfh)
  | 0x5B => some (decL3CvtSel 1 f Instr.cvthf)
  | 0x5C => some (decL3FAB f Instr.cvtfb)
  | 0x5D => some (decL3CvtSel 1 f Instr.cvtbf)
  | 0x5E => some (decL3CvtF8 f Instr.cvtf8)
  | 0x5F => some (decL3CvtSel 2 f Instr.cvt8f)
  | 0x60 => some (decL3CvtF4 f Instr.cvtf4)
  | 0x61 => some (decL3CvtSel 3 f Instr.cvt4f)
  | 0x62 => some (decL3Sclq f Instr.sclq)
  | 0x63 => some (decL3CvtSel 2 f Instr.sclf)
  | 0x80 => some (decL3Perm f Instr.perm)
  | 0x81 => some (decL3Xmov f Instr.xmov)
  | 0x82 => some (decL3Vote f Instr.vote)
  | 0x83 => some (decL3Match f Instr.matchv)
  | 0x84 => some (decL3Redux f Instr.redux)
  | 0x85 => some (decL3Scan f Instr.scanx)
  | 0x86 => some (decL3V2s f Instr.v2s)
  | 0x87 => some (decL3Vsrd f Instr.vsrd)
  | 0xB0 => some (decL3Atom f Instr.atom)
  | 0xB1 => some (decL3Atom64 f Instr.atom64)
  | 0xB2 => some (decL3Acas f Instr.acas)
  | 0xB3 => some (decL3Acas64 f Instr.acas64)
  | 0xB4 => some (decL3Red f Instr.red)
  | 0xC0 => some (decL3Ctake f Instr.ctake)
  | 0xC1 => some (decL3Cgive f Instr.cgive)
  | 0xC2 => some (decL3Cread f Instr.cpeek)
  | 0xC3 => some (decL3Cread f Instr.croll)
  | 0xC8 => some (decL3KvApp f Instr.kvapp)
  | 0xC9 => some (decL3KvMap f Instr.kvmap)
  | 0xCA => some (decL3KvShare f Instr.kvshare)
  | 0xCB => some (decL3KvDrop f Instr.kvdrop)
  | 0xCC => some (decL3KvCow f Instr.kvcow)
  | 0xD0 => some (decL3Rsmp f Instr.rsmp)
  | 0xE0 => some (decL3Accrd f Instr.accrd)
  | 0xE1 => some (decL3Accwr f Instr.accwr)
  | _ => none

/-- Table 2.11, form LI. -/
def decLI (f : LIF) : Option Dec :=
  match f.op.toNat with
  | 0x20 => some (decLII f Instr.iaddi)
  | 0x21 => some (decLII f Instr.imuli)
  | 0x22 => some (decLII f Instr.andi)
  | 0x23 => some (decLII f Instr.ori)
  | 0x24 => some (decLII f Instr.xori)
  | 0x25 => some (decLIIsh f Instr.shli)
  | 0x26 => some (decLIIsh f Instr.shri)
  | 0x27 => some (decLIIsh f Instr.sari)
  | 0x28 => some (decLICmpI f Instr.icmpi)
  | 0x29 => some (decLIMovi f Instr.movi)
  | 0x2A => some (decLIMovhi f Instr.movhi)
  | 0x2B => some (decLII64 f Instr.leai)
  | 0xB8 => some (decLIFence f Instr.fence)
  | _ => none

/-- Table 2.11, form LM. -/
def decLM (f : LMF) : Option Dec :=
  match f.op.toNat with
  | 0xA0 => some (decLMLoad f Instr.ld)
  | 0xA1 => some (decLMLoad f Instr.ldb)
  | 0xA2 => some (decLMStore f Instr.st)
  | 0xA3 => some (decLMLds f Instr.lds)
  | 0xA4 => some (decLMSts f Instr.sts)
  | 0xA5 => some (decLMLdf f Instr.ldf)
  | 0xA6 => some (decLMSte f Instr.ste)
  | 0xA7 => some (decLMLdf f Instr.ldw)
  | 0xA8 => some (decLMPrf f Instr.prf)
  | 0xA9 => some (decLMCwb f Instr.cwb)
  | 0xAA => some (decLMPgdrop f Instr.pgdrop)
  | 0xB5 => some (decLMSatom f Instr.satom)
  | _ => none

/-- Table 2.12. -/
def decS (f : SF) : Option Dec :=
  match f.op.toNat with
  | 0x00 => some (decSSAB f Instr.sadd)
  | 0x01 => some (decSSAB f Instr.ssub)
  | 0x02 => some (decSSAB f Instr.smul)
  | 0x03 => some (decSSAB f Instr.sand)
  | 0x04 => some (decSSAB f Instr.sor)
  | 0x05 => some (decSSAB f Instr.sxor)
  | 0x06 => some (decSSAB f Instr.sshl)
  | 0x07 => some (decSSAB f Instr.sshr)
  | 0x08 => some (decSSAB f Instr.ssar)
  | 0x09 => some (decSSCmp f Instr.scmp)
  | 0x0A => some (decSSA f Instr.smov)
  | 0x0B => some (decSSAI f Instr.saddi)
  | 0x0C => some (decSSI f Instr.smovi)
  | 0x0D => some (decSSI f Instr.smovhi)
  | 0x0E => some (decSSAI f Instr.sld)
  | 0x0F => some (decSSst f Instr.sst)
  | 0x10 => some (decSSrd f Instr.srd)
  | 0x11 => some (decSSwr f Instr.swr)
  | 0x12 => some (decSSCmpI f Instr.scmpi)
  | 0x20 => some (decSBra f Instr.bra)
  | 0x21 => some (decSBra f Instr.bras)
  | 0x22 => some (decSBrx f Instr.brx)
  | 0x23 => some (decSCall f Instr.call)
  | 0x24 => some (decSBrx f Instr.ret)
  | 0x25 => some (decSBar f Instr.join)
  | 0x26 => some (decSBar f Instr.meet)
  | 0x27 => some (decSG f Instr.yield)
  | 0x28 => some (decSG f Instr.exit)
  | 0x29 => some (decSNap f Instr.nap)
  | 0x2A => some (decSBedBar f Instr.bar)
  | 0x2B => some (decSArrv f Instr.arrv)
  | 0x2C => some (decSWaitb f Instr.waitb)
  | 0x2D => some (decSSpawn f Instr.spawn)
  | 0x2E => some (decSG f Instr.trig)
  | 0x2F => some (decSG f Instr.dwait)
  | 0x40 => some (decSMma 58 f Instr.mma)
  | 0x41 => some (decSMma 55 f Instr.mmaloop)
  | 0x42 => some (decSAccz f Instr.accz)
  | 0x43 => some (decSAccst f Instr.accst)
  | 0x44 => some (decSAccldm f Instr.accldm)
  | 0x48 => some (decSCopy 58 f Instr.xcopy)
  | 0x49 => some (decSCopy 58 f Instr.xgather)
  | 0x4A => some (decSCopy 61 f Instr.xfill)
  | 0x4B => some (decSCopy 58 f Instr.xscat)
  | 0x50 => some (decSResv f Instr.resv)
  | 0x51 => some (decSResv f Instr.resvx)
  | 0x60 => some (decSTrap f Instr.trap)
  | 0x61 => some (decSG f Instr.rte)
  | 0x62 => some (decSG f Instr.bkpt)
  | 0x63 => some (decSFrmrd f Instr.frmrd)
  | 0x64 => some (decSFrmwr f Instr.frmwr)
  | _ => none
/-! ### Slots -/

/-- The kind of a slot (Table 2.1). -/
inductive SlotKind where
  | lane | sheaf | dict
  deriving DecidableEq, Repr

def slotKind (w : Word) : SlotKind :=
  if w.getLsbD 63 then (if w.getLsbD 62 then .dict else .sheaf) else .lane

/-- The body of a lane or sheaf word before the guard check: `none` for an unassigned opcode. -/
def decodeBody (w : Word) : Option Dec :=
  if w.getLsbD 63 then decS (unpackS w)
  else
    match decL3 (unpackL3 w) with
    | some r => some r
    | none =>
      match decLI (unpackLI w) with
      | some r => some r
      | none => decLM (unpackLM w)

/-- The guard of a lane or sheaf word. -/
def wordGuard (w : Word) : Guard :=
  if w.getLsbD 63 then (unpackS w).g else (unpackL3 w).g

/-- A word with its guard replaced (R73). -/
def withGuard (w : Word) (g : Guard) : Word :=
  if w.getLsbD 63 then packS { unpackS w with g := g } else packL3 { unpackL3 w with g := g }

/-- Orders 6 to 13 of Table 2.13 for a lane or sheaf word, given the guards to be checked. -/
def decodeChecked (w : Word) (guardsOk : Bool) : Dec :=
  match decodeBody w with
  | none => .error 0x01
  | some r => req guardsOk 0x0A r

/-- A lane word or sheaf word (kinds 00, 01 and 10). -/
def decodeWord (w : Word) : Dec := decodeChecked w (wordGuard w).wf

/-! ### Dictionary slots (R71 to R76) -/

def dictN (w : Word) : Nat := (w.extractLsb' 60 2).toNat
def dictCode (w : Word) (k : Nat) : BitVec 16 := w.extractLsb' (16 * k) 16
def codeIndex (c : BitVec 16) : Nat := (c.extractLsb' 6 10).toNat
def codeOverride (c : BitVec 16) : Guard := ⟨c.extractLsb' 4 2, c.extractLsb' 0 4⟩

/-- Orders 1 to 3 for a fetched slot at code position `pos` (R72): position, N = 0, reserved bits and unused codes. -/
def slotCheck (w : Word) (pos : Nat) : Option (BitVec 8) :=
  if pos ≥ 3 then some 0x0D
  else if slotKind w ≠ .dict then (if pos ≠ 0 then some 0x0D else none)
  else if dictN w = 0 then some 0x07
  else if dictN w ≤ pos then some 0x0D
  else if w.extractLsb' 48 12 ≠ 0 then some 0x02
  else if dictN w < 3 && dictCode w 2 ≠ 0 then some 0x02
  else if dictN w < 2 && dictCode w 1 ≠ 0 then some 0x02
  else none

/-- A dictionary entry under a code's override (R73, R74): orders 5 to 13. The entry's own guard is checked as well
as the override. -/
def decodeEntry (entry : Word) (ovr : Guard) : Dec :=
  if slotKind entry = .dict then .error 0x08
  else if ovr = Guard.al then decodeWord entry
  else decodeChecked (withGuard entry ovr) ((wordGuard entry).wf && ovr.wf)

/-- A code against the loaded dictionary: order 4, then the entry (R73, R76). -/
def decodeCode (dict : List Word) (c : BitVec 16) : Dec :=
  match dict[codeIndex c]? with
  | none => .error 0x06
  | some e => decodeEntry e (codeOverride c)

/-- Any slot at any code position: the instruction it holds, a dictionary code as `dictionaryCode`, or a subcode. -/
def decodeSlot (w : Word) (pos : Nat) : Dec :=
  match slotCheck w pos with
  | some sub => .error sub
  | none => if slotKind w = .dict then .ok (.dictionaryCode w pos) else decodeWord w

/-! ### Encoding -/

/-- The slot of an instruction, from the encoding tables (R59 to R68); a dictionary code's slot is itself, and
events of the machine have no encoding. -/
def encode : Instr → Option Word
  | .iadd o => some (packL3 (encL3AB 0x00 o))
  | .isub o => some (packL3 (encL3AB 0x01 o))
  | .iadc o => some (packL3 (encL3ABK 0x02 o))
  | .isbc o => some (packL3 (encL3ABK 0x03 o))
  | .imul o => some (packL3 (encL3AB 0x04 o))
  | .imulh o => some (packL3 (encL3ABU 0x05 o))
  | .imad o => some (packL3 (encL3ABC 0x06 o))
  | .imin o => some (packL3 (encL3ABU 0x07 o))
  | .imax o => some (packL3 (encL3ABU 0x08 o))
  | .iabs o => some (packL3 (encL3A 0x09 o))
  | .icmp o => some (packL3 (encL3Cmp 0x0A o))
  | .and o => some (packL3 (encL3AB 0x0B o))
  | .or o => some (packL3 (encL3AB 0x0C o))
  | .xor o => some (packL3 (encL3AB 0x0D o))
  | .andn o => some (packL3 (encL3AB 0x0E o))
  | .shl o => some (packL3 (encL3AB 0x0F o))
  | .shr o => some (packL3 (encL3AB 0x10 o))
  | .sar o => some (packL3 (encL3AB 0x11 o))
  | .rol o => some (packL3 (encL3AB 0x12 o))
  | .bfx o => some (packL3 (encL3ABU 0x13 o))
  | .bfi o => some (packL3 (encL3ABC 0x14 o))
  | .popc o => some (packL3 (encL3A 0x15 o))
  | .clz o => some (packL3 (encL3A 0x16 o))
  | .brev o => some (packL3 (encL3A 0x17 o))
  | .sel o => some (packL3 (encL3Sel 0x18 o))
  | .mov o => some (packL3 (encL3B 0x19 o))
  | .iadd64 o => some (packL3 (encL3AB64 0x1A o))
  | .isub64 o => some (packL3 (encL3AB64 0x1B o))
  | .imulw o => some (packL3 (encL3Imulw 0x1C o))
  | .lea o => some (packL3 (encL3Lea 0x1D o))
  | .icmp64 o => some (packL3 (encL3Cmp64 0x1E o))
  | .fadd o => some (packL3 (encL3FAB 0x40 o))
  | .fsub o => some (packL3 (encL3FAB 0x41 o))
  | .fmul o => some (packL3 (encL3FAB 0x42 o))
  | .ffma o => some (packL3 (encL3FABC 0x43 o))
  | .fmin o => some (packL3 (encL3FABX 0x44 o))
  | .fmax o => some (packL3 (encL3FABX 0x45 o))
  | .fcmp o => some (packL3 (encL3Fcmp 0x46 o))
  | .fneg o => some (packL3 (encL3FAX 0x47 o))
  | .fabs o => some (packL3 (encL3FAX 0x48 o))
  | .frcp o => some (packL3 (encL3FA 0x49 o))
  | .frsq o => some (packL3 (encL3FA 0x4A o))
  | .fsqrt o => some (packL3 (encL3FA 0x4B o))
  | .fdiv o => some (packL3 (encL3FAB 0x4C o))
  | .fexp2 o => some (packL3 (encL3FA 0x4D o))
  | .flog2 o => some (packL3 (encL3FA 0x4E o))
  | .frnd o => some (packL3 (encL3FA 0x4F o))
  | .fclass o => some (packL3 (encL3FAX 0x50 o))
  | .fscalb o => some (packL3 (encL3FAB 0x51 o))
  | .hadd2 o => some (packL3 (encL3FAB 0x52 o))
  | .hmul2 o => some (packL3 (encL3FAB 0x53 o))
  | .hfma2 o => some (packL3 (encL3FABC 0x54 o))
  | .bfma2 o => some (packL3 (encL3FABC 0x55 o))
  | .bdot2 o => some (packL3 (encL3FABC 0x56 o))
  | .cvtfi o => some (packL3 (encL3CvtU 0x58 o))
  | .cvtif o => some (packL3 (encL3CvtU 0x59 o))
  | .cvtfh o => some (packL3 (encL3FAB 0x5A o))
  | .cvthf o => some (packL3 (encL3CvtSel 1 0x5B o))
  | .cvtfb o => some (packL3 (encL3FAB 0x5C o))
  | .cvtbf o => some (packL3 (encL3CvtSel 1 0x5D o))
  | .cvtf8 o => some (packL3 (encL3CvtF8 0x5E o))
  | .cvt8f o => some (packL3 (encL3CvtSel 2 0x5F o))
  | .cvtf4 o => some (packL3 (encL3CvtF4 0x60 o))
  | .cvt4f o => some (packL3 (encL3CvtSel 3 0x61 o))
  | .sclq o => some (packL3 (encL3Sclq 0x62 o))
  | .sclf o => some (packL3 (encL3CvtSel 2 0x63 o))
  | .perm o => some (packL3 (encL3Perm 0x80 o))
  | .xmov o => some (packL3 (encL3Xmov 0x81 o))
  | .vote o => some (packL3 (encL3Vote 0x82 o))
  | .matchv o => some (packL3 (encL3Match 0x83 o))
  | .redux o => some (packL3 (encL3Redux 0x84 o))
  | .scanx o => some (packL3 (encL3Scan 0x85 o))
  | .v2s o => some (packL3 (encL3V2s 0x86 o))
  | .vsrd o => some (packL3 (encL3Vsrd 0x87 o))
  | .atom o => some (packL3 (encL3Atom 0xB0 o))
  | .atom64 o => some (packL3 (encL3Atom64 0xB1 o))
  | .acas o => some (packL3 (encL3Acas 0xB2 o))
  | .acas64 o => some (packL3 (encL3Acas64 0xB3 o))
  | .red o => some (packL3 (encL3Red 0xB4 o))
  | .ctake o => some (packL3 (encL3Ctake 0xC0 o))
  | .cgive o => some (packL3 (encL3Cgive 0xC1 o))
  | .cpeek o => some (packL3 (encL3Cread 0xC2 o))
  | .croll o => some (packL3 (encL3Cread 0xC3 o))
  | .kvapp o => some (packL3 (encL3KvApp 0xC8 o))
  | .kvmap o => some (packL3 (encL3KvMap 0xC9 o))
  | .kvshare o => some (packL3 (encL3KvShare 0xCA o))
  | .kvdrop o => some (packL3 (encL3KvDrop 0xCB o))
  | .kvcow o => some (packL3 (encL3KvCow 0xCC o))
  | .rsmp o => some (packL3 (encL3Rsmp 0xD0 o))
  | .accrd o => some (packL3 (encL3Accrd 0xE0 o))
  | .accwr o => some (packL3 (encL3Accwr 0xE1 o))
  | .iaddi o => some (packLI (encLII 0x20 o))
  | .imuli o => some (packLI (encLII 0x21 o))
  | .andi o => some (packLI (encLII 0x22 o))
  | .ori o => some (packLI (encLII 0x23 o))
  | .xori o => some (packLI (encLII 0x24 o))
  | .shli o => some (packLI (encLIIsh 0x25 o))
  | .shri o => some (packLI (encLIIsh 0x26 o))
  | .sari o => some (packLI (encLIIsh 0x27 o))
  | .icmpi o => some (packLI (encLICmpI 0x28 o))
  | .movi o => some (packLI (encLIMovi 0x29 o))
  | .movhi o => some (packLI (encLIMovhi 0x2A o))
  | .leai o => some (packLI (encLII64 0x2B o))
  | .fence o => some (packLI (encLIFence 0xB8 o))
  | .ld o => some (packLM (encLMLoad 0xA0 o))
  | .ldb o => some (packLM (encLMLoad 0xA1 o))
  | .st o => some (packLM (encLMStore 0xA2 o))
  | .lds o => some (packLM (encLMLds 0xA3 o))
  | .sts o => some (packLM (encLMSts 0xA4 o))
  | .ldf o => some (packLM (encLMLdf 0xA5 o))
  | .ste o => some (packLM (encLMSte 0xA6 o))
  | .ldw o => some (packLM (encLMLdf 0xA7 o))
  | .prf o => some (packLM (encLMPrf 0xA8 o))
  | .cwb o => some (packLM (encLMCwb 0xA9 o))
  | .pgdrop o => some (packLM (encLMPgdrop 0xAA o))
  | .satom o => some (packLM (encLMSatom 0xB5 o))
  | .sadd o => some (packS (encSSAB 0x00 o))
  | .ssub o => some (packS (encSSAB 0x01 o))
  | .smul o => some (packS (encSSAB 0x02 o))
  | .sand o => some (packS (encSSAB 0x03 o))
  | .sor o => some (packS (encSSAB 0x04 o))
  | .sxor o => some (packS (encSSAB 0x05 o))
  | .sshl o => some (packS (encSSAB 0x06 o))
  | .sshr o => some (packS (encSSAB 0x07 o))
  | .ssar o => some (packS (encSSAB 0x08 o))
  | .scmp o => some (packS (encSSCmp 0x09 o))
  | .smov o => some (packS (encSSA 0x0A o))
  | .saddi o => some (packS (encSSAI 0x0B o))
  | .smovi o => some (packS (encSSI 0x0C o))
  | .smovhi o => some (packS (encSSI 0x0D o))
  | .sld o => some (packS (encSSAI 0x0E o))
  | .sst o => some (packS (encSSst 0x0F o))
  | .srd o => some (packS (encSSrd 0x10 o))
  | .swr o => some (packS (encSSwr 0x11 o))
  | .scmpi o => some (packS (encSSCmpI 0x12 o))
  | .bra o => some (packS (encSBra 0x20 o))
  | .bras o => some (packS (encSBra 0x21 o))
  | .brx o => some (packS (encSBrx 0x22 o))
  | .call o => some (packS (encSCall 0x23 o))
  | .ret o => some (packS (encSBrx 0x24 o))
  | .join o => some (packS (encSBar 0x25 o))
  | .meet o => some (packS (encSBar 0x26 o))
  | .yield o => some (packS (encSG 0x27 o))
  | .exit o => some (packS (encSG 0x28 o))
  | .nap o => some (packS (encSNap 0x29 o))
  | .bar o => some (packS (encSBedBar 0x2A o))
  | .arrv o => some (packS (encSArrv 0x2B o))
  | .waitb o => some (packS (encSWaitb 0x2C o))
  | .spawn o => some (packS (encSSpawn 0x2D o))
  | .trig o => some (packS (encSG 0x2E o))
  | .dwait o => some (packS (encSG 0x2F o))
  | .mma o => some (packS (encSMma 0x40 o))
  | .mmaloop o => some (packS (encSMma 0x41 o))
  | .accz o => some (packS (encSAccz 0x42 o))
  | .accst o => some (packS (encSAccst 0x43 o))
  | .accldm o => some (packS (encSAccldm 0x44 o))
  | .xcopy o => some (packS (encSCopy 0x48 o))
  | .xgather o => some (packS (encSCopy 0x49 o))
  | .xfill o => some (packS (encSCopy 0x4A o))
  | .xscat o => some (packS (encSCopy 0x4B o))
  | .resv o => some (packS (encSResv 0x50 o))
  | .resvx o => some (packS (encSResv 0x51 o))
  | .trap o => some (packS (encSTrap 0x60 o))
  | .rte o => some (packS (encSG 0x61 o))
  | .bkpt o => some (packS (encSG 0x62 o))
  | .frmrd o => some (packS (encSFrmrd 0x63 o))
  | .frmwr o => some (packS (encSFrmwr 0x64 o))
  | .dictionaryCode slot _ => some slot
  | _ => none

/-- The instruction the decoder reads from the table's numbering of a slot: bit 0 is bit 0 of the slot; every
instruction is one 64-bit slot (R55), so bits above `nbits` are 0. -/
def decodeTableWord (nbits w : Nat) : Option Instr :=
  match decodeSlot (BitVec.ofNat 64 (w % 2 ^ nbits)) 0 with
  | .ok i => some i
  | .error _ => none

end Sys2Proof
end

