-- ==== Sys2Proof/Machine/Fence.lean ====
section
/-! DEFINITION. What a release or an acquire of a fibre waits for and does (R190, R192), and the fences that have issued and not
completed, which a fibre's later accesses to memory wait for: shared by FENCE, ordered loads, stores and atomics, SPAWN,
TRIG, DWAIT and the engine commands. -/

namespace Sys2Proof.Machine

def scopeRank : Scope → Nat
  | .fib => 0
  | .shf => 1
  | .bed => 2
  | .clu => 3
  | .die => 4
  | .dev => 5
  | .sys => 6

/-- Operations that read and whose value is still due to a lane (R190, Table 11.1: the loads, atomics with return, SATOM,
PGDROP, the counter and reserve instructions, KV metadata). -/
def OpKind.returns : OpKind → Bool
  | .load .. | .sload _ | .pgdrop .. | .pad .. | .counter .. | .reserve _ | .kv .. => true
  | .atomic d _ => d.isSome
  | _ => false

/-- Operations that write (R173, R190, Table 11.1). A CPEEK or RESV, which shares its record with them, is waited for as well. -/
def OpKind.writes : OpKind → Bool
  | .store | .cwb | .atomic .. | .pgdrop .. | .counter .. | .reserve _ | .kv .. => true
  | _ => false

/-- Writes that the cluster cache has not accepted when they issue: they are performed there or beyond it later. -/
def OpKind.pends : OpKind → Bool
  | .atomic .. | .counter .. | .reserve _ | .kv .. => true
  | _ => false

/-- Lanes of a mask for which an operation of some kind is outstanding. -/
def Sheaf.someDue (sh : Sheaf) (p : OpKind → Bool) (m : Mask) : Bool :=
  sh.ops.any fun o => p o.2.kind && o.2.due &&& ~~~o.2.gone &&& m ≠ 0

def Sheaf.loadsDue (sh : Sheaf) (m : Mask) : Bool := sh.someDue OpKind.returns m
def Sheaf.writesDue (sh : Sheaf) (m : Mask) : Bool := sh.someDue OpKind.writes m

/-- The largest lease the cluster cache granted on a line to an L1 (R190, R264). -/
def State.grantedOn (s : State) (cluster : Nat) (line : Loc) : Word :=
  ((aget s.cluster (cluster, line)).map (·.granted)).getD 0

/-- The stores of a cluster's cores that are on their way to a line's home, in the order in which the cluster cache
accepted them (R249, R251). -/
def State.storesOnWay (s : State) (cluster : Nat) (line : Loc) : List (List (Nat × Byte)) :=
  s.events.filterMap fun e => match e with
    | .homeWrite ⟨.fibres _ _ _ core, l, bs, _, _⟩ => if l = line && clusterOf core = cluster then some bs else none
    | _ => none

/-- Whether the waits of a release at a scope are over for every lane of a mask (R190): stores are accepted at the
cluster cache, and scratchpad accesses performed, in the step that issues them; at die or wider the stores of other
cores that the fibre has read in its cluster are at their homes too (R192). -/
def State.releaseReady (s : State) (sh : Sheaf) (m : Mask) (scope : Scope) : Bool :=
  if scopeRank scope ≤ 3 then
    !sh.someDue OpKind.pends m && (scopeRank scope ≤ 2 ||
      (lanesIn m).all fun l => sh.fib l true fun f =>
        f.written.all fun line => (s.grantedOn (clusterOf sh.core) line).toNat ≤ s.bell.toNat)
  else !sh.writesDue m && (lanesIn m).all fun l => sh.fib l true fun f =>
    f.horizon.toNat ≤ s.bell.toNat && f.seen.all fun line => (s.storesOnWay (clusterOf sh.core) line).isEmpty

/-- Whether the waits of an acquire are over (R190). -/
def Sheaf.acquireReady (sh : Sheaf) (m : Mask) : Bool := !sh.loadsDue m

/-- The release is done: the lines counted from the last release at clu or wider start anew (R190), and at die or wider
those read in the cluster (R192). -/
def Sheaf.released (sh : Sheaf) (m : Mask) (scope : Scope) : Sheaf :=
  if scopeRank scope ≤ 2 then sh
  else sh.modFibs m fun _ f => { f with written := [], seen := if scopeRank scope ≤ 3 then f.seen else [] }

/-- What an acquire at a scope does for the lanes of a mask (R190): at clu or wider the core's L1 holds no global
line; at die or wider the floor rises to the bell. -/
def State.acquire (s : State) (u : Nat) (m : Mask) (scope : Scope) : State :=
  match s.sheaf? u with
  | none => s
  | some sh =>
    if m = 0 || scopeRank scope ≤ 2 then s else
      let s1 := { s with l1 := s.l1.filter fun e => e.1.1 ≠ sh.core }
      if scope = .clu then s1 else
        s1.modSheaf u fun sh => sh.modFibs m fun _ f => { f with floor := maxWord [f.floor, s.bell] }

/-! ### Fences that have issued (R190) -/

/-- Two fences of one fibre that complete together. -/
def Fence.join (x y : Fence) : Fence :=
  ⟨x.acq || y.acq, x.rel || y.rel, if scopeRank x.scope < scopeRank y.scope then y.scope else x.scope⟩

/-- A fence issues for the lanes of a mask: their later accesses to memory wait for it. -/
def Sheaf.setFence (sh : Sheaf) (m : Mask) (x : Fence) : Sheaf :=
  sh.modFibs m fun _ f => { f with fence := some ((f.fence.map fun y => y.join x).getD x) }

/-- Lanes whose fence has not completed. -/
def Sheaf.fenced (sh : Sheaf) : Mask := sh.lanesWhere fun f => f.fence.isSome

/-- Whether the waits of a lane's fence are over. -/
def State.fenceReady (s : State) (sh : Sheaf) (l : Fin 32) : Bool :=
  sh.fib l true fun f => match f.fence with
    | some x => (!x.acq || sh.acquireReady (1#32 <<< l.val)) && (!x.rel || s.releaseReady sh (1#32 <<< l.val) x.scope)
    | none => true

/-- The fence of one lane of the issuing sheaf completes. -/
def State.endFence (s : State) (l : Fin 32) : State :=
  match s.shf.fib l none (·.fence) with
  | none => s
  | some x =>
    let one : Mask := 1#32 <<< l.val
    let s1 := if x.acq then s.acquire s.cur one x.scope else s
    s1.modSheaf s.cur fun sh =>
      (if x.rel then sh.released one x.scope else sh).modFibs one fun _ f => { f with fence := none }

/-- Fences of some lanes of the issuing sheaf complete as far as their waits are over. -/
def State.endFences (s : State) (m : Mask) : State :=
  (lanesIn (m &&& s.shf.fenced)).foldl (fun s l => if s.fenceReady s.shf l then s.endFence l else s) s

/-- An instruction that reaches memory for the lanes of a mask issues once their fences have completed (R190): `k` goes
on, or the batch waits. A fence completes at the latest when such an instruction is to issue. (DEDUCED, log 67.) -/
def State.pastFences (s : State) (m : Mask) (k : State → State) : State :=
  let s1 := s.endFences m
  if m &&& s1.shf.fenced = 0 then k s1 else s1.await 0 0 0

end Sys2Proof.Machine
end

