-- ==== Sys2Proof/Machine/Control.lean ====
section
/-! DEFINITION. Control flow, divergence, barriers, exit, dependences and the trap instructions (R140 to R162, R353). -/

namespace Sys2Proof.Machine

/-- The address of the slot that holds the instruction at a PC (R69, R72). -/
def slotOf (pc : Word) : Word := pc &&& ~~~7#64

/-- The target of BRA, BRAS and CALL (R69). -/
def branchTarget (pc : Word) (off : BitVec 30) : Word := slotOf pc + (off.signExtend 64 <<< 3)

/-- Fibres of a mask moved to a PC. -/
def Sheaf.goTo (sh : Sheaf) (m : Mask) (pc : Word) : Sheaf := sh.modFibs m fun _ f => { f with pc := pc }

/-- BRA: the guard is per fibre over c0 to c3 (R36, R141). (DEDUCED, log 23.) -/
def execBra (o : SopBra) (s : State) : Out :=
  .next (
    let sh := s.shf
    let bt := sh.issuing
    if bt = 0 then s else
    if guardReads o.g && sh.ccEmpty o.g.cc bt then s.await 0x01 2 (o.g.cc.setWidth 8) else
    let yes := sh.guarded o.g bt
    s.setShf ((((sh.advance bt).goTo yes (branchTarget sh.batchPc o.off))).switch))

/-- BRAS (R141): taken by the whole batch or by none of it; the batch ends either way (R46). (DEDUCED, log 23.) -/
def execBras (o : SopBra) (s : State) : Out :=
  .next (
    let sh := s.shf
    let bt := sh.issuing
    if bt = 0 then s else
    if guardReads o.g && !sh.fullSc o.g.cc then s.await 0x01 3 (o.g.cc.setWidth 8) else
    if condHolds o.g.cond (sh.readSc o.g.cc) then s.setShf ((sh.goTo bt (branchTarget sh.batchPc o.off)).switch)
    else s.setShf ((sh.advance bt).switch))

/-- A branch to the address in an s register (R70, R141): a target off its slot traps at the branch. -/
def branchReg (o : SopBrx) (s : State) : State :=
  s.sheafStep o.g [o.a] [] none fun s =>
    let t := s.shf.readS o.a
    if t.extractLsb' 0 3 ≠ 0 then s.illegal 0x09 else s.setShf ((s.shf.goTo s.shf.issuing t).switch)

def execBrx (o : SopBrx) (s : State) : Out := .next (branchReg o s)
/-- RET has the effect of BRX (R141). -/
def execRet (o : SopBrx) (s : State) : Out := .next (branchReg o s)

/-- CALL (R141, R142): the link is the next PC. -/
def execCall (o : SopCall) (s : State) : Out :=
  .next (s.sheafStep o.g [] [o.d] none fun s =>
    let sh := s.shf
    s.setShf (((sh.writeS o.d sh.npc).goTo sh.issuing (branchTarget sh.batchPc o.off)).switch))

/-- JOIN (R143). -/
def execJoin (o : SopBar) (s : State) : Out :=
  .next (s.sheafStep o.g [] [] none fun s => s.sheafDone fun sh =>
    (sh.setBar o.k (sh.issuing ||| sh.atMeet o.k)).testBar o.k)

/-- The fibres of the batch in handler trap ILLEGAL with subcode 0x0C at a collective; the others go on (R353). -/
def handlerFaults (sh : Sheaf) : List LaneFault := sameFault (sh.issuing &&& sh.inHandler) 0x01 0 0x0C

/-- MEET (R143): members park, others pass; the batch ends. -/
def execMeet (o : SopBar) (s : State) : Out :=
  .next (s.sheafStep o.g [] [] none fun s =>
    let sh := s.shf
    let bt := sh.issuing &&& ~~~sh.inHandler
    let stay := bt &&& sh.bar o.k
    let sh1 := (sh.modFibs stay fun _ f => f.parkAt .atBarrier (.meet o.k) sh.npc).advance (bt &&& ~~~stay)
    ((s.setShf ((sh1.testBar o.k).switch)).trapLanes sh (handlerFaults sh)))

/-- YIELD (R145). -/
def execYield (o : SopG) (s : State) : Out :=
  .next (s.sheafStep o.g [] [] none fun s =>
    s.setShf { ((s.shf.advance s.shf.issuing).switch) with yielded := true })

/-- EXIT (R149): the guard is per fibre. -/
def execExit (o : SopG) (s : State) : Out :=
  .next (
    let sh := s.shf
    let bt := sh.issuing
    if bt = 0 then s else
    if guardReads o.g && sh.ccEmpty o.g.cc bt then s.await 0x01 2 (o.g.cc.setWidth 8) else
    let yes := sh.guarded o.g bt
    (s.setShf ((sh.advance bt).switch)).leave s.cur yes .exited)

/-- NAP (R146): wait until the bell reaches s[A] + sext(IMM30). -/
def execNap (o : SopNap) (s : State) : Out :=
  .next (s.sheafStep o.g [o.a] [] none fun s =>
    let sh := s.shf
    let t := sh.readS o.a + o.imm.signExtend 64
    if t.toNat ≤ s.bell.toNat then s.setShf ((sh.advance sh.issuing).switch)
    else (s.setShf ((sh.modFibs sh.issuing fun _ f => f.parkAt .waiting (.nap t) sh.npc).switch)).post
      (.napWake s.cur))

/-- The bed and phase of barrier k of the issuing sheaf. -/
def State.phaseOf (s : State) (sh : Sheaf) (k : BitVec 4) : W32 := ((s.bed? sh.bed).map fun b => (b.bar k).phase).getD 0

/-- Lanes of the issuing sheaf that stand in arrived[k]. -/
def State.arrivedLanes (s : State) (sh : Sheaf) (k : BitVec 4) : Mask :=
  match s.bed? sh.bed with
  | some b => maskOf fun l => (b.bar k).arrived.contains (s.cur, l)
  | none => 0

/-- Add lanes of the issuing sheaf to arrived[k]. -/
def State.addArrived (s : State) (sh : Sheaf) (k : BitVec 4) (m : Mask) : State :=
  s.modBed sh.bed fun b => b.setBar k { b.bar k with
    arrived := (b.bar k).arrived ++ ((lanesIn (m &&& ~~~s.arrivedLanes sh k)).map fun l => (s.cur, l)) }

/-- BAR (R147). -/
def execBar (o : SopBedBar) (s : State) : Out :=
  .next (s.sheafStep o.g [] [] none fun s =>
    let sh := s.shf
    let bt := sh.issuing &&& ~~~sh.inHandler
    let s1 := (s.addArrived sh o.k bt).setShf
      ((sh.modFibs bt fun _ f => f.parkAt .atBarrier (.bar o.k) sh.npc).switch)
    (s1.completeBar 4 sh.bed o.k).trapLanes sh (handlerFaults sh))

/-- ARRV (R147): fibres not yet arrived arrive and go on; those that had arrived wait for the phase to pass and then
arrive; the token is written with the batch's last arrival, and until then is one of the sheaf's operations
(R173). -/
def execArrv (o : SopArrv) (s : State) : Out :=
  .next (s.sheafStep o.g [] [o.d] none fun s =>
    let sh := s.shf
    let bt := sh.issuing &&& ~~~sh.inHandler
    if bt = 0 then s.trapLanes sh (handlerFaults sh) else
    if sh.opsFull then s.await 0x02 0 0 else
    let p := s.phaseOf sh o.k
    let before := bt &&& s.arrivedLanes sh o.k
    let (k, s0) := s.addOp ⟨sh.batchPc, .token o.d, bt, bt, 0, Vector.replicate 32 0, [], 0, none⟩
    let sh1 := (s0.shf.emptyS o.d sh.batchPc)
    let sh2 := { sh1 with arrvs := sh1.arrvs ++ [(⟨o.d, o.k, bt, k⟩ : ArrvRec)] }
    let sh3 := sh2.arrive o.k (bt &&& ~~~before) p
    let s1 := ((s0.setShf (sh3.advance (bt &&& ~~~before))).addArrived sh o.k bt)
    let late := s1.modSheaf s.cur fun x =>
      x.modFibs before fun _ f => f.parkAt .atBarrier (.arrv o.k p o.d) sh.npc
    ((late.modSheaf s.cur Sheaf.switch).completeBar 4 sh.bed o.k).trapLanes sh (handlerFaults sh))

/-- WAITB (R147). -/
def execWaitb (o : SopWaitb) (s : State) : Out :=
  .next (s.sheafStep o.g [o.a] [] none fun s =>
    let sh := s.shf
    let bt := sh.issuing &&& ~~~sh.inHandler
    let tok := loHalf (sh.readS o.a)
    let sh1 := if s.phaseOf sh o.k = tok then
        sh.modFibs bt fun _ f => f.parkAt .waiting (.waitb o.k tok) sh.npc
      else sh.advance bt
    (s.setShf sh1.switch).trapLanes sh (handlerFaults sh))

/-! ### Spawn, groups and dependences -/

/-- A wait of an instruction part way through: its phase and answer are kept. -/
def State.holdPhase (s : State) (n : Nat) (reason : BitVec 8) : State :=
  (s.await reason 0 0).modSheaf s.cur fun sh => { sh with hold := { sh.hold with phase := n } }

/-- SPAWN (R153): release at .dev, the record sent, the answer awaited. -/
def execSpawn (o : SopSpawn) (s : State) : Out :=
  .next (
    if s.shf.hold.phase = 2 then
      match s.shf.hold.answer with
      | some r => s.sheafDone fun sh => (sh.writeS o.d r.beds).writeSc o.k r.flags
      | none => s.await 0 0 0
    else s.heldStep o.g [o.a, o.a + 1, o.a + 2, o.a + 3] [o.d] (some o.k) fun s => s.pastFences s.shf.issuing fun s =>
      let sh := s.shf.seen
      if !s.releaseReady sh sh.issuing .dev then s.await 0 0 0 else
      let (key, s1) := s.fresh
      ((s1.modSheaf s.cur fun sh => { sh.released sh.issuing .dev with hold := { sh.hold with ticket := key } }).post
        (.spawnRequest ⟨s.cur, key, sh.readS o.a, sh.readS (o.a + 1), sh.readS (o.a + 2), sh.readS (o.a + 3), none⟩)).holdPhase
          2 0)

/-- A fibre's group: wid[63:WG] (R154). -/
def groupOf (h : Header) (wid : Word) : Word := wid >>> h.bitsBelow h.grplvl

/-- The groups of the fibres of a mask. -/
def Sheaf.groupsOf (sh : Sheaf) (h : Header) (m : Mask) : List Word :=
  (lanesIn m).map fun l => sh.fib l 0 fun f => groupOf h f.wid

/-- Set completion bits (R154, R329: groups below 2^24). -/
def Launch.setGroups (la : Launch) (gs : List Word) : Launch :=
  let add := fun (a : List Nat) (g : Word) => if g.toNat < 2 ^ 24 ∧ !a.contains g.toNat then a ++ [g.toNat] else a
  { la with groups := gs.foldl add la.groups }

/-- Whether the window of a consumer's group is complete (R155, R329). -/
def State.windowDone (s : State) (la : Launch) (group : Word) : Bool :=
  match la.producer with
  | none => true
  | some p => match s.launch? p with
    | none => true
    | some pr =>
      pr.completed ||
        let lo : Int := (la.hdr.mapa : Int) * group.toNat + la.hdr.mapb.toInt
        let lo' := BitVec.toInt (BitVec.ofInt 64 lo)
        let hi := BitVec.toInt (BitVec.ofInt 64 (lo' + la.hdr.mapw))
        (List.range la.hdr.mapw).all fun i =>
          let p := lo' + i
          p < 0 || hi ≤ p || pr.groups.contains p.toNat

/-- Sheafs with a DWAIT whose window has become complete are told (R330). -/
def State.pollDwait (s : State) : State :=
  s.sheafs.foldl (fun s e =>
    match s.launch? e.2.launch with
    | none => s
    | some la =>
      let m := e.2.lanesWhere fun f => f.park = .dwait && s.windowDone la (groupOf la.hdr f.wid)
      if decide (m ≠ 0#32) && !s.events.any (· = .dwaitReady e.1) then s.post (.dwaitReady e.1) else s) s

/-- WB and the number of beds of a range. -/
def Header.wb (h : Header) : Nat := h.bitsBelow h.bedlvl
def Header.wt (h : Header) : Nat := h.widths.sum
def Header.bedsOf (h : Header) (count : Nat) : Nat := (count + 2 ^ h.wb - 1) / 2 ^ h.wb

/-- Scratchpad units of a bed (R253). -/
def unitsFor (h : Header) : Nat := (h.scratch + 16383) / 16384

/-- A partition's queue is looked at again. -/
def State.pollPlace (s : State) (part : Nat) : State :=
  let mine := fun la => ((s.launch? la).map fun l => decide (l.part = part)).getD false
  if s.spawns.any (fun r => mine r.launch) || s.events.any (fun e => match e with
      | .replant la _ => mine la
      | _ => false) then s.postOnce (.bedPlacement part) else s

/-- TRIG (R154): release at .dev, then the completion bits. -/
def execTrig (o : SopG) (s : State) : Out :=
  .next (s.heldStep o.g [] [] none fun s => s.pastFences s.shf.issuing fun s =>
    let sh := s.shf
    if !s.releaseReady sh sh.issuing .dev then s.await 0 0 0 else
    let s1 := match s.launch? sh.launch with
      | some la => s.modLaunch sh.launch fun x => x.setGroups (sh.groupsOf la.hdr sh.issuing)
      | none => s
    (s1.sheafDone fun sh => sh.released sh.issuing .dev).pollDwait)

/-- DWAIT (R155): with a dependence, the fibres whose window is open wait, and may have to make room for a bed that is queued
(R331); the others act as by FENCE.acq.dev. -/
def execDwait (o : SopG) (s : State) : Out :=
  .next (s.sheafStep o.g [] [] none fun s =>
    let sh := s.shf
    match s.launch? sh.launch with
    | none => s.setShf ((sh.advance sh.issuing).switch)
    | some la =>
      if !la.hdr.hasdep then s.setShf ((sh.advance sh.issuing).switch) else
      let open_ := sh.issuing &&& sh.lanesWhere fun f => !s.windowDone la (groupOf la.hdr f.wid)
      let go := sh.issuing &&& ~~~open_
      let s1 := (s.setShf (((sh.modFibs open_ fun _ f => f.parkAt .waiting .dwait sh.npc).advance go).switch.setFence go
        ⟨true, false, .dev⟩)).endFences go
      if open_ = 0 then s1 else s1.pollPlace la.part)

/-! ### Traps -/

/-- TRAP (R159): SOFTWARE for the whole batch; the saved PC is the next PC. -/
def execTrap (o : SopTrap) (s : State) : Out :=
  .next (s.sheafStep o.g [] [] none fun s =>
    let sh := s.shf
    (s.takeTrap s.cur (sameFault sh.issuing 0x0B 0 (o.code.setWidth 32)) sh.batchPc (fun _ => sh.npc) none).modSheaf
      s.cur Sheaf.switch)

/-- A precise stop of an issue partition (R422): issue and writeback stop, and the dump is written. -/
def State.stopPartition (s : State) (core part : Nat) : State :=
  let s1 := s.modCore core fun c => { c with stopped := c.stopped ||| (1#4 <<< (part % 4)) }
  { s1 with dumps := s1.dumps ++ [⟨core, part, s.bell,
      (s.sheafs.filter fun e => e.2.core = core && e.2.part = part).map (·.2.shown)⟩] }

/-- BKPT (R159): BREAKPOINT with its own PC saved, or the precise stop where the debug core has claimed
breakpoints, resuming after the BKPT (R422). -/
def execBkpt (o : SopG) (s : State) : Out :=
  .next (s.sheafStep o.g [] [] none fun s =>
    let sh := s.shf
    let claimed : Bool := match s.launch? sh.launch with
      | some la => ((s.part? la.part).map (·.breakpoints)).getD false
      | none => false
    if claimed then (s.sheafDone id).stopPartition sh.core sh.part
    else s.trapAtIssue (sameFault sh.issuing 0x0C 0 0))

/-- The index of the innermost frame whose mask holds all the lanes of a mask (R160, R162). -/
def Sheaf.innermost (sh : Sheaf) (m : Mask) : Option Nat := sh.frames.findIdx? fun f => m &&& ~~~f.mask = 0

/-- RTE (R162): the batch parks on F; when every fibre of F's mask has executed RTE, F is released. -/
def execRte (o : SopG) (s : State) : Out :=
  if s.shf.issuing ≠ 0 && (s.shf.innermost s.shf.issuing).isNone then .next (s.illegal 0x0C) else
  .next (s.sheafStep o.g [] [] none fun s =>
    let sh := s.shf
    match sh.innermost sh.issuing with
    | none => s
    | some i =>
      let sh1 := { (sh.modFibs sh.issuing fun _ f => f.parkAt .atRte .none f.pc) with
        frames := sh.frames.modify i fun f => { f with rte := f.rte ||| sh.issuing } }
      (s.setShf sh1.switch).settleFrames 4 s.cur)

/-- The frame FRMRD and FRMWR name (R160). -/
def Sheaf.namedFrame (sh : Sheaf) (f : FrameSel) : Option Nat :=
  match f with
  | .index i => if i.toNat < sh.frames.length then some i.toNat else none
  | .own => (lowestLane sh.issuing).bind fun l => sh.innermost (1#32 <<< l.val)

/-- The value FRMRD reads (Table 6.5). -/
def Frame.read (f : Frame) (x : FrmRdField) (l : Fin 32) : Word :=
  match x with
  | .cause => f.cause.setWidth 64
  | .info => f.info.setWidth 64
  | .addr => f.addr
  | .mask => f.mask.setWidth 64
  | .fpc => f.fpc
  | .bell => f.bell
  | .pc => if hasLane f.mask l then f.pcs[l] else 0
  | .cc => if hasLane f.mask l then (f.ccs[l]).setWidth 64 else 0

/-- Whether a field of Table 6.5 is read per fibre. -/
def frmPerFibre : FrmRdField → Bool
  | .pc | .cc => true
  | _ => false

/-- FRMRD (R160). -/
def execFrmrd (o : SopFrmrd) (s : State) : Out :=
  if s.shf.issuing ≠ 0 && (s.shf.namedFrame o.frame).isNone then .next (s.illegal 0x0C) else
  .next (s.sheafStep o.g (if frmPerFibre o.field then [o.a] else []) [o.d] none fun s =>
    s.sheafDone fun sh =>
      let l := laneOf (sh.readS o.a).toNat
      match (sh.namedFrame o.frame).bind fun i => sh.frames[i]? with
      | some f => sh.writeS o.d (f.read o.field l)
      | none => sh)

/-- A lane leaves every barrier it is parked at or a member of (R51). -/
def State.leaveBarriers (s : State) (u : Nat) (m : Mask) : State :=
  s.modSheaf u fun sh => sh.leaveBars m

/-- FRMWR (R160, R161, R51). -/
def execFrmwr (o : SopFrmwr) (s : State) : Out :=
  if s.shf.issuing ≠ 0 && (s.shf.namedFrame o.frame).isNone then .next (s.illegal 0x0C) else
  .next (s.sheafStep o.g [o.a, o.b] [] none fun s =>
    let sh := s.shf
    let l := laneOf (sh.readS o.a).toNat
    let x := sh.readS o.b
    match sh.namedFrame o.frame with
    | none => s
    | some i =>
      let s1 := s.sheafDone id
      if !((sh.frames[i]?.map fun f => hasLane f.mask l).getD false) then s1 else
      match o.field with
      | .pc => (s1.modSheaf s.cur fun sh => { sh with frames := sh.frames.modify i fun f =>
          { f with pcs := f.pcs.set l x } }).leaveBarriers s.cur (1#32 <<< l.val)
      | .cc => s1.modSheaf s.cur fun sh => { sh with frames := sh.frames.modify i fun f =>
          { f with ccs := f.ccs.set l (x.setWidth 16) } }
      | .cull => if x = 0 then s1 else s1.leave s.cur (1#32 <<< l.val) .culled)

end Sys2Proof.Machine
end

