-- ==== Sys2Proof/Machine/Codec.lean ====
section
/-! DEFINITION. The block codecs of KIND 1 and KIND 2 pages (R273 to R276). -/

namespace Sys2Proof.Machine

/-- How a block is held (R274). -/
inductive BlockForm where
  | zero
  | delta (code : Nat)
  | raw
  deriving DecidableEq, Repr

/-- Element width in bytes: 4 for the word codec, 2 for the half codec. -/
def elemBytes (kind : BitVec 2) : Nat := if kind = 2 then 2 else 4

/-- Delta widths of Table 12.1 by code. -/
def deltaWidths (kind : BitVec 2) : List Nat := if kind = 2 then [0, 3, 6, 10] else [0, 6, 12, 20]

/-- Bytes before the stream (R275). -/
def deltaHeader (kind : BitVec 2) : Nat := if kind = 2 then 3 else 5

/-- Little-endian elements of n bytes each, at most k of them. -/
def elements (n : Nat) : Nat → List Byte → List Nat
  | 0, _ => []
  | k + 1, bs => bytesToNat (bs.take n) :: elements n k (bs.drop n)

def blockElems (kind : BitVec 2) (bs : List Byte) : List Nat := elements (elemBytes kind) (256 / elemBytes kind) bs

/-- (x − base) mod 2^n read as signed (R274). -/
def deltaOf (n base x : Nat) : Int :=
  let d := (x + 2 ^ n - base) % 2 ^ n
  if d < 2 ^ (n - 1) then d else (d : Int) - 2 ^ n

def fitsWidth (w : Nat) (d : Int) : Bool :=
  if w = 0 then d = 0 else decide (-(2 : Int) ^ (w - 1) ≤ d ∧ d < (2 : Int) ^ (w - 1))

/-- Encode (R274): the form the contents take. -/
def blockForm (kind : BitVec 2) (bs : List Byte) : BlockForm :=
  if bs.all (· = 0) then .zero else
    let es := blockElems kind bs
    let n := 8 * elemBytes kind
    let ds := es.map (deltaOf n (es.headD 0))
    match (deltaWidths kind).findIdx? fun w => ds.all (fitsWidth w) with
    | some c => .delta c
    | none => .raw

/-- Sectors of a form (Table 12.1). -/
def formSectors : BlockForm → Nat
  | .zero => 0
  | .delta 0 => 1
  | .delta 1 => 1
  | .delta 2 => 2
  | .delta _ => 3
  | .raw => 4

/-- Sidecar code of a form (Table 12.1). -/
def formCode : BlockForm → Nat
  | .zero => 0
  | .delta c => c + 1
  | .raw => 5

/-- Committed sectors of a block of a page of a KIND (R273). -/
def blockSectors (kind : BitVec 2) (bs : List Byte) : Nat := if kind = 0 then 4 else formSectors (blockForm kind bs)

/-- The delta stream as one number, LSB first (R275). -/
def streamOf (w : Nat) : List Int → Nat
  | [] => 0
  | d :: t => (d % 2 ^ w).toNat + 2 ^ w * streamOf w t

/-- The encoded bytes of a block, to the end of its last sector (R275, Table 12.2). -/
def encodeBlock (kind : BitVec 2) (bs : List Byte) : List Byte :=
  match blockForm kind bs with
  | .zero => []
  | .raw => bs
  | .delta c =>
    let es := blockElems kind bs
    let n := 8 * elemBytes kind
    let base := es.headD 0
    let w := (deltaWidths kind).getD c 0
    BitVec.ofNat 8 c :: natToBytes (elemBytes kind) base ++
      natToBytes (64 * formSectors (.delta c) - deltaHeader kind) (streamOf w (es.map (deltaOf n base)))

/-- Element i of a stream, sign-extended from w bits. -/
def streamAt (w stream i : Nat) : Int :=
  let d := stream / 2 ^ (w * i) % 2 ^ w
  if w = 0 then 0 else if d < 2 ^ (w - 1) then d else (d : Int) - 2 ^ w

/-- Decoding (R275) from a sidecar code and the block's bytes. -/
def decodeBlock (kind : BitVec 2) (code : Nat) (bs : List Byte) : List Byte :=
  if code = 0 then List.replicate 256 0
  else if code = 5 then bs
  else
    let n := elemBytes kind
    let w := (deltaWidths kind).getD (code - 1) 0
    let base := bytesToNat ((bs.drop 1).take n)
    let stream := bytesToNat (bs.drop (1 + n))
    (List.range (256 / n)).flatMap fun i =>
      natToBytes n (((base : Int) + streamAt w stream i) % 2 ^ (8 * n)).toNat

end Sys2Proof.Machine
end

