-- ==== Sys2Proof/Machine/Memory.lean ====
section
/-! DEFINITION. Memory as bytes (R7), lines (R245), page tables and their walk (R293, R294, R242), the checks of R295 and
the host translation (R300 to R303). -/

namespace Sys2Proof.Machine

/-! ### Bytes -/

/-- What an unlisted address reads as: 0. (DESIGN CHOICE, log 5.) -/
def unlisted : Byte := 0

/-- One byte of a memory. (DESIGN CHOICE, log 5.) -/
def Memory.read : Memory → Nat → Byte
  | [], _ => unlisted
  | (k, v) :: t, a => if k = a then v else Memory.read t a

/-- Remove an address. -/
def Memory.erase : Memory → Nat → Memory
  | [], _ => []
  | (k, v) :: t, a => if k = a then t else if k < a then (k, v) :: Memory.erase t a else (k, v) :: t

/-- Put a byte that differs from the unlisted value at an address, in rising order. -/
def Memory.put : Memory → Nat → Byte → Memory
  | [], a, b => [(a, b)]
  | (k, v) :: t, a, b =>
    if k = a then (a, b) :: t else if k < a then (k, v) :: Memory.put t a b else (a, b) :: (k, v) :: t

/-- Write one byte, keeping the canonical form. -/
def Memory.write (m : Memory) (a : Nat) (b : Byte) : Memory := if b = unlisted then Memory.erase m a else Memory.put m a b

/-- Every key of a memory above a bound, rising, and no entry equal to the unlisted value. -/
def Memory.wfFrom : Memory → Nat → Bool
  | [], _ => true
  | (k, v) :: t, lo => decide (lo ≤ k) && decide (v ≠ unlisted) && Memory.wfFrom t (k + 1)

/-- The canonical form. -/
def Memory.wf (m : Memory) : Bool := Memory.wfFrom m 0

/-- n bytes from an address. -/
def Memory.bytes (m : Memory) : Nat → Nat → List Byte
  | _, 0 => []
  | a, n + 1 => Memory.read m a :: Memory.bytes m (a + 1) n

/-- Write bytes from an address, ascending. -/
def Memory.writes (m : Memory) : Nat → List Byte → Memory
  | _, [] => m
  | a, b :: t => Memory.writes (Memory.write m a b) (a + 1) t

/-! ### Locations -/

def locOff : Loc → Nat
  | .dev a => a % 256
  | .host a => a % 256
  | .peer _ a => a % 256

/-- The 256-byte line of a location (R245). -/
def lineOf : Loc → Loc
  | .dev a => .dev (a / 256 * 256)
  | .host a => .host (a / 256 * 256)
  | .peer p a => .peer p (a / 256 * 256)

def locPlus (l : Loc) (n : Nat) : Loc :=
  match l with
  | .dev a => .dev (a + n)
  | .host a => .host (a + n)
  | .peer p a => .peer p (a + n)

def isDev : Loc → Bool
  | .dev _ => true
  | _ => false

/-- Bytes as the home holds them; a peer's bytes are not held here. -/
def State.homeBytes (s : State) (l : Loc) (n : Nat) : List Byte :=
  match l with
  | .dev a => Memory.bytes s.mem a n
  | .host a => Memory.bytes s.hostMem a n
  | .peer _ _ => List.replicate n 0

def State.homeByte (s : State) (l : Loc) : Byte :=
  match l with
  | .dev a => Memory.read s.mem a
  | .host a => Memory.read s.hostMem a
  | .peer _ _ => 0

/-- Apply bytes given by offset in a line. -/
def State.putBytes (s : State) (line : Loc) (bs : List (Nat × Byte)) : State :=
  match line with
  | .dev a => { s with mem := bs.foldl (fun m e => Memory.write m (a + e.1) e.2) s.mem }
  | .host a => { s with hostMem := bs.foldl (fun m e => Memory.write m (a + e.1) e.2) s.hostMem }
  | .peer _ _ => s

/-- A little-endian 64-bit word at a frame space address (R7). -/
def State.word64 (s : State) (a : Nat) : Word := BitVec.ofNat 64 (bytesToNat (Memory.bytes s.mem a 8))

/-! ### Page tables -/

/-- Table 10.1. -/
def decodePte (w : Word) : Pte where
  v := w.getLsbD 63
  r := w.getLsbD 62
  w := w.getLsbD 61
  x := w.getLsbD 60
  s := w.getLsbD 59
  surr := w.getLsbD 58
  moving := w.getLsbD 57
  size := w.extractLsb' 55 2
  tier := w.extractLsb' 53 2
  kind := w.extractLsb' 51 2
  pool := w.extractLsb' 43 8
  rsv := w.extractLsb' 40 3
  frame := w.extractLsb' 0 40

/-- Table 10.1, the other way. -/
def encodePte (p : Pte) : Word :=
  BitVec.ofBool p.v ++ BitVec.ofBool p.r ++ BitVec.ofBool p.w ++ BitVec.ofBool p.x ++ BitVec.ofBool p.s ++
    BitVec.ofBool p.surr ++ BitVec.ofBool p.moving ++ p.size ++ p.tier ++ p.kind ++ p.pool ++ p.rsv ++ p.frame

/-- Bytes of a page of a SIZE (R239). -/
def pageBytes (size : BitVec 2) : Nat :=
  match size.toNat with
  | 0 => 65536
  | 1 => 2097152
  | _ => 1073741824

/-- Frames of 64 KiB in a page of a SIZE (R241). -/
def pageFrames (size : BitVec 2) : Nat := pageBytes size / 65536

/-- Whether every frame from `f` on, `n` of them, has been created. -/
def State.framesCreated (s : State) (f n : Nat) : Bool :=
  if n ≤ 32 then (List.range n).all fun i => (aget s.frames (f + i)).isSome
  else decide (((s.frames.filter fun e => f ≤ e.1 && e.1 < f + n).map (·.1)).eraseDups.length = n)

/-- A leaf that is malformed whatever frames exist (R242). -/
def misshapen (p : Pte) : Bool :=
  p.size = 3 || p.kind = 3 || p.rsv ≠ 0 ||
  (p.size = 1 && p.frame.toNat % 32 ≠ 0) || (p.size = 2 && p.frame.toNat % 16384 ≠ 0) ||
  ((p.tier = 2 || p.tier = 3) && (p.kind ≠ 0 || p.pool ≠ 0)) ||
  (p.tier = 3 && 12 ≤ p.frame.toNat / 2 ^ 36)

/-- A malformed leaf (R242). -/
def State.malformed (s : State) (p : Pte) : Bool :=
  misshapen p || ((p.tier = 0 || p.tier = 1) && !s.framesCreated p.frame.toNat (pageFrames p.size))

/-- What a walk ends with: a leaf with its entry's address, or an entry that ends the walk, malformed or V = 0. -/
inductive WalkEnd where
  | leaf (p : Pte) (entry : Nat)
  | stop (entry : Nat) (malformed : Bool)
  deriving DecidableEq, Repr

/-- The index of a level (Table 13.1). -/
def tableIndex (level : Nat) (va : Word) : Nat :=
  match level with
  | 4 => va.toNat / 2 ^ 48 % 256
  | 3 => va.toNat / 2 ^ 39 % 512
  | 2 => va.toNat / 2 ^ 30 % 512
  | 1 => va.toNat / 2 ^ 21 % 512
  | _ => va.toNat / 2 ^ 16 % 32

/-- Whether a pointer entry is well formed for a level (R293): reserved bits, alignment, and a TIER 0 KIND 0 frame. -/
def State.pointerOk (s : State) (level : Nat) (w : Word) : Bool :=
  let table := w.toNat / 256 % 2 ^ 44 * 256
  level ≠ 0 && w.extractLsb' 57 6 = 0 && w.extractLsb' 52 3 = 0 && w.extractLsb' 0 8 = 0 &&
  (level = 1 || table % 4096 = 0) &&
  (match aget s.frames (table / 65536) with
    | some f => f.tier = 0 && f.kind = 0
    | none => false)

/-- The walk (R293, R294) from a level's table. -/
def State.walkFrom (s : State) (va : Word) : Nat → Nat → WalkEnd
  | level, table =>
    let entry := table + 8 * tableIndex level va
    let w := s.word64 entry
    let p := decodePte w
    if !p.v then .stop entry false
    else if p.size = 3 then
      if s.pointerOk level w then
        match level with
        | 0 => .stop entry true
        | n + 1 => State.walkFrom s va n (w.toNat / 256 % 2 ^ 44 * 256)
      else .stop entry true
    else if 3 ≤ level || p.size.toNat ≠ level || s.malformed p then .stop entry true
    else .leaf p entry

/-- A whole walk in an address space. (DEDUCED, log 58.) -/
def State.walk (s : State) (asn : Nat) (va : Word) : Option WalkEnd :=
  (aget s.spaces asn).map fun sp => s.walkFrom va 4 sp.root

/-- Whether the walk of an address meets an entry whose line an engine owns, for which it waits (R294). -/
def State.entryOwned (s : State) (va : Word) : Nat → Nat → Bool
  | level, table =>
    let entry := table + 8 * tableIndex level va
    let w := s.word64 entry
    ((aget s.homes (lineOf (.dev entry))).any fun h => h.engine ≠ []) ||
      (match level with
        | 0 => false
        | n + 1 => (decodePte w).v && (decodePte w).size = 3 && State.entryOwned s va n (w.toNat / 256 % 2 ^ 44 * 256))

/-- Whether the walk of an access waits so; none does while no engine owns a line. -/
def State.walkOwned (s : State) (asn : Nat) (va : Word) : Bool :=
  (s.homes.any fun e => e.2.engine ≠ []) && (aget s.spaces asn).any fun sp => s.entryOwned va 4 sp.root

/-! ### Translation of one access -/

/-- What an access asks of a page (R165, R56, R180, R194). -/
inductive Acc where
  | load | prefetch | store | atomic | cwb | pgdrop | fetch | engineRead | engineWrite | counter | agentRead | agentWrite
  deriving DecidableEq, Repr

/-- INFO[0], [1] and [2] of a fault (Table 6.4). -/
def accInfo (a : Acc) : W32 :=
  match a with
  | .load | .prefetch => 0
  | .store | .atomic | .cwb | .pgdrop => 1
  | .fetch => 2
  | .engineRead | .agentRead => 4
  | .engineWrite | .counter | .agentWrite => 5

def accWrites (a : Acc) : Bool :=
  match a with
  | .load | .prefetch | .fetch | .engineRead | .agentRead => false
  | _ => true

/-- The permissions an access needs (R165, R56, R180). -/
def accAllowed (a : Acc) (p : Pte) : Bool :=
  match a with
  | .fetch => p.x
  | .load | .prefetch | .engineRead => p.r
  | .pgdrop => p.r && p.w && p.s
  | .agentRead => p.r && p.w
  | _ => p.r && p.w

/-- A checked access: where it goes, the pool charged and the page's KIND, or a fault, or a wait. -/
inductive Checked where
  | at_ (l : Loc) (p : Pte) (entry : Nat)
  | fault (cause : BitVec 8) (log : Bool)
  | walkWait
  | hostWait (part : Nat) (pasid : Option (BitVec 20)) (page : Nat) (write : Bool)
  deriving DecidableEq, Repr

/-- The scratchpad window (R174). -/
def inWindow (h : Header) (va : Word) : Bool := decide (h.window.toNat ≤ va.toNat ∧ va.toNat < h.window.toNat + 1048576)

/-- A cached translation of an address (R296). -/
def State.tlbFor (s : State) (cluster asn : Nat) (va : Word) : Option TlbEntry :=
  s.tlb.find? fun e => e.asn = asn && e.cluster = cluster && e.base.toNat ≤ va.toNat && va.toNat < e.base.toNat + e.bytes

/-- The cached translation, or the walk's. -/
def State.leafFor (s : State) (cluster asn : Nat) (va : Word) : Option WalkEnd :=
  match s.tlbFor cluster asn va with
  | some e => some (.leaf e.pte e.entry)
  | none => s.walk asn va

/-- Whether an update holds walks of an address (R298). -/
def State.walkHeld (s : State) (asn : Nat) (va : Word) : Bool :=
  s.holding.any fun e => e.1.asn = asn && e.1.va.toNat ≤ va.toNat && va.toNat < e.1.va.toNat + e.1.len

/-- Steps 6 of R295: the ATC and what it lacks (R301 to R303). (DEDUCED, log 32.) -/
def State.hostCheck (s : State) (die part : Nat) (pasid : Option (BitVec 20)) (page off : Nat) (write : Bool)
    (p : Pte) (entry : Nat) : Checked :=
  match s.atc.find? fun e => e.die = die && e.fn = part && e.pasid = pasid && e.page = page && e.r && (e.w || !write) with
  | some e => .at_ (.host (e.trans * 4096 + off)) p entry
  | none => match (s.pageReqs.find? fun r => r.fn = part && r.pasid = pasid && r.page = page && r.answer.isSome).bind (·.answer) with
    | some c => .fault c false
    | none => .hostWait part pasid page write

/-- The host-assisted walk that an address's requests are merged into: that of its 64 KiB piece (R297). -/
def pieceOf (va : Word) : Word := BitVec.ofNat 64 (va.toNat / 65536 * 65536)
def WalkWait.is (w : WalkWait) (asn : Nat) (va : Word) : Bool := w.asn = asn && w.va = pieceOf va

/-- The checks of R295, in their order, for one address. -/
def State.check (s : State) (cluster asn : Nat) (h : Option Header) (va : Word) (a : Acc) : Checked :=
  if !canonical va then .fault 0x03 true
  else if (h.map fun h => inWindow h va).getD false then .fault 0x03 false
  else if s.walkHeld asn va || ((s.tlbFor cluster asn va).isNone && s.walkOwned asn va) then .walkWait
  else
    match aget s.spaces asn, s.leafFor cluster asn va with
    | some sp, some (.leaf p entry) =>
      if p.surr && a ≠ .pgdrop then .fault 0x05 false
      else if !accAllowed a p then .fault 0x04 true
      else
        let off := va.toNat % pageBytes p.size
        match p.tier.toNat with
        | 2 => s.hostCheck (cluster / 32 % 4) sp.part sp.pasid ((p.frame.toNat * 65536 + off) / 4096)
                 (va.toNat % 4096) (accWrites a) p entry
        | 3 => .at_ (.peer (p.frame.toNat / 2 ^ 36) (p.frame.toNat % 2 ^ 36 * 65536 + off)) p entry
        | _ => .at_ (.dev (p.frame.toNat * 65536 + off)) p entry
    | some sp, some (.stop _ _) =>
      let assisted := ((s.part? sp.part).map (·.walksAssisted)).getD false
      if a = .prefetch then .fault 0x03 true else
        -- a walk that is with the driver ends as it began (R404)
        match s.walkWaits.find? fun w => w.is asn va with
        | some w => if w.declined then .fault 0x03 true else .walkWait
        | none => if assisted then .walkWait else .fault 0x03 true
    | _, _ => .fault 0x03 true

/-- An ATC entry that has been used is the last to be replaced (R301). (DEDUCED, log 54.) -/
def State.usedAtc (s : State) (die asn page : Nat) : State :=
  match aget s.spaces asn with
  | none => s
  | some sp =>
    let is := fun (e : AtcEntry) => e.die = die && e.fn = sp.part && e.pasid = sp.pasid && e.page = page
    { s with atc := s.atc.filter (fun e => !is e) ++ s.atc.filter is }

/-- Remember a translation that was used (R296); the cluster's TLB holds 4,096, the oldest leaving first. -/
def State.noteTlb (s0 : State) (cluster asn : Nat) (va : Word) (p : Pte) (entry : Nat) : State :=
  let s := if p.tier = 2 then s0.usedAtc (cluster / 32 % 4) asn ((p.frame.toNat * 65536 + va.toNat % pageBytes p.size) / 4096)
    else s0
  if s.tlb.any fun e => e.asn = asn && e.cluster = cluster && e.base.toNat ≤ va.toNat &&
      va.toNat < e.base.toNat + e.bytes then s
  else
    let n := pageBytes p.size
    let e : TlbEntry := ⟨asn, cluster, BitVec.ofNat 64 (va.toNat / n * n), n, entry, p⟩
    let extra := (s.tlb.filter fun e => e.cluster = cluster).length + 1 - 4096
    { s with tlb := (s.tlb ++ [e]).drop extra }

/-- Whether a page request is in flight or answered for a page. -/
def PageReq.is (r : PageReq) (part : Nat) (pasid : Option (BitVec 20)) (page : Nat) : Bool :=
  r.fn = part && r.pasid = pasid && r.page = page

/-- A page request in flight, on which every lane that needs the page waits; one that has not been sent asks for write
where any of them writes (R303). -/
def State.joinPage (s : State) (die : Nat) (who : Nat × Option Nat) (part : Nat) (pasid : Option (BitVec 20)) (page : Nat)
    (write : Bool) : State :=
  { s with pageReqs := s.pageReqs.map fun r => if r.is part pasid page && r.answer.isNone then
      { r with
        waiters := if r.waiters.contains who then r.waiters else r.waiters ++ [who]
        write := r.write || (r.held && write)
        dies := if r.dies.contains die then r.dies else r.dies ++ [die] } else r }

/-- What a wait on the host asks for (R301, R303): it joins the page request or the ATS request for its page, or makes
an ATS request, as it does where the page request has succeeded. At most 256 are outstanding on a die. -/
def State.askHost (s : State) (die : Nat) (who : Nat × Option Nat) (part : Nat) (pasid : Option (BitVec 20))
    (page : Nat) (write : Bool) : State :=
  let is := fun (r : AtsReq) => r.die = die && r.fn = part && r.pasid = pasid && r.page = page
  let mine := s.pageReqs.filter fun r => r.is part pasid page && r.answer.isNone
  let s0 := s.joinPage die who part pasid page write
  let ws := if mine = [] then [(who, write)] else []
  if mine.any fun r => !r.retried then s0
  else if s.atsReqs.any is then
    { s0 with atsReqs := s.atsReqs.map fun r => if is r then { r with waiters := (r.waiters ++ ws).eraseDups } else r }
  else if 256 ≤ (s.atsReqs.filter fun r => r.die = die).length then s0
  else
    let r : AtsReq := ⟨die, part, pasid, page, false, 0, ws⟩
    ({ s0 with atsReqs := s.atsReqs ++ [r] } : State).emit (.atsRequest r)

/-- A waiter has taken the answer of its page request (Table 13.4). -/
def State.tookAnswer (s : State) (who : Nat × Option Nat) (part : Nat) (pasid : Option (BitVec 20)) (page : Nat) :
    State :=
  { s with pageReqs := (s.pageReqs.map fun r => if r.is part pasid page && r.answer.isSome then
      { r with waiters := r.waiters.filter (· ≠ who) } else r).filter fun r => !(r.answer.isSome && r.waiters = []) }

/-- What a wait on a host-assisted walk asks for (R294, R297, R404): the driver is asked once for a 64 KiB piece, and every
request for it waits on the one walk. -/
def State.askWalk (s : State) (asn : Nat) (va : Word) (who : Nat × Option Nat) : State :=
  if s.walkHeld asn va || s.walkOwned asn va then s
  else if s.walkWaits.any fun w => w.is asn va then
    { s with walkWaits := s.walkWaits.map fun w => if w.is asn va && !w.waiters.contains who then
        { w with waiters := w.waiters ++ [who] } else w }
  else
    let w : WalkWait := ⟨asn, pieceOf va, s.bell, false, [who]⟩
    (({ s with walkWaits := s.walkWaits ++ [w] } : State).report (.walkAsked asn w.va)).post (.walkAnswerTimeout asn w.va)

/-- Ask for whatever a checked access waits on. -/
def State.askFor (s : State) (cluster asn : Nat) (va : Word) (who : Nat × Option Nat) (c : Checked) : State :=
  match c with
  | .walkWait => s.askWalk asn va who
  | .hostWait part pasid page write => s.askHost (cluster / 32 % 4) who part pasid page write
  | _ => s

/-- The walker logs the address of a malformed entry it has met (R242). -/
def State.logEntry (s : State) (asn : Nat) (va : Word) : State :=
  match aget s.spaces asn, s.leafFor 0 asn va with
  | some sp, some (.stop entry true) => s.modPart sp.part fun p => p.logs ⟨0x03, BitVec.ofNat 64 entry, 0, asn, s.bell, 0⟩
  | _, _ => s

/-- A fault has been taken: a malformed entry is logged, a declined walk and an answered page request are spent.
(DEDUCED, log 33.) -/
def State.spend (s0 : State) (asn : Nat) (va : Word) (who : Nat × Option Nat) : State :=
  let s := s0.logEntry asn va
  let s1 := { s with walkWaits := (s.walkWaits.map fun w => if w.is asn va && w.declined then
      { w with waiters := w.waiters.filter (· ≠ who) } else w).filter fun w => !(w.declined && w.waiters = []) }
  match aget s.spaces asn, s.leafFor 0 asn va with
  | some sp, some (.leaf p _) =>
    if p.tier = 2 then s1.tookAnswer who sp.part sp.pasid ((p.frame.toNat * 65536 + va.toNat % pageBytes p.size) / 4096)
    else s1
  | _, _ => s1

end Sys2Proof.Machine
end

