-- ==== Sys2Proof/Machine/Counter.lean ====
section
/-! DEFINITION. Allowance counters (R194 to R201): a counter line with its allowances; the reserve of a pool as such a
counter (R279), its charges, the wait of R283, refunds and settlements (R281). -/

namespace Sys2Proof.Machine

/-- A counter with its holders (R194): what the home holds, the line's HIGH and QUANTUM, the allowances by cluster. -/
structure Ctr where
  remain : Nat
  high : Nat
  quantum : Nat
  allow : List (Nat × Allow)
  deriving DecidableEq, Repr

/-- OUT: the allowances held. -/
def Ctr.out (c : Ctr) : Nat := (c.allow.map (·.2.amount)).sum
/-- The total (R194). -/
def Ctr.total (c : Ctr) : Nat := c.remain + c.out
def Ctr.held (c : Ctr) (cl : Nat) : Nat := ((aget c.allow cl).map (·.amount)).getD 0

/-- The holder's record, of nothing where it has none. -/
def Ctr.holder (c : Ctr) (cl : Nat) : Allow := (aget c.allow cl).getD ⟨0, 0, 0, 0⟩

/-- The refill quantum of a holder (Table 8.1, R199): of the n of the instruction being applied and the total its home last told
it where the line gives 0. A refill's answer tells it the total; before the first, 0. (DESIGN CHOICE, log 72.) -/
def Ctr.q (c : Ctr) (cl n : Nat) : Nat := if c.quantum = 0 then max n ((c.holder cl).told / 256) else c.quantum
def Ctr.highMark (c : Ctr) (cl n : Nat) : Nat := if c.high = 0 then 2 * c.q cl n else c.high

/-- A holder's record changed. -/
def Ctr.mod (c : Ctr) (cl used : Nat) (g : Allow → Allow) : Ctr := { c with allow := aset c.allow cl { g (c.holder cl) with used := used } }

/-- The roll call: every allowance returns (R197). -/
def Ctr.roll (c : Ctr) : Ctr :=
  { c with remain := c.total, allow := c.allow.map fun e => (e.1, { e.2 with amount := 0, reported := 0 }) }

/-- The home grants g to a holder, which takes n of what it then has, and is told the total (R197, R199). -/
def Ctr.grant (c : Ctr) (cl g n used : Nat) : Ctr :=
  { c.mod cl used fun a => { a with amount := a.amount + g - n, reported := a.reported + g, told := c.total } with
    remain := c.remain - g }

/-- CTAKE of R197 for a cluster: whether it succeeds, and the counter after it. -/
def Ctr.take (c : Ctr) (cl n used : Nat) : Bool × Ctr :=
  let a := c.held cl
  if n ≤ a then (true, c.mod cl used fun x => { x with amount := a - n })
  else
    let q := c.q cl n
    if n - a ≤ c.remain then (true, c.grant cl (min c.remain (n - a + q)) n used)
    else
      let r := c.roll
      if n ≤ r.remain then (true, r.grant cl (min r.remain (n + q)) n used) else (false, r)

/-- n taken at the home alone, after a roll call where the home holds less: the CTAKE of R279 and R287. -/
def Ctr.takeHome (c : Ctr) (n : Nat) : Option Ctr :=
  if n ≤ c.remain then some { c with remain := c.remain - n }
  else if n ≤ c.roll.remain then some { c.roll with remain := c.roll.remain - n } else none

/-- CGIVE of R199: the total is held at 2^64 − 1; what passes the high-water mark goes back to the home. -/
def Ctr.give (c : Ctr) (cl n used : Nat) : Ctr :=
  let n' := min n (2 ^ 64 - 1 - c.total)
  let a := c.held cl + n'
  if c.highMark cl n < a then
    let back := a - min a (c.q cl n)
    { c.mod cl used fun x => { x with amount := a - back, reported := a - back } with remain := c.remain + back }
  else c.mod cl used fun x => { x with amount := a }

/-! ### Counter lines in memory (Table 8.1) -/

def State.ctrAt (s : State) (a : Nat) : Ctr where
  remain := (s.word64 a).toNat
  high := (hiHalf (s.word64 (a + 8))).toNat
  quantum := (loHalf (s.word64 (a + 8))).toNat
  allow := s.allows.filterMap fun e => if e.1.2 = a then some (e.1.1, e.2) else none

/-- The home's record of a line, as R262 gives it where it has none: not written lately, the slice's watermark, and
the block not dirty. The committed size stands in the frame's sidecar. -/
def HomeLine.none : HomeLine := ⟨.none, 0, [], .none, .none, 0, 0, false⟩

def sliceOf (l : Loc) : Nat :=
  match l with
  | .dev a => a / 65536 % 4 * 512 + Config.sliceOf (a / 256) % 512
  | .host _ => 2048
  | .peer _ _ => 2049

def State.home (s : State) (line : Loc) : HomeLine :=
  match aget s.homes line with
  | some h => h
  | none => if s.watermarks = [] then HomeLine.none
    else { HomeLine.none with leasemax := (aget s.watermarks (sliceOf line)).getD 0 }

/-- Put a home's record of a line; a new record may later be dropped (R262). -/
def State.setHome (s : State) (line : Loc) (h : HomeLine) : State :=
  let s1 := if (aget s.homes line).isSome then s else s.post (.homeSliceEviction line)
  { s1 with homes := aset s1.homes line h }

/-- The bytes of a line have been written at its home (R262). -/
def State.touched (s : State) (line : Loc) : State :=
  s.setHome line { s.home line with lastwrite := some s.bell }

def ctrBytes (a : Nat) (off : Nat) (x : Nat) : List (Nat × Byte) :=
  ((natToBytes 8 x).zipIdx).map fun e => (a % 256 + off + e.2, e.1)

/-- A CTAKE or CGIVE has changed a counter's total: the total it had is one of the 8 µs before (R201). -/
def State.noteTotal (s : State) (a total : Nat) : State :=
  { s with totals := (s.totals.filter fun e => s.bell.toNat ≤ e.2.1.toNat + 8000) ++ [(a, s.bell, total)] }

/-- Put a counter back: REMAIN and OUT into its line, the allowances with their clusters. -/
def State.setCtr (s : State) (a : Nat) (c : Ctr) : State :=
  let others := s.allows.filter fun (e : (Nat × Nat) × Allow) => e.1.2 ≠ a
  let s1 : State := { s with allows := others ++ c.allow.map fun (e : Nat × Allow) => ((e.1, a), e.2) }
  ((s1.putBytes (lineOf (.dev a)) (ctrBytes a 0 c.remain)).putBytes (lineOf (.dev a)) (ctrBytes a 16 c.out)).touched
    (lineOf (.dev a))

/-- A roll call of a counter line (R195, R197). -/
def State.rollAt (s : State) (a : Nat) : State := s.setCtr a (s.ctrAt a).roll

/-- A cluster's least recently used allowance returns to its home (R200). (DEDUCED, log 62.) -/
def State.returnOldest (s : State) (cl : Nat) : State :=
  match (s.allows.filter fun e => e.1.1 = cl).foldl (fun (b : Option ((Nat × Nat) × Allow)) e =>
      match b with
      | some x => if e.2.used < x.2.used then some e else some x
      | none => some e) none with
  | none => s
  | some e =>
    let c := s.ctrAt e.1.2
    let back := ((c.allow.filter fun x => x.1 = cl).map (·.2.amount)).sum
    s.setCtr e.1.2 { c with remain := c.remain + back, allow := c.allow.filter fun x => x.1 ≠ cl }

/-- A cluster cache holds allowances of up to 256 counters (R200). (DEDUCED, log 62.) -/
def State.roomForAllow (s : State) (cl a : Nat) : State :=
  if (aget s.allows (cl, a)).isSome || (s.allows.filter fun e => e.1.1 = cl).length < 256 then s else s.returnOldest cl

/-- A holder that has changed its allowance reports it within 8 µs (R201). -/
def State.owesReport (s : State) (cl a : Nat) : State :=
  if s.events.any (· = .holderReport cl a) then s else s.post (.holderReport cl a)

/-! ### The reserve of a pool (R279 to R283) -/

/-- The hub die as a holder (R306, R324). -/
def hubCluster : Nat := 128

def Pool.ctr (p : Pool) : Ctr := ⟨p.remain, 0, 0, p.allow⟩
def Pool.setCtr (p : Pool) (c : Ctr) : Pool := { p with remain := c.remain, allow := c.allow }
/-- The reserve: G − committed − reserved, as the counter's total (R279). -/
def Pool.reserve (p : Pool) : Nat := p.ctr.total

def State.pool? (s : State) (k : Nat) : Option Pool := aget s.pools k
def State.setPool (s : State) (k : Nat) (p : Pool) : State := { s with pools := amod s.pools k fun _ => p }
def poolKey (part : Nat) (pool : BitVec 8) : Nat := part * 256 + pool.toNat

/-- The published figure is behind: it is published within 8 µs (R41, R203). -/
def State.owesPublish (s : State) (k : Nat) : State :=
  match s.pool? k with
  | some p => if p.published = p.reserve then s else
      (s.setPool k { p with stale := some (p.stale.getD s.bell) }).postOnce (.reservePublish (k / 256) (k % 256))
  | none => s

/-- CAPWAIT of the control block, in ticks, as read when a wait begins (R283, Table 12.4). -/
def State.capwait (s : State) (p : Pool) : Nat :=
  let x := (loHalf (s.word64 (p.ctrl + 0x38))).toNat
  (if x = 0 then 50 else min x 1000000) * 1000

/-- The wait of the request at the head of a pool's queue begins: CAPWAIT is read and the head core is told (R283). -/
def State.startHead (s : State) (k : Nat) : State :=
  match s.pool? k with
  | none => s
  | some p =>
    match p.queue with
    | ⟨who, cl, n, .none⟩ :: rest =>
      let w : WaitCharge := ⟨who, cl, n, some (s.bell + BitVec.ofNat 64 (s.capwait p))⟩
      ((s.setPool k { p with queue := w :: rest }).post (.capwaitExpiry (k / 256) (k % 256))).report
        (.capacityWait (k / 256) (k % 256))
    | _ => s

/-- A request is a LOWER: decided when its turn comes, whatever the reserve holds (R287). -/
def Waiter.isCommand : Waiter → Bool
  | .command .. => true
  | _ => false

/-- The requests at the head of a pool's queue that can be decided, in their order, each with its roll call (R283, R287): a
charge once the reserve holds it, a LOWER at once. At most n. -/
def Pool.serve (used : Nat) : Nat → Pool → Pool
  | 0, p => p
  | n + 1, p =>
    match p.queue with
    | [] => p
    | w :: rest =>
      if w.who.isCommand then
        Pool.serve used n (match p.ctr.takeHome w.amount with
          | some c => { p.setCtr c with
              granted := p.granted - w.amount, queue := rest, decided := p.decided ++ [(w, true)] }
          | none => { p.setCtr p.ctr.roll with
              queue := rest, decided := p.decided ++ [({ w with amount := p.reserve }, false)] })
      else
        let t := p.ctr.take w.cl w.amount used
        if t.1 then Pool.serve used n { p.setCtr t.2 with queue := rest, decided := p.decided ++ [(w, true)] }
        else p.setCtr t.2

/-- A pool's queue is looked at again, since the reserve or its head has changed (R283). -/
def State.serveQueue (s : State) (k : Nat) : State :=
  match s.pool? k with
  | some p => (((if p.queue = [] then s else s.setPool k (p.serve s.free p.queue.length)).startHead k)).owesPublish k
  | none => s

/-- Give sectors back to a cluster's allowance (R281: as CGIVE). -/
def State.refund (s : State) (k cl n : Nat) : State :=
  match s.pool? k with
  | some p => if n = 0 then s else (s.setPool k (p.setCtr (p.ctr.give cl n s.free))).serveQueue k
  | none => s

/-- Sectors that return to the home itself (a settlement, a release). -/
def State.release (s : State) (k n : Nat) : State :=
  match s.pool? k with
  | some p => if n = 0 then s else (s.setPool k { p with remain := p.remain + n }).serveQueue k
  | none => s

/-- A request that has been decided is taken up. -/
def Pool.takeUp (p : Pool) (who : Waiter) : Pool := { p with decided := p.decided.filter fun d => d.1.who ≠ who }

/-- Outcomes of a charge (R283). -/
inductive Charge where
  | done (s : State)
  | waits (s : State)

/-- Whether a party's request has been met; then it is taken up. -/
def State.met (s : State) (k : Nat) (who : Waiter) : Option State :=
  (s.pool? k).bind fun p => if p.decided.any fun d => d.1.who = who && d.2 then some (s.setPool k (p.takeUp who)) else none

/-- A charge of a pool by a cluster for a party (R281, R283): met from the allowance, or queued as a CTAKE with roll call behind
the requests that wait. -/
def State.charge (s : State) (k cl n : Nat) (who : Waiter) : Charge :=
  match s.pool? k with
  | none => .done s
  | some p =>
    match s.met k who with
    | some s1 => .done s1
    | none =>
      if p.queue.any fun w => w.who = who then .waits s
      else if n ≤ p.ctr.held cl then .done ((s.setPool k (p.setCtr (p.ctr.take cl n s.free).2)).owesPublish k)
      else
        let s1 := (s.setPool k { p with queue := p.queue ++ [⟨who, cl, n, none⟩] }).serveQueue k
        match s1.met k who with
        | some s2 => .done s2
        | none => .waits s1

/-- Parties give up their places in a pool's queue; what they were granted and have not taken up goes back. -/
def State.unqueueIf (s : State) (k : Nat) (who : Waiter → Bool) : State :=
  match s.pool? k with
  | none => s
  | some p =>
    let mine := p.decided.filter fun d => who d.1.who
    if mine = [] && !(p.queue.any fun w => who w.who) then s else
      let c := (mine.filter (·.2)).foldl (fun c d => c.give d.1.cl d.1.amount s.free) p.ctr
      (s.setPool k { p.setCtr c with
        queue := p.queue.filter fun w => !who w.who
        decided := p.decided.filter fun d => !who d.1.who }).serveQueue k

/-- A party gives up its places in every pool's queue. -/
def State.unqueueAll (s : State) (who : Waiter) : State :=
  (s.pools.map (·.1)).foldl (fun s k => s.unqueueIf k fun w => w = who) s

end Sys2Proof.Machine
end

