-- ==== Sys2Proof/Machine/Lines.lean ====
section
/-! DEFINITION. Lines at their homes and in caches: HomeRead and HomeWrite (R262), arrival and settlement (R281),
ownership (R221, R264), poison (R408), copies with leases (R248 to R251), access counts (R257). -/

namespace Sys2Proof.Machine

/-- KIND and pool of a line's frame. -/
def State.frameOf (s : State) (line : Loc) : Option FrameInfo :=
  match line with
  | .dev a => aget s.frames (a / 65536)
  | _ => none

def State.kindOf (s : State) (line : Loc) : BitVec 2 := ((s.frameOf line).map (·.kind)).getD 0
def State.poolOf (s : State) (line : Loc) : Option Nat :=
  (s.frameOf line).bind fun f => f.pool.map fun p => p.1 * 256 + p.2

/-- Committed size of a block (R281): as the last writeback left it while dirty, else of its bytes; 4 when
poisoned (R408). -/
def State.committedOf (s : State) (line : Loc) : Nat :=
  let h := s.home line
  if h.dirty.isSome then h.committed else if h.poison then 4
  else blockSectors (s.kindOf line) (s.homeBytes line 256)

/-- Sidecar code of a block (R276): as the last writeback left it while dirty. -/
def State.codeOf (s : State) (line : Loc) : Nat :=
  let h := s.home line
  if h.dirty.isSome then h.code else if h.poison then 5
  else formCode (blockForm (s.kindOf line) (s.homeBytes line 256))

/-! ### LPDDR6 in use (R278) -/

/-- LPDDR6, and the margin of 3 percent that no pool is granted, in sectors. -/
def lpddr6Sectors : Nat := 25769803776
def lpddr6Margin : Nat := 773094113

/-- Sectors of a frame of a TIER come into use. -/
def State.useSectors (s : State) (tier : BitVec 2) (n : Nat) : State := if tier = 0 then { s with used0 := s.used0 + n } else s

/-- Sectors are freed: dies that found none free have some again. -/
def State.freeSectors (s : State) (tier : BitVec 2) (n : Nat) : State :=
  if tier = 0 && n ≠ 0 then { s with used0 := s.used0 - n, starved := [] } else s

/-- The TIER of a line of a KIND 1 or 2 page of LPDDR6 whose die has found no free sector: writes to it wait at its home. -/
def State.starves (s : State) (line : Loc) : Bool :=
  if s.starved = [] then false else
    match line, s.frameOf line with
    | .dev a, some f => f.tier = 0 && f.kind ≠ 0 && s.starved.contains (a / 65536 % 4)
    | _, _ => false

/-! ### Access counts (R257) -/

/-- The 4 KiB page of a TIER 2 mapping that a translated host address belongs to; where its translation is gone, its own.
(DESIGN CHOICE, log 68.) -/
def State.hostPage (s : State) (a : Nat) : Nat :=
  ((s.atc.find? fun e => e.trans = a / 4096).map (·.page)).getD (a / 4096)

/-- The page group of a line: 32 frames of TIER 0 or 1, or 2 MiB of a TIER 2 or TIER 3 mapping. -/
def State.groupKey (s : State) (line : Loc) : Nat :=
  match line with
  | .dev a => a / 2097152 * 4
  | .host a => s.hostPage a / 512 * 4 + 1
  | .peer p a => (p * 2 ^ 40 + a / 2097152) * 4 + 2

/-- One request counted for its group (R257). A group with frames of both TIER 0 and 1 has the TIER of the line counted
last. (DESIGN CHOICE, log 68.) -/
def State.count (s : State) (line : Loc) : State :=
  let k := s.groupKey line
  let tier : BitVec 2 := match line with
    | .dev a => ((aget s.frames (a / 65536)).map (·.tier)).getD 0
    | .host _ => 2
    | .peer _ _ => 3
  let g := (aget s.groups k).getD ⟨tier, 0, 0, 16⟩
  { s with groups := aset s.groups k { g with tier := tier, count := min (g.count + 1) 65535 } }

/-! ### HomeRead and HomeWrite (R262) -/

/-- Whether the home makes a party wait: an engine owns the line, other than the command named (R221, R222). -/
def State.engineHolds (s : State) (line : Loc) (cmd : Option Nat) : Bool :=
  (s.home line).engine.any fun e => cmd ≠ some e

/-- Whether the line's page is marked moving: writes wait at the home, reads go on (R289). -/
def State.moving (s : State) (line : Loc) : Bool :=
  s.moves.any fun m => m.marked && (
    let p := decodePte m.old
    match line with
    | .dev a => p.tier.toNat < 2 && p.frame.toNat * 65536 ≤ a && a < p.frame.toNat * 65536 + pageBytes p.size
    | .peer q a => p.tier = 3 && q = p.frame.toNat / 2 ^ 36 && p.frame.toNat % 2 ^ 36 * 65536 ≤ a &&
        a < p.frame.toNat % 2 ^ 36 * 65536 + pageBytes p.size
    | .host a => p.tier = 2 && (match aget s.spaces m.req.asn with
        | some sp => s.atc.any fun e => e.trans = a / 4096 && e.fn = sp.part && e.pasid = sp.pasid &&
            p.frame.toNat * 16 ≤ e.page && e.page < p.frame.toNat * 16 + pageBytes p.size / 4096
        | none => false))

/-- An access from outside the owning cluster recalls the ownership; the bytes stand at the home (R264), which counts
the line as written then. (DESIGN CHOICE, log 69.) -/
def State.recall (s : State) (line : Loc) (cluster : Option Nat) : State :=
  match (s.home line).cluster with
  | some c => if cluster = some c.1 then s else s.setHome line { s.home line with cluster := none, lastwrite := some s.bell }
  | none => s

/-- Whether a cluster owns a line (R264). -/
def State.owns (s : State) (line : Loc) (cluster : Nat) : Bool := (s.home line).cluster.any fun c => c.1 = cluster

/-- The lease a home grants (R262; 256 ticks always at the host agent, R305). -/
def State.leaseFor (s : State) (line : Loc) : Nat :=
  match line with
  | .dev _ => match (s.home line).lastwrite with
    | some t => if s.bell.toNat - t.toNat < 65536 then 256 else 4096
    | none => 4096
  | _ => 256

/-- Grant a lease to a cluster cache: lease end, and the home with it in leasemax. -/
def State.grant (s : State) (line : Loc) : Word × State :=
  let e := s.bell + BitVec.ofNat 64 (s.leaseFor line)
  let h := s.home line
  (e, s.setHome line { h with leasemax := maxWord [h.leasemax, e] })

/-- Counters whose own 64 bytes a write touches (R195). -/
def State.countersIn (s : State) (line : Loc) (bs : List (Nat × Byte)) : List Nat :=
  match line with
  | .dev a => ((s.allows.map (·.1.2)).eraseDups).filter fun c =>
      a ≤ c && c < a + 256 && bs.any fun e => c ≤ a + e.1 && a + e.1 < c + 64
  | _ => []

/-- Write a completion time: max(bell, leasemax) (R262). (DEDUCED, log 36.) -/
def State.twOf (s : State) (line : Loc) : Word := maxWord [s.bell, (s.home line).leasemax]

/-- A write that reaches a pool's RELIEF word asks the head core for relief (R285, Table 12.4); one that reaches its LOWMARK may
make a publish due (R41). -/
def State.askRelief (s : State) (line : Loc) (bs : List (Nat × Byte)) : State :=
  match line with
  | .dev a => s.pools.foldl (fun s e =>
      let hits := fun (w : Nat) => a ≤ w && w < a + 256 && bs.any (fun b => w ≤ a + b.1 && a + b.1 < w + 8)
      let s1 := if hits (e.2.ctrl + 0x40) then s.post (.reliefGrant (e.1 / 256) (e.1 % 256)) else s
      if hits (e.2.ctrl + 0x30) then s1.postOnce (.reservePublish (e.1 / 256) (e.1 % 256)) else s1) s
  | _ => s

/-- HomeWrite (R262): counters named are rolled first (R195); a poisoned line takes only a write of all 256 bytes
(R408). -/
def State.homeWrite (s : State) (line : Loc) (bs : List (Nat × Byte)) : Word × State :=
  let s1 := (s.countersIn line bs).foldl State.rollAt s
  let h := s1.home line
  let whole := decide (256 ≤ (bs.map (·.1)).eraseDups.length)
  let s2 := if h.poison && !whole then s1 else (s1.putBytes line bs).askRelief line bs
  let s3 := s2.setHome line { s2.home line with lastwrite := some s.bell, poison := h.poison && !whole }
  (s3.twOf line, s3)

/-- Arrive (R281): a charged write reaches the home of a KIND 1 or 2 line, for a cluster that is refunded. It is
applied before the bytes are. -/
def State.arriveAt (s : State) (line : Loc) (cluster : Nat) (charged : Bool) : State :=
  match s.poolOf line with
  | none => s
  | some k =>
    if s.kindOf line = 0 then s else
      let h := s.home line
      let back := fun (s : State) n => if charged then s.refund k cluster n else s
      if h.dirty.isSome then back s 4
      else
        let c := s.committedOf line
        let s1 := s.setHome line { h with dirty := some (4 - c), committed := c, code := s.codeOf line }
        back (match line with
          | .dev a => s1.post (.settle a)
          | _ => s1) c

/-- Settle (R281): the writeback of a dirty line. One of LPDDR6 that finds no free sector leaves its line dirty, and its die
starved (R278). (DESIGN CHOICE, log 35.) -/
def State.settleLine (s : State) (line : Loc) : State :=
  let s0 := s.recall line none
  let h := s0.home line
  if h.dirty.isNone then s0 else
    let n := if h.poison then 4 else blockSectors (s0.kindOf line) (s0.homeBytes line 256)
    let tier := ((s0.frameOf line).map (·.tier)).getD 0
    let die := match line with
      | .dev a => a / 65536 % 4
      | _ => 0
    if tier = 0 && decide (h.committed < n) && decide (lpddr6Sectors < s0.used0 + (n - h.committed)) then
      { s0 with starved := if s0.starved.contains die then s0.starved else s0.starved ++ [die] }
    else
    let s1 := ((s0.setHome line { h with dirty := none, committed := n }).useSectors tier (n - h.committed)).freeSectors tier
      (h.committed - n)
    match s0.poolOf line with
    | none => s1
    | some k =>
      match s1.pool? k with
      | none => s1
      | some p => (s1.setPool k { p with committed := p.committed + n - h.committed }).release k (4 - n)

/-! ### Copies (R248 to R251) -/

/-- Which sectors an access of n bytes at an offset touches (R246). -/
def sectorMask (off n : Nat) : BitVec 4 :=
  [0, 1, 2, 3].foldl (fun (m : BitVec 4) k => if off < 64 * k + 64 ∧ 64 * k < off + n then m ||| (1#4 <<< k) else m) 0#4

/-- Whether a copy serves a load (R248). -/
def Copy.serves (c : Copy) (bell floor : Word) (m : BitVec 4) : Bool :=
  c.valid &&& m = m && decide (bell.toNat < c.leaseEnd.toNat) && decide (floor.toNat ≤ c.fetch.toNat)

def Copy.put (c : Copy) (bs : List (Nat × Byte)) : Copy :=
  { c with bytes := bs.foldl (fun l e => l.set e.1 e.2) c.bytes }

/-- L1 capacity in lines (R248, R254): 64 KiB and 16 KiB for each unit that no bed of the core has claimed. -/
def State.l1Lines (s : State) (core : Nat) : Nat :=
  let used := (s.beds.map fun e => if e.2.core = core && e.2.status ≠ .lifted then e.2.units else 0).sum
  (65536 + 16384 * (48 - used)) / 256

/-- Replacement (R248): a core's L1 that is full gives up one of its lines, whichever. (DEDUCED, log 54.) -/
def State.evictL1 (s : State) (core : Nat) : State :=
  let mine := s.l1.filter fun e => e.1.1 = core
  if mine.length < s.l1Lines core then s else
    match mine[Config.pick s.free % mine.length]? with
    | some e => { s with l1 := adel s.l1 e.1 }
    | none => s

/-- A cluster cache holds 2 MiB (R251). The leases it granted from a line it drops are still known (R190).
(DEDUCED, log 54.) -/
def State.evictCluster (s : State) (cl : Nat) : State :=
  let mine := s.cluster.filter fun e => e.1.1 = cl && e.2.valid ≠ 0
  if mine.length < 8192 then s else
    match mine[Config.pick s.free % mine.length]? with
    | some e => { s with cluster := amod s.cluster e.1 fun c => { c with valid := 0 } }
    | none => s

/-- L1 takes the sectors asked for from the cluster cache (R250); those it holds of the same copy stay valid (R265). The
cluster remembers the largest lease it granted. -/
def State.fillL1 (s : State) (core : Nat) (line : Loc) (c : Copy) (m : BitVec 4) : State :=
  let e := if s.bell.toNat + 512 < c.leaseEnd.toNat then s.bell + 512 else c.leaseEnd
  let same := ((aget s.l1 (core, line)).filter fun o => o.fetch = c.fetch).map (·.valid)
  let s1 := s.evictL1 core
  { s1 with l1 := aset s1.l1 (core, line) { c with leaseEnd := e, valid := c.valid &&& (m ||| same.getD 0) }
            cluster := amod s1.cluster (clusterOf core, line) fun c => { c with granted := maxWord [c.granted, e] } }

/-- Bytes stored by the cores of a cluster that are still on their way to a line's home (R249). -/
def State.inFlight (s : State) (cluster : Nat) (line : Loc) : List (Nat × Byte) := (s.storesOnWay cluster line).flatten

/-- Install in the cluster cache the sectors of a line the home has served, keeping bytes the cluster has accepted meanwhile.
Sectors it holds stay valid where the line has not been written since they were fetched, which renews them (R251). -/
def State.fillCluster (s : State) (cl : Nat) (line : Loc) (e : Word) (m : BitVec 4) : State :=
  let old := aget s.cluster (cl, line)
  let kept := (old.filter fun c => ((s.home line).lastwrite.map fun t => decide (t.toNat ≤ c.fetch.toNat)).getD true).map
    (·.valid)
  let c : Copy := ⟨s.homeBytes line 256, m ||| kept.getD 0, e, s.bell, (old.map (·.granted)).getD 0⟩
  let s1 := if (old.map fun c => decide (c.valid ≠ 0)).getD false then s else s.evictCluster cl
  { s1 with cluster := aset s1.cluster (cl, line) (c.put (s.inFlight cl line)) }

/-- A store by a core updates its L1's copy, keeping its lease, and is accepted by its cluster cache (R170, R249).
(DEDUCED, log 60.) -/
def State.storeCopies (s : State) (core : Nat) (line : Loc) (bs : List (Nat × Byte)) : State :=
  { s with l1 := amod s.l1 (core, line) fun c => c.put bs
           cluster := amod s.cluster (clusterOf core, line) fun c => c.put bs }

/-- The copy in a core's L1 that serves a load of some sectors at a freshness floor (R248). -/
def State.l1Serves (s : State) (core : Nat) (line : Loc) (floor : Word) (m : BitVec 4) : Option Copy :=
  (aget s.l1 (core, line)).filter fun c => c.serves s.bell floor m

/-- The copy in a core's cluster cache that serves an L1 miss (R251). -/
def State.clusterServes (s : State) (core : Nat) (line : Loc) (floor : Word) (m : BitVec 4) : Option Copy :=
  (aget s.cluster (clusterOf core, line)).filter fun c => c.serves s.bell floor m

/-- Fibres that read a line which a store of their cluster has reached and its home has not remember it (R192). -/
def State.sawLine (s : State) (u : Nat) (m : Mask) (cluster : Nat) (line : Loc) : State :=
  if (s.storesOnWay cluster line).isEmpty then s
  else s.modSheaf u fun sh => sh.modFibs m fun _ f => if f.seen.contains line then f else { f with seen := f.seen ++ [line] }

/-- The value of n little-endian bytes at an offset of a line. -/
def lineValue (bytes : List Byte) (off n : Nat) : BitVec 128 := BitVec.ofNat 128 (bytesToNat ((bytes.drop off).take n))

end Sys2Proof.Machine
end

