-- ==== Sys2Proof/Machine/Access.lean ====
section
/-! DEFINITION. The shared parts of the memory instructions: lane addresses (R66), alignment (R164), translation and
charging holds (R165, R167, R284), watch ranges (R419), bandwidth tokens (R340, R341), and the scratchpad (R174 to
R177). -/

namespace Sys2Proof.Machine

/-- Bytes and INFO code of a WIDTH (R164). -/
def widthBytes (w : Width) : Nat :=
  match w with
  | .b8 => 1
  | .h16 => 2
  | .w32 => 4
  | .d64 => 8
  | .q128 => 16

/-- INFO[2:0] of MISALIGNED by access size (R164). -/
def sizeCode (n : Nat) : W32 := BitVec.ofNat 32 (Nat.log2 n)

/-- The lane address of form LM (R66). -/
def Sheaf.laneAddr (sh : Sheaf) (a : LmAddr) (l : Fin 32) : Word :=
  (match a.base with
    | .sum sb => sh.readS sb + sext64 (sh.readLane a.a.reg l)
    | .pair => sh.readPair a.a.reg l) + a.off.signExtend 64

def lmSrc (a : LmAddr) : VOp :=
  match a.base with
  | .sum _ => vop a.a 1 0
  | .pair => vop a.a 2 0

def lmSregs (a : LmAddr) : List (BitVec 6) :=
  match a.base with
  | .sum sb => [sb]
  | .pair => []

/-- MISALIGNED faults of a mask (R164, R343 check 3). -/
def misaligned (m : Mask) (va : Fin 32 → Word) (n : Nat) : List LaneFault :=
  (lanesIn m).filterMap fun l =>
    if (va l).toNat % n = 0 then none else some ⟨l, 0x02, va l, sizeCode n, false⟩

/-- The end of a lane instruction that acts for `act` and traps `fs` (as `laneStep`, for instructions that find more
faults than EMPTY). -/
def State.laneFinish (s : State) (old : Sheaf) (i : LaneIns) (fs : List LaneFault) (act : Mask)
    (eff : Sheaf → Sheaf) : State :=
  let m := old.issuing &&& ~~~faultMask fs
  let s1 := if act = 0 then s else s.roomFor i.dests
  let sh1 := (s1.shf.takeTimes i.sregs m).killAll i.srcs m
  (s1.setShf (((eff sh1).freeSrcs i.srcs).advance m)).trapLanes old fs

/-- A lane instruction that may be held, up to the point where it has read its registers: `k` receives the sheaf at issue,
the faults so far and the lanes that go on. -/
def State.issueStep (s : State) (i : LaneIns) (k : State → Sheaf → List LaneFault → Mask → State) : State :=
  let sh := s.shf.seen
  if sh.issuing = 0 then s else
    match sh.laneReady (i.left sh) with
    | .guardEmpty c => s.await 0x01 2 (c.setWidth 8)
    | .waits fs _ w => if fs = [] then (s.await w.1 w.2.1 w.2.2).askRefill i.names else s.trapLanes sh fs
    | .go fs act => k (s.setShf s.shf.snapped) sh fs act

/-- One that reaches memory, up to the point where its lanes are past their fences (R190) and known to be aligned. -/
def State.memStep (s : State) (i : LaneIns) (va : Sheaf → Fin 32 → Word) (n : Nat)
    (k : State → Sheaf → List LaneFault → Mask → State) : State :=
  s.issueStep i fun s sh fs act =>
    let mis := misaligned act (va sh) n
    s.pastFences act fun s => k s sh (fs ++ mis) (act &&& ~~~faultMask mis)

def State.asnOf (s : State) (sh : Sheaf) : Nat := ((s.launch? sh.launch).map (·.asn)).getD 0
def State.headerOf (s : State) (sh : Sheaf) : Option Header := (s.launch? sh.launch).map (·.hdr)

/-! ### Watch ranges (R419, R420) -/

def watchBit (k : AccKind) : Nat :=
  match k with
  | .load => 0
  | .store => 1
  | .atomic => 2
  | .engine => 3
  | _ => 4

/-- The ranges of a die that an access hits (R419). (DEDUCED, log 52.) -/
def State.watchesFor (s : State) (die asn : Nat) (va : Word) (n : Nat) (k : AccKind) : List Nat :=
  (s.watches.filter fun e => e.1.1 = die && e.2.en && e.2.asn = asn && e.2.sel.getLsbD (watchBit k) &&
    decide (va.toNat ≤ e.2.limit.toNat ∧ e.2.base.toNat < va.toNat + n)).map (·.1.2)

/-- Hits of the lanes of a held batch that have not been decided (R420). -/
def State.laneHits (s : State) (u : Nat) (sh : Sheaf) (m : Mask) (va : Fin 32 → Word) (n : Nat) (k : AccKind)
    (data : Fin 32 → List Byte) : List WatchHit :=
  if s.watches = [] then [] else
  (lanesIn m).flatMap fun l =>
    ((s.watchesFor (dieOf sh.core) (s.asnOf sh) (va l) n k).filter fun r => !sh.hold.watched.contains (l.val, r)).map fun r =>
      ⟨dieOf sh.core, r, u, some l.val, none, sh.batchPc, va l, k, data l⟩

/-- Whether the debug core has the record of a hit. -/
def State.knowsHit (s : State) (h : WatchHit) : Bool := s.hits.any fun r => r.hit = h

/-- The debug core is given the hits once (R420). -/
def State.raiseHits (s : State) (hs : List WatchHit) : State :=
  hs.foldl (fun s h => if s.knowsHit h || s.events.any (· = .watchHit h) then s else s.post (.watchHit h)) s

/-! ### Bandwidth tokens (R340, R341) -/

def State.budgetKey (s : State) (sh : Sheaf) : Option (Nat × Nat) :=
  (s.launch? sh.launch).map fun la => (poolKey la.part la.hdr.pool, dieOf sh.core)

/-- A budget as the allowance counter it is held as, its holders the cores' ports (R340). -/
def Budget.ctr (b : Budget) : Ctr := ⟨b.tokens, 0, 0, b.ports.map fun e => (e.1, ⟨e.2, 0, 0, 0⟩)⟩

/-- A port takes one token, from its allowance or by a refill with roll call (R197). -/
def Budget.take (b : Budget) (core : Nat) : Option Budget :=
  let r := b.ctr.take core 1 0
  if r.1 then some { b with tokens := r.2.remain, ports := r.2.allow.map fun e => (e.1, e.2.amount) } else none

/-- Whether a pool's requests take tokens at all (R340). -/
def State.metered (s : State) (key : Option (Nat × Nat)) : Bool := ((key.bind (aget s.budgets)).map fun b => decide (b.base ≠ 0)).getD false

/-- Whether a request still waits at its port. -/
def State.portAlive (s : State) (w : PortWait) : Bool :=
  match w with
  | .batch u t => ((s.sheaf? u).map fun sh => (sh.hold.waiting && sh.hold.ticket = t) ||
      sh.aside.any fun a => a.hold.ticket = t).getD false
  | .op u k => ((s.sheaf? u).map fun sh => (aget sh.ops k).isSome || (aget sh.prfs k).isSome).getD false
  | .cmd id => (s.seatOf id).isSome

/-- Whether the request is the first of those that wait at its port (R341). -/
def State.portFirst (s : State) (b : Budget) (core : Nat) (who : PortWait) : Bool :=
  match b.queue.find? fun e => e.1 = core && s.portAlive e.2 with
  | some e => e.2 = who
  | none => true

/-- A request of a core is sent with a token of its pool; without one, as a debt, where it is its sheaf's only operation; an
unmetered pool takes none (R340, R341). (DEDUCED, log 26.) -/
def State.getToken (s : State) (key : Option (Nat × Nat)) (core : Nat) (who : PortWait) (only : Bool) : Option State :=
  if !s.metered key then some s else
  match key.bind fun k => (aget s.budgets k).map fun b => (k, b) with
  | none => some s
  | some (k, b) =>
      let put := fun b : Budget => some { s with budgets := aset s.budgets k { b with queue := b.queue.filter fun e => e.2 ≠ who } }
      match (if s.portFirst b core who then b.take core else none) with
      | some b' => put b'
      | none => if only then put { b with debt := b.debt + 1 } else none

/-- A request waits at its port behind those that came before (R341). -/
def State.waitToken (s : State) (key : Option (Nat × Nat)) (core : Nat) (who : PortWait) : State :=
  match key with
  | none => s
  | some k => { s with budgets := amod s.budgets k fun b =>
      let alive := b.queue.filter fun e => s.portAlive e.2
      { b with waited := true, queue := if alive.any (·.2 = who) then alive else alive ++ [(core, who)] } }

/-! ### Writes: translation and charge (R165, R167, R284) -/

/-- A lane whose address has been checked. -/
structure WLane where
  lane : Fin 32
  va : Word
  loc : Loc
  pte : Pte
  entry : Nat
  deriving DecidableEq, Repr

/-- The lanes of a mask after R295: those that are translated, those that fault, those that wait. -/
def State.resolve (s : State) (sh : Sheaf) (m : Mask) (va : Fin 32 → Word) (a : Acc) :
    List WLane × List LaneFault × List (Word × Checked) :=
  (lanesIn m).foldr (fun l r =>
    match s.check (clusterOf sh.core) (s.asnOf sh) (s.headerOf sh) (va l) a with
    | .at_ loc p e => (⟨l, va l, loc, p, e⟩ :: r.1, r.2.1, r.2.2)
    | .fault c lg => (r.1, ⟨l, c, va l, accInfo a, lg⟩ :: r.2.1, r.2.2)
    | w => (r.1, r.2.1, (va l, w) :: r.2.2)) ([], [], [])

/-- Lines of some lanes in ascending order of the lowest lane that touches each (R284). -/
def linesOf (ws : List WLane) : List Loc := (ws.map fun w => lineOf w.loc).eraseDups

/-- The end of a run of charges: all met, one waits, or one failed (R284). -/
inductive ChargeEnd where
  | all (s : State)
  | waits (s : State)
  | failed (s : State) (line : Loc) (pool : Nat)

/-- Whether a line is charged when written: a KIND 1 or 2 page (R167). -/
def State.chargePool (s : State) (line : Loc) : Option Nat := if s.kindOf line = 0 then none else s.poolOf line

/-- The place of the issuing batch in pools' queues: a fresh one where it has none. -/
def State.ticketFor (s : State) (u : Nat) : State × Nat :=
  match s.sheaf? u with
  | none => (s, 0)
  | some sh =>
    if sh.hold.ticket ≠ 0 then (s, sh.hold.ticket) else
      let (k, s1) := s.fresh
      (s1.modSheaf u fun sh => { sh with hold := { sh.hold with ticket := k } }, k)

/-- Tokens for the line requests of a held batch, one for each (R340): the batch goes on when it has n. -/
def State.takeTokens (s : State) (u : Nat) (sh : Sheaf) : Nat → Option State × State
  | 0 => (some s, s)
  | n + 1 =>
    if !s.metered (s.budgetKey sh) then (some s, s) else
    let (s0, t) := s.ticketFor u
    match s0.getToken (s0.budgetKey sh) sh.core (.batch u t) (decide (sh.ops = [])) with
    | some s1 => State.takeTokens (s1.modSheaf u fun x => { x with hold := { x.hold with tokens := x.hold.tokens + 1 } }) u sh n
    | none => (none, s0.waitToken (s0.budgetKey sh) sh.core (.batch u t))

/-- Charge the lines of a held batch one at a time (R284). A line of a peer is charged there: the peer is asked, and its
answer awaited (R310). -/
def State.chargeLines (s : State) (u core : Nat) : List Loc → ChargeEnd
  | [] => .all s
  | line :: rest =>
    let hold := ((s.sheaf? u).map (·.hold)).getD Hold.none
    if hold.charged.any fun e => e.1 = line then State.chargeLines s u core rest
    else
      match s.chargePool line with
      | none => State.chargeLines s u core rest
      | some k =>
        if hold.chargeFailed then
          .failed (s.modSheaf u fun sh => { sh with hold := { sh.hold with chargeFailed := false } }) line k
        else
          let (s0, ticket) := s.ticketFor u
          match s0.charge k (clusterOf core) 4 (.sheaf u ticket) with
          | .waits s' => .waits s'
          | .done s' => State.chargeLines (s'.modSheaf u fun sh =>
              { sh with hold := { sh.hold with charged := sh.hold.charged ++ [(line, k)] } }) u core rest

/-- What a held write comes to. -/
inductive Held where
  | waits (s : State)
  | go (s : State) (ok : List WLane) (fs : List LaneFault)

/-- The virtual address of the line of a lane's access. -/
def vaLine (va : Word) : Word := va &&& ~~~255#64

/-- Lanes of a held batch that are to trap on a watch range (R421). -/
def Sheaf.watchFaults (sh : Sheaf) (m : Mask) : List LaneFault := sh.hold.faults.filter fun f => f.cause = 0x0D && hasLane m f.lane

/-- Lanes of a load that its walk has not sent out yet. -/
def OpRec.unsent (o : OpRec) : Mask :=
  match o.kind with
  | .load .. | .sload _ => o.due &&& ~~~o.sent &&& ~~~o.faulted &&& ~~~o.gone
  | _ => 0

/-- Whether an earlier load of a lane's fibre, not sent out yet, is of the line of the lane's access (R261). -/
def State.behindLoad (s : State) (sh : Sheaf) (ops : List (Nat × OpRec)) (w : WLane) : Bool :=
  ops.any fun o => hasLane o.2.unsent w.lane && (vaLine o.2.addrs[w.lane] = vaLine w.va ||
    match s.check (clusterOf sh.core) (s.asnOf sh) (s.headerOf sh) o.2.addrs[w.lane] .load with
    | .at_ l _ _ => lineOf l = lineOf w.loc
    | _ => false)

/-- A write waits until the loads that its fibres made before it of the same lines have been sent out (R261). -/
def State.loadAhead (s : State) (sh : Sheaf) (ws : List WLane) : Bool := ws.any fun w => s.behindLoad sh sh.ops w

/-- The hold of R167: every lane translated, hits decided, a token taken for each of its requests (`unit`), lines charged
when `charged`; lanes that fail trap, the others go on. -/
def State.holdWrite (s : State) (sh : Sheaf) (m0 : Mask) (va : Fin 32 → Word) (a : Acc) (n : Nat) (kind : AccKind)
    (charged : Bool) (unit : Loc → Loc) (data : Fin 32 → List Byte) : Held :=
  let wf := sh.watchFaults m0
  let m := m0 &&& ~~~faultMask sh.hold.faults
  let (ok, fs1, ws) := s.resolve sh m va a
  let fs := wf ++ fs1
  let cl := clusterOf sh.core
  if ws ≠ [] then
    .waits ((ws.foldl (fun s w => s.askFor cl (s.asnOf sh) w.1 (s.cur, none) w.2) s).await 0x03 0 0)
  else
    let hits := s.laneHits s.cur sh (maskOf fun l => ok.any fun w => w.lane = l) va n kind data
    if hits ≠ [] then .waits ((s.raiseHits hits).await 0x03 0 0)
    else if s.loadAhead sh ok then .waits (s.await 0x03 0 0)
    else match s.takeTokens s.cur sh (((ok.map fun w => unit w.loc).eraseDups).length - s.shf.hold.tokens) with
    | (none, s') => .waits (s'.await 0x07 0 0)
    | (some s, _) =>
      let s1 := ok.foldl (fun s w => s.noteTlb cl (s.asnOf sh) w.va w.pte w.entry) s
      let s2 := fs1.foldl (fun s f => s.spend (s.asnOf sh) f.addr (s.cur, none)) s1
      if !charged then .go s2 ok fs
      else
        match s2.chargeLines s.cur sh.core (linesOf ok) with
        | .waits s3 => .waits (s3.await 0x03 0 0)
        | .all s3 => .go s3 ok fs
        | .failed s3 line k =>
          let before := (linesOf ok).takeWhile (· ≠ line)
          let good := ok.filter fun w => before.contains (lineOf w.loc)
          let bad := ok.filter fun w => !before.contains (lineOf w.loc)
          let at_ := ((ok.find? fun w => lineOf w.loc = line).map fun w => vaLine w.va).getD 0
          .go s3 good (fs ++ bad.map fun w => ⟨w.lane, 0x06, at_, BitVec.ofNat 32 (k % 256), false⟩)

/-- Charges made for lines that no lane writes after all are given back (R284). -/
def State.refundUnused (s : State) (core : Nat) (charged : List (Loc × Nat)) (used : List Loc) : State :=
  charged.foldl (fun s e => if used.contains e.1 then s else s.refund e.2 (clusterOf core) 4) s

/-- Lines of the fibres' writes are remembered until their next release (R190). -/
def Sheaf.wrote (sh : Sheaf) (ws : List WLane) : Sheaf :=
  sh.modFibs (maskOf fun l => ws.any fun w => w.lane = l) fun l f =>
    { f with written := (f.written ++ (ws.filter fun w => w.lane = l).map fun w => lineOf w.loc).eraseDups }

/-! ### The scratchpad (R174 to R177) -/

/-- The byte of the bed's part of the window an address reaches (R174). -/
def State.padOffset (s : State) (sh : Sheaf) (va : Word) : Option Nat :=
  match s.headerOf sh with
  | some h => if decide (h.window.toNat ≤ va.toNat ∧ va.toNat < h.window.toNat + h.scratch) then
      some (va.toNat - h.window.toNat) else none
  | none => none

/-- TRANSLATION faults of addresses outside the bed's part (R174). -/
def State.padFaults (s : State) (sh : Sheaf) (m : Mask) (va : Fin 32 → Word) (write : Bool) : List LaneFault :=
  (lanesIn m).filterMap fun l =>
    if (s.padOffset sh (va l)).isSome then none else some ⟨l, 0x03, va l, if write then 1 else 0, false⟩

def Bed.padBytes (b : Bed) (off n : Nat) : List Byte := Memory.bytes b.pad off n

/-- A write sets the full bit of every word it touches (R176). -/
def Bed.padWrite (b : Bed) (off : Nat) (bs : List Byte) : Bed :=
  { b with pad := Memory.writes b.pad off bs
           padEmpty := b.padEmpty.filter fun w => !(off / 4 ≤ w && w ≤ (off + bs.length - 1) / 4) }

def Bed.wordFull (b : Bed) (off : Nat) : Bool := !b.padEmpty.contains (off / 4)

def Bed.emptyWord (b : Bed) (off : Nat) : Bed :=
  if b.padEmpty.contains (off / 4) then b else { b with padEmpty := b.padEmpty ++ [off / 4] }

/-- The data of a store in its registers (R170). -/
def Sheaf.storeData (sh : Sheaf) (d : BitVec 8) (n : Nat) (l : Fin 32) : List Byte :=
  if n ≤ 4 then natToBytes n (sh.readLane d l).toNat
  else if n = 8 then natToBytes 8 (sh.readPair d l).toNat
  else natToBytes 8 (sh.readPair d l).toNat ++ natToBytes 8 (sh.readPair (d + 2) l).toNat

/-- The value of a load in its registers (R168): sub-word values extended to 32 bits. -/
def extendLoad (w : Width) (sgn : Bool) (x : BitVec 128) : BitVec 128 :=
  match w with
  | .b8 => if sgn then ((x.setWidth 8).signExtend 32).setWidth 128 else (x.setWidth 8).setWidth 128
  | .h16 => if sgn then ((x.setWidth 16).signExtend 32).setWidth 128 else (x.setWidth 16).setWidth 128
  | _ => x

/-- The registers of a load written for the lanes of a mask. -/
def Sheaf.writeLoad (sh : Sheaf) (d : BitVec 8) (n : Nat) (m : Mask) (x : Fin 32 → BitVec 128) : Sheaf :=
  (List.range n).foldl (fun sh k => sh.writeRow (d + BitVec.ofNat 8 k) m fun l => ((x l) >>> (32 * k)).setWidth 32) sh

end Sys2Proof.Machine
end

