-- ==== Sys2Proof/Machine/MemInstr.lean ====
section
/-! DEFINITION. The memory instructions at issue (R163 to R190) and the sheaf load and store (R92). What happens after
issue stands with the events. -/

namespace Sys2Proof.Machine

/-- ENGINE faults of lanes that reach a poisoned line by LDB or an atomic (R408). -/
def poisonFaults (ws : List WLane) : List LaneFault := ws.map fun w => ⟨w.lane, 0x0E, 0, 0x0011, false⟩

/-- LD and LDB (R166, R168, R169): the batch waits only for its addresses; the destination is empty and the operation
goes to translation. With ORD = 1, FENCE.acq follows (R171). -/
def loadRun (o : OpLoad) (ldb : Bool) (s : State) : State :=
  let n := widthRegs o.width
  let i : LaneIns := ⟨o.g, [lmSrc o.addr], lmSregs o.addr, [], regRange o.d n, none⟩
  s.memStep i (fun sh l => sh.laneAddr o.addr l) (widthBytes o.width) fun s sh fs0 act0 =>
    let bad := if ldb then (s.resolve sh act0 (fun l => sh.laneAddr o.addr l) .load).1.filter fun w =>
      (s.home (lineOf w.loc)).poison else []
    let fs := fs0 ++ poisonFaults bad
    let act := act0 &&& ~~~faultMask (poisonFaults bad)
    if act = 0 then s.laneFinish sh i fs 0 id
    else if sh.opsFull then s.await 0x02 0 0
    else
      let acq := if o.acq then some o.scope else none
      let (k, s1) := s.addOp ⟨sh.batchPc, .load o.d o.width o.sgn ldb, act, 0, 0, lanesOf fun l => sh.laneAddr o.addr l, [], 0, acq⟩
      let empty := fun sh' : Sheaf => (regRange o.d n).foldl (fun x r => x.emptyRow r act sh.batchPc) sh'
      (s1.post (.pageWalk s1.cur k)).laneFinish sh i fs act fun x =>
        if o.acq then (empty x).setFence act ⟨true, false, o.scope⟩ else empty x

def execLd (o : OpLoad) (s : State) : Out := .next (loadRun o false s)
def execLdb (o : OpLoad) (s : State) : Out := .next (loadRun o true s)

/-- Bytes of one line written by lanes in ascending order, later lanes over earlier ones (R170). -/
def lineBytes (ws : List WLane) (line : Loc) (data : Fin 32 → List Byte) : List (Nat × Byte) :=
  (ws.filter fun w => lineOf w.loc = line).flatMap fun w =>
    (data w.lane).zipIdx.map fun e => (locOff w.loc + e.2, e.1)

def wmask (ws : List WLane) : Mask := maskOf fun l => ws.any fun w => w.lane = l

/-- Send a request to a peer (R308); a link that is down holds it (R410). -/
def State.askPeer (s : State) (p : PeerPending) : State :=
  let (k, s1) := s.fresh
  let s2 : State := { s1 with peers := s1.peers ++ [(k, p)] }
  (if s.dev.ralecDown.any fun e => e.1 = p.peer then { s2 with peerHeld := s2.peerHeld ++ [k] }
    else s2.emit (.peerRequest k p)).post (.peerTimeout k)

/-- Whether a peer's line has reported its charge to a held batch (R310). -/
def Sheaf.peerCharged (sh : Sheaf) (line : Loc) : Bool := sh.hold.charged.any fun e => e.1 = line

/-- A peer's lines a held write has not asked about, and those not answered. -/
def peerLines (sh : Sheaf) (ws : List WLane) : List Loc :=
  (linesOf ws).filter fun l => !isDev l && (match l with
    | .peer _ _ => true
    | _ => false) && !sh.peerCharged l

/-- The hold of R310: each peer line is asked once, and its report awaited. -/
def State.askPeers (s : State) (sh : Sheaf) (ws : List WLane) (op : Loc → PeerOp) : State :=
  (peerLines sh ws).foldl (fun s line =>
    let mine := (ws.filter fun w => lineOf w.loc = line).map fun w => (w.lane.val, w.va)
    if s.peers.any fun e => match e.2.what with
        | .charge u _ l => u = s.cur && l = line
        | _ => false then s else
      match line with
      | .peer p a =>
        let va := ((mine.head?).map fun e => vaLine e.2).getD 0
        s.askPeer ⟨p, a, op line, va, s.bell, .charge s.cur mine line⟩
      | _ => s) s

/-- Whether an access to a peer's line waits at its agent here: an engine owns the line (R221), or earlier accesses wait so. -/
def State.peerBehind (s : State) (line : Loc) : Bool :=
  s.engineHolds line none || s.events.any fun e => match e with
    | .homeWrite m => m.line = line
    | .atomicExecution m => lineOf m.word = line
    | _ => false

/-- One line's write set out for its home or, once its charge is reported, to its peer (R170, R308). -/
def State.sendWrite (s : State) (u op core : Nat) (m : Mask) (line : Loc) (bs : List (Nat × Byte)) (cwb charged : Bool) :
    State :=
  match line with
  | .peer p a => if s.peerBehind line then s.post (.homeWrite ⟨.fibres u op m core, line, bs, cwb, false⟩)
    else (s.count line).askPeer ⟨p, a, if cwb then .cwb else .write bs, 0, s.bell, .write u op m⟩
  | _ => (s.storeCopies core line bs).post (.homeWrite ⟨.fibres u op m core, line, bs, cwb, charged⟩)

/-- A checked store goes out (R170): copies are updated, the lines sent, the operation recorded until its Tw. -/
def State.sendStore (s : State) (sh : Sheaf) (kind : OpKind) (ws : List WLane) (data : Fin 32 → List Byte)
    (va : Fin 32 → Word) (cwb : Bool) : State :=
  if ws = [] then s else
    let hold := s.shf.hold
    let (k, s1) := s.addOp ⟨sh.batchPc, kind, wmask ws, wmask ws, 0, lanesOf va, [], 0, none⟩
    let s2 := (linesOf ws).foldl (fun s line =>
      let m := wmask (ws.filter fun w => lineOf w.loc = line)
      s.sendWrite s.cur k sh.core m line (lineBytes ws line data) cwb (hold.charged.any fun e => e.1 = line)) s1
    if cwb then s2 else s2.modSheaf s2.cur fun x => x.wrote ws

/-- The hold of a write with a peer's part (R167, R310): `go` receives the lanes that proceed and all faults. -/
def State.heldWrite (s : State) (sh : Sheaf) (m : Mask) (va : Fin 32 → Word) (a : Acc) (n : Nat) (kind : AccKind)
    (charged : Bool) (unit : Loc → Loc) (data : Fin 32 → List Byte) (op : Loc → PeerOp)
    (go : State → List WLane → List LaneFault → State) : State :=
  match s.holdWrite sh m va a n kind charged unit data with
  | .waits s' => s'
  | .go s1 ok fs =>
    -- a charge that has failed is remembered while a peer's answer is due (R284)
    let s1 := s1.modSheaf s1.cur fun x => { x with hold := { x.hold with faults := x.hold.faults ++
      (fs.filter fun f => f.cause = 0x06 && !x.hold.faults.contains f) } }
    let refused := s1.shf.hold.faults.filter fun f => f.cause ≠ 0x0D && hasLane m f.lane
    let fs := fs.filter fun f => f.cause ≠ 0x06
    let ok' := ok.filter fun w => !refused.any fun f => f.lane = w.lane
    if peerLines s1.shf ok' ≠ [] then (s1.askPeers s1.shf ok' op).await 0x03 0 0
    else go (s1.refundUnused sh.core s1.shf.hold.charged (linesOf ok')) ok' (fs ++ refused)

/-- ST (R170, R171). (DEDUCED, log 60.) -/
def execSt (o : OpStore) (s : State) : Out :=
  .next (
    let n := widthRegs o.width
    let i : LaneIns := ⟨o.g, [lmSrc o.addr, vop o.d n 3], lmSregs o.addr, [], [], none⟩
    s.memStep i (fun sh l => sh.laneAddr o.addr l) (widthBytes o.width) fun s sh fs act =>
      let data := sh.storeData o.d.reg (widthBytes o.width)
      let va := fun l => sh.laneAddr o.addr l
      if act = 0 then s.laneFinish sh i fs 0 id
      else if sh.opsFull then s.await 0x02 0 0
      else if o.rel && !s.releaseReady sh act o.scope then s.await 0 0 0
      else s.heldWrite sh act va .store (widthBytes o.width) .store true lineOf data (fun _ => .report false) fun s ok fs2 =>
        -- the release comes first (R171): the lines of this store count towards the next one
        let s0 := if o.rel then s.modSheaf s.cur fun x => x.released act o.scope else s
        (s0.sendStore sh .store ok data va false).laneFinish sh i (fs ++ fs2) (wmask ok) id)

/-- CWB (R179): each line asked to be written back; nothing is charged. -/
def execCwb (o : OpCwb) (s : State) : Out :=
  .next (
    let i : LaneIns := ⟨o.g, [lmSrc o.addr], lmSregs o.addr, [], [], none⟩
    s.memStep i (fun sh l => sh.laneAddr o.addr l) 1 fun s sh fs act =>
      let va := fun l => sh.laneAddr o.addr l
      if act = 0 then s.laneFinish sh i fs 0 id
      else if sh.opsFull then s.await 0x02 0 0
      else s.heldWrite sh act va .cwb 1 .prefetch false lineOf (fun _ => []) (fun _ => .report true) fun s ok fs2 =>
        (s.sendStore sh .cwb ok (fun _ => []) va true).laneFinish sh i (fs ++ fs2) (wmask ok) id)

/-- PRF (R178): the lines' translation and fetch go on behind the batch; nothing else is changed. -/
def execPrf (o : OpPrf) (s : State) : Out :=
  .next (
    let i : LaneIns := ⟨o.g, [lmSrc o.addr], lmSregs o.addr, [], [], none⟩
    s.memStep i (fun sh l => sh.laneAddr o.addr l) 1 fun s sh fs act =>
      if act = 0 then s.laneFinish sh i fs 0 id else
      let (k, s1) := s.fresh
      let r : PrfRec := ⟨act, lanesOf fun l => sh.laneAddr o.addr l, decide (scopeRank o.scope ≤ 2)⟩
      (s1.post (.pageWalk s1.cur k)).laneFinish sh i fs act fun x => { x with prfs := x.prfs ++ [(k, r)] })

/-! ### PGDROP (R180) -/

/-- Operations whose lanes have addresses. -/
def OpKind.addressed : OpKind → Bool
  | .load .. | .sload _ | .store | .cwb | .pgdrop .. | .atomic .. | .counter .. => true
  | _ => false

def OpKind.isDrop : OpKind → Bool
  | .pgdrop .. => true
  | _ => false

/-- Lanes of an operation whose access a home holds because its page moves (R298, R289): a write, or a read of a line whose
owning engine is held so. -/
def State.heldLanes (s : State) (u k : Nat) : Mask :=
  if s.moves = [] then 0 else
    s.events.foldl (fun m e => match e with
      | .homeRead q => if s.moving q.line && s.engineHolds q.line none then
          q.who.foldl (fun m w => if w.sheaf = u && w.op = k then w.lanes.foldl (fun m l => m ||| (1#32 <<< (l.1 % 32))) m else m) m
          else m
      | .homeWrite w => match w.src with
        | .fibres u' k' lanes _ => if u' = u && k' = k && s.moving w.line then m ||| lanes else m
        | .hub => m
      | .atomicExecution a => if a.sheaf = u && a.op = k && s.moving (lineOf a.word) then
          a.lanes.foldl (fun m l => m ||| (1#32 <<< (l.1 % 32))) m else m
      | _ => m) 0

/-- Whether a line lies in a page of TIER 0 or 1. -/
def inPage (p : Pte) (line : Loc) : Bool :=
  match line with
  | .dev a => p.v && p.size ≠ 3 && decide (p.tier.toNat < 2) && decide (p.frame.toNat * 65536 ≤ a ∧
      a < p.frame.toNat * 65536 + pageBytes p.size)
  | _ => false

/-- Whether a prefetch into a page is on its way (R298). -/
def State.prefetching (s : State) (p : Pte) : Bool :=
  s.events.any fun e => match e with
    | .homeRead m => m.prefetch.isSome && inPage p m.line && !(s.moving m.line && s.engineHolds m.line none)
    | _ => false

/-- Operations of any sheaf of an address space still outstanding under a page's translation (R298): those sent, of a
frosted tile too; a surrender in progress where `drops`. A peer that still owes an answer for the page counts, and the copy of a
KV step (R212), unless the page's own move holds its writes. -/
def State.pageBusy (s : State) (asn : Nat) (base : Word) (n : Nat) (drops : Bool) : Bool :=
  let inside := fun va : Word => decide (base.toNat ≤ va.toNat ∧ va.toNat < base.toNat + n)
  (s.sheafs.any fun e => s.asnOf e.2 = asn &&
    e.2.ops.any fun o => o.2.kind.addressed && (drops || !o.2.kind.isDrop) &&
      (lanesIn (o.2.due &&& o.2.sent &&& ~~~s.heldLanes e.1 o.1)).any fun l => inside o.2.addrs[l]) ||
  (s.peers.any fun e => match e.2.what with
    | .engine .. | .kv .. | .fetch .. => inside e.2.va
    | _ => false) ||
  !(s.moves.any fun x => x.marked && x.req.asn = asn && decide (base.toNat ≤ x.req.va.toNat ∧ x.req.va.toNat < base.toNat + n)) &&
  s.events.any fun e => match e with
    | .kvAgentStep m => ((s.sheaf? m.sheaf).map fun sh => decide (s.asnOf sh = asn)).getD false &&
        m.uses.any fun r => decide (r.1.toNat < base.toNat + n ∧ base.toNat < r.1.toNat + r.2)
    | _ => false

/-- Remove every cached translation that overlaps a range (R298). -/
def State.shootdown (s : State) (asn : Nat) (base : Word) (n : Nat) : State :=
  { s with tlb := s.tlb.filter fun e => !(e.asn = asn && e.base.toNat < base.toNat + n &&
      base.toNat < e.base.toNat + e.bytes) }

def pageBase (va : Word) (p : Pte) : Word := BitVec.ofNat 64 (va.toNat / pageBytes p.size * pageBytes p.size)

/-- Write a page-table entry at its home. -/
def State.setEntry (s : State) (entry : Nat) (w : Word) : State :=
  (s.homeWrite (lineOf (.dev entry)) ((natToBytes 8 w.toNat).zipIdx.map fun e => (entry % 256 + e.2, e.1))).2

/-- Sectors a frame has committed (R279): 1,024 for KIND 0, its blocks' and the sidecar's 4 otherwise. -/
def State.frameSectors (s : State) (f : Nat) : Nat :=
  match aget s.frames f with
  | none => 0
  | some fr => if fr.kind = 0 then 1024 else
      4 + ((List.range 256).map fun b => s.committedOf (.dev (f * 65536 + b * 256))).sum

/-- Reservations of a frame's dirty lines (R288). -/
def State.frameReserved (s : State) (f : Nat) : Nat :=
  (s.homes.map fun e => match e.1 with
    | .dev a => if a / 65536 = f then e.2.dirty.getD 0 else 0
    | _ => 0).sum

/-- The TIER and the sectors of a created frame that holds contents (R278). -/
def State.frameUse (s : State) (f : Nat) : BitVec 2 × Nat :=
  match aget s.frames f with
  | some i => if i.surrendered then (i.tier, 0) else (i.tier, s.frameSectors f)
  | none => (0, 0)

/-- Frames whose use of LPDDR6 is no longer counted, before they change, and counted again after (R278). -/
def State.unuse (s : State) (fs : List Nat) : State := fs.foldl (fun s f => s.freeSectors (s.frameUse f).1 (s.frameUse f).2) s
def State.reuse (s : State) (fs : List Nat) : State := fs.foldl (fun s f => s.useSectors (s.frameUse f).1 (s.frameUse f).2) s

/-- The end of a surrender (R180, R280, R288): contents and reservations gone, sectors and promise released; the number of
committed sectors is returned. -/
def State.dropFrame (s : State) (f : Nat) : Nat × State :=
  let n := s.frameSectors f
  let r := s.frameReserved f
  let s0 := s.unuse [f]
  let s1 : State := { s0 with
    mem := s.mem.filter fun e => e.1 / 65536 ≠ f
    homes := s.homes.map fun e => match e.1 with
      | .dev a => if a / 65536 = f then (e.1, { e.2 with dirty := none, committed := 0, poison := false }) else e
      | _ => e
    frames := amod s.frames f fun x => { x with surrendered := true } }
  match (aget s.frames f).bind (·.pool) with
  | none => (n, s1)
  | some p =>
    let k := p.1 * 256 + p.2
    match s1.pool? k with
    | none => (n, s1)
    | some q => (n, (s1.setPool k { q with committed := q.committed - n, promised := q.promised - 1024 }).release k
        (n + r))

def State.dropPage (s : State) (p : Pte) : Nat × State :=
  (List.range (pageFrames p.size)).foldl (fun r i =>
    let (n, s1) := r.2.dropFrame (p.frame.toNat + i)
    (r.1 + n, s1)) (0, s)

/-- The lowest lane of each page among some lanes (R180). -/
def firstOfPage (ws : List WLane) (w : WLane) : Bool :=
  match ws.find? fun x => x.entry = w.entry with
  | some x => x.lane = w.lane
  | none => false

/-- The update that a PGDROP makes of its page's entry (R298), with the entry before it. -/
def dropUpdate (asn entry : Nat) (va : Word) (p : Pte) : UpdateReq × Word :=
  (⟨asn, entry, encodePte { p with surr := true }, pageBase va p, pageBytes p.size⟩, encodePte p)

/-- A page is marked surrendered: walks of it are held, its entry is written, its cached translations go (R180, R298). -/
def State.surrender (s : State) (asn : Nat) (w : WLane) : State :=
  let u := dropUpdate asn w.entry w.va w.pte
  (({ s with holding := s.holding ++ [u] } : State).setEntry w.entry u.1.value).shootdown asn u.1.va u.1.len

/-- PGDROP (R180) at issue: held until every lane is translated (R167) and its page does not move, it marks the pages and
shoots their translations down; v[D] is empty and the batch goes on (R29). What it waits for then, the release and the
counts follow in its walk (`dropStep`). -/
def execPgdrop (o : OpPgdrop) (s : State) : Out :=
  .next (
    let i : LaneIns := ⟨o.g, [lmSrc o.addr], lmSregs o.addr, [], [o.d], none⟩
    s.memStep i (fun sh l => sh.laneAddr o.addr l) 4 fun s sh fs act =>
      let va := fun l => sh.laneAddr o.addr l
      if act = 0 then s.laneFinish sh i fs 0 id
      else if sh.opsFull then s.await 0x02 0 0
      else match s.holdWrite sh act va .pgdrop 4 .prefetch false lineOf (fun _ => []) with
        | .waits s' => s'
        | .go s1 ok fs2 =>
          if ok.any fun w => w.pte.moving then s1.await 0x03 0 0 else
          if ok = [] then s1.laneFinish sh i (fs ++ fs2) 0 id else
            let mine := ok.filter fun w => !w.pte.surr && firstOfPage ok w
            let s2 := mine.foldl (fun s w => s.surrender (s.asnOf sh) w) s1
            let (k, s3) := s2.addOp ⟨sh.batchPc, .pgdrop o.d (mine.map fun w => (w.lane.val, w.pte, w.entry)), wmask ok, wmask ok, 0,
              lanesOf va, [], 0, none⟩
            (s3.post (.pageWalk s3.cur k)).laneFinish sh i (fs ++ fs2) (wmask ok) fun x =>
              x.emptyRow o.d (wmask ok) sh.batchPc)

/-- One page of a PGDROP is released, and its walks go on: its lane's count. -/
def State.dropLane (s : State) (asn : Nat) (o : OpRec) (e : Nat × Pte × Nat) (counts : List (Nat × BitVec 128)) :
    List (Nat × BitVec 128) × State :=
  let (n, s1) := s.dropPage e.2.1
  (counts ++ [(e.1, BitVec.ofNat 128 n)], { s1 with holding := s1.holding.erase (dropUpdate asn e.2.2 o.addrs[laneOf e.1] e.2.1) })

/-- The rest of a PGDROP (R180): once every access under its pages' old translations has completed, their contents go and
the counts are written; it is tried again until then. -/
def State.dropStep (s : State) (u k : Nat) (sh : Sheaf) (o : OpRec) (pages : List (Nat × Pte × Nat)) : State :=
  let base := fun e : Nat × Pte × Nat => pageBase o.addrs[laneOf e.1] e.2.1
  if pages.any fun e => s.pageBusy (s.asnOf sh) (base e) (pageBytes e.2.1.size) false || s.prefetching e.2.1 then
    s.again (.pageWalk u k)
  else
    let r := pages.foldl (fun (r : List (Nat × BitVec 128) × State) e => r.2.dropLane (s.asnOf sh) o e r.1) ([], s)
    r.2.post (.loadResponse ⟨u, k, (lanesIn o.due).map fun l => (l.val, (aget r.1 l.val).getD 0)⟩)

/-! ### Atomics at issue (R181 to R187) -/

def orderAcq : Order → Bool
  | .acq | .ar => true
  | _ => false
def orderRel : Order → Bool
  | .rel | .ar => true
  | _ => false

/-- What an atomic is, whichever its form. -/
structure AtomDesc where
  g : Guard
  d : Option (BitVec 8)
  a : VSrc
  b : VSrc
  c : Option VSrc
  w64 : Bool
  fn : AtomFn
  scope : Scope
  order : Order
  deriving DecidableEq, Repr

def Sheaf.atomValue (sh : Sheaf) (w64 : Bool) (r : BitVec 8) (l : Fin 32) : Word :=
  if w64 then sh.readPair r l else zext64 (sh.readLane r l)

/-- The scope at which a lane's atomic releases and acquires: .sys at a host or peer target (Table 7.4). -/
def atomScope (ws : List WLane) (l : Fin 32) (scope : Scope) : Scope :=
  if ws.any fun w => w.lane = l && !isDev w.loc then .sys else scope

/-- Atomics to a word of a peer go to it together (R308, R121). -/
def State.askAtom (s : State) (m : AtomMsg) : State :=
  match m.word with
  | .peer p a => (s.count (lineOf m.word)).askPeer ⟨p, a, .atomic m.fn m.w64 m.lanes, 0, s.bell,
      .atomic m.sheaf m.op (m.lanes.map (·.1)) m.ret⟩
  | _ => s

/-- The messages of a batch's atomics: one for each word (R184), the charge of a line going with its first (R167). -/
def State.sendAtoms (s : State) (sh : Sheaf) (o : AtomDesc) (k : Nat) (ok : List WLane) (b c : Fin 32 → Word) : State :=
  let charged := s.shf.hold.charged
  let words := (ok.map (·.loc)).eraseDups
  words.foldl (fun s w =>
    let mine := (ok.filter fun x => x.loc = w).map fun x => (x.lane.val, b x.lane, c x.lane)
    let first := words.find? fun x => lineOf x = lineOf w
    let m : AtomMsg :=
      { sheaf := s.cur, op := k, core := sh.core, word := w, w64 := o.w64, fn := o.fn, scope := o.scope, ret := o.d.isSome,
        lanes := mine, charged := first = some w && charged.any fun e => e.1 = lineOf w,
        merge := o.order = .relaxed && o.fn ≠ .cas && decide (4 ≤ scopeRank o.scope), bell := s.bell, read := none }
    match w with
    | .peer .. => if s.peerBehind (lineOf w) then s.post (.atomicExecution m) else s.askAtom m
    | _ => ({ s with l1 := adel s.l1 (sh.core, lineOf w) } : State).post (.atomicExecution m)) s

/-- An atomic or RED at issue: released if ordered, translated and charged (R167), the issuing core's L1 copy of each
line discarded (R183), one operation sent for each word (R184); with an acquire, FENCE.acq follows (R187). -/
def atomRun (o : AtomDesc) (s : State) : State :=
  let n := if o.w64 then 2 else 1
  let dests := match o.d with
    | some d => regRange d n
    | none => []
  let srcs := [vop o.a 2 0, vop o.b n 1] ++ (o.c.map fun c => [vop c n 2]).getD []
  let i : LaneIns := ⟨o.g, srcs, [], [], dests, none⟩
  let va := fun (sh : Sheaf) l => sh.readPair o.a.reg l
  s.memStep i va (4 * n) fun s sh fs act =>
    let known := (s.resolve sh act (va sh) .atomic).1
    if act = 0 then s.laneFinish sh i fs 0 id
    else if sh.opsFull then s.await 0x02 0 0
    else if orderRel o.order && !(lanesIn act).all fun l => s.releaseReady sh (1#32 <<< l.val) (atomScope known l o.scope) then
      s.await 0 0 0
    else
      let b := fun l => sh.atomValue o.w64 o.b.reg l
      let c := fun l => (o.c.map fun x => sh.atomValue o.w64 x.reg l).getD 0
      s.heldWrite sh act (va sh) .atomic (4 * n) (if o.d.isSome then .atomic else .store) true id
        (fun l => natToBytes (4 * n) (b l).toNat) (fun _ => .report false) fun s ok0 fs0 =>
        -- a poisoned line traps at the instruction (R408)
        let bad := ok0.filter fun w => (s.home (lineOf w.loc)).poison
        let ok := ok0.filter fun w => !(s.home (lineOf w.loc)).poison
        let fs2 := fs0 ++ poisonFaults bad
        let s := s.refundUnused sh.core (s.shf.hold.charged.filter fun e => (linesOf bad).contains e.1) []
        if ok = [] then s.laneFinish sh i (fs ++ fs2) 0 id else
        let (k, s1) := s.addOp ⟨sh.batchPc, .atomic o.d o.w64, wmask ok, wmask ok, 0, lanesOf (va sh), [], 0, none⟩
        (s1.sendAtoms sh o k ok b c).laneFinish sh i (fs ++ fs2) (wmask ok) fun x =>
          let x1 := if orderRel o.order then (lanesIn (wmask ok)).foldl (fun x l =>
            x.released (1#32 <<< l.val) (atomScope ok l o.scope)) x else x
          let x2 := dests.foldl (fun x r => x.emptyRow r (wmask ok) sh.batchPc) (x1.wrote ok)
          if orderAcq o.order then (lanesIn (wmask ok)).foldl (fun x l =>
            x.setFence (1#32 <<< l.val) ⟨true, false, atomScope ok l o.scope⟩) x2 else x2

def execAtom (o : OpAtom) (s : State) : Out :=
  .next (atomRun ⟨o.g, some o.d, o.a, o.b, none, false, .rmw o.aop, o.scope, o.order⟩ s)
def execAtom64 (o : OpAtom) (s : State) : Out :=
  .next (atomRun ⟨o.g, some o.d, o.a, o.b, none, true, .rmw o.aop, o.scope, o.order⟩ s)
def execAcas (o : OpAcas) (s : State) : Out :=
  .next (atomRun ⟨o.g, some o.d, o.a, o.b, some o.c, false, .cas, o.scope, o.order⟩ s)
def execAcas64 (o : OpAcas) (s : State) : Out :=
  .next (atomRun ⟨o.g, some o.d, o.a, o.b, some o.c, true, .cas, o.scope, o.order⟩ s)
def execRed (o : OpRed) (s : State) : Out :=
  .next (atomRun ⟨o.g, none, o.a, o.b, none, o.w64, .rmw o.aop, o.scope, if o.rel then .rel else .relaxed⟩ s)

/-! ### Scratchpad (R174 to R177, R188) -/

/-- LDS (R176): any full bits; TRANSLATION outside the bed's part. Its destination is written in the issuing step, as R173 names
no LDS among the long-latency loads. (DESIGN CHOICE, log 74.) -/
def execLds (o : OpLds) (s : State) : Out :=
  .next (
    let n := widthRegs o.width
    let i : LaneIns := ⟨o.g, [lmSrc o.addr], lmSregs o.addr, [], regRange o.d n, none⟩
    s.memStep i (fun sh l => sh.laneAddr o.addr l) (widthBytes o.width) fun s sh fs act =>
      let va := fun l => sh.laneAddr o.addr l
      let out := s.padFaults sh act va false
      let go := act &&& ~~~faultMask out
      let val := fun l => match s.bed? sh.bed, s.padOffset sh (va l) with
        | some b, some off => extendLoad o.width o.sgn (lineValue (b.padBytes off (widthBytes o.width)) 0
            (widthBytes o.width))
        | _, _ => 0
      s.laneFinish sh i (fs ++ out) go fun x => x.writeLoad o.d n go val)

/-- STS (R175, R176): lanes in ascending order; every word touched is full. -/
def execSts (o : OpSts) (s : State) : Out :=
  .next (
    let n := widthRegs o.width
    let i : LaneIns := ⟨o.g, [lmSrc o.addr, vop o.d n 3], lmSregs o.addr, [], [], none⟩
    s.memStep i (fun sh l => sh.laneAddr o.addr l) (widthBytes o.width) fun s sh fs act =>
      let va := fun l => sh.laneAddr o.addr l
      let out := s.padFaults sh act va true
      let go := act &&& ~~~faultMask out
      let s1 := s.modBed sh.bed fun b => (lanesIn go).foldl (fun b l => match s.padOffset sh (va l) with
        | some off => b.padWrite off (sh.storeData o.d.reg (widthBytes o.width) l)
        | none => b) b
      s1.laneFinish sh i (fs ++ out) go id)

/-- A full/empty instruction (R177): lanes act in ascending order, each when its word is in the required state; a lane
that has acted is done, and under `.late` a lane whose word is not ready at issue traps. `act1` is one lane's action on
the bed and the sheaf. -/
def fullEmptyRun (s : State) (i : LaneIns) (addr : LmAddr) (late write needFull : Bool)
    (act1 : Sheaf → Fin 32 → Nat → Bed × Sheaf → Bed × Sheaf) : State :=
  let waitDests := i.dests
  s.memStep { i with dests := if s.shf.hold.acted = 0 then waitDests else [] } (fun sh l => sh.laneAddr addr l) 4
    fun s sh fs act =>
    let va := fun l => sh.laneAddr addr l
    let out := s.padFaults sh act va write
    let go := act &&& ~~~faultMask out
    match s.bed? sh.bed with
    | none => s.laneFinish sh i (fs ++ out) 0 id
    | some b =>
      let r := (lanesIn (go &&& ~~~sh.hold.acted)).foldl (fun (r : (Bed × Sheaf) × Mask × List LaneFault) l =>
        match s.padOffset sh (va l) with
        | none => r
        | some off =>
          if r.1.1.wordFull off == needFull then (act1 sh l off r.1, r.2.1 ||| (1#32 <<< l.val), r.2.2)
          else if late then (r.1, r.2.1, r.2.2 ++ [⟨l, 0x09, BitVec.ofNat 64 ((va l).toNat / 4 * 4), 0, false⟩])
          else r) ((b, sh), sh.hold.acted &&& go, [])
      let bad := fs ++ out ++ r.2.2
      let s1 := ((if go = 0 then s else s.roomFor i.dests).modBed sh.bed fun _ => r.1.1).modSheaf s.cur fun x =>
        { x with rows := r.1.2.rows }
      if go &&& ~~~r.2.1 &&& ~~~faultMask bad = 0 then
        -- a destination that is also a marked source lives on (R22)
        s1.laneFinish sh i bad r.2.1 fun x => i.dests.foldl (fun x d => x.reviveRow d r.2.1) x
      -- the checks come at issue, before any effect (R164, R343); the others issue again without those that trap
      else if bad ≠ [] && sh.hold.acted = 0 then s.trapLanes sh bad
      else (s1.await 0x01 0 0).modSheaf s.cur fun x => { x with hold := { x.hold with acted := r.2.1 } }

def padWord (b : Bed) (off : Nat) : W32 := BitVec.ofNat 32 (bytesToNat (b.padBytes off 4))

/-- LDF: the word is read and stays full. -/
def execLdf (o : OpLdf) (s : State) : Out :=
  .next (fullEmptyRun s ⟨o.g, [lmSrc o.addr], lmSregs o.addr, [], [o.d], none⟩ o.addr o.late false true
    fun _ l off r => (r.1, r.2.writeRow o.d (1#32 <<< l.val) fun _ => padWord r.1 off))
/-- LDW: the word is read and becomes empty. A TRANSLATION fault has INFO[0] = 0, as of a read. (DESIGN CHOICE, log 73.) -/
def execLdw (o : OpLdf) (s : State) : Out :=
  .next (fullEmptyRun s ⟨o.g, [lmSrc o.addr], lmSregs o.addr, [], [o.d], none⟩ o.addr o.late false true
    fun _ l off r => (r.1.emptyWord off, r.2.writeRow o.d (1#32 <<< l.val) fun _ => padWord r.1 off))
/-- STE: the empty word is written and becomes full. -/
def execSte (o : OpSte) (s : State) : Out :=
  .next (fullEmptyRun s ⟨o.g, [lmSrc o.addr, vop o.d 1 3], lmSregs o.addr, [], [], none⟩ o.addr false true false
    fun sh l off r => (r.1.padWrite off (sh.storeData o.d.reg 4 l), r.2))

/-- Table 7.5. -/
def satomNew {n : Nat} (op : SatomOp) (old b : BitVec n) : BitVec n :=
  match op with
  | .add => old + b
  | .and => old &&& b
  | .or => old ||| b
  | .xor => old ^^^ b
  | .min sg => if (if sg then b.slt old else b.ult old) then b else old
  | .max sg => if (if sg then old.slt b else old.ult b) then b else old
  | .xchg => b

/-- SATOM (R188): lanes in ascending order, each return as if applied in that order; with `.ret` v[D] is empty until the
values arrive (R29). -/
def execSatom (o : OpSatom) (s : State) : Out :=
  .next (
    let n := if o.w64 then 2 else 1
    let i : LaneIns := ⟨o.g, [lmSrc o.addr, vop o.d n 3], lmSregs o.addr, [],
      if o.ret then regRange o.d.reg n else [], none⟩
    s.memStep i (fun sh l => sh.laneAddr o.addr l) (4 * n) fun s sh fs act =>
      let va := fun l => sh.laneAddr o.addr l
      let out := s.padFaults sh act va true
      let go := act &&& ~~~faultMask out
      if go ≠ 0 && sh.opsFull then s.await 0x02 0 0 else
      match s.bed? sh.bed with
      | none => s.laneFinish sh i (fs ++ out) 0 id
      | some b =>
        let r := (lanesIn go).foldl (fun (r : Bed × List (Fin 32 × Word)) l =>
          match s.padOffset sh (va l) with
          | none => r
          | some off =>
            let old : Word := BitVec.ofNat 64 (bytesToNat (r.1.padBytes off (4 * n)))
            let x := sh.atomValue o.w64 o.d.reg l
            let new : Word := if o.w64 then satomNew o.op old x
              else zext64 (satomNew o.op (loHalf old) (loHalf x))
            (r.1.padWrite off (natToBytes (4 * n) new.toNat), r.2 ++ [(l, old)])) (b, [])
        let val := fun l => ((aget r.2 l).getD 0).setWidth 128
        let s1 := s.modBed sh.bed fun _ => r.1
        (if o.ret && decide (go ≠ 0) then s1.addResult (.pad o.d.reg o.w64) go val else s1).laneFinish sh i (fs ++ out) go
          fun x => if !o.ret then x else
            -- the destination is a source as well (R22)
            (regRange o.d.reg n).foldl (fun x r => x.emptyRow r go sh.batchPc) x)

/-! ### Fences and the sheaf load and store -/

/-- FENCE (R190): it issues for each fibre whose guard is true, and completes at once where nothing is waited for. -/
def execFence (o : OpFence) (s : State) : Out :=
  .next (
    let i : LaneIns := ⟨o.g, [], [], [], [], none⟩
    s.memStep i (fun _ _ => 0) 1 fun s sh fs act =>
      (s.laneFinish sh i fs act fun x => x.setFence act ⟨o.kind ≠ .rel, o.kind ≠ .acq, o.scope⟩).endFences act)

/-- The faults of one address for every fibre of the batch (R92). -/
def batchFault (m : Mask) (cause : BitVec 8) (va : Word) (info : W32) (log : Bool) : List LaneFault :=
  (lanesIn m).map fun l => ⟨l, cause, va, info, log⟩

/-- SLD (R92): one 64-bit word into s[D], empty until the data is written. -/
def execSld (o : SopAI) (s : State) : Out :=
  .next (s.sheafStep o.g [o.a] [o.d] none fun s => s.pastFences s.shf.issuing fun s =>
    let sh := s.shf
    let va := sh.readS o.a + o.imm.signExtend 64
    if va.toNat % 8 ≠ 0 then s.trapAtIssue (batchFault sh.issuing 0x02 va 3 false)
    else if sh.opsFull then s.await 0x02 0 0
    else
      let (k, s1) := s.addOp ⟨sh.batchPc, .sload o.d, sh.issuing, 0, 0, lanesOf fun _ => va, [], 0, none⟩
      (s1.post (.pageWalk s1.cur k)).sheafDone fun x => x.emptyS o.d sh.batchPc)

/-- SST (R92): one 64-bit word for the whole batch, held and charged as ST is. -/
def execSst (o : SopSst) (s : State) : Out :=
  .next (s.heldStep o.g [o.a, o.b] [] none fun s => s.pastFences s.shf.issuing fun s =>
    let sh := s.shf.seen
    let va := sh.readS o.a + o.imm.signExtend 64
    let m := sh.issuing
    if va.toNat % 8 ≠ 0 then s.trapAtIssue (batchFault m 0x02 va 3 false)
    else if sh.opsFull then s.await 0x02 0 0
    else s.heldWrite sh m (fun _ => va) .store 8 .store true lineOf (fun _ => natToBytes 8 (sh.readS o.b).toNat)
      (fun _ => .report false) fun s ok fs =>
      let s1 := s.sendStore sh .store ok (fun _ => natToBytes 8 (sh.readS o.b).toNat) (fun _ => va) false
      (s1.modSheaf s.cur fun x => x.advance (m &&& ~~~faultMask fs)).trapLanes sh fs)

end Sys2Proof.Machine
end

