-- ==== Sys2Proof/Machine/Turn.lean ====
section
/-! DEFINITION. Whose turn it is: batch selection (R45, R46), set-aside batches, the issue arbitration of R337 and R338,
fetch (R55 to R58, R72), and which message or event comes next. -/

namespace Sys2Proof.Machine

/-! ### Batch selection (R46) -/

/-- The PCs at which ready fibres of a sheaf stand. -/
def Sheaf.candidatePcs (sh : Sheaf) : List Word := ((lanesIn sh.readyLanes).map sh.pcOf).eraseDups

def minPc : List Word → Option Word
  | [] => none
  | p :: t => match minPc t with
    | some q => if q.toNat < p.toNat then some q else some p
    | none => some p

/-- The ages at a switch point: a candidate of the last selection that was not chosen has grown by one. -/
def Sheaf.nextAges (sh : Sheaf) : List (Word × Nat) :=
  sh.candidatePcs.map fun p => (p, match aget sh.ages p with
    | some a => a + 1
    | none => 0)

/-- Select a new batch. The ages kept are those of the candidates that were not chosen. -/
def Sheaf.selectBatch (sh : Sheaf) : Sheaf :=
  let ages := sh.nextAges
  let old := (ages.filter fun e => 64 ≤ e.2).map (·.1)
  match (minPc old).orElse fun _ => minPc (ages.map (·.1)) with
  | none => sh
  | some p => { sh with
      batch := sh.lanesWhere fun f => f.status = .ready && f.pc = p
      ages := adel ages p
      hold := Hold.none }

/-- The sheaf with a batch to issue, if any fibre is ready; what a batch that has lost every fibre had charged is
given back. -/
def State.withBatch (s : State) (u : Nat) : State :=
  match s.sheaf? u with
  | none => s
  | some sh => if sh.issuing ≠ 0 then s else
      ((if sh.hold.ticket = 0 then s else s.unqueueAll (.sheaf u sh.hold.ticket)).refundUnused sh.core sh.hold.charged []).modSheaf u Sheaf.selectBatch

/-! ### Fetch (R56, R57) -/

/-- A slot of a line's bytes. -/
def slotIn (bytes : List Byte) (off : Nat) : Word := BitVec.ofNat 64 (bytesToNat ((bytes.drop off).take 8))

/-- What a fetch comes to. -/
inductive Fetched where
  | word (w : Word) (s : State)
  | trap (cause : BitVec 8) (log : Bool)
  | waits (s : State)

/-- A core's instruction cache holds 128 KiB (R3): a line it takes may displace one, whichever. (DEDUCED, log 54.) -/
def State.cacheSlot (s : State) (key : Nat) (line : Loc) (bs : List Byte) : State :=
  let mine := s.icache.filter fun e => e.1.1 / 4 = key / 4
  let kept := if (aget s.icache (key, line)).isSome || mine.length < 512 then s.icache else
    match mine[Config.pick s.free % mine.length]? with
    | some e => adel s.icache e.1
    | none => s.icache
  { s with icache := aset kept (key, line) bs }

/-- Fetch the slot of a PC for the sheaf u: the line as the seat's instruction cache holds it, or as memory does; where
they differ, either (R57). A peer's line is asked for each time (R308). (DESIGN CHOICE, log 12.) -/
def State.fetchSlot (s : State) (u : Nat) (sh : Sheaf) (pc : Word) : Fetched :=
  let va := slotOf pc
  let cl := clusterOf sh.core
  let asn := s.asnOf sh
  match s.check cl asn (s.headerOf sh) va .fetch with
  | .fault c lg => .trap c lg
  | .at_ loc p e =>
    let key := State.seatKey sh.core sh.seat
    let line := lineOf loc
    let s1 := s.noteTlb cl asn va p e
    match loc with
    | .peer p a =>
      match aget s.fetchBad (key, line) with
      | some c => .trap c true
      | none =>
      match aget s.fetchGot (key, line) with
      | some bs => .word (slotIn bs (locOff loc)) { s1 with fetchGot := adel s1.fetchGot (key, line) }
      | none => if s.peers.any fun e => e.2.what = .fetch key line then .waits s1 else
          .waits (s1.askPeer ⟨p, a / 256 * 256, .read 256, vaLine va, s.bell, .fetch key line⟩)
    | _ =>
      let now := s.homeBytes line 256
      match aget s.icache (key, line) with
      | some bs =>
        if slotIn bs (locOff loc) = slotIn now (locOff loc) then .word (slotIn bs (locOff loc)) s1
        else if Config.fetchOld s.free then .word (slotIn bs (locOff loc)) s1
        else .word (slotIn now (locOff loc)) (s1.cacheSlot key line now)
      | none => .word (slotIn now (locOff loc)) (s1.cacheSlot key line now)
  | w => .waits (s.askFor cl asn va (u, none) w)

/-- A fetch that failed has been taken as its trap. -/
def State.clearBad (s : State) (key : Nat) : State :=
  if s.fetchBad = [] then s else { s with fetchBad := s.fetchBad.filter fun e => e.1.1 ≠ key }

/-- The next PC (R58). -/
def nextPc (pc : Word) (w : Word) : Word :=
  let k := (pc.extractLsb' 0 3).toNat
  if slotKind w = .dict ∧ k + 1 < dictN w then slotOf pc + BitVec.ofNat 64 (k + 1) else slotOf pc + 8

/-- An instruction ready to run, or a turn that is already over. -/
inductive Prep where
  | run (i : Instr) (s : State)
  | over (s : State)

/-- Fetch and decode for the issuing sheaf (R56, R72, R80). An instruction in progress keeps the slot it was fetched
with. -/
def State.prepare (s : State) : Prep :=
  let sh := s.shf
  let pc := sh.batchPc
  let go := fun (w : Word) (s : State) =>
    let s1 := s.modSheaf s.cur fun x => { x with npc := nextPc pc w, hold := { x.hold with word := some w } }
    match decodeSlot w (pc.extractLsb' 0 3).toNat with
    | .ok i => Prep.run i s1
    | .error sub => Prep.over (s1.illegal sub)
  if sh.issuing = 0 then .over s else
    match sh.hold.word with
    | some w => go w s
    | none =>
      if 3 ≤ (pc.extractLsb' 0 3).toNat then .over (s.illegal 0x0D) else
      match s.fetchSlot s.cur sh pc with
      | .word w s1 => go w s1
      | .trap c lg =>
        let s1 := (s.spend (s.asnOf sh) (slotOf pc) (s.cur, none)).clearBad (State.seatKey sh.core sh.seat)
        .over (s1.trapAtIssue ((lanesIn sh.issuing).map fun l => ⟨l, c, slotOf pc, accInfo .fetch, lg⟩))
      | .waits s1 => .over (s1.await 0 0 0)

/-! ### Arbitration (R337, R338) -/

/-- Whether a sheaf's partition issues: the device is on, the core is neither frosted nor stopped, the bed resident. -/
def State.canIssue (s : State) (sh : Sheaf) : Bool :=
  s.dev.powered && !frostedCore s sh.core && !(s.coreState sh.core).stopped.getLsbD sh.part &&
  (match s.bed? sh.bed with
    | some b => b.status = .resident
    | none => true)

/-- The pipe of a sheaf's next instruction: 1 for the sheaf pipe. -/
def State.pipeOf (s : State) (u : Nat) (sh0 : Sheaf) : Nat :=
  let sh := if sh0.issuing = 0 then sh0.selectBatch else sh0
  let pc := sh.batchPc
  match s.fetchSlot u sh pc with
  | .word w _ =>
    let e := if slotKind w = .dict then
        (((s.seat? sh.core sh.seat).map (·.dict)).getD [])[codeIndex (dictCode w (pc.extractLsb' 0 3).toNat)]?.getD 0
      else w
    if slotKind e = .sheaf then 1 else 0
  | _ => 0

/-- A candidate of a pipe. -/
structure Cand where
  uid : Nat
  core : Nat
  part : Nat
  pipe : Nat
  cls : Nat
  wait : Nat
  age : Nat
  yielded : Bool
  slot : Nat
  deriving DecidableEq, Repr

/-- Sheafs whose batch is ready to issue and does not wait. -/
def State.ready (s : State) : List (Nat × Sheaf) :=
  s.sheafs.filter fun e => s.canIssue e.2 && decide (e.2.readyLanes ≠ 0#32) && (e.2.issuing = 0 || !e.2.hold.waiting)

def State.candOf (s : State) (e : Nat × Sheaf) : Cand where
  uid := e.1
  core := e.2.core
  part := e.2.part
  pipe := s.pipeOf e.1 e.2
  cls := ((s.launch? e.2.launch).map (·.cls)).getD 0
  wait := e.2.wait
  age := (s.bell.toNat - e.2.age) * 85 / 100
  yielded := e.2.yielded
  slot := e.2.slot

/-- The largest wait, ties to the lowest sheaf slot. -/
def mostWaiting : List Cand → Option Cand
  | [] => none
  | c :: t => match mostWaiting t with
    | some d => if d.wait < c.wait || (d.wait = c.wait && c.slot ≤ d.slot) then some c else some d
    | none => some c

/-- The choice of a pipe among its candidates (R338). -/
def arbitrate (last : Option Nat) (cs : List Cand) : Option Cand :=
  match cs.filter fun c => 4096 ≤ c.age with
  | p :: ps => mostWaiting (p :: ps)
  | [] =>
    let cls := (cs.map (·.cls)).foldl min 255
    let e := cs.filter fun c => c.cls = cls
    let k := e.length
    let e' := if (e.filter fun c => !c.yielded) = [] then e else e.filter fun c => !c.yielded
    match e'.find? fun c => some c.uid = last with
    | some c => if (e'.filter fun d => d.uid ≠ c.uid).any fun d => 128 < d.wait + k then mostWaiting e' else some c
    | none => mostWaiting e'

def pipeKey (part pipe : Nat) : Nat := part * 2 + pipe

/-! ### The options of a turn -/

/-- What may come next. -/
inductive Turn where
  | issue (c : Cand) (others : List Nat)
  | retry (uid : Nat)
  | aside (uid i : Nat)
  | event (i : Nat)
  deriving DecidableEq, Repr

/-- One issue for each pipe that has a candidate. -/
def State.issues_ (s : State) : List Turn :=
  match s.ready with
  | [] => []
  | [e] => [.issue (s.candOf e) []]
  | es =>
    let cs := es.map s.candOf
    ((cs.map fun c => (c.core, c.part, c.pipe)).eraseDups).filterMap fun g =>
      let mine := cs.filter fun c => (c.core, c.part, c.pipe) = g
      (arbitrate (aget (s.coreState g.1).lastSheaf (pipeKey g.2.1 g.2.2)) mine).map fun c =>
        .issue c ((mine.filter fun d => d.uid ≠ c.uid).map (·.uid))

/-- A bed that is drained lets the instructions that have acted complete (R356). -/
def State.draining (s : State) (sh : Sheaf) : Bool :=
  s.dev.powered && !frostedCore s sh.core && !(s.coreState sh.core).stopped.getLsbD sh.part &&
  (match s.bed? sh.bed with
    | some b => b.status = .lifting
    | none => false)

/-- Instructions in progress and set-aside batches that may go on, and fetches that are tried again: an instruction that has
not issued is none of them (R337). -/
def State.retries (s : State) : List Turn :=
  s.sheafs.flatMap fun e =>
    let all := s.canIssue e.2
    if all || s.draining e.2 then
      (if (all || 2 ≤ e.2.hold.phase) && e.2.hold.waiting && decide (e.2.issuing ≠ 0#32) &&
          (!e.2.hold.unissued || e.2.hold.word.isNone) then [Turn.retry e.1] else []) ++
        (e.2.aside.zipIdx.filter fun a => all || 2 ≤ a.1.hold.phase).map fun a => Turn.aside e.1 a.2
    else []

/-- Requests of one cluster about one line reach its home in the order in which the cluster cache passed them on (R251,
R261); refills of one counter are served in order of arrival (R200). (DESIGN CHOICE, log 3.) -/
def Event.channel (e : Event) : Option (Nat × Loc) :=
  match e with
  | .homeWrite ⟨.fibres _ _ _ core, l, _, _, _⟩ => some (clusterOf core, l)
  | .homeRead m => some (clusterOf m.core, m.line)
  | .atomicExecution m => some (clusterOf m.core, lineOf m.word)
  | .allowanceRefill m => if m.peek then none else some (1000000, .dev m.ctr)
  | _ => none

/-- The events that may happen now: none overtakes an earlier one of its channel. -/
def State.eventTurns (s : State) : List Turn :=
  ((s.events.zipIdx).filter fun e => match e.1.channel with
    | none => true
    | some c => !((s.events.take e.2).any fun d => d.channel = some c)).map fun e => .event e.2

def State.turns (s : State) : List Turn := s.issues_ ++ s.retries ++ s.eventTurns

/-- A publish of a pool's reserve that is due: 8 µs have passed since the figure fell behind, or since the last publish below
LOWMARK (R41, R203). -/
def State.publishDue (s : State) : Option Turn :=
  if s.pools.all fun e => e.2.stale.isNone then none else
    (s.events.findIdx? fun e => match e with
      | .reservePublish part pool => ((s.pool? (part * 256 + pool)).bind (·.stale)).any fun t =>
          decide (t.toNat + 8000 ≤ s.bell.toNat)
      | _ => false).map Turn.event

/-- A home slice holds 768 KiB, 3,072 lines (R3): one that holds more gives up a line, of those it may drop (R262). -/
def State.evictDue (s : State) : Option Turn :=
  if s.homes.length ≤ 3072 then none else
    let full := fun (l : Loc) => decide (sliceOf l < 2048) && decide (3072 < (s.homes.filter fun e => sliceOf e.1 = sliceOf l).length)
    (s.events.findIdx? fun e => match e with
      | .homeSliceEviction l => full l && (s.home l).engine = [] && (s.home l).cluster.isNone && (s.home l).dirty.isNone &&
          !(s.home l).poison && !(match l with
            | .dev a => s.allows.any fun x => a ≤ x.1.2 && x.1.2 < a + 256
            | _ => false)
      | _ => false).map Turn.event

def State.urgent (s : State) : Option Turn := s.publishDue.orElse fun _ => s.evictDue

/-- The turn taken: where several may come next, any. (DESIGN CHOICE, log 3.) -/
def State.nextTurn (s : State) : Option Turn :=
  match s.urgent with
  | some t => some t
  | none =>
  match s.turns with
  | [] => none
  | [t] => some t
  | ts => ts[Config.pick s.free % ts.length]?

/-! ### Taking a turn -/

/-- The chosen sheaf's counts (R338). -/
def State.chosen (s : State) (c : Cand) (others : List Nat) : State :=
  let s1 := others.foldl (fun s u => s.modSheaf u fun sh => { sh with wait := sh.wait + 1 }) s
  let s2 := s1.modSheaf c.uid fun sh => { sh with
    wait := 0
    age := s.bell.toNat
    yielded := false
    lastIssue := s.issues + 1 }
  ({ s2 with cur := c.uid, issues := s.issues + 1 } : State).modCore c.core fun x =>
    { x with lastSheaf := aset x.lastSheaf (pipeKey c.part c.pipe) c.uid }

/-- A set-aside batch takes its sheaf's place for one attempt (R46). -/
def Sheaf.bringAside (sh : Sheaf) (i : Nat) : Sheaf :=
  match sh.aside[i]? with
  | none => sh
  | some a =>
    let sh1 := sh.modFibs a.lanes fun _ f => if f.status = .waiting && f.park = .none then { f with status := .ready } else f
    { sh1 with putBy := some (sh.batch, sh.hold), batch := a.lanes, hold := a.hold, aside := sh.aside.eraseIdx i }

/-- The attempt is over: what still waits is set aside again, what has completed joins later batches. -/
def Sheaf.putBack (sh : Sheaf) : Sheaf :=
  match sh.putBy with
  | none => sh
  | some p =>
    let left := sh.issuing
    let sh1 := { sh with batch := p.1, hold := p.2, putBy := none }
    if sh.hold.waiting && decide (left ≠ 0#32) then
      { sh1.modFibs left (fun _ f => { f with status := .waiting }) with aside := sh1.aside ++ [⟨left, sh.hold⟩] }
    else sh1

/-- A batch that waits while another fibre of its sheaf is ready may be set aside after 64 cycles (R46).
(DEDUCED, log 55.) -/
def State.offerAside (s : State) (u : Nat) : State :=
  match s.sheaf? u with
  | none => s
  | some sh =>
    if sh.hold.yields && decide (sh.readyLanes &&& ~~~sh.batch ≠ 0#32) && !s.events.any (· = .setAside u) then
      s.post (.setAside u)
    else s

/-! ### Trace (R424, R425) -/

/-- One cycle of a trace unit: whether it is recorded, and the unit after it (R425). -/
def TraceUnit.cycle (u : TraceUnit) (start stop : Bool) : Bool × TraceUnit :=
  if u.on || start then (true, { u with on := !stop }) else (false, u)

def State.modTrace (s : State) (core part : Nat) (f : TraceUnit → TraceUnit) : State :=
  s.modCore core fun c => { c with traces := amod c.traces part f }

/-- A condition has come true on a cycle on which the partition issues nothing. -/
def State.trigger (s : State) (core part : Nat) (start stop : Bool) : State :=
  s.modTrace core part fun u => (u.cycle start stop).2

/-- A record goes to its partition's buffer, which wraps or stops when full. -/
def State.record (s : State) (r : TraceRec) (wraps : Bool) : State :=
  let mine := fun (x : TraceRec) => x.core = r.core && x.part = r.part
  if (s.traces.filter mine).length < Config.traceRoom then { s with traces := s.traces ++ [r] }
  else if wraps then { s with traces := (s.traces.eraseP mine) ++ [r] }
  else s

/-- Whether an instruction of a launch at a PC makes a condition true. -/
def pcCond (c : TraceCond) (launch : Nat) (pc : Word) : Bool :=
  match c with
  | .pc l p => l = launch && p = pc
  | _ => false

/-- The trace of an instruction that a pipe has taken. (DEDUCED, log 51.) -/
def State.traceIssue (s : State) (c : Cand) : State :=
  match aget (s.coreState c.core).traces c.part with
  | none => s
  | some u =>
    let sh := s.shf
    let n := ((s.launch? sh.launch).map (·.number.toNat)).getD 0
    let x := u.cycle (pcCond u.start n sh.batchPc) (pcCond u.stop n sh.batchPc)
    let s1 := s.modTrace c.core c.part fun _ => x.2
    if x.1 then s1.record ⟨c.core, c.part, s.bell, c.slot, sh.batchPc, sh.issuing, c.pipe = 0⟩ u.wraps else s1

def Prep.traced (c : Cand) : Prep → Prep
  | .run i s => .run i (s.traceIssue c)
  | p => p

/-- Whether a condition waits for a bell that has come. -/
def bellCond (c : TraceCond) (b : Word) : Bool :=
  match c with
  | .bell t => decide (t.toNat ≤ b.toNat)
  | _ => false

/-- The bell reaches the value of a condition once. -/
def spent (c : TraceCond) (b : Word) : TraceCond := if bellCond c b then .never else c

/-- Trace conditions that the bell has made true. (DEDUCED, log 51.) -/
def State.pollBell (s : State) : State :=
  if (s.cores.all fun e => e.2.traces = []) then s else
    let unit := fun (u : TraceUnit) =>
      let start := bellCond u.start s.bell
      let stop := bellCond u.stop s.bell
      if start || stop then { (u.cycle start stop).2 with start := spent u.start s.bell, stop := spent u.stop s.bell } else u
    { s with cores := amap s.cores fun _ c => { c with traces := amap c.traces fun _ u => unit u } }

/-- Answers of page requests, and declined walks, that nobody waits for any more are dropped (Table 13.4). (DEDUCED, log 33.) -/
def State.prunePages (s : State) : State :=
  if s.pageReqs = [] && s.walkWaits = [] then s else
    let alive := fun (w : Nat × Option Nat) => w.1 = 0 || (match w.2 with
      | none => (s.sheaf? w.1).isSome
      | some k => ((s.sheaf? w.1).map fun sh => (aget sh.ops k).isSome).getD false || (s.seatOf k).isSome)
    { s with
      pageReqs := s.pageReqs.filter fun r => r.answer.isNone || r.waiters.any alive
      walkWaits := s.walkWaits.filter fun w => !w.declined || w.waiters.any alive }

/-- The end of a step: a set-aside attempt goes back, and the bell advances by a time the manual does not fix.
(DESIGN CHOICE, log 2.) -/
def State.endTurn (s : State) : State :=
  let s1 := ((s.modSheaf s.cur Sheaf.putBack).offerAside s.cur).prunePages
  ({ s1 with bell := s1.bell + BitVec.ofNat 64 (Config.stepTicks s1.free), free := s1.free + 1 } : State).pollBell

def endOut : Out → Out
  | .next s => .next s.endTurn
  | o => o

/-- What a turn runs. -/
inductive Task where
  | instr (i : Instr) (s : State)
  | event (e : Event) (s : State)
  | over (s : State)

def Prep.task : Prep → Task
  | .run i s => .instr i s
  | .over s => .over s

/-- The batch becomes a candidate, and its counts start anew (R337). -/
def State.ripe (s : State) (u : Nat) : State :=
  s.modSheaf u fun sh => { sh with hold := { sh.hold with waiting := false }, wait := 0, age := s.bell.toNat }

/-- A slot that a fetch has waited for is there: the batch becomes a candidate. -/
def Prep.arrived (fetching : Bool) : Prep → Prep
  | .run i s => if fetching then .over (s.ripe s.cur) else .run i s
  | p => p

def State.task (s : State) (t : Turn) : Task :=
  match t with
  | .issue c others => (((s.chosen c others).withBatch c.uid).prepare.traced c).task
  | .retry u => (({ s with cur := u } : State).prepare.arrived (((s.sheaf? u).map (·.hold.word)).getD none).isNone).task
  | .aside u i => (({ s with cur := u } : State).modSheaf u fun sh => sh.bringAside i).prepare.task
  | .event i => match s.events[i]? with
    | some e => .event e { s with events := s.events.eraseIdx i }
    | none => .over s

end Sys2Proof.Machine
end

