-- ==== Sys2Proof/Machine/MemEvents.lean ====
section
/-! DEFINITION. What happens to a memory access after its issue: translation of loads (R166, R294), reads and writes at
homes (R262), atomics (R182 to R186), responses, settlement (R281), and the delivery of deferred faults (R345). -/

namespace Sys2Proof.Machine

/-! ### Where a response goes -/

/-- The Tw of a write whose sheaf has ended with its launch: the record of the launch comes after it (R317). -/
def State.lateTw (s : State) (u : Nat) (tw : Word) : State :=
  let later := fun (x : Record) => if x.writers.contains u then { x with tw := maxWord [x.tw, tw] } else x
  { s with rings := amap s.rings fun _ r => { r with held := r.held.map later } }

/-- A response for a sheaf: a frosted tile's port records it (R369); a stopped partition's waits (R422); one for a sheaf
that has ended is discarded (R149). -/
def State.gate (s : State) (u : Nat) (r : Response) (k : State → Sheaf → State) : State :=
  match s.sheaf? u with
  | none => match r with
    | .tw x => s.lateTw u x.tw
    | .atom x => s.lateTw u x.tw
    | .ctr x => s.lateTw u x.tw
    | _ => s
  | some sh =>
    if frostedCore s sh.core && !s.isLifted sh then s.post (.lateArrival sh.core r)
    else if (s.coreState sh.core).stopped.getLsbD sh.part && !s.isLifted sh then
      s.modCore sh.core fun c => { c with receive := c.receive ++ [r] }
    else k s sh

/-- Lanes of an operation are done; with the last of them the operation is. -/
def Sheaf.opDone (sh : Sheaf) (k : Nat) (m : Mask) : Sheaf :=
  match aget sh.ops k with
  | none => sh
  | some o =>
    let due := o.due &&& ~~~m
    if due = 0 then { sh with ops := adel sh.ops k } else { sh with ops := aset sh.ops k { o with due := due } }

def maskOfNats (l : List Nat) : Mask := l.foldl (fun m n => m ||| (1#32 <<< (n % 32))) 0

/-- LOAD_RESPONSE (R168): the lanes still there are written full, all registers at once. (DEDUCED, log 24.) -/
def execLoadResponse (r : LoadResp) (s : State) : Out :=
  .next (s.gate r.sheaf (.load r) fun s sh =>
    match aget sh.ops r.op with
    | none => s
    | some o =>
      let m := maskOfNats (r.data.map (·.1))
      let act := m &&& o.due &&& ~~~o.gone
      let val := fun l : Fin 32 => (aget r.data l.val).getD 0
      s.modSheaf r.sheaf fun sh =>
        let sh1 := match o.kind with
          | .load d w sgn _ => sh.writeLoad d (widthRegs w) act fun l => extendLoad w sgn (val l)
          | .sload d | .token d => match r.data with
            | e :: _ => sh.writeS d (e.2.setWidth 64)
            | [] => sh
          | .pad d w64 => sh.writeLoad d (if w64 then 2 else 1) act val
          | .pgdrop d _ => sh.writeLoad d 1 act val
          | _ => sh
        sh1.opDone r.op m)

/-- TW_RETURN (R170): the horizon of each issuing fibre rises. -/
def raiseH (sh : Sheaf) (m : Mask) (tw : Word) : Sheaf :=
  sh.modFibs m fun _ f => { f with horizon := maxWord [f.horizon, tw] }

def State.twBack (s : State) (u k : Nat) (lanes : Mask) (tw : Word) : State :=
  match s.sheaf? u with
  | none => s
  | some sh =>
    let o := aget sh.ops k
    let gone := (o.map (·.gone)).getD 0
    (s.modSheaf u fun sh => (raiseH sh (lanes &&& ~~~gone) tw).opDone k lanes).modBed sh.bed fun b =>
      { b with tw := maxWord [b.tw, tw] }

def execTwReturn (r : TwResp) (s : State) : Out :=
  .next (s.gate r.sheaf (.tw r) fun s _ => s.twBack r.sheaf r.op r.lanes r.tw)

/-- ATOMIC_RETURN (R183): the old value is written full, and the horizon rises. -/
def execAtomicReturn (r : AtomResp) (s : State) : Out :=
  .next (s.gate r.sheaf (.atom r) fun s sh =>
    match aget sh.ops r.op with
    | none => s
    | some o =>
      let m := maskOfNats (r.vals.map (·.1))
      let act := m &&& o.due &&& ~~~o.gone
      let val := fun l : Fin 32 => (aget r.vals l.val).getD 0
      let s1 := s.modSheaf r.sheaf fun sh => match o.kind with
        | .atomic (some d) w64 => if w64 then sh.writePair d act val else sh.writeRow d act fun l => loHalf (val l)
        | _ => sh
      s1.twBack r.sheaf r.op m r.tw)

/-! ### Faults found after issue -/

/-- A fault found for lanes of an operation sets out for them (R345). -/
def State.sendFault (s : State) (u k : Nat) (fs : List LaneFault) : State :=
  match s.sheaf? u, leadingFault fs with
  | some sh, some lead =>
    let pc := ((aget sh.ops k).map (·.pc)).getD 0
    let m := faultMask fs
    (s.modSheaf u fun sh => { sh with ops := amod sh.ops k fun o => { o with faulted := o.faulted ||| m } }).post
      (.deferredFault ⟨u, m, lead.cause, lead.addr, lead.info, pc, some k, none, lead.log⟩)
  | _, _ => s

/-- Whether a CXL port holds the accesses to a line, or has failed them (R410). -/
def State.portHolds (s : State) (line : Loc) : Bool :=
  if s.dev.cxlDown = [] then false else
    match line with
    | .dev a => ((s.frameOf line).map (·.tier)).getD 0 = 1 && s.dev.cxlDown.any fun e => e.1 = Config.portOf (a / 65536) % 4
    | _ => false

def State.portFails (s : State) (line : Loc) : Bool :=
  if s.dev.cxlFailed = [] then false else
    match line with
    | .dev a => ((s.frameOf line).map (·.tier)).getD 0 = 1 && s.dev.cxlFailed.contains (Config.portOf (a / 65536) % 4)
    | _ => false

/-- A charged write that never reaches its home gives its sectors back. -/
def State.giveBack (s : State) (line : Loc) (cl : Nat) (charged : Bool) : State :=
  match s.chargePool line with
  | some k => if charged then s.refund k cl 4 else s
  | none => s

/-- Faults for the lanes of an operation at their own addresses. -/
def opFaults (o : OpRec) (m : Mask) (cause : BitVec 8) (info : W32) (own log : Bool) : List LaneFault :=
  (lanesIn m).map fun l => ⟨l, cause, if own then o.addrs[l] else 0, info, log⟩

def State.failLanes (s : State) (u k : Nat) (m : Mask) (cause : BitVec 8) (info : W32) (own log : Bool) : State :=
  match (s.sheaf? u).bind fun sh => aget sh.ops k with
  | some o => s.sendFault u k (opFaults o (m &&& o.due) cause info own log)
  | none => s

/-! ### PAGE_WALK: a load's translation (R166, R294, R297) -/

def opBytes (k : OpKind) : Nat :=
  match k with
  | .load _ w _ _ => widthBytes w
  | _ => 8

def isLdb (k : OpKind) : Bool :=
  match k with
  | .load _ _ _ b => b
  | _ => false

/-- Whether a request of a core about a line is on its way, which a later load of it must follow (R261). -/
def State.mustFollow (s : State) (core : Nat) (line : Loc) : Bool :=
  s.events.any fun e => match e with
    | .homeRead m => m.core = core && m.line = line
    | .atomicExecution m => m.core = core && lineOf m.word = line
    | _ => false

/-- The sector of a line that a lane's access touches. -/
def sectorOf (w : WLane) (n : Nat) : BitVec 4 := sectorMask (locOff w.loc) n

/-- Miss-status entries of a core in use (R247): one for each sector on its way. -/
def State.missEntries (s : State) (core : Nat) : Nat :=
  (s.events.map fun e => match e with
    | .homeRead m => if m.core = core then m.mask.cpop.toNat else 0
    | _ => 0).sum

/-- Whether a line request on its way brings a sector to a core's L1 for a later load (R247): no atomic of the core follows it. -/
def joins (core : Nat) (line : Loc) (k : BitVec 4) : List Event → Option HomeReq
  | [] => none
  | e :: t =>
    match joins core line k t with
    | some m => some m
    | none => match e with
      | .homeRead m =>
        if m.core = core && m.line = line && !m.ldb && m.prefetch ≠ some false && k &&& ~~~m.mask = 0 &&
            !(t.any fun d => match d with
              | .atomicExecution a => a.core = core && lineOf a.word = line
              | _ => false) then some m else none
      | _ => none

/-- Stores of a cluster to a line that stand behind a request on its way (R249). -/
def storesBehind (cluster : Nat) (m : HomeReq) (es : List Event) : Nat :=
  ((es.dropWhile (· ≠ .homeRead m)).filter fun e => match e with
    | .homeWrite ⟨.fibres _ _ _ core, l, _, _, _⟩ => l = m.line && clusterOf core = cluster
    | _ => false).length

/-- A load waits on the data of an earlier request (R247). -/
def State.joinRead (s : State) (m : HomeReq) (w : LineWait) : State :=
  let w' := { w with seen := storesBehind (clusterOf m.core) m s.events }
  { s with events := s.events.map fun e => if e = .homeRead m then .homeRead { m with who := m.who ++ [w'] } else e }

/-- The answer to lanes of a load from a line's bytes. -/
def State.answerLoad (s : State) (u k : Nat) (bytes : List Byte) (lanes : List (Nat × Nat)) (n : Nat) : State :=
  match lanes with
  | [] => s
  | _ => s.post (.loadResponse ⟨u, k, lanes.map fun e => (e.1, lineValue bytes e.2 n)⟩)

def offsOf (ws : List WLane) : List (Nat × Nat) := ws.map fun w => (w.lane.val, locOff w.loc)

/-- The lanes of a load that miss its L1 and every request on its way: from the cluster cache, else from the line's home, a
token taken (R340) and an entry for each sector (R247). One request carries the largest freshness floor of its lanes.
(DESIGN CHOICE, log 70.) -/
def State.sendMiss (s : State) (u k : Nat) (sh : Sheaf) (o : OpRec) (line : Loc) (ws : List WLane) (behind : Bool) :
    State × Mask :=
  let n := opBytes o.kind
  let ldb := isLdb o.kind
  let m := ws.foldl (fun m w => m ||| sectorOf w n) 0#4
  let floor := maxWord (ws.map fun w => sh.fib w.lane 0 (·.floor))
  if 256 < s.missEntries sh.core + m.cpop.toNat then (s, 0) else
  match s.getToken (s.budgetKey sh) sh.core (.op u k) (decide (sh.ops.map (·.1) = [k])) with
  | none => (s.waitToken (s.budgetKey sh) sh.core (.op u k), 0)
  | some s1 =>
    match (if ldb || behind then none else s1.clusterServes sh.core line floor m) with
    | some c => (((s1.fillL1 sh.core line c m).sawLine u (wmask ws) (clusterOf sh.core) line).answerLoad u k c.bytes
        (offsOf ws) n, wmask ws)
    | none => (s1.post (.homeRead ⟨sh.core, line, ldb, none, m, [⟨u, k, offsOf ws, 0⟩]⟩), wmask ws)

/-- The lanes of a load that touch one line (R246): each from L1 (R168), or with an earlier request for its sector (R247), or
by a request of their own. The lanes sent are returned. -/
def State.sendLine (s : State) (u k : Nat) (sh : Sheaf) (o : OpRec) (line : Loc) (ws : List WLane) : State × Mask :=
  let n := opBytes o.kind
  match line with
  | .peer p a =>
    if s.peerBehind line then (s, 0) else
    match s.getToken (s.budgetKey sh) sh.core (.op u k) (decide (sh.ops.map (·.1) = [k])) with
    | some s1 => ((s1.count line).askPeer ⟨p, a, .read 256, ((ws.head?.map (·.va)).map vaLine).getD 0, s.bell,
        .load u k (wmask ws) line⟩, wmask ws)
    | none => (s.waitToken (s.budgetKey sh) sh.core (.op u k), 0)
  | _ =>
    let own := isLdb o.kind
    let behind := s.mustFollow sh.core line
    let hit := if own || behind then [] else ws.filter fun w =>
      (s.l1Serves sh.core line (sh.fib w.lane 0 (·.floor)) (sectorOf w n)).isSome
    let s1 := match aget s.l1 (sh.core, line) with
      | some c => if hit = [] then s else (s.sawLine u (wmask hit) (clusterOf sh.core) line).answerLoad u k c.bytes
          (offsOf hit) n
      | none => s
    let r := (ws.filter fun w => !hit.contains w).foldl (fun (r : State × Mask × List WLane) w =>
      match (if own then none else joins sh.core line (sectorOf w n) r.1.events) with
      | some m => (r.1.joinRead m ⟨u, k, offsOf [w], 0⟩, r.2.1 ||| wmask [w], r.2.2)
      | none => (r.1, r.2.1, r.2.2 ++ [w])) (s1, wmask hit, [])
    if r.2.2 = [] then (r.1, r.2.1) else
      let q := r.1.sendMiss u k sh o line r.2.2 behind
      (q.1, r.2.1 ||| q.2)

/-- A line of a prefetch (R178): nothing where L1 or a request on its way has it; else from the cluster cache or the home. A
peer's line is not prefetched (R308). The lanes done with are returned. -/
def State.sendPrf (s : State) (u k : Nat) (sh : Sheaf) (l1 : Bool) (line : Loc) (ws : List WLane) : State × Mask :=
  let m := ws.foldl (fun m w => m ||| sectorOf w 1) 0#4
  match line with
  | .peer _ _ => (s, wmask ws)
  | _ =>
    if (l1 && (s.l1Serves sh.core line 0 m).isSome) || (joins sh.core line m s.events).isSome then (s, wmask ws)
    else if 256 < s.missEntries sh.core + m.cpop.toNat then (s, 0)
    else match s.getToken (s.budgetKey sh) sh.core (.op u k) (decide (sh.ops = [])) with
      | none => (s.waitToken (s.budgetKey sh) sh.core (.op u k), 0)
      | some s1 =>
        match (if s.mustFollow sh.core line then none else s1.clusterServes sh.core line 0 m) with
        | some c => (if l1 then s1.fillL1 sh.core line c m else s1, wmask ws)
        | none => (s1.post (.homeRead ⟨sh.core, line, false, some l1, m, []⟩), wmask ws)

/-- Lanes of a load whose fibres have left before it was sent are dropped (R149). -/
def Sheaf.dropGone (sh : Sheaf) (k : Nat) : Sheaf :=
  match aget sh.ops k with
  | some o => match o.kind with
    | .sload _ => sh
    | _ => if o.gone &&& ~~~o.sent &&& o.due = 0 then sh else sh.opDone k (o.gone &&& ~~~o.sent)
  | none => sh

/-- Watch hits of a load's lanes (R420). -/
def State.loadHits (s : State) (u : Nat) (sh : Sheaf) (o : OpRec) (m : Mask) : List WatchHit :=
  if s.watches = [] then [] else
    (lanesIn m).flatMap fun l =>
      ((s.watchesFor (dieOf sh.core) (s.asnOf sh) o.addrs[l] (opBytes o.kind) .load).filter fun r =>
        !o.watched.contains (l.val, r)).map fun r => ⟨dieOf sh.core, r, u, some l.val, none, o.pc, o.addrs[l], .load, []⟩

/-- The walk of a prefetch (R178): lanes that would fault are dropped, a malformed entry being logged (R242); those whose
translation waits ask for it (R301) and are tried again. -/
def State.prfStep (s : State) (u k : Nat) (sh : Sheaf) (r : PrfRec) : State :=
  let (ok, fs, ws) := s.resolve sh (r.due &&& sh.held) (fun l => r.addrs[l]) .prefetch
  let cl := clusterOf sh.core
  let asn := s.asnOf sh
  let s1 := ws.foldl (fun s w => s.askFor cl asn w.1 (u, some k) w.2) s
  let s2 := fs.foldl (fun s f => s.spend asn f.addr (u, some k)) s1
  let s3 := ok.foldl (fun s w => s.noteTlb cl asn w.va w.pte w.entry) s2
  let q := (linesOf ok).foldl (fun (q : State × Mask) line =>
    let x := q.1.sendPrf u k sh r.l1 line (ok.filter fun w => lineOf w.loc = line)
    (x.1, q.2 ||| x.2)) (s3, 0#32)
  let due := r.due &&& sh.held &&& ~~~q.2 &&& ~~~faultMask fs
  if due = 0 then q.1.modSheaf u fun sh => { sh with prfs := adel sh.prfs k }
  else (q.1.modSheaf u fun sh => { sh with prfs := aset sh.prfs k { r with due := due } }).again (.pageWalk u k)

/-- The walk of a load (R166): each lane still due and not sent is translated and, once the earlier loads of its fibre to the
line have gone (R261), sent; those that fail fault where they stand, those that wait are tried again. -/
def State.loadStep (s : State) (u k : Nat) (sh : Sheaf) (o : OpRec) : State :=
  let m := o.due &&& ~~~o.sent &&& ~~~o.faulted
  let (ok, fs, ws) := s.resolve sh m (fun l => o.addrs[l]) .load
  let cl := clusterOf sh.core
  let asn := s.asnOf sh
  let s1 := ws.foldl (fun s w => s.askFor cl asn w.1 (u, some k) w.2) s
  let s2 := ok.foldl (fun s w => s.noteTlb cl asn w.va w.pte w.entry) s1
  let s3 := (fs.foldl (fun s f => s.spend asn f.addr (u, some k)) s2).sendFault u k fs
  let hits := s3.loadHits u sh o (wmask ok)
  let s4 := s3.raiseHits hits
  let before := sh.ops.takeWhile fun e => e.1 ≠ k
  let free := ok.filter fun w => (!hits.any fun h => h.lane = some w.lane.val) && !s.behindLoad sh before w
  let r := (linesOf free).foldl (fun (r : State × Mask) line =>
    let q := r.1.sendLine u k sh o line (free.filter fun w => lineOf w.loc = line)
    (q.1, r.2 ||| q.2)) (s4, 0#32)
  let s5 := r.1.modSheaf u fun sh => { sh with ops := amod sh.ops k fun o => { o with sent := o.sent ||| r.2 } }
  if m &&& ~~~r.2 &&& ~~~faultMask fs = 0 then s5 else s5.again (.pageWalk u k)

/-- PAGE_WALK: the translation of a load (R166), of a prefetch (R178), and the wait of a PGDROP for the accesses under its
pages' old translations (R180). A load of a frosted tile or of a lifted bed is translated after thaw or replant (R298). -/
def execPageWalk (u k : Nat) (s : State) : Out :=
  .next (
    match s.sheaf? u with
    | none => s
    | some sh0 =>
      let sh := sh0.dropGone k
      match aget sh.ops k, aget sh.prfs k with
      | some o, _ =>
        match o.kind with
        | .pgdrop _ pages => s.dropStep u k sh0 o pages
        | _ => if frostedCore s sh0.core || s.isLifted sh0 then s.again (.pageWalk u k)
          else (s.modSheaf u fun _ => sh).loadStep u k sh o
      | none, some r => if frostedCore s sh0.core || s.isLifted sh0 then s.again (.pageWalk u k) else s.prfStep u k sh r
      | none, none => s.modSheaf u fun _ => sh)

/-! ### HOME_READ (R262) -/

/-- A line's bytes as a load that comes after the first n of its cluster's stores on their way reads them (R249). -/
def State.bytesFor (s : State) (cl : Nat) (line : Loc) (n : Nat) : List Byte :=
  (((s.storesOnWay cl line).take n).flatten).foldl (fun l e => l.set e.1 e.2) (s.homeBytes line 256)

/-- The loads that wait on a line request are answered. -/
def State.answerReads (s : State) (m : HomeReq) : State :=
  m.who.foldl (fun s w =>
    let n := ((s.sheaf? w.sheaf).bind fun sh => (aget sh.ops w.op).map fun o => opBytes o.kind).getD 8
    let cl := clusterOf m.core
    let s1 := if w.seen = 0 then s else s.sawLine w.sheaf (maskOfNats (w.lanes.map (·.1))) cl m.line
    s1.answerLoad w.sheaf w.op (s1.bytesFor cl m.line w.seen) w.lanes n) s

def State.failReads (s : State) (m : HomeReq) (cause : BitVec 8) (info : W32) (own log : Bool) : State :=
  m.who.foldl (fun s w => s.failLanes w.sheaf w.op (maskOfNats (w.lanes.map (·.1))) cause info own log) s

/-- A read at a home: it waits for an owning engine and for a port that retrains; LDB takes the home's bytes and no
lease; a fill is leased, counted and installed, but not in the L1 of a frosted tile (R364); a poisoned line faults its
readers (R408). -/
def execHomeRead (m : HomeReq) (s : State) : Out :=
  .next (
    if s.portFails m.line then s.failReads m 0x03 0 true true
    else if s.engineHolds m.line none || s.portHolds m.line then s.again (.homeRead m)
    else if (s.home m.line).poison then s.failReads m 0x0E 0x0011 false false
    else
      let cl := clusterOf m.core
      let s1 := s.recall m.line (some cl)
      if m.ldb then (s1.count m.line).answerReads m
      else
        let (e, s2) := s1.grant m.line
        let s3 := ((if m.prefetch.isSome then s2 else s2.count m.line).answerReads m).fillCluster cl m.line e m.mask
        match aget s3.cluster (cl, m.line) with
        | none => s3
        | some c => if m.prefetch = some false || frostedCore s3 m.core then s3 else s3.fillL1 m.core m.line c m.mask)

/-! ### HOME_WRITE (R262) -/

/-- A write at a home waits for an owning engine, a page that moves (R289), a port that retrains, and a die without a free sector
(R278). -/
def State.writeWaits (s : State) (line : Loc) : Bool :=
  s.engineHolds line none || s.moving line || s.portHolds line || s.starves line

/-- Whether an atomic to a word of a line is between its load and its store (R185), other than the one named. -/
def State.splitOn (s : State) (line : Loc) (but : Option AtomMsg) : Bool :=
  s.events.any fun e => match e with
    | .atomicExecution a => lineOf a.word = line && a.read.isSome && some a ≠ but
    | _ => false

/-- Whether atomics of a batch whose line another of its messages paid for are on their way (R167): its block is not settled
before they have arrived. -/
def State.atomsDue (s : State) (line : Loc) : Bool :=
  s.events.any fun e => match e with
    | .atomicExecution a => lineOf a.word = line && !a.charged
    | _ => false

/-- HOME_WRITE: arrival with refund (R281), the bytes, and the completion time; CWB writes the line back (R179), and waits while
that finds no free sector (R278). A write of 64 or 128 bits is seen whole. (DESIGN CHOICE, log 75.) -/
def execHomeWrite (m : WriteMsg) (s : State) : Out :=
  .next (
    match m.src with
    | .fibres u k lanes core =>
      match m.line with
      | .peer p a => if s.engineHolds m.line none then s.again (.homeWrite m)
        else (s.count m.line).askPeer ⟨p, a, if m.cwb then .cwb else .write m.bytes, 0, s.bell, .write u k lanes⟩
      | _ =>
      if s.portFails m.line then (s.failLanes u k lanes 0x03 1 true true).giveBack m.line (clusterOf core) m.charged
      else if s.writeWaits m.line || s.splitOn m.line none || (m.cwb && s.atomsDue m.line) then s.again (.homeWrite m)
      else if m.cwb && ((s.settleLine m.line).home m.line).dirty.isSome then (s.settleLine m.line).again (.homeWrite m)
      else
        let cl := clusterOf core
        let s1 := (s.recall m.line (some cl)).count m.line
        let s2 := if m.cwb then s1.settleLine m.line else s1.arriveAt m.line cl m.charged
        let (tw, s3) := s2.homeWrite m.line m.bytes
        s3.post (.twReturn ⟨u, k, lanes, tw⟩)
    | .hub =>
      if s.writeWaits m.line || s.splitOn m.line none then s.again (.homeWrite m)
      else (((s.recall m.line none).arriveAt m.line hubCluster m.charged).homeWrite m.line m.bytes).2)

/-! ### ATOMIC_EXECUTION (R182 to R186, R120, R264) -/

def aopInt {n : Nat} (op : Aop) (old b : BitVec n) : BitVec n :=
  match op with
  | .add => old + b
  | .and => old &&& b
  | .or => old ||| b
  | .xor => old ^^^ b
  | .mins => if b.slt old then b else old
  | .minu => if b.ult old then b else old
  | .maxs => if old.slt b then b else old
  | .maxu => if old.ult b then b else old
  | _ => b

/-- Table 7.3 at 32 bits. -/
def aop32 (op : Aop) (old b : W32) : W32 :=
  match op with
  | .fadd => (fadd32 .rn old b).1
  | .fmin => (fminmax32 false old b).1
  | .fmax => (fminmax32 true old b).1
  | _ => aopInt op old b

/-- One operation's new value (R182, R186). -/
def atomNew (fn : AtomFn) (w64 : Bool) (old b c : Word) : Word :=
  match fn with
  | .cas => if w64 then (if old = c then b else old) else if loHalf old = loHalf c then zext64 (loHalf b) else old
  | .rmw op => if w64 then aopInt op old b else zext64 (aop32 op (loHalf old) (loHalf b))

/-- Operations applied in order: the final value and each one's old value (R184). -/
def atomFold (fn : AtomFn) (w64 : Bool) : Word → List (Nat × Word × Word) → Word × List (Nat × Word)
  | x, [] => (x, [])
  | x, (l, b, c) :: t =>
    let r := atomFold fn w64 (atomNew fn w64 x b c) t
    (r.1, (l, x) :: r.2)

/-- FP32 addends combined (R120): the partial of those so far, and each one's return. -/
def faddFold (old : W32) : Option W32 → List (Nat × Word × Word) → W32 × List (Nat × Word)
  | none, [] => (old, [])
  | some p, [] => ((fadd32 .rn old p).1, [])
  | none, (l, b, _) :: t => let r := faddFold old (some (loHalf b)) t; (r.1, (l, zext64 old) :: r.2)
  | some p, (l, b, _) :: t =>
    let r := faddFold old (some (fadd32 .rn p (loHalf b)).1) t
    (r.1, (l, zext64 (fadd32 .rn old p).1) :: r.2)

def atomAll (fn : AtomFn) (w64 : Bool) (old : Word) (ls : List (Nat × Word × Word)) : Word × List (Nat × Word) :=
  if fn = .rmw .fadd && !w64 then let r := faddFold (loHalf old) none ls; (zext64 r.1, r.2) else atomFold fn w64 old ls

/-- A cluster-scope atomic executes at the cluster cache, which takes the line owned (Table 7.4, R264). -/
def atCluster (m : AtomMsg) : Bool := scopeRank m.scope ≤ 3 && isDev m.word

/-- Whether the scope of an atomic includes the issuer of another, as far as clusters tell (R185). (DEDUCED, log 71.) -/
def includesIssuer (m x : AtomMsg) : Bool :=
  clusterOf m.core = clusterOf x.core || (m.scope = .die && dieOf m.core = dieOf x.core) || decide (5 ≤ scopeRank m.scope)

/-- Two atomics to one word are atomic with respect to each other (R185). -/
def together (m x : AtomMsg) : Bool := includesIssuer m x && includesIssuer x m

/-- Whether an atomic may act as a load followed by a store, since one of a wider scope with which it is not atomic is on its
way to the word (R185). -/
def State.maySplit (s : State) (m : AtomMsg) : Bool :=
  s.events.any fun e => match e with
    | .atomicExecution x => x.word = m.word && !together m x && decide (scopeRank m.scope ≤ scopeRank x.scope)
    | _ => false

/-- Whether an atomic waits for one that has loaded the word and not stored to it: they are atomic to each other, or this
one is the narrower. -/
def State.splitBars (s : State) (m : AtomMsg) : Bool :=
  s.events.any fun e => match e with
    | .atomicExecution x => lineOf x.word = lineOf m.word && x.read.isSome && (x.word ≠ m.word || together m x ||
        decide (scopeRank m.scope < scopeRank x.scope))
    | _ => false

/-- Whether the combining buffer may merge an atomic with an earlier one (R184): relaxed, same word, AOP and SCOPE, arrived
within 16 cycles of it. -/
def mateOf (m x : AtomMsg) : Bool :=
  m.merge && x.merge && x.read.isNone && x.word = m.word && x.w64 = m.w64 && x.fn = m.fn && x.scope = m.scope &&
    decide (x.bell.toNat ≤ m.bell.toNat + 18)

/-- The atomics that the cluster's combining buffer merges with one, in the order of their arrival: of those that follow it
at once on its way, any (R184, R121). -/
def State.mates (s : State) (m : AtomMsg) : List AtomMsg :=
  let way := s.events.filter fun e => e.channel = some (clusterOf m.core, lineOf m.word)
  let ms := (way.map fun e => match e with
    | .atomicExecution x => if mateOf m x then some x else none
    | _ => none).takeWhile (·.isSome)
  ((ms.filterMap id).zipIdx.filter fun e => Config.pick (s.free + e.2) % 2 = 1).map (·.1)

/-- Answers of an atomic: old values to the lanes, or the completion time alone. -/
def State.answerAtom (s : State) (m : AtomMsg) (vals : List (Nat × Word)) (tw : Word) : State :=
  if m.ret then s.post (.atomicReturn ⟨m.sheaf, m.op, vals, tw⟩)
  else s.post (.twReturn ⟨m.sheaf, m.op, maskOfNats (m.lanes.map (·.1)), tw⟩)

/-- The word's bytes before an atomic. -/
def State.wordAt (s : State) (w : Loc) (n : Nat) : Word := BitVec.ofNat 64 (bytesToNat (s.homeBytes w n))

/-- The cluster takes a line owned by a write without bytes (R264). -/
def State.takeOwned (s : State) (line : Loc) (cl : Nat) : State :=
  let (tw, s1) := s.homeWrite line []
  s1.setHome line { s1.home line with cluster := some (cl, tw) }

/-- The bytes of an atomic executed at a cluster cache that owns the line, and its Tw (R264). -/
def State.writeOwned (s : State) (line : Loc) (cl : Nat) (bs : List (Nat × Byte)) : Word × State :=
  let s1 := (s.putBytes line bs).askRelief line bs
  let tw0 := ((s1.home line).cluster.map (·.2)).getD 0
  (maxWord [s1.bell, tw0, s1.grantedOn cl line], { s1 with cluster := amod s1.cluster (cl, line) fun c => c.put bs })

/-- The atomics of one word, in their order, where they execute: the counters named are rolled first (R195). -/
def State.runAtoms (s : State) (m : AtomMsg) (ms : List AtomMsg) : State :=
  let line := lineOf m.word
  let cl := clusterOf m.core
  let n := if m.w64 then 8 else 4
  let here := List.range n |>.map fun i => (locOff m.word + i, (0 : Byte))
  let s1 := (s.countersIn line here).foldl State.rollAt s
  let s2 := if atCluster m && s1.owns line cl then s1 else (s1.recall line none).count line
  let s3 := ms.foldl (fun s (x : AtomMsg) => s.arriveAt line cl x.charged) s2
  let r := atomAll m.fn m.w64 (m.read.getD (s3.wordAt m.word n)) (ms.flatMap fun x => x.lanes)
  let bytes := (natToBytes n r.1.toNat).zipIdx.map fun e => (locOff m.word + e.2, e.1)
  let (tw, s4) := if atCluster m then
      (if s3.owns line cl then s3 else s3.takeOwned line cl).writeOwned line cl bytes
    else
      let (tw, s4) := s3.homeWrite line bytes
      (tw, { s4 with cluster := amod s4.cluster (cl, line) fun c => { c with valid := 0 } })
  let s5 : State := ms.foldl (fun (s : State) (x : AtomMsg) => { s with l1 := adel s.l1 (x.core, line) }) s4
  (ms.foldl (fun (q : State × List (Nat × Word)) (x : AtomMsg) =>
    (q.1.answerAtom x (q.2.take x.lanes.length) tw, q.2.drop x.lanes.length)) (s5, r.2)).1

/-- ATOMIC_EXECUTION. -/
def execAtomicExecution (m : AtomMsg) (s : State) : Out :=
  .next (
    let line := lineOf m.word
    let mask := maskOfNats (m.lanes.map (·.1))
    if !isDev m.word && (match m.word with
        | .peer .. => true
        | _ => false) then (if s.engineHolds line none then s.again (.atomicExecution m) else s.askAtom m)
    else if s.portFails line then (s.failLanes m.sheaf m.op mask 0x03 1 true true).giveBack line (clusterOf m.core) m.charged
    else if s.writeWaits line || s.splitBars m then s.again (.atomicExecution m)
    else if (s.home line).poison then
      (s.failLanes m.sheaf m.op mask 0x0E 0x0011 false false).giveBack line (clusterOf m.core) m.charged
    else if m.read.isNone && s.maySplit m && decide (Config.pick s.free % 2 = 1) then
      ({ s with free := s.free + 1 } : State).again
        (.atomicExecution { m with read := some (s.wordAt m.word (if m.w64 then 8 else 4)) })
    else
      let others := if m.read.isSome then [] else s.mates m
      ({ s with events := s.events.filter fun e => match e with
          | .atomicExecution x => !others.contains x
          | _ => true } : State).runAtoms m (m :: others))

/-! ### SETTLE and HOME_SLICE_EVICTION -/

/-- SETTLE (R281): the natural writeback of a dirty line, which an owning engine holds back. -/
def execSettle (line : Nat) (s : State) : Out :=
  .next (let l := lineOf (.dev line)
    if s.engineHolds l none || s.portHolds l || s.atomsDue l then s.again (.settle line) else
      let s1 := s.settleLine l
      if (s1.home l).dirty.isSome then s1.again (.settle line) else s1)

/-- Whether a line holds a counter some of whose allowances are held (R194). -/
def State.allowanceIn (s : State) (line : Loc) : Bool :=
  match line with
  | .dev a => s.allows.any fun e => a ≤ e.1.2 && e.1.2 < a + 256
  | _ => false

/-- Whether the host agent keeps a line for a lease that runs (R304). -/
def State.hostLease (s : State) (line : Loc) (h : HomeLine) : Bool :=
  match line with
  | .host _ => decide (s.bell.toNat < h.leasemax.toNat)
  | _ => false

/-- HOME_SLICE_EVICTION (R262): the watermark rises to the line's leasemax, and its state is dropped; not while an allowance of
a counter in it is held (R194). -/
def execHomeSliceEviction (line : Loc) (s : State) : Out :=
  .next (
    match aget s.homes line with
    | none => s
    | some h =>
      if s.allowanceIn line || s.hostLease line h then s.again (.homeSliceEviction line) else
      let sl := sliceOf line
      let w := maxWord [(aget s.watermarks sl).getD 0, h.leasemax]
      let s1 : State := { s with watermarks := aset s.watermarks sl w }
      if h.engine = [] && h.cluster.isNone && h.dirty.isNone && !h.poison then { s1 with homes := adel s1.homes line }
      else ({ s1 with homes := aset s1.homes line { h with lastwrite := none, leasemax := w } } : State).post
        (.homeSliceEviction line))

/-! ### DEFERRED_FAULT (R345, Table 15.1) -/

/-- Lanes whose instruction in progress has acted already: the fault waits until it has completed (Table 15.1). -/
def Sheaf.midway (sh : Sheaf) : Mask :=
  (if 2 ≤ sh.hold.phase then sh.issuing else 0) |||
    sh.aside.foldl (fun m a => if 2 ≤ a.hold.phase then m ||| a.lanes else m) 0

/-- The PC a fibre resumes at when a full/empty access has already acted for its lane (R177, R346). -/
def Sheaf.actedPc (sh : Sheaf) (l : Fin 32) : Option Word :=
  let past := fun (h : Hold) => if hasLane h.acted l && h.phase = 0 then h.word.map fun w => nextPc (sh.pcOf l) w else none
  if hasLane sh.issuing l then past sh.hold
  else (sh.aside.find? fun a => hasLane a.lanes l).bind fun a => past a.hold

/-- A fibre leaves whatever it stands at (Table 15.1): it is stopped, at its saved PC. A token s[D] of an ARRV whose last
fibre still due leaves so is written with the bed's phase then. (DESIGN CHOICE, log 63.) -/
def State.deliverLane (s : State) (u : Nat) (l : Fin 32) : State :=
  match s.sheaf? u with
  | none => s
  | some sh =>
    let one : Mask := 1#32 <<< l.val
    match sh.lanes[l] with
    | .held f =>
      let pc := if f.park = .none then (sh.actedPc l).getD f.pc else f.parkPc
      let stop := fun (sh : Sheaf) => (sh.unbatch one).modFibs one fun _ f =>
        { f with pc := pc, status := .onFault, park := .none }
      match f.park with
      | .bar k => (s.leaveArrivedAt sh.bed u k one).modSheaf u stop
      | .arrv k _ d =>
        let phase := ((s.bed? sh.bed).map fun b => (b.bar k).phase).getD 0
        s.modSheaf u fun sh =>
          let rs := sh.arrvs.map fun r => if r.d = d then { r with due := r.due &&& ~~~one } else r
          let sh1 := (rs.filter fun r => r.due = 0).foldl (fun sh r =>
            { sh.writeS r.d (zext64 phase) with ops := adel sh.ops r.op }) { sh with arrvs := rs.filter fun r => r.due ≠ 0 }
          stop sh1
      | .rsmp _ _ d _ => s.modSheaf u fun sh =>
          let mine := akeys sh.ops fun _ o => o.kind = .rsmp d && hasLane o.due l
          let sh1 := mine.foldl (fun sh k => sh.opDone k one) sh
          let back := fun (r : Row) => { r with full := r.full ||| one }
          (stop { sh1 with rows := amod sh1.rows d.toNat back }).freeCheck d
      | _ => s.modSheaf u fun sh => stop { sh with
          frames := sh.frames.map fun fr => if f.status = .atRte then { fr with rte := fr.rte &&& ~~~one } else fr }
    | _ => s

/-- The replay record a deferred fault moves into its frame (R354). -/
def Sheaf.takeReplay (sh : Sheaf) (m : FaultMsg) (lanes : Mask) : Option Replay :=
  match m.cmd with
  | some c => some (.command sh.core sh.seat c)
  | none => (m.op.bind fun k => aget sh.ops k).bind fun o => match o.kind with
    | .load .. | .sload _ => some (.load { o with due := lanes, sent := 0, watched := [], faulted := 0 })
    | _ => none

/-- Lanes of a fault whose fibre has left since the operation was issued. -/
def Sheaf.goneFor (sh : Sheaf) (m : FaultMsg) : Mask :=
  match m.cmd with
  | some c => sh.ops.foldl (fun x e => if e.2.kind = .engine c then x ||| e.2.gone else x) 0
  | none => ((m.op.bind fun k => aget sh.ops k).map (·.gone)).getD 0

/-- DEFERRED_FAULT: delivered to each fibre where it stands, with one frame; held with an escalation record; put off for a
fibre whose instruction has acted; a command whose batch has no fibre left ends with CODE 0x12 (R351).
(DEDUCED, log 48.) -/
def execDeferredFault (m : FaultMsg) (s : State) : Out :=
  .next (s.gate m.sheaf (.fault m) fun s sh =>
    let lanes := m.lanes &&& sh.held &&& ~~~sh.goneFor m
    let esc := sh.escalated.foldl (fun x e => x ||| e.frame.mask) 0 &&& lanes
    let rest := lanes &&& ~~~esc
    let s1 := if esc = 0 then s else s.modSheaf m.sheaf fun sh => { sh with
      escalated := sh.escalated.map fun e => if e.frame.mask &&& esc = 0 then e else
        { e with held := e.held ++ [{ m with lanes := esc &&& e.frame.mask }] } }
    if rest = 0 then
      match m.cmd with
      | some c => if lanes = 0 then (s1.report (.orphan sh.core sh.seat)).endStopped c
          else s1
      | none => match m.op with
        | some k => s1.modSheaf m.sheaf fun sh => sh.opDone k (m.lanes &&& ~~~esc)
        | none => s1
    else if (s1.bed? sh.bed).any fun b => b.status = .lifted then s1.again (.deferredFault { m with lanes := rest })
    else
      -- from deciding to release an RSMP has completed for its participants (R390)
      let landing := ((s1.launch? sh.launch).map fun l => l.rsmp.isSome).getD false
      let off := rest &&& (sh.midway ||| if landing then sh.lanesWhere Fibre.atRsmp else 0)
      let s2 := (lanesIn (rest &&& ~~~off)).foldl (fun s l => s.deliverLane m.sheaf l) s1
      if off ≠ 0 then s2.again (.deferredFault { m with lanes := rest })
      else
        match s2.sheaf? m.sheaf with
        | none => s2
        | some sh2 =>
          let replay := sh2.takeReplay m rest
          let fs := (lanesIn rest).map fun l => (⟨l, m.cause, m.addr, m.info, m.log⟩ : LaneFault)
          let s3 := s2.takeTrap m.sheaf fs m.fpc sh2.pcOf replay
          match m.op with
          | some k => s3.modSheaf m.sheaf fun sh => sh.opDone k (m.lanes &&& ~~~esc)
          | none => s3)

end Sys2Proof.Machine
end

