-- ==== Sys2Proof/Machine/Counters.lean ====
section
/-! DEFINITION. The counter instructions (R194 to R202), the reserve reads (R203), and the events of counters and pools:
refills, returns, reports, publication, CAPWAIT and relief (R200, R201, R41, R283, R285). -/

namespace Sys2Proof.Machine

/-! ### Deciding a batch's lanes (R198) -/

/-- Lanes decided in ascending order from what remains. (DEDUCED, log 27.) -/
def decideLanes : Nat → List (Nat × Nat) → Nat × List (Nat × Word × Bool)
  | left, [] => (left, [])
  | left, (l, n) :: t =>
    if n ≤ left then let r := decideLanes (left - n) t; (r.1, (l, BitVec.ofNat 64 n, true) :: r.2)
    else let r := decideLanes left t; (r.1, (l, 0, false) :: r.2)

/-- CTAKE of the combined lanes of one batch on one counter (R197, R198): all succeed where their sum does; else, after
the roll call, each by what remains at the home. -/
def Ctr.takeLanes (c : Ctr) (cl : Nat) (ls : List (Nat × Nat)) (used : Nat) : List (Nat × Word × Bool) × Ctr :=
  let n := (ls.map (·.2)).sum
  let t := c.take cl n used
  if t.1 then (ls.map fun e => (e.1, BitVec.ofNat 64 e.2, true), t.2)
  else
    let r := decideLanes t.2.remain ls
    (r.2, { t.2 with remain := r.1 })

/-- Put a counter back after a CTAKE or CGIVE (R201). -/
def State.setCtrAct (s : State) (cl a : Nat) (c : Ctr) : State :=
  let old := (s.ctrAt a).total
  ((if old = c.total then s else s.noteTotal a old).setCtr a c).owesReport cl a

/-- The page and the reserved bytes a counter line needs (R194, Table 8.1). -/
def State.ctrOk (s : State) (w : WLane) : Bool :=
  match w.loc with
  | .dev a => w.pte.tier = 0 && w.pte.kind = 0 && (Memory.bytes s.mem (a + 0x18) 40).all (· = 0)
  | _ => false

def ctrAddr (w : WLane) : Nat :=
  match w.loc with
  | .dev a => a
  | _ => 0

/-! ### The instructions at issue (R196) -/

/-- A counter instruction up to its effect: alignment, translation as a write with INFO[0] and INFO[2], the page; then the
destination is empty and `act1` decides each counter for its lanes. -/
def counterRun (s : State) (i : LaneIns) (a : VSrc) (kind : AccKind) (op : OpKind)
    (act1 : State → Nat → Nat → List (Fin 32) → State) : State :=
  let va := fun (sh : Sheaf) l => sh.readPair a.reg l
  s.memStep i va 64 fun s sh fs act =>
    if act = 0 then s.laneFinish sh i fs 0 id
    else if sh.opsFull then s.await 0x02 0 0
    else match s.holdWrite sh act (va sh) .counter 64 kind false id (fun _ => []) with
      | .waits s' => s'
      | .go s1 ok0 fs2 =>
        -- a page that moves takes no counter instruction but CPEEK (R289)
        if kind ≠ .load && ok0.any fun w => s1.moving (lineOf w.loc) then s1.await 0x03 0 0 else
        let ok := ok0.filter s1.ctrOk
        let bad := (ok0.filter fun w => !s1.ctrOk w).map fun w => (⟨w.lane, 0x04, w.va, 5, true⟩ : LaneFault)
        if ok = [] then s1.laneFinish sh i (fs ++ fs2 ++ bad) 0 id else
        let m := wmask ok
        let (k, s2) := s1.addOp ⟨sh.batchPc, op, m, m, 0, lanesOf (va sh), [], 0, none⟩
        let s3 := ((ok.map ctrAddr).eraseDups).foldl (fun s c =>
          act1 s k c ((ok.filter fun w => ctrAddr w = c).map (·.lane))) s2
        s3.laneFinish sh i (fs ++ fs2 ++ bad) m fun x =>
          let x1 := i.dests.foldl (fun x r => x.emptyRow r m sh.batchPc) x
          match i.ccd with
          | some c => x1.modFibs m fun _ f => f.emptyC c
          | none => x1

/-- CTAKE (R197, R198): decided at the cluster where its allowance holds the sum, else asked of the home.
(DEDUCED, log 27.) -/
def execCtake (o : OpCtake) (s : State) : Out :=
  .next (
    let i : LaneIns := ⟨o.g, [vop o.a 2 0, vop o.b 1 1], [], [], [o.d], some o.k⟩
    let sh := s.shf
    let cl := clusterOf sh.core
    counterRun s i o.a .atomic (.counter o.d false (some o.k)) fun s k c ls =>
      let want : List (Nat × Nat) := ls.map fun l => (l.val, (sh.readLane o.b.reg l).toNat)
      let n : Nat := (want.map fun (e : Nat × Nat) => e.2).sum
      let s1 := if n = 0 then s else s.roomForAllow cl c
      let x := s1.ctrAt c
      if n ≤ x.held cl then
        let r := x.takeLanes cl want s1.free
        (if n = 0 then s1 else s1.setCtrAct cl c r.2).post (.counterReturn ⟨s.cur, k, r.1, s.bell⟩)
      else s1.post (.allowanceRefill ⟨s.cur, k, cl, c, want, false⟩))

/-- CGIVE (R199): the cluster accepts the give at once, and its answer comes back. -/
def execCgive (o : OpCgive) (s : State) : Out :=
  .next (
    let i : LaneIns := ⟨o.g, [vop o.a 2 0, vop o.b 1 1], [], [], [o.d], none⟩
    let sh := s.shf
    let cl := clusterOf sh.core
    counterRun s i o.a .atomic (.counter o.d false none) fun s k c ls =>
      let give : List (Nat × Nat) := ls.map fun l => (l.val, (sh.readLane o.b.reg l).toNat)
      let n : Nat := (give.map fun (e : Nat × Nat) => e.2).sum
      let s1 := s.roomForAllow cl c
      (s1.setCtrAct cl c ((s1.ctrAt c).give cl n s1.free)).post
        (.counterReturn ⟨s.cur, k, give.map fun e => (e.1, BitVec.ofNat 64 e.2, true), s.bell⟩))

/-- What CPEEK returns (R201): the home's count and the allowances as last reported to it, never outside the totals of the
last 8 µs. (DEDUCED, log 11.) -/
def State.peek (s : State) (a : Nat) : Nat :=
  let c := s.ctrAt a
  let seen := (s.totals.filter fun e => e.1 = a && s.bell.toNat ≤ e.2.1.toNat + 8000).map (·.2.2)
  max (seen.foldl min c.total) (min (seen.foldl max c.total) (c.remain + (c.allow.map (·.2.reported)).sum))

/-- CPEEK (R201): a read at the home. -/
def execCpeek (o : OpCread) (s : State) : Out :=
  .next (
    let i : LaneIns := ⟨o.g, [vop o.a 2 0], [], [], regRange o.d 2, none⟩
    let cl := clusterOf s.shf.core
    counterRun s i o.a .load (.counter o.d true none) fun s k c ls =>
      s.post (.allowanceRefill ⟨s.cur, k, cl, c, ls.map fun l => (l.val, 0), true⟩))

/-- CROLL (R201): a roll call at the home. -/
def execCroll (o : OpCread) (s : State) : Out :=
  .next (
    let i : LaneIns := ⟨o.g, [vop o.a 2 0], [], [], regRange o.d 2, none⟩
    let cl := clusterOf s.shf.core
    counterRun s i o.a .atomic (.counter o.d true none) fun s k c ls =>
      s.post (.allowanceRefill ⟨s.cur, k, cl, c, ls.map fun l => (l.val, 0), false⟩))

/-! ### The reserve (R203) -/

/-- The pool RESV and RESVX name. -/
def Sheaf.resvPool (sh : Sheaf) (la : Launch) (o : SopResv) : Nat :=
  poolKey la.part (match o.pool with
    | some r => (sh.readS r).setWidth 8
    | none => la.hdr.pool)

def resvSrcs (o : SopResv) : List (BitVec 6) :=
  match o.pool with
  | some r => [r]
  | none => []

/-- A reserve read at issue: the destination is empty and the request is on its way. -/
def resvRun (o : SopResv) (s : State) (ask : State → Nat → Nat → State) : State :=
  s.sheafStep o.g (resvSrcs o) [o.d] none fun s => s.pastFences s.shf.issuing fun s =>
    let sh := s.shf
    if sh.opsFull then s.await 0x02 0 0 else
    match s.launch? sh.launch with
    | none => s.sheafDone fun sh => sh.writeS o.d 0
    | some la =>
      let pool := sh.resvPool la o
      let (k, s1) := s.addOp ⟨sh.batchPc, .reserve o.d, sh.issuing, sh.issuing, 0, lanesOf fun _ => 0, [], 0, none⟩
      (ask s1 k pool).sheafDone fun sh' => sh'.emptyS o.d sh.batchPc

/-- RESV: the published figure, which is never behind by more than 8 µs when an instruction issues (`State.urgent`); 0 for
a pool that is not configured. -/
def execResv (o : SopResv) (s : State) : Out :=
  .next (resvRun o s fun s k pool =>
    s.post (.counterReturn ⟨s.cur, k, [(0, BitVec.ofNat 64 (((s.pool? pool).map (·.published)).getD 0), true)], 0⟩))

/-- RESVX: a roll call of the reserve. -/
def execResvx (o : SopResv) (s : State) : Out :=
  .next (resvRun o s fun s k pool => s.post (.allowanceRefill ⟨s.cur, k, clusterOf s.shf.core, pool, [], false⟩))

/-! ### Events -/

/-- ALLOWANCE_REFILL (R200): the home serves the head of a counter's queue: a CTAKE with its roll call, or the roll call
of CROLL and RESVX. (DEDUCED, log 27.) -/
def execAllowanceRefill (m : RefillMsg) (s : State) : Out :=
  .next (
    let line := lineOf (.dev m.ctr)
    let kind : Option OpKind := ((s.sheaf? m.sheaf).bind fun sh => aget sh.ops m.op).map OpRec.kind
    match kind with
    | some (.reserve _) =>
      match s.pool? m.ctr with
      | none => s.post (.counterReturn ⟨m.sheaf, m.op, [(0, 0, true)], s.bell⟩)
      | some p => (s.setPool m.ctr (p.setCtr p.ctr.roll)).post
          (.counterReturn ⟨m.sheaf, m.op, [(0, BitVec.ofNat 64 p.reserve, true)], s.bell⟩)
    | some (.counter _ true _) =>
      if s.engineHolds line none then s.again (.allowanceRefill m) else
      let s1 := s.recall line none
      if m.peek then s1.post (.counterReturn ⟨m.sheaf, m.op,
        m.lanes.map fun e => (e.1, BitVec.ofNat 64 (s1.peek m.ctr), true), 0⟩) else
      let s2 := s1.rollAt m.ctr
      let x := BitVec.ofNat 64 (s2.ctrAt m.ctr).remain
      s2.post (.counterReturn ⟨m.sheaf, m.op, m.lanes.map fun e => (e.1, x, true), s2.twOf line⟩)
    | _ =>
      if s.engineHolds line none then s.again (.allowanceRefill m) else
      let s0 := (s.recall line none).roomForAllow m.cluster m.ctr
      let r := (s0.ctrAt m.ctr).takeLanes m.cluster m.lanes s0.free
      let s1 := s0.setCtrAct m.cluster m.ctr r.2
      s1.post (.counterReturn ⟨m.sheaf, m.op, r.1, s1.twOf line⟩))

/-- ALLOWANCE_RETURN (R200). -/
def execAllowanceReturn (cluster : Nat) (s : State) : Out := .next (s.returnOldest cluster)

/-- HOLDER_REPORT (R201): what a cluster holds is what its home last heard. -/
def execHolderReport (cluster ctr : Nat) (s : State) : Out :=
  .next { s with allows := amod s.allows (cluster, ctr) fun a => { a with reported := a.amount } }

/-- COUNTER_RETURN (R201, R203): destinations and c[k] are written full for the lanes still there, whose horizon rises as by an
atomic's Tw (R202). -/
def execCounterReturn (r : CtrResp) (s : State) : Out :=
  .next (s.gate r.sheaf (.ctr r) fun s sh =>
    match aget sh.ops r.op with
    | none => s
    | some o =>
      let m := match o.kind with
        | .reserve _ => o.due
        | _ => maskOfNats (r.vals.map (·.1))
      let act := m &&& o.due &&& ~~~o.gone
      let val := fun l : Fin 32 => ((aget r.vals l.val).map (·.1)).getD 0
      let ok := fun l : Fin 32 => ((aget r.vals l.val).map (·.2)).getD false
      (s.modSheaf r.sheaf fun sh =>
        let sh1 := match o.kind with
          | .counter d pair k =>
            let x := if pair then sh.writePair d act val else sh.writeRow d act fun l => loHalf (val l)
            match k with
            | some c => x.modFibs act fun l f => f.writeC c (if ok l then mkFlags false true true false else 0)
            | none => x
          | .reserve d => sh.writeS d (((r.vals.head?).map fun (e : Nat × Word × Bool) => e.2.1).getD 0)
          | _ => sh
        sh1).twBack r.sheaf r.op m r.tw)

/-- The front end sets bits of $notice in a sheaf (R41); for a frosted tile it holds them until the thaw (R369). -/
def State.setNotice (s : State) (u : Nat) (bits : BitVec 2) : State :=
  match s.sheaf? u with
  | none => s
  | some sh =>
    if frostedCore s sh.core then s.modCore sh.core fun c => { c with notices := c.notices ++ [.notice u bits] }
    else s.modSheaf u fun sh => { sh with notice := sh.notice ||| bits }

/-- In every sheaf of every launch that uses a pool (R41). -/
def State.noticePool (s : State) (k : Nat) (bits : BitVec 2) : State :=
  (s.sheafs.filter fun (e : Nat × Sheaf) => match s.launch? e.2.launch with
    | some la => poolKey la.part la.hdr.pool = k
    | none => false).foldl (fun s e => s.setNotice e.1 bits) s

/-- Write a word of a pool's control block (Table 12.4). -/
def State.setControl (s : State) (p : Pool) (off : Nat) (x : Nat) : State :=
  (s.homeWrite (lineOf (.dev (p.ctrl + off)))
    ((natToBytes 8 x).zipIdx.map fun e => ((p.ctrl + off) % 256 + e.2, e.1))).2

/-- RESERVE_PUBLISH (R41, R203): PUBRESV is written, LOWRESV set below LOWMARK, and while it stays below another publish
follows. (DEDUCED, log 42.) -/
def execReservePublish (part pool : Nat) (s : State) : Out :=
  .next (
    let k := part * 256 + pool
    match s.pool? k with
    | none => s
    | some p =>
      let r := p.reserve
      let s1 := (s.setPool k { p with published := r, stale := none }).setControl p 0x28 r
      if r < (s1.word64 (p.ctrl + 0x30)).toNat then
        ((s1.noticePool k 2).setPool k { p with published := r, stale := some s.bell }).post (.reservePublish part pool)
      else s1)

/-- A party's charge has failed: a held batch sees it at its next try, an engine takes it as its fault. -/
def State.chargeFails (s : State) (pool : Nat) (who : Waiter) : State :=
  match who with
  | .sheaf u t =>
    let f := fun (h : Hold) => if h.ticket = t then { h with chargeFailed := true, ticket := 0 } else h
    s.modSheaf u fun sh => { sh with
      hold := f sh.hold
      putBy := sh.putBy.map fun p => (p.1, f p.2)
      aside := sh.aside.map fun a => { a with hold := f a.hold } }
  | .kv u l => { s with events := s.events.map fun e => match e with
      | .kvAgentStep m => if m.sheaf = u && m.lane = l then .kvAgentStep { m with failed := true } else e
      | _ => e }
  | .command .. => s
  | .hub key => ({ s with inbound := s.inbound.map fun i => if i.key = key then { i with failed := true } else i } : State).modCmd
      key fun c => { c with fault := some (0x06, 0, BitVec.ofNat 32 (pool % 256), false) }
  | .move asn va => { s with moves := s.moves.map fun m =>
      if m.req.asn = asn && m.req.va = va then { m with failed := true } else m }

/-- CAPWAIT_EXPIRY (R283): the request at the head, which the reserve does not hold, fails when its time has run out. -/
def execCapwaitExpiry (part pool : Nat) (s : State) : Out :=
  .next (
    let k := part * 256 + pool
    match s.pool? k with
    | none => s
    | some p =>
      match p.queue with
      | ⟨who, _, _, some t⟩ :: rest =>
        if s.bell.toNat < t.toNat then s.again (.capwaitExpiry part pool)
        else ((s.setPool k { p with queue := rest }).chargeFails k who).serveQueue k
      | _ => s)

/-- G of a pool changes, and with it the reserve and GRANT (R287, Table 12.4). -/
def State.raiseGrant (s : State) (k n : Nat) : State :=
  match s.pool? k with
  | none => s
  | some p => ((s.setPool k { p with granted := p.granted + n, remain := p.remain + n }).setControl p 0x20
      (p.granted + n)).serveQueue k

/-- Capacity that is granted to no pool: of LPDDR6 less the margin, and of the CXL capacity assigned to pools (R279). -/
def State.grantedAll (s : State) : Nat := (s.pools.map (·.2.granted)).sum
def State.ungranted (s : State) : Nat := lpddr6Sectors - lpddr6Margin + s.cxlPools - s.grantedAll

/-- RELIEF_GRANT (R285): the relief asked and not granted yet, from ungranted capacity up to the ceiling; where the partition is
host-assisted, or nothing can be granted, the host is asked, and a later RAISE answers (R404). (DEDUCED, log 42.) -/
def execReliefGrant (part pool : Nat) (s : State) : Out :=
  .next (
    let k := part * 256 + pool
    match s.pool? k with
    | none => s
    | some p =>
      let asked := (s.word64 (p.ctrl + 0x40)).toNat - p.reliefDone
      if asked = 0 then s else
      let ask := (s.setPool k { p with asked := true }).report (.reliefAsked part pool asked)
      if ((s.part? part).map (·.reliefAssisted)).getD false then ask else
      let n := min asked (min s.ungranted (p.ceiling - p.granted))
      if n = 0 then ask
      else
        let s1 := s.raiseGrant k n
        match s1.pool? k with
        | none => s1
        | some q => (s1.setPool k { q with reliefDone := q.reliefDone + n }).setControl q 0x48 (q.reliefDone + n))

end Sys2Proof.Machine
end

