-- ==== Sys2Proof/Machine/Kv.lean ====
section
/-! DEFINITION. The trellis (R204, R205), the KV instructions at issue (R206, R207) and the step of a KV agent (R208 to R212,
R396 to R399). A step is computed on a copy of the state that is kept only when the step succeeds. -/

namespace Sys2Proof.Machine

/-- Why an agent's step does not succeed: a precise trap, a failure with its flags, something it waits for, a part of a copy
that is done (`more`), or any of these with what has changed all the same (`kept`). -/
inductive KvStop where
  | trap (cause : BitVec 8) (addr : Word) (info : W32) (log : Bool)
  | fails (f : CcVal)
  | ask (va : Word) (c : Checked)
  | hold
  | peer (line : Loc) (va : Word)
  | more (s : State) (m : KvMsg)
  | kept (s : State) (why : KvStop)
  deriving DecidableEq, Repr

/-- Who an agent acts for: cluster, address space and header of the issuer, its sheaf and lane. -/
structure KvCtx where
  cl : Nat
  asn : Nat
  hdr : Header
  sheaf : Nat
  lane : Nat
  core : Nat
  deriving DecidableEq, Repr

/-- The state so far and the largest Tw of what was written. -/
abbrev KvS := State × Word

/-- ENGINE with a code of Table 8.7. -/
def kvBad (code : Nat) : KvStop := .trap 0x0E 0 (BitVec.ofNat 32 code) false

/-! ### Words of the trellis -/

/-- Where a word of the trellis lies (R205): a KIND 0 page of LPDDR6 with R and W. -/
def State.kvLoc (s : State) (x : KvCtx) (va : Word) (a : Acc) : Except KvStop Nat :=
  match s.check x.cl x.asn (some x.hdr) va a with
  | .at_ (.dev n) p _ => if p.tier = 0 && p.kind = 0 then .ok n else .error (.trap 0x04 va (accInfo a) true)
  | .at_ _ _ _ => .error (.trap 0x04 va (accInfo a) true)
  | .fault c lg => .error (.trap c va (accInfo a) lg)
  | .walkWait => .error (.ask va .walkWait)
  | .hostWait .. => .error (.trap 0x04 va (accInfo a) true)

def State.kvRead (s : State) (x : KvCtx) (va : Word) (n : Nat) : Except KvStop Nat := do
  let a ← s.kvLoc x va .agentRead
  if s.engineHolds (lineOf (.dev a)) none then .error .hold else .ok (bytesToNat (Memory.bytes s.mem a n))

/-- A write at a home by an agent or engine: copies of the line at the issuing cluster are discarded. -/
def State.agentWrite (s : KvS) (x : KvCtx) (line : Loc) (bs : List (Nat × Byte)) : KvS :=
  let s0 : State := { s.1.recall line none with
    l1 := adel s.1.l1 (x.core, line)
    cluster := amod s.1.cluster (x.cl, line) fun c => { c with valid := 0 } }
  let (tw, s1) := s0.homeWrite line bs
  (s1, maxWord [s.2, tw])

def State.kvWrite (s : KvS) (x : KvCtx) (va : Word) (n v : Nat) : Except KvStop KvS := do
  let a ← s.1.kvLoc x va .agentWrite
  let line := lineOf (.dev a)
  if s.1.engineHolds line none || s.1.moving line then .error .hold
  else .ok (State.agentWrite s x line ((natToBytes n v).zipIdx.map fun e => (a % 256 + e.2, e.1)))

/-- The header (Table 8.4). -/
structure Trellis where
  va : Word
  slotsz : Nat
  kvbase : Word
  seqbase : Word
  recbase : Word
  freectr : Word
  ring : Word
  nseq : Nat
  npages : Nat
  deriving DecidableEq, Repr

def alignedTo (a : Word) (n : Nat) : Bool := canonical a && a.toNat % n = 0

/-- The limits of Table 8.4. -/
def Trellis.ok (t : Trellis) (w0 : Nat) : Bool :=
  w0 / 2 ^ 48 = 0 && w0 / 2 ^ 32 % 65536 = 16 && 256 ≤ t.slotsz && t.slotsz ≤ 65536 && t.slotsz % 256 = 0 &&
  alignedTo t.kvbase 65536 && alignedTo t.seqbase 16 && alignedTo t.recbase 8 && alignedTo t.freectr 64 &&
  alignedTo t.ring 4 && 1 ≤ t.nseq && 1 ≤ t.npages

def State.readTrellis (s : State) (x : KvCtx) (va : Word) : Except KvStop Trellis := do
  if va = 0 || va.toNat % 64 ≠ 0 then .error (kvBad 0x0101) else
  let w0 ← s.kvRead x va 8
  let kv ← s.kvRead x (va + 0x08) 8
  let sq ← s.kvRead x (va + 0x10) 8
  let rc ← s.kvRead x (va + 0x18) 8
  let fr ← s.kvRead x (va + 0x20) 8
  let rg ← s.kvRead x (va + 0x28) 8
  let w6 ← s.kvRead x (va + 0x30) 8
  let t : Trellis := ⟨va, w0 % 2 ^ 32, BitVec.ofNat 64 kv, BitVec.ofNat 64 sq, BitVec.ofNat 64 rc, BitVec.ofNat 64 fr,
    BitVec.ofNat 64 rg, w6 / 2 ^ 32, w6 % 2 ^ 32⟩
  if t.ok w0 then .ok t else .error (kvBad 0x0101)

/-- A sequence entry (Table 8.5). -/
structure SeqEntry where
  va : Word
  loc : Nat
  cap : Nat
  len : Nat
  pages : Word
  deriving DecidableEq, Repr

def State.readEntry (s : State) (x : KvCtx) (t : Trellis) (i : Nat) : Except KvStop SeqEntry := do
  if t.nseq ≤ i then .error (kvBad 0x0102) else
  let va := t.seqbase + BitVec.ofNat 64 (16 * i)
  let loc ← s.kvLoc x va .agentRead
  let w0 ← s.kvRead x va 8
  let pg ← s.kvRead x (va + 8) 8
  let e : SeqEntry := ⟨va, loc, w0 / 2 ^ 32, w0 % 2 ^ 32, BitVec.ofNat 64 pg⟩
  if 16 * e.cap < e.len || !alignedTo e.pages 4 then .error (kvBad 0x0106) else .ok e

def SeqEntry.pageVa (e : SeqEntry) (j : Nat) : Word := e.pages + BitVec.ofNat 64 (4 * j)

/-- The page number of element j of a sequence's array. -/
def State.pageAt (s : State) (x : KvCtx) (t : Trellis) (e : SeqEntry) (j : Nat) : Except KvStop Nat := do
  let p ← s.kvRead x (e.pageVa j) 4
  if t.npages ≤ p then .error (kvBad 0x0103) else .ok p

def Trellis.recVa (t : Trellis) (p : Nat) : Word := t.recbase + BitVec.ofNat 64 (8 * p)
/-- slot(p, j) of R208. -/
def Trellis.slot (t : Trellis) (p j : Nat) : Word := t.kvbase + BitVec.ofNat 64 (16 * t.slotsz * p + t.slotsz * j)

def State.refcnt (s : State) (x : KvCtx) (t : Trellis) (p : Nat) : Except KvStop Nat := do
  let r ← s.kvRead x (t.recVa p) 8
  .ok (r % 2 ^ 32)

/-- A page record with ALLOC 1 while REFCNT ≥ 1 (Table 8.6). -/
def State.setRec (s : KvS) (x : KvCtx) (t : Trellis) (p n : Nat) : Except KvStop KvS :=
  State.kvWrite s x (t.recVa p) 8 (if n = 0 then 0 else 2 ^ 32 + n)

/-- A push (R204). -/
def State.pushRing (s : KvS) (x : KvCtx) (t : Trellis) (p : Nat) : Except KvStop KvS := do
  let tail ← s.1.kvRead x (t.va + 0x3C) 4
  let s1 ← State.kvWrite s x (t.ring + BitVec.ofNat 64 (4 * (tail % t.npages))) 4 p
  State.kvWrite s1 x (t.va + 0x3C) 4 ((tail + 1) % 2 ^ 32)

/-- The page at HEAD (R204); codes 0x0104 and 0x0103. -/
def State.peekRing (s : State) (x : KvCtx) (t : Trellis) : Except KvStop Nat := do
  let head ← s.kvRead x (t.va + 0x38) 4
  let tail ← s.kvRead x (t.va + 0x3C) 4
  if head = tail then .error (kvBad 0x0104) else
  let p ← s.kvRead x (t.ring + BitVec.ofNat 64 (4 * (head % t.npages))) 4
  if t.npages ≤ p then .error (kvBad 0x0103) else .ok p

/-- Whether a copy of another step is to use the page at HEAD (R212). -/
def State.headHeld (s : State) (head : Nat) : Bool :=
  s.events.any fun ev => match ev with
    | .kvAgentStep m => (m.taken.map (·.1)) = some head
    | _ => false

/-- A pop (R204), which waits while the page at HEAD is another step's. -/
def State.popRing (s : KvS) (x : KvCtx) (t : Trellis) : Except KvStop (Nat × KvS) := do
  let at_ ← s.1.kvLoc x (t.va + 0x38) .agentRead
  if s.1.headHeld at_ then .error .hold else
  let p ← s.1.peekRing x t
  let head ← s.1.kvRead x (t.va + 0x38) 4
  let s1 ← State.kvWrite s x (t.va + 0x38) 4 ((head + 1) % 2 ^ 32)
  .ok (p, s1)

/-- The free-page counter as a counter instruction meets it (R194, R398). -/
def State.freeCtr (s : State) (x : KvCtx) (t : Trellis) : Except KvStop Nat := do
  let a ← s.kvLoc x t.freectr .counter
  if (Memory.bytes s.mem (a + 0x18) 40).all (· = 0) then .ok a else .error (.trap 0x04 t.freectr 5 true)

/-- CTAKE of one page for a cluster (R398), and the CGIVE of one (R211, R212). -/
def State.takeOne (s : State) (cl a : Nat) : Bool × State :=
  let s0 := s.roomForAllow cl a
  let r := (s0.ctrAt a).take cl 1 s0.free
  (r.1, s0.setCtrAct cl a r.2)

def State.giveOne (s : State) (cl a : Nat) : State :=
  let s0 := s.roomForAllow cl a
  s0.setCtrAct cl a ((s0.ctrAt a).give cl 1 s0.free)

/-- A free page (R398): CTAKE of 1 for the issuing cluster, then the pop and what `k` does with the page; where that does not
succeed the page is given back. -/
def State.withPage {α : Type} (s : KvS) (x : KvCtx) (t : Trellis) (k : Nat → KvS → Except KvStop α) : Except KvStop α := do
  let a ← s.1.freeCtr x t
  let r := s.1.takeOne x.cl a
  if !r.1 then .error (.kept r.2 (.fails 0)) else
  ((do let q ← State.popRing (r.2, s.2) x t; k q.1 q.2) : Except KvStop α).mapError (.kept (r.2.giveOne x.cl a))

/-- The last holder of a page has dropped it (R211, R399). -/
def State.freePage (s : KvS) (x : KvCtx) (t : Trellis) (p : Nat) : Except KvStop KvS := do
  let s1 ← State.setRec s x t p 0
  let s2 ← State.pushRing s1 x t p
  let a ← s2.1.freeCtr x t
  .ok (s2.1.giveOne x.cl a, s2.2)

/-- A record loses a holder: the state, and whether the page was released. -/
def State.dropRef (s : KvS) (x : KvCtx) (t : Trellis) (p : Nat) : Except KvStop (Bool × KvS) := do
  let n ← s.1.refcnt x t p
  if n = 0 then .error (kvBad 0x0105)
  else if n = 1 then
    let s1 ← State.freePage s x t p
    .ok (true, s1)
  else
    let s1 ← State.setRec s x t p (n - 1)
    .ok (false, s1)

/-! ### The copy of a last page (R212, R399) -/

/-- Where a line of the copy lies. -/
def State.copyLoc (s : State) (x : KvCtx) (va : Word) (a : Acc) : Except KvStop Loc :=
  match s.check x.cl x.asn (some x.hdr) va a with
  | .at_ loc _ _ => if s.engineHolds (lineOf loc) none then .error .hold else .ok loc
  | .fault c lg => .error (.trap c va (accInfo a) lg)
  | w => .error (.ask va w)

/-- A source line as the engine reads it: at its home, or as its peer has answered. -/
def State.copyRead (s : State) (got : List (Loc × List Byte)) (va : Word) (loc : Loc) : Except KvStop (List Byte) :=
  match loc with
  | .peer _ _ => match aget got loc with
    | some bs => .ok bs
    | none => .error (.peer loc va)
  | _ => if (s.home loc).poison then .error (kvBad 0x0011) else .ok (s.homeBytes loc 256)

/-- A destination line written by the engine: arrival with refund, then the bytes (R281); a peer's line by its peer (R309). -/
def State.copyPut (q : KvS × KvMsg) (x : KvCtx) (va : Word) (loc : Loc) (bs : List Byte) : KvS × KvMsg :=
  let pairs := bs.zipIdx.map fun e => (e.2, e.1)
  match loc with
  | .peer p a => ((q.1.1.askPeer ⟨p, a, .write pairs, va, q.1.1.bell, .kv x.sheaf x.lane loc⟩, q.1.2), { q.2 with due := q.2.due + 1 })
  | _ =>
    let charged := q.2.charged.any fun e => e.1 = loc
    (State.agentWrite ((q.1.1.recall loc none).arriveAt loc x.cl charged, q.1.2) x loc pairs,
      { q.2 with charged := q.2.charged.filter fun e => e.1 ≠ loc })

/-- The copy of the first n bytes of a page's slots to the page at HEAD, a part at a time (R212, R399): its lines translated, then
charged in ascending order, read, and written; the message says how far it has come. True once it is made. -/
def State.copySlots (s : KvS) (x : KvCtx) (t : Trellis) (m : KvMsg) (old new n : Nat) : Except KvStop Unit := do
  if m.wrote && m.due ≠ 0 then .error .hold else
  match m.bad with
  | some (cause, va, info) => .error (.trap cause va info (cause ≠ 0x06))
  | none =>
  if m.wrote then .ok () else
  let vas := fun p : Nat => (List.range (n / 256)).map fun i => t.slot p 0 + BitVec.ofNat 64 (256 * i)
  let from_ ← (vas old).mapM fun va => do let l ← s.1.copyLoc x va .engineRead; .ok (va, l)
  let to_ ← (vas new).mapM fun va => do let l ← s.1.copyLoc x va .engineWrite; .ok (va, l)
  if m.uses = [] then .error (.more s.1 { m with uses := [(t.slot old 0, n), (t.slot new 0, n)] }) else
  if to_.any fun e => s.1.moving e.2 || s.1.starves e.2 then .error .hold else
  match to_.find? fun e => (s.1.chargePool e.2).isSome && !(m.charged.any fun c => c.1 = e.2) with
  | some e =>
    let k := (s.1.chargePool e.2).getD 0
    if m.failed then .error (.trap 0x06 e.1 (BitVec.ofNat 32 (k % 256)) false) else
    match s.1.charge k x.cl 4 (.kv x.sheaf x.lane) with
    | .done s' => .error (.more s' { m with charged := m.charged ++ [(e.2, k)] })
    | .waits s' => .error (.more s' m)
  | none =>
    let data ← from_.mapM fun e => s.1.copyRead m.got e.1 e.2
    let q := (to_.zip data).foldl (fun q e => State.copyPut q x e.1.1 e.1.2 e.2) (((s.1, 0), m) : KvS × KvMsg)
    .error (.more q.1.1 { q.2 with wrote := true, tw := maxWord [m.tw, q.1.2] })

/-- CopyLast (R208, R212): the new page's number. A page is taken from the free counter first, and the ring's HEAD stands for the
step until it ends. -/
def State.copyLast (s : KvS) (x : KvCtx) (t : Trellis) (m : KvMsg) (e : SeqEntry) : Except KvStop (Nat × KvS) := do
  let a ← s.1.freeCtr x t
  if m.taken.isNone then
    let head ← s.1.kvLoc x (t.va + 0x38) .agentRead
    if s.1.headHeld head then .error .hold else
    let r := s.1.takeOne x.cl a
    if r.1 then .error (.more r.2 { m with taken := some (head, a) }) else .error (.kept r.2 (.fails 0))
  else
  let old ← s.1.pageAt x t e (e.len / 16)
  let new ← s.1.peekRing x t
  State.copySlots s x t m old new (e.len % 16 * t.slotsz)
  let s1 ← State.popRing (s.1, maxWord [s.2, m.tw]) x t
  let s2 ← State.setRec s1.2 x t new 1
  let s3 ← State.dropRef s2 x t old
  let s4 ← State.kvWrite s3.2 x (e.pageVa (e.len / 16)) 4 new
  .ok (new, s4)

/-! ### The five instructions at their agent -/

/-- Flags of Table 8.9. -/
def kvOk : CcVal := mkFlags false true false false
def kvCopied : CcVal := mkFlags false true true false
def kvRange : CcVal := mkFlags false false false true

/-- Whether an entry is held by another step (R396). -/
def State.entryHeld (s : State) (e : SeqEntry) : Bool :=
  s.events.any fun ev => match ev with
    | .kvAgentStep m => m.held = some e.loc
    | _ => false

/-- The issuing fibre's stores are visible (R212): as FENCE.rel.dev for its lane; of a frosted tile, none is on its way. -/
def State.storesSeen (s : State) (x : KvCtx) : Bool :=
  match s.sheaf? x.sheaf with
  | none => true
  | some sh =>
    if frostedCore s sh.core then !s.events.any fun ev => match ev with
      | .homeWrite ⟨.fibres u _ _ _, _, _, _, _⟩ => u = x.sheaf
      | _ => false
    else s.releaseReady sh (1#32 <<< x.lane) .dev

/-- A copy is made in a step of its own, the entry held meanwhile (R399). -/
def State.copyStep (s : KvS) (x : KvCtx) (t : Trellis) (m : KvMsg) (e : SeqEntry) : Except KvStop (Nat × KvS) :=
  if m.held.isNone then .error (.more s.1 { m with held := some e.loc })
  else if !s.1.storesSeen x then .error .hold
  else State.copyLast s x t m e

/-- KVAPP (R208). -/
def State.kvApp (s : KvS) (x : KvCtx) (t : Trellis) (m : KvMsg) (hwcow : Bool) (e : SeqEntry) :
    Except KvStop (Word × CcVal × KvS) := do
  let i := e.len / 16
  if e.len = 16 * e.cap then .error (.fails kvRange) else
  let r ← if e.len % 16 = 0 then State.withPage s x t fun p s => do
      let s1 ← State.setRec s x t p 1
      let s2 ← State.kvWrite s1 x (e.pageVa i) 4 p
      .ok (p, kvOk, s2)
    else (do
      let p ← s.1.pageAt x t e i
      let n ← s.1.refcnt x t p
      if n ≤ 1 && m.held.isNone then .ok (p, kvOk, s)
      else if !hwcow then .error (.trap 0x07 e.va (BitVec.ofNat 32 p) false)
      else
        let r ← State.copyStep s x t m e
        .ok (r.1, kvCopied, r.2))
  let s3 ← State.kvWrite r.2.2 x e.va 4 (e.len + 1)
  .ok (t.slot r.1 (e.len % 16), r.2.1, s3)

/-- KVMAP (R209). -/
def State.kvMap (s : KvS) (x : KvCtx) (t : Trellis) (e : SeqEntry) (tok : Nat) : Except KvStop (Word × CcVal × KvS) :=
  if tok < e.len then do
    let p ← s.1.pageAt x t e (tok / 16)
    .ok (t.slot p (tok % 16), kvOk, s)
  else .error (.fails kvRange)

/-- KVSHARE (R210). -/
def State.kvShare (s : KvS) (x : KvCtx) (t : Trellis) (c q : SeqEntry) : Except KvStop (Word × CcVal × KvS) :=
  let n := (q.len + 15) / 16
  if c.len ≠ 0 || c.cap < n then .error (.fails kvRange)
  else do
    let s1 ← (List.range n).foldlM (init := s) fun s j => do
      let p ← s.1.pageAt x t q j
      let r ← s.1.refcnt x t p
      if r = 2 ^ 32 - 1 then .error (kvBad 0x0105) else
      let s1 ← State.setRec s x t p (r + 1)
      State.kvWrite s1 x (c.pageVa j) 4 p
    let s2 ← if q.len = 0 then .ok s1 else State.kvWrite s1 x c.va 4 q.len
    .ok (0, kvOk, s2)

/-- KVDROP (R211). -/
def State.kvDrop (s : KvS) (x : KvCtx) (t : Trellis) (e : SeqEntry) : Except KvStop (Word × CcVal × KvS) := do
  let r ← (List.range ((e.len + 15) / 16)).foldlM (init := ((0, s) : Nat × KvS)) fun r j => do
    let p ← r.2.1.pageAt x t e j
    let d ← State.dropRef r.2 x t p
    .ok (if d.1 then r.1 + 1 else r.1, d.2)
  let s1 ← State.kvWrite r.2 x e.va 4 0
  .ok (BitVec.ofNat 64 r.1, kvOk, s1)

/-- KVCOW (R212). (DESIGN CHOICE, log 15.) (DEDUCED, log 29.) -/
def State.kvCow (s : KvS) (x : KvCtx) (t : Trellis) (m : KvMsg) (e : SeqEntry) : Except KvStop (Word × CcVal × KvS) := do
  if e.len = 0 then .ok (0, kvOk, s) else
  let p ← s.1.pageAt x t e ((e.len - 1) / 16)
  if e.len % 16 = 0 then .ok (BitVec.ofNat 64 p, kvOk, s) else
  let n ← s.1.refcnt x t p
  if m.held.isNone && n = 1 then .ok (BitVec.ofNat 64 p, kvOk, s)
  else
    let r ← State.copyStep s x t m e
    .ok (BitVec.ofNat 64 r.1, kvCopied, r.2)

/-- One lane's step (R207). -/
def State.kvStep (s : State) (x : KvCtx) (trellis : Word) (hwcow : Bool) (m : KvMsg) :
    Except KvStop (Word × CcVal × KvS) := do
  let t ← s.readTrellis x trellis
  let e ← s.readEntry x t m.a.toNat
  if s.entryHeld e then .error .hold else
  match m.kind with
  | .app => State.kvApp (s, 0) x t m hwcow e
  | .map => State.kvMap (s, 0) x t e m.b.toNat
  | .share => do
    let q ← s.readEntry x t m.b.toNat
    if s.entryHeld q then .error .hold else State.kvShare (s, 0) x t e q
  | .drop => State.kvDrop (s, 0) x t e
  | .cow => State.kvCow (s, 0) x t m e

/-! ### Answers -/

/-- A trap of a KV lane waits in the hold of its batch until the instruction completes (R207). -/
def Sheaf.addFault (sh : Sheaf) (l : Fin 32) (f : LaneFault) : Sheaf :=
  let g := fun (h : Hold) => if h.phase = 2 && hasLane h.acted l then { h with faults := h.faults ++ [f] } else h
  { sh with hold := g sh.hold
            putBy := sh.putBy.map fun p => (p.1, g p.2)
            aside := sh.aside.map fun a => { a with hold := g a.hold } }

/-- An answer written at its lane (R206, R207). -/
def State.kvAnswer (s : State) (r : KvResp) : State :=
  s.gate r.sheaf (.kv r) fun s sh =>
    match aget sh.ops r.op with
    | none => s
    | some o =>
      let l := laneOf r.lane
      let one : Mask := 1#32 <<< l.val
      -- the step is ordered with the fibre's later reads of the metadata (R207)
      let s1 : State := { s with
        l1 := s.l1.filter fun e => !(e.1.1 = sh.core && r.drop.contains e.1.2)
        cluster := amap s.cluster fun k c => if k.1 = clusterOf sh.core && r.drop.contains k.2 then { c with valid := 0 } else c }
      (s1.modBed sh.bed fun b => { b with tw := maxWord [b.tw, r.tw] }).modSheaf r.sheaf fun sh =>
        let live := one &&& o.due &&& ~~~o.gone
        let sh1 := match o.kind with
          | .kv d pair k =>
            let dests := match d with
              | some d => if pair then regRange d 2 else [d]
              | none => []
            match r.trap with
            | some t =>
              let fill := fun (r : Row) => { r with full := r.full ||| live }
              let x : Sheaf := dests.foldl (fun (x : Sheaf) (d : BitVec 8) => { x with rows := amod x.rows d.toNat fill })
                (sh.addFault l ⟨l, t.1, t.2.1, t.2.2, false⟩)
              match k with
              | some c => x.modFibs live fun _ f => f.writeC c (f.readC c)
              | none => x
            | none =>
              let x := match d with
                | some d => if pair then sh.writePair d live fun _ => r.value else sh.writeRow d live fun _ => loHalf r.value
                | none => sh
              let y := match k with
                | some c => x.modFibs live fun _ f => f.writeC c r.flags
                | none => x
              raiseH y live r.tw
          | _ => sh
        sh1.opDone r.op one

/-- The message of a lane as it begins. -/
def kvMessage (sheaf op : Nat) (kind : KvKind) (sent : Bool) (l : Nat) (a b : W32) (rest : List (Nat × W32 × W32)) : KvMsg :=
  ⟨sheaf, op, kind, l, a, b, rest, sent, false, none, none, [], [], [], false, 0, 0, none, none⟩

/-- The next lane of the batch is sent (R397); a frosted tile sends none (R363). -/
def State.kvNext (s : State) (m : KvMsg) : State :=
  match m.rest with
  | [] => s
  | (l, a, b) :: t => s.post (.kvAgentStep (kvMessage m.sheaf m.op m.kind false l a b t))

/-- The lane is decided: its place in pools' queues is given up, its answer sent, the next lane follows. -/
def State.kvDecided (s : State) (m : KvMsg) (value : Word) (flags : CcVal) (trap : Option (BitVec 8 × Word × W32))
    (tw : Word) (drop : List Loc) : State :=
  ((s.unqueueAll (.kv m.sheaf m.lane)).kvAnswer ⟨m.sheaf, m.op, m.lane, value, flags, trap, tw, drop⟩).kvNext m

/-- A step that does not succeed gives back what its copy has charged and the page it has taken (R212). -/
def State.kvUndo (s : State) (m : KvMsg) (cl : Nat) : State :=
  let s1 := m.charged.foldl (fun s e => s.refund e.2 cl 4) s
  match m.taken with
  | some t => s1.giveOne cl t.2
  | none => s1

/-- Lines of the metadata that a step on some sequences looks at (R207). -/
def State.metaLines (s : State) (x : KvCtx) (trellis : Word) (seqs : List Nat) : List Loc :=
  match s.readTrellis x trellis with
  | .error _ => []
  | .ok t =>
    let vas := seqs.flatMap fun i => match s.readEntry x t i with
      | .error _ => []
      | .ok e => e.va :: (List.range ((e.len + 15) / 16)).flatMap fun j => match s.pageAt x t e j with
        | .ok p => [e.pageVa j, t.recVa p]
        | .error _ => [e.pageVa j]
    let ring := match s.kvRead x (t.va + 0x38) 4 with
      | .ok h => [t.ring + BitVec.ofNat 64 (4 * (h % t.npages))]
      | .error _ => []
    (([t.va, t.va + 0x38, t.freectr] ++ ring ++ vas).filterMap fun va => match s.kvLoc x va .agentRead with
      | .ok a => some (lineOf (.dev a))
      | .error _ => none).eraseDups

/-- What a step that has not succeeded comes to. -/
def State.kvStopped (s : State) (x : KvCtx) (asn : Nat) (m : KvMsg) (sh : Sheaf) (drop : List Loc) : KvStop → State
  | .trap c va info lg =>
    let s1 := if lg && c ≠ 0x04 then s.logFor sh.launch c va (((aget sh.ops m.op).map (·.pc)).getD 0) else s
    ((s1.spend asn va (m.sheaf, some m.op)).kvUndo m x.cl).kvDecided m 0 0 (some (c, va, info)) 0 drop
  | .fails f => (s.kvUndo m x.cl).kvDecided m (if m.kind = .cow then zext64 (Config.kvcowNone s.free) else 0) f none 0 drop
  | .ask va c => (s.askFor x.cl asn va (m.sheaf, some m.op) c).again (.kvAgentStep m)
  | .hold => s.again (.kvAgentStep m)
  | .more s' m' => s'.again (.kvAgentStep m')
  | .peer line va =>
    (if s.peers.any fun e => e.2.what = .kv m.sheaf m.lane line then s else
      match line with
      | .peer p a => s.askPeer ⟨p, a, .read 256, vaLine va, s.bell, .kv m.sheaf m.lane line⟩
      | _ => s).again (.kvAgentStep m)
  | .kept s' why => s'.kvStopped x asn m sh drop why

/-- KV_AGENT_STEP (R396, R397). (DESIGN CHOICE, log 28.) -/
def execKvAgentStep (m0 : KvMsg) (s : State) : Out :=
  .next (
    match s.sheaf? m0.sheaf with
    | none => s.kvUndo m0 0
    | some sh => match s.launch? sh.launch with
      | none => s
      | some la =>
        if !m0.sent && frostedCore s sh.core then s.again (.kvAgentStep m0) else
        -- a step ends under the mode it began in (R404)
        let hw := m0.cow.getD (la.hdr.hwcow && !((s.part? la.part).map (·.cowAssisted)).getD false)
        let m := { m0 with sent := true, cow := some hw }
        let x : KvCtx := ⟨clusterOf sh.core, la.asn, la.hdr, m.sheaf, m.lane, sh.core⟩
        let drop := s.metaLines x sh.trellis (m.a.toNat :: if m.kind = .share then [m.b.toNat] else [])
        match s.kvStep x sh.trellis hw m with
        | .ok (v, f, st) => st.1.kvDecided m v f none st.2 drop
        | .error e => s.kvStopped x la.asn m sh drop e)

/-! ### The instructions at issue (R206, R207) -/

def OpKind.isKv : OpKind → Bool
  | .kv .. => true
  | _ => false

/-- A KV instruction: its destination is empty, its lanes are sent one at a time, and the batch is held until every lane
has been decided. -/
def kvRun (s : State) (i : LaneIns) (kind : KvKind) (op : OpKind) (a : BitVec 8) (b : Option (BitVec 8)) : State :=
  let sh := s.shf
  if sh.hold.phase = 2 then
    if sh.ops.any fun o => o.2.kind.isKv && decide (o.2.due &&& sh.hold.acted ≠ 0) then s.await 0x03 0 0
    else
      let m := sh.hold.acted &&& sh.issuing
      -- the answers have been written: they live on past a last-read mark (R22)
      s.laneFinish sh i sh.hold.faults m fun x => i.dests.foldl (fun x r => x.reviveRow r (m &&& ~~~faultMask sh.hold.faults)) x
  else s.memStep i (fun _ _ => 0) 1 fun s sh fs act =>
    if act = 0 then s.laneFinish sh i fs 0 id
    else if fs ≠ [] then s.trapLanes sh fs
    else if sh.opsFull then s.await 0x02 0 0
    -- the step comes after the fibres' earlier stores (R207, R268)
    else if !s.releaseReady sh act .dev then s.await 0x03 0 0
    else
      let (k, s1) := s.addOp ⟨sh.batchPc, op, act, act, 0, lanesOf fun _ => 0, [], 0, none⟩
      let lanes := (lanesIn act).map fun l => (l.val, sh.readLane a l, (b.map fun r => sh.readLane r l).getD 0)
      let s2 := match lanes with
        | [] => s1
        | (l, x, y) :: t => s1.post (.kvAgentStep (kvMessage s.cur k kind true l x y t))
      let s3 := (s2.roomFor i.dests).modSheaf s.cur fun x =>
        let x1 := i.dests.foldl (fun x r => x.emptyRow r act sh.batchPc) x
        match i.ccd with
        | some c => x1.modFibs act fun _ f => f.emptyC c
        | none => x1
      (s3.holdPhase 2 0x03).modSheaf s.cur fun x => { x with hold := { x.hold with acted := act } }

def execKvapp (o : OpKvA) (s : State) : Out :=
  .next (kvRun s ⟨o.g, [vop o.a 1 0], [], [], regRange o.d 2, some o.k⟩ .app (.kv (some o.d) true (some o.k)) o.a.reg none)
def execKvmap (o : OpKvMap) (s : State) : Out :=
  .next (kvRun s ⟨o.g, [vop o.a 1 0, vop o.b 1 1], [], [], regRange o.d 2, some o.k⟩ .map
    (.kv (some o.d) true (some o.k)) o.a.reg (some o.b.reg))
def execKvshare (o : OpKvShare) (s : State) : Out :=
  .next (kvRun s ⟨o.g, [vop o.a 1 0, vop o.b 1 1], [], [], [], some o.k⟩ .share (.kv none false (some o.k)) o.a.reg
    (some o.b.reg))
def execKvdrop (o : OpKvDrop) (s : State) : Out :=
  .next (kvRun s ⟨o.g, [vop o.a 1 0], [], [], [o.d], none⟩ .drop (.kv (some o.d) false none) o.a.reg none)
def execKvcow (o : OpKvA) (s : State) : Out :=
  .next (kvRun s ⟨o.g, [vop o.a 1 0], [], [], [o.d], some o.k⟩ .cow (.kv (some o.d) false (some o.k)) o.a.reg none)

end Sys2Proof.Machine
end

