-- ==== Sys2Proof/Machine/Population.lean ====
section
/-! DEFINITION. Resampling (R213 to R219, R390 to R394): arrival, deciding with its checks, draw, counts and placement, the
landing of clones, and the release. -/

namespace Sys2Proof.Machine

/-! ### Arrival (R213, R214) -/

/-- Whether every mapped name is full at every lane of a mask (R214). -/
def Sheaf.rowsFull (sh : Sheaf) (m : Mask) : Bool := sh.rows.all fun e => m &&& ~~~e.2.full = 0

/-- A mapped name that some lane of a mask finds empty. -/
def Sheaf.notFull (sh : Sheaf) (m : Mask) : Option Nat := (sh.rows.find? fun e => m &&& ~~~e.2.full ≠ 0).map (·.1)

/-- RSMP (R213, R214, R353): fibres in handler trap; those whose guard is true arrive once each of their mapped lanes is
full, and wait; the others pass. (DEDUCED, log 47.) -/
def execRsmp (o : OpRsmp) (s : State) : Out :=
  .next (
    let i : LaneIns := ⟨o.g, [vop o.a 1 0, vop o.b 1 1], [], [], [o.d], none⟩
    s.issueStep i fun s sh fs act0 =>
      let act := act0 &&& ~~~sh.inHandler
      let all := fs ++ sameFault (act0 &&& sh.inHandler) 0x01 0 0x0C
      if act = 0 then s.laneFinish sh i all 0 id
      else if sh.opsFull then s.await 0x02 0 0
      else match sh.notFull act with
        | some n => s.await 0x01 0 (BitVec.ofNat 8 n)
        | none =>
          let (_, s1) := s.addOp ⟨sh.batchPc, .rsmp o.d, act, act, 0, lanesOf fun _ => 0, [], 0, none⟩
          let w := fun l => sh.readLane o.a.reg l
          let n := fun l => sh.readLane o.b.reg l
          let pass := sh.issuing &&& ~~~act &&& ~~~faultMask all
          let s2 := (s1.roomFor [o.d]).modSheaf s.cur fun x =>
            let x1 := ((x.killAll i.srcs pass).emptyRow o.d act sh.batchPc).freeSrcs i.srcs
            let x2 := x1.modFibs act fun l f => f.parkAt .waiting (.rsmp (w l) (n l) o.d (lastRegs i.srcs)) x.npc
            (x2.advance pass).unbatch act
          (s2.trapLanes sh all).pollRsmp sh.launch)

/-! ### The draw and the counts (R216) -/

/-- The draw d of the n-th RSMP. -/
def rsmpDraw (seed n : Word) : Nat :=
  let z0 := seed + (n + 1) * 0x9E3779B97F4A7C15#64
  let z1 := (z0 ^^^ (z0 >>> 30)) * 0xBF58476D1CE4E5B9#64
  let z2 := (z1 ^^^ (z1 >>> 27)) * 0x94D049BB133111EB#64
  let z3 := z2 ^^^ (z2 >>> 31)
  (z3 >>> 32).toNat

/-- g(C). -/
def rsmpG (n d w c : Nat) : Nat := (n * 2 ^ 32 * c + 2 ^ 32 * w - d * w - 1) / (2 ^ 32 * w)

/-- Counts of the participants in ascending rank; c is the sum of the weights before. -/
def rsmpCounts (n d w : Nat) : Nat → List RsmpRec → List (RsmpRec × Nat)
  | _, [] => []
  | c, r :: t => (r, rsmpG n d w (c + r.w.toNat) - rsmpG n d w c) :: rsmpCounts n d w (c + r.w.toNat) t

/-- Participants of a launch: the fibres at RSMP. -/
def State.participants (s : State) (la : Nat) : List RsmpRec :=
  (s.population la).filterMap fun e => match s.sheaf? e.1 with
    | some sh => match sh.lanes[e.2] with
      | .held f => match f.park with
        | .rsmp w n d _ => some ⟨e.1, e.2, f.rank, w, n, d⟩
        | _ => none
      | _ => none
    | none => none

/-- Insert in ascending rank. -/
def byRank (r : RsmpRec) : List RsmpRec → List RsmpRec
  | [] => [r]
  | q :: t => if r.rank.toNat ≤ q.rank.toNat then r :: q :: t else q :: byRank r t

def sortRank (l : List RsmpRec) : List RsmpRec := l.foldr byRank []

/-! ### Placement (R218) -/

/-- A free lane with its place: die, core, bed, sheaf index, lane; and where it is. -/
structure Free where
  die : Nat
  core : Nat
  bed : Nat
  index : Nat
  lane : Fin 32
  uid : Nat
  pcore : Nat
  bkey : Nat
  deriving DecidableEq, Repr

def Free.key (f : Free) : List Nat := [f.die, f.core, f.bed, f.index, f.lane.val]

/-- Lexicographic order. -/
def lexLe : List Nat → List Nat → Bool
  | a :: s, b :: t => if a < b then true else if b < a then false else lexLe s t
  | _, _ => true

def byPlace (f : Free) : List Free → List Free
  | [] => [f]
  | g :: t => if lexLe f.key g.key then f :: g :: t else g :: byPlace f t

/-- Whether a bed holds its sheafs for clones (R218): not once its last fibre has left (R149). -/
def State.holdsSheafs (s : State) (bk : Nat) : Bool := !((s.bed? bk).any fun b => b.status = .completing)

/-- The unheld lanes of the sheafs of a launch's beds, in the order of R218, with lanes that are to be culled counted as
free. -/
def State.freeLanes (s : State) (la : Nat) (part : Nat) (culled : List (Nat × Fin 32)) : List Free :=
  let all := s.sheafs.flatMap fun e =>
    if e.2.launch ≠ la || !s.holdsSheafs e.2.bed then [] else
      let p := s.placement part e.2.core
      let b := ((s.bed? e.2.bed).map (·.wid.toNat)).getD 0
      (allLanes.filter fun l => !e.2.lanes[l].isHeld || culled.contains (e.1, l)).map fun l =>
        (⟨p.1, p.2, b, e.2.index, l, e.1, e.2.core, e.2.bed⟩ : Free)
  all.foldr byPlace []

/-- The first free lane for a clone of a parent: at the first level that has one. -/
def pickFree (uid core bkey : Nat) (fs : List Free) : Option Free :=
  (fs.find? fun f => f.uid = uid).orElse fun _ =>
  (fs.find? fun f => f.bkey = bkey).orElse fun _ =>
  (fs.find? fun f => f.pcore = core).orElse fun _ =>
  (fs.find? fun f => clusterOf f.pcore = clusterOf core).orElse fun _ =>
  (fs.find? fun f => dieOf f.pcore = dieOf core).orElse fun _ => fs.head?

/-- What deciding comes to: the next rank, free lanes left, survivors and clones. -/
structure Decided where
  next : Nat
  free : List Free
  keep : List RsmpKeep
  clones : List CloneMsg
  deriving DecidableEq, Repr

/-- The lineage word of R17 and R217. -/
def lineageOf (n : Word) (rank : Nat) : Word := ((n + 1).setWidth 24 : BitVec 24) ++ (BitVec.ofNat 40 rank : BitVec 40)

/-- The clones of one survivor, ordinals k to k + c − 1. -/
def State.placeClones (s : State) (la : Nat) (n : Word) (r : RsmpRec) : Nat → Nat → Decided → Decided
  | _, 0, d => d
  | k, c + 1, d =>
    match s.sheaf? r.sheaf with
    | none => d
    | some sh =>
      match pickFree r.sheaf sh.core sh.bed d.free with
      | none => d
      | some f =>
        let m : CloneMsg := ⟨la, r.sheaf, r.lane.val, f.uid, f.lane.val, BitVec.ofNat 64 d.next, r.rank, lineageOf n d.next,
          BitVec.ofNat 32 k, r.d.toNat⟩
        s.placeClones la n r (k + 1) c { d with next := d.next + 1, free := d.free.filter (· ≠ f), clones := d.clones ++ [m] }

/-- Survivors with their new ranks, and their clones, parents in ascending rank (R217, R218). -/
def State.decide_ (s : State) (la : Nat) (n : Word) : List (RsmpRec × Nat) → Decided → Decided
  | [], d => d
  | (_, 0) :: t, d => s.decide_ la n t d
  | (r, c + 1) :: t, d =>
    let k : RsmpKeep := ⟨r.sheaf, r.lane, BitVec.ofNat 64 d.next, r.rank, lineageOf n d.next, 0, r.d⟩
    s.decide_ la n t (s.placeClones la n r 1 c { d with next := d.next + 1, keep := d.keep ++ [k] })

/-! ### RSMP_DECIDING (R215, R390, R393) -/

/-- Every bed of a launch is resident and thawed, and none is queued (R214, R390). -/
def State.allResident (s : State) (la : Nat) : Bool :=
  (s.beds.all fun e => e.2.launch ≠ la || (e.2.status ≠ .lifted && e.2.status ≠ .lifting && !frostedCore s e.2.core)) &&
  !(s.spawns.any fun r => r.launch = la) &&
  !(s.events.any fun e => match e with
    | .spawnRequest m => ((s.sheaf? m.sheaf).map (·.launch)).getD 0 = la
    | _ => false)

/-- Clusters × 4 cores with 48 units each (R254). -/
def State.coresOf (s : State) (part : Nat) : Nat := 4 * ((s.part? part).map fun p => p.clusters.length).getD 0

/-- Beds of a record that are not placed yet, and their sheafs. -/
def SpawnRec.left (h : Header) (r : SpawnRec) : Nat × Nat :=
  let beds := h.bedsOf r.count
  let n := beds - r.next - r.ahead.length
  let whole := (2 ^ h.wb + 31) / 32
  let last := (r.count - (beds - 1) * 2 ^ h.wb + 31) / 32
  (n, if n ≠ 0 && !r.ahead.contains (beds - 1) then (n - 1) * whole + last else n * whole)

/-- Whether a launch's beds, the queued ones among them, can never all be resident at once: their units or sheafs outnumber those of its
partition (R391). (DEDUCED, log 81.) -/
def State.tooLarge (s : State) (la : Nat) (part : Nat) : Bool :=
  match s.launch? la with
  | none => false
  | some l =>
    let left := (s.spawns.filter fun r => r.launch = la).map (SpawnRec.left l.hdr)
    let mine := s.beds.filter fun e => e.2.launch = la
    decide (48 * s.coresOf part < (mine.map (·.2.units)).sum + unitsFor l.hdr * (left.map (·.1)).sum) ||
      decide (512 * s.coresOf part < (mine.map (·.2.sheafs.length)).sum + (left.map (·.2)).sum)

/-- The check of R215 that fails first, as INFO[1:0]. -/
def State.rsmpCheck (s : State) (l : Launch) (la : Nat) (ps : List RsmpRec) : Option Nat :=
  match ps with
  | [] => none
  | p :: _ =>
    let n := p.n.toNat
    let w : Nat := (ps.map fun r => r.w.toNat).sum
    if ps.any fun r => r.n ≠ p.n then some 3
    else if w = 0 then some 1
    else if ps.length + (s.freeLanes la l.part []).length < n || (l.hdr.popcap ≠ 0 && l.hdr.popcap < n) then some 2
    else none

/-- POPULATION for every participant (R215): each is withdrawn at its RSMP, and the fibres of one sheaf at one PC take one
frame. -/
def State.popTrap (s : State) (ps : List RsmpRec) (code : Nat) : State :=
  (ps.map (·.sheaf)).eraseDups.foldl (fun s u =>
    match s.sheaf? u with
    | none => s
    | some sh =>
      let mine := ps.filter fun r => r.sheaf = u
      let at_ := fun (r : RsmpRec) => sh.fib r.lane 0 (·.parkPc)
      ((mine.map at_).eraseDups).foldl (fun s pc =>
        let ls := mine.filter fun r => at_ r = pc
        let s1 := ls.foldl (fun s r => s.deliverLane u r.lane) s
        s1.takeTrap u (ls.map fun r => ⟨r.lane, 0x0A, 0, BitVec.ofNat 32 code, false⟩) pc (fun _ => pc) none) s) s

/-- The checks have passed: the last-read marks of the arrived fibres take effect (R22). (DEDUCED, log 47.) -/
def Sheaf.killArrived (sh : Sheaf) : Sheaf :=
  allLanes.foldl (fun sh l => match sh.lanes[l] with
    | .held f => match f.park with
      | .rsmp _ _ _ last => last.foldl (fun sh r => (sh.killRow r (1#32 <<< l.val)).freeCheck r) sh
      | _ => sh
    | _ => sh) sh

/-- RSMP_DECIDING. (DEDUCED, log 47.) -/
def execRsmpDeciding (la : Nat) (s : State) : Out :=
  .next (
    match s.launch? la with
    | none => s
    | some l =>
      let ps := sortRank (s.participants la)
      if l.rsmp.isSome || ps = [] || ps.length ≠ (s.population la).length then s
      else if !s.allResident la then
        let s1 := if s.tooLarge la l.part && !s.reports.contains (.rsmpTooLarge l.number) then s.report (.rsmpTooLarge l.number)
          else s
        (s1.again (.rsmpDeciding la)).pollPlace l.part
      else if 16 ≤ (s.launches.filter fun e => e.2.rsmp.isSome).length then s.again (.rsmpDeciding la)
      else match s.rsmpCheck l la ps with
        | some code => s.popTrap ps code
        | none =>
          let n := ((ps.head?).map fun r => r.n.toNat).getD 0
          let w : Nat := (ps.map fun r => r.w.toNat).sum
          let cs := rsmpCounts n (rsmpDraw l.hdr.seed l.rsmpCount) w 0 ps
          let gone := (cs.filter fun e => e.2 = 0).map fun e => (e.1.sheaf, e.1.lane)
          let d := s.decide_ la l.rsmpCount cs ⟨0, s.freeLanes la l.part gone, [], []⟩
          let s0 := (ps.map (·.sheaf)).eraseDups.foldl (fun s u => s.modSheaf u Sheaf.killArrived) s
          let s1 := s0.modLaunch la fun x => { x with rsmp := some ⟨d.keep, d.clones.length, []⟩ }
          -- every cull takes effect first
          let s2 := (gone.map (·.1)).eraseDups.foldl (fun s u =>
            let m := maskOf fun l => gone.contains (u, l)
            let s' := s.modSheaf u fun sh => (akeys sh.ops fun _ o => match o.kind with
              | .rsmp _ => true
              | _ => false).foldl (fun sh k => sh.opDone k m) sh
            s'.leave u m .culled) s1
          let s3 := d.clones.foldl (fun s m => s.post (.cloneLanding m)) s2
          if d.clones = [] then s3.post (.rsmpRelease la) else s3)

/-! ### CLONE_LANDING (R394) -/

/-- A parent's row as its clone's lane takes it. -/
def Row.landIn (r : Row) (p : Row) (pl l : Fin 32) : Row :=
  { r with vals := r.vals.set l p.vals[pl]
           live := if hasLane p.live pl then r.live ||| (1#32 <<< l.val) else r.live &&& ~~~(1#32 <<< l.val)
           full := r.full ||| (1#32 <<< l.val) }

/-- A row whose name the parent's sheaf does not map. -/
def Row.landEmpty (r : Row) (l : Fin 32) : Row :=
  { r with vals := r.vals.set l 0, live := r.live &&& ~~~(1#32 <<< l.val), full := r.full ||| (1#32 <<< l.val) }

/-- The image written at its lane. -/
def Sheaf.land (sh p : Sheaf) (m : CloneMsg) : Sheaf :=
  let pl := laneOf m.parentLane
  let l := laneOf m.destLane
  match p.lanes[pl] with
  | .held f =>
    let sh1 := p.rows.foldr (fun e (x : Sheaf) =>
      { x with rows := aset x.rows e.1 (((aget x.rows e.1).getD Row.fresh).landIn e.2 pl l) }) sh
    let sh2 : Sheaf := { sh1 with rows := amap sh1.rows fun n r => if (aget p.rows n).isSome then r else r.landEmpty l }
    let clone : Fibre := { f with
      rank := m.rank
      parent := m.parentRank
      lineage := m.lineage
      park := .rsmp 0 0 (BitVec.ofNat 8 m.d) []
      written := []
      seen := [] }
    ({ sh2 with lanes := sh2.lanes.set l (.held clone) } : Sheaf).writeRow (BitVec.ofNat 8 m.d) (1#32 <<< l.val) fun _ => m.ordinal
  | _ => sh

/-- CLONE_LANDING (R394, R395, R374): an image bound to or from a frosted tile waits; with the last one the release
follows. -/
def execCloneLanding (m : CloneMsg) (s : State) : Out :=
  .next (
    match s.sheaf? m.parentSheaf, s.sheaf? m.destSheaf with
    | some p, some sh =>
      if frostedCore s p.core || frostedCore s sh.core then s.again (.cloneLanding m) else
      let s1 := (s.roomIn m.destSheaf (p.rows.map fun e => BitVec.ofNat 8 e.1)).modSheaf m.destSheaf fun sh => sh.land p m
      let s2 := s1.modLaunch m.launch fun l => { l with rsmp := l.rsmp.map fun r =>
        { r with due := r.due - 1, landed := r.landed ++ [(m.destSheaf, laneOf m.destLane)] } }
      match (s2.launch? m.launch).bind Launch.rsmp with
      | some r => if r.due = 0 then s2.post (.rsmpRelease m.launch) else s2
      | none => s2
    | _, _ => s)

/-! ### RSMP_RELEASE (R219) -/

/-- A survivor: its new rank, parent and lineage, v[D] := 0, and it is ready. -/
def Sheaf.keepOn (sh : Sheaf) (k : RsmpKeep) : Sheaf :=
  let one : Mask := 1#32 <<< k.lane.val
  let sh1 := (akeys sh.ops fun _ o => decide (o.kind = .rsmp k.d)).foldl (fun sh n => sh.opDone n one) sh
  (sh1.writeRow k.d one fun _ => k.value).modFibs one fun _ f =>
    { f.wake with rank := k.rank, parent := k.parent, lineage := k.lineage }

/-- RSMP_RELEASE: every participant completes at once, every clone is ready, and the launch's count rises. -/
def execRsmpRelease (la : Nat) (s : State) : Out :=
  .next (
    match s.launch? la with
    | none => s
    | some l => match l.rsmp with
      | none => s
      | some r =>
        if r.due ≠ 0 then s
        else if (s.population la).any fun e => ((s.sheaf? e.1).map fun sh => frostedCore s sh.core ||
            (s.coreState sh.core).stopped.getLsbD sh.part).getD false then
          s.again (.rsmpRelease la)
        else
          let s1 := r.keep.foldl (fun s k => s.modSheaf k.sheaf fun sh => sh.keepOn k) s
          let s2 := r.landed.foldl (fun s e => s.modSheaf e.1 fun sh => sh.modFibs (1#32 <<< e.2.val) fun _ f => f.wake) s1
          let s3 := s2.modLaunch la fun x => { x with rsmp := none, rsmpCount := x.rsmpCount + 1 }
          (s.beds.filter fun e => e.2.launch = la).foldl (fun s e => s.pollBed e.1) s3)

end Sys2Proof.Machine
end

