-- ==== Sys2Proof/Machine/Engine.lean ====
section
/-! DEFINITION. What every engine command does (R220 to R226, R285, R437): its ranges, the issue of a command with its checks,
charge and ownership, the reads and writes of one unit, faults, and its end with status and completion time. -/

namespace Sys2Proof.Machine

/-! ### Ranges (R228, R233, R236, R323) -/

def wtimes (n : Nat) (x : Word) : Word := BitVec.ofNat 64 n * x

/-- Block bytes of a format (Table 9.4). -/
def fmtBlock : MFmt → Nat
  | .n4 => 32
  | .e4m3 | .int8 => 64
  | .bf16 | .fp16 => 128

/-- Bytes of a tile row in memory (R233). -/
def rowSize : TFmt → Nat
  | .w32 => 64
  | .bf16 | .fp16 => 32
  | .e4m3 => 16

/-- Lines a destination of n bytes touches. -/
def linesTouched (a : Word) (n : Nat) : Nat := if n = 0 then 0 else (a.toNat + n - 1) / 256 - a.toNat / 256 + 1

/-- Progress units of a command (R224). -/
def CmdBody.count : CmdBody → Nat
  | .mma _ _ _ _ _ _ _ _ _ _ n _ => n
  | .accz .. => 1
  | .accst .. | .accldm .. => 16
  | .xcopy _ _ _ _ _ rows => rows
  | .xfill dst n _ => linesTouched dst n
  | .xgather slots _ _ | .xscat slots _ _ => slots.length
  | .dma _ dst n => linesTouched dst n

/-- The part of a run of n bytes from a that lies in its u-th line. -/
def lineRange (a : Word) (n u : Nat) : Word × Nat :=
  let lo := max a.toNat (a.toNat / 256 * 256 + 256 * u)
  let hi := min (a.toNat / 256 * 256 + 256 * (u + 1)) (a.toNat + n)
  (BitVec.ofNat 64 lo, hi - lo)

/-- What unit u reads. -/
def CmdBody.reads (b : CmdBody) (u : Nat) : List (Word × Nat) :=
  match b with
  | .mma _ fa fb _ a sa b sb ia ib _ _ =>
    ((List.range 16).map fun i => (a + wtimes u ia + wtimes i sa, fmtBlock fa)) ++
      (List.range 16).map fun j => (b + wtimes u ib + wtimes j sb, fmtBlock fb)
  | .accz .. | .accst .. | .xfill .. => []
  | .accldm _ f _ a st => [(a + wtimes u st, rowSize f)]
  | .xcopy src ss _ _ n _ => [(src + wtimes u ss, n)]
  | .xgather slots _ n => [(slots.getD u 0, n)]
  | .xscat _ src n => [(src + wtimes u (BitVec.ofNat 64 n), n)]
  | .dma src dst n =>
    let r := lineRange dst n u
    [(src + (r.1 - dst), r.2)]

/-- What unit u writes. -/
def CmdBody.writes (b : CmdBody) (u : Nat) : List (Word × Nat) :=
  match b with
  | .mma .. | .accz .. | .accldm .. => []
  | .accst _ f a st => [(a + wtimes u st, rowSize f)]
  | .xcopy _ _ dst ds n _ => [(dst + wtimes u ds, n)]
  | .xfill dst n _ | .dma _ dst n => [lineRange dst n u]
  | .xgather _ dst n => [(dst + wtimes u (BitVec.ofNat 64 n), n)]
  | .xscat slots _ n => [(slots.getD u 0, n)]

/-- A range cut at the lines it touches. -/
def cutRange : Nat → Word → Nat → List (Word × Nat)
  | 0, _, _ => []
  | k + 1, a, n => if n = 0 then [] else
      let m := min n (256 - a.toNat % 256)
      (a, m) :: cutRange k (a + BitVec.ofNat 64 m) (n - m)

def cutAll (rs : List (Word × Nat)) : List (Word × Nat) := rs.flatMap fun r => cutRange (r.2 / 256 + 2) r.1 r.2

/-- Every range a command writes. -/
def CmdBody.dest (b : CmdBody) : List (Word × Nat) := (List.range b.count).flatMap b.writes
def CmdBody.source (b : CmdBody) : List (Word × Nat) := (List.range b.count).flatMap b.reads

/-- The ranges of the window check (R437): the destination of XFILL is one. -/
def CmdBody.ranges (b : CmdBody) : List (Word × Nat) :=
  match b with
  | .xfill dst n _ => [(dst, n)]
  | _ => b.source ++ b.dest

/-- A range that reaches the launch's window without lying wholly in the bed's part (R437). -/
def windowBad (h : Header) (r : Word × Nat) : Bool :=
  let lo := r.1.toNat
  let w := h.window.toNat
  decide (lo < w + 1048576 ∧ w < lo + r.2) && !decide (w ≤ lo ∧ lo + r.2 ≤ w + h.scratch)

/-- Whether a command reads or writes the scratchpad (R356). -/
def CmdBody.touchesWindow (b : CmdBody) (h : Header) : Bool :=
  (b.source ++ b.dest).any fun r =>
    decide (r.1.toNat < h.window.toNat + 1048576 ∧ h.window.toNat < r.1.toNat + r.2)

def CmdBody.windowBad (b : CmdBody) (h : Header) : Bool :=
  b.ranges.any (Machine.windowBad h)

/-! ### Where the bytes of a unit lie -/

inductive Spot where
  | pad (off : Nat)
  | mem (loc : Loc)
  | fault (cause : BitVec 8) (log : Bool)
  | ask (c : Checked)
  deriving DecidableEq, Repr

structure Piece where
  va : Word
  n : Nat
  spot : Spot
  deriving DecidableEq, Repr

def State.hdrOf (s : State) (la : Nat) : Option Header := (s.launch? la).map (·.hdr)

/-- The cluster an engine acts for: the core's, or the hub die. -/
def cmdCluster (c : Cmd) : Nat := match c.body with
  | .dma .. => hubCluster
  | _ => clusterOf c.core

/-- A range of a command, piece by piece (R382, R437): in the bed's part of the window without translation. -/
def State.spots (s : State) (c : Cmd) (a : Acc) (rs : List (Word × Nat)) : List Piece :=
  let h := match c.body with
    | .dma .. => none
    | _ => s.hdrOf c.launch
  (cutAll rs).map fun r =>
    let inW := (h.map fun h => inWindow h r.1).getD false
    ⟨r.1, r.2, if inW then .pad (r.1.toNat - ((h.map (·.window.toNat)).getD 0)) else
      match s.check (cmdCluster c) c.asn h r.1 a with
      | .at_ loc _ _ => .mem loc
      | .fault cause lg => .fault cause lg
      | w => .ask w⟩

/-- Bytes of a piece, a wait, an uncorrectable error, or a peer to ask. -/
inductive Got where
  | bytes (b : List Byte)
  | wait
  | bad
  | peer (line : Loc) (va : Word)
  deriving DecidableEq, Repr

def padWords (off n : Nat) : List Nat := (List.range ((off + n + 3) / 4 - off / 4)).map (· + off / 4)

/-- An engine's read (R222): it waits for other owners and for empty words, other than its own. -/
def State.enginePiece (s : State) (c : Cmd) (p : Piece) : Got :=
  match p.spot with
  | .pad off => match s.bed? c.bed with
    | none => .bytes (List.replicate p.n 0)
    | some b => if (padWords off p.n).any fun w => b.padEmpty.contains w && !c.emptied.contains w then .wait
        else .bytes (b.padBytes off p.n)
  | .mem loc =>
    let line := lineOf loc
    if s.engineHolds line (some c.id) || s.portHolds line then .wait else
    match loc with
    | .peer .. => match aget c.got line with
      | some bs => .bytes ((bs.drop (locOff loc)).take p.n)
      | none => .peer line p.va
    | _ => if (s.home line).poison then .bad else .bytes (s.homeBytes loc p.n)
  | _ => .wait

/-! ### One unit -/

/-- What a unit comes to before it writes. -/
inductive UnitEnd where
  | wait (s : State)
  | stop (cause : BitVec 8) (addr : Word) (info : W32) (log : Bool)
  | bad
  | go (s : State) (data : List (List Byte)) (out : List Piece)

/-- The fault of a unit: the lowest cause, at its first piece (R384). -/
def firstFault : List (Piece × W32) → Option (BitVec 8 × Word × W32 × Bool)
  | [] => none
  | (p, info) :: t =>
    match p.spot with
    | .fault c lg => match firstFault t with
      | some (c', r) => if c'.toNat < c.toNat then some (c', r) else some (c, p.va, info, lg)
      | none => some (c, p.va, info, lg)
    | _ => firstFault t

/-- Whether a unit of a command that is not done writes a line. -/
def Cmd.willWrite (c : Cmd) (va : Word) : Bool :=
  (List.range (c.body.count - c.units)).any fun i => (c.body.writes (c.units + i)).any fun r =>
    decide (r.1.toNat < va.toNat + 256 ∧ va.toNat < r.1.toNat + r.2)

/-- Whether an earlier copy of the same queue is still to write the line of a piece (R225). -/
def State.copyAhead (s : State) (c : Cmd) (p : Piece) : Bool :=
  match aget s.seats (State.seatKey c.core c.seat) with
  | some t => t.cq.any (fun d => d.id = c.id) && (t.cq.takeWhile fun d => d.id ≠ c.id).any fun d => d.willWrite (vaLine p.va)
  | none => false

/-- Whether a command may write a line now: no other command took it before (R221, R225), its page is not moving, its port
is up, its die has a free sector (R278). -/
def State.mayWrite (s : State) (c : Cmd) (p : Piece) : Bool :=
  match p.spot with
  | .mem loc => (match (s.home (lineOf loc)).engine with
      | [] => true
      | e :: _ => e = c.id) && !s.moving (lineOf loc) && !s.portHolds (lineOf loc) && !s.starves (lineOf loc) && !s.copyAhead c p
  | .pad off => match aget s.seats (State.seatKey c.core c.seat) with
    | some t => !((t.cq.takeWhile fun d => d.id ≠ c.id).any fun d => (padWords off p.n).any fun w => d.emptied.contains w)
    | none => true
  | _ => true

/-- A command takes a line owned at its home (R221): behind the commands that issued before it. -/
def State.own (s : State) (id : Nat) (line : Loc) : State :=
  let s' := s.recall line none
  let es := (s'.home line).engine
  s'.setHome line { s'.home line with engine := es.takeWhile (fun e => decide (e < id)) ++ id :: es.dropWhile (fun e => decide (e < id)) }

/-- A line that could not be charged and taken at issue is charged and taken before it is written; the error is the state in
which the charge waits. (DEDUCED, log 30.) -/
def State.lateCharge (s : State) (c : Cmd) (ps : List Piece) : Except State State :=
  ps.foldlM (init := s) fun s p =>
    match p.spot with
    | .mem loc =>
      let line := lineOf loc
      if (s.cmd? c.id).all fun d => d.owned.any fun e => e.2 = line then .ok s else
      let take := fun (s : State) (ch : List (Loc × Nat)) => (s.own c.id line).modCmd c.id fun d =>
        { d with charged := d.charged ++ ch, owned := d.owned ++ [(vaLine p.va, line)] }
      match s.chargePool line with
      | none => .ok (take s [])
      | some k =>
        match s.charge k (cmdCluster c) 4 (.hub c.id) with
        | .done s' => .ok (take s' [(line, k)])
        | .waits s' => .error s'
    | _ => .ok s

def pieceLines (ps : List Piece) : List Loc := (ps.filterMap fun p => match p.spot with
  | .mem l => some (lineOf l)
  | _ => none).eraseDups

/-- The watch hits of an engine write (R419, R420). -/
def State.engineHits (s : State) (c : Cmd) (out : List Piece) : List WatchHit :=
  if s.watches = [] then [] else
    out.flatMap fun p => match p.spot, c.body with
      | .mem _, .dma .. => []
      | .mem _, _ => ((s.watchesFor (dieOf c.core) c.asn p.va p.n .engine).filter fun r =>
          !c.watched.contains (p.va.toNat, r)).map fun r => ⟨dieOf c.core, r, c.sheaf, none, some c.id, c.pc, p.va, .engine, []⟩
      | _, _ => []

/-- Tokens of a command's pool for the line requests of a unit, one for each (R340, R341): with n more of them it goes on. -/
def State.cmdTokens (c : Cmd) : Nat → State → Option State × State
  | 0, s => (some s, s)
  | n + 1, s =>
    let key := (s.launch? c.launch).map fun la => (poolKey la.part la.hdr.pool, dieOf c.core)
    let only := ((s.sheaf? c.sheaf).map fun sh => sh.ops.all fun o => o.2.kind = .engine c.id).getD true
    match s.getToken key c.core (.cmd c.id) only with
    | some s1 => State.cmdTokens c n (s1.modCmd c.id fun d => { d with tokens := d.tokens + 1 })
    | none => (none, s.waitToken key c.core (.cmd c.id))

/-- Whether the rest of a command reads a word of its destination (R236, R323). -/
def CmdBody.readsLater (b : CmdBody) (u : Nat) (va : Word) : Bool :=
  match b with
  | .xcopy .. | .xgather .. | .xscat .. | .dma .. => (List.range (b.count - u)).any fun i => (b.reads (u + i)).any fun r =>
      decide (r.1.toNat < va.toNat + 4 ∧ va.toNat < r.1.toNat + r.2)
  | _ => false

/-- The word at a byte of a piece, before it is written. -/
def State.wordBefore (s : State) (c : Cmd) (p : Piece) (off : Nat) : W32 :=
  match p.spot with
  | .pad o => ((s.bed? c.bed).map fun b => BitVec.ofNat 32 (bytesToNat (b.padBytes (o + off) 4))).getD 0
  | .mem l => BitVec.ofNat 32 (bytesToNat (s.homeBytes (locPlus l off) 4))
  | _ => 0

/-- What a unit is about to overwrite and a later one reads. -/
def State.oldWords (s : State) (c : Cmd) (out : List Piece) : List (Word × W32) :=
  out.flatMap fun p => (List.range (p.n / 4)).filterMap fun i =>
    let va := p.va + BitVec.ofNat 64 (4 * i)
    if c.body.readsLater (c.units + 1) va then some (va, s.wordBefore c p (4 * i)) else none

/-- The bytes of a source piece: a word the command has overwritten is read as it was before or as it is.
(DESIGN CHOICE, log 13.) -/
def Cmd.patch (c : Cmd) (free : Nat) (p : Piece) (bs : List Byte) : List Byte :=
  if c.olds = [] then bs else
    (List.range (bs.length / 4)).flatMap fun i =>
      match aget c.olds (p.va + BitVec.ofNat 64 (4 * i)) with
      | some x => if Config.overlapOld (free + i) then natToBytes 4 x.toNat else (bs.drop (4 * i)).take 4
      | none => (bs.drop (4 * i)).take 4

/-- A piece whose CXL port has failed faults (R410). -/
def State.portFault (s : State) (p : Piece) : Piece :=
  match p.spot with
  | .mem loc => if s.portFails (lineOf loc) then { p with spot := .fault 0x03 true } else p
  | _ => p

/-- Up to its writes, unit u of a command (R222 to R224, R383, R384). (DEDUCED, log 31.) All of a unit is read before any of it
is written, so that an overlap within one unit reads the words as they stood before. (DESIGN CHOICE, log 78.) -/
def State.unitRead (s : State) (c : Cmd) : UnitEnd :=
  let inn := (s.spots c .engineRead (c.body.reads c.units)).map s.portFault
  let out := (s.spots c .engineWrite (c.body.writes c.units)).map s.portFault
  let who := (c.sheaf, some c.id)
  let asks := (inn ++ out).filterMap fun p => match p.spot with
    | .ask k => some (p.va, k)
    | _ => none
  if asks ≠ [] then .wait (asks.foldl (fun s e => s.askFor (cmdCluster c) c.asn e.1 who e.2) s) else
  match firstFault (inn.map (fun p => (p, 4)) ++ out.map fun p => (p, 5)) with
  | some (cause, va, info, lg) => .stop cause va info lg
  | none =>
    let hits := s.engineHits c out
    if hits ≠ [] then .wait (s.raiseHits hits) else
    -- a request takes its token before its reserve charge (R340); the hub die's engine takes none
    let n := match c.body with
      | .dma .. => 0
      | _ => (pieceLines (inn ++ out)).length - c.tokens
    match State.cmdTokens c n s with
    | (none, s0) => .wait s0
    | (some s, _) =>
      let got := inn.map fun p => s.enginePiece c p
      let peers := got.filterMap fun g => match g with
        | .peer l va => some (l, va)
        | _ => none
      if got.any (· = .bad) then .bad
      else if peers ≠ [] then
        .wait (peers.foldl (fun (s : State) (e : Loc × Word) => if s.peers.any fun q => q.2.what = .engine c.id e.1 then s else match e.1 with
          | .peer p a => s.askPeer ⟨p, a, .read 256, vaLine e.2, s.bell, .engine c.id e.1⟩
          | _ => s) s)
      else if got.any (· = .wait) || !(out.all fun p => s.mayWrite c p) then .wait s
      else match s.lateCharge c out with
        | .error s' => .wait s'
        | .ok s2 =>
          let s3 := (pieceLines out).foldl State.count ((pieceLines inn).foldl (fun s l => s.recall l none) s2)
          .go s3 ((inn.zip got).map fun e => match e.2 with
            | .bytes b => c.patch s.free e.1 b
            | _ => []) out

/-- A line written by an engine: arrival with the refund of its charge (R281), then the bytes; the largest Tw is kept. -/
def State.enginePut (s : State) (c : Cmd) (p : Piece) (bs : List Byte) : State :=
  match p.spot with
  | .pad off => (s.modBed c.bed fun b => b.padWrite off bs).modCmd c.id fun d =>
      { d with emptied := d.emptied.filter fun w => !(padWords off p.n).contains w }
  | .mem loc =>
    let line := lineOf loc
    match loc with
    | .peer q a => (s.askPeer ⟨q, a, .write (bs.zipIdx.map fun e => (e.2, e.1)), p.va, s.bell, .engine c.id line⟩).modCmd c.id fun d =>
        { d with peersDue := d.peersDue + 1 }
    | _ =>
      let cur := (s.cmd? c.id).getD c
      let charged := cur.charged.any fun e => e.1 = line
      let s1 := (s.recall line none).arriveAt line (cmdCluster c) charged
      let (tw, s2) := s1.homeWrite line (bs.zipIdx.map fun e => (locOff loc + e.2, e.1))
      s2.modCmd c.id fun d => { d with charged := d.charged.filter fun e => e.1 ≠ line, tmax := maxWord [d.tmax, tw] }
  | _ => s

/-- The pieces of a unit's destination with their bytes. -/
def dealBytes : List Piece → List Byte → List (Piece × List Byte)
  | [], _ => []
  | p :: t, bs => (p, bs.take p.n) :: dealBytes t (bs.drop p.n)

def State.engineWrites (s : State) (c : Cmd) (out : List Piece) (bs : List Byte) : State :=
  let olds := s.oldWords c out
  ((dealBytes out bs).foldl (fun s e => s.enginePut c e.1 e.2) s).modCmd c.id fun d => { d with
    wrote := true
    olds := d.olds ++ olds.filter fun e => (aget d.olds e.1).isNone }

/-! ### The end of a unit and of a command -/

/-- Whether a later unit of a command writes a line of its destination. -/
def writesLater (b : CmdBody) (u : Nat) (va : Word) : Bool :=
  match b with
  | .xfill .. | .dma .. => false
  | _ => (List.range (b.count - u)).any fun i => (b.writes (u + i)).any fun r =>
      decide (r.1.toNat < va.toNat + 256 ∧ va.toNat < r.1.toNat + r.2)

/-- Give up ownership of lines. -/
def State.disown (s : State) (id : Nat) (lines : List Loc) : State :=
  lines.foldl (fun (s : State) (l : Loc) => match aget s.homes l with
    | some h => { s with homes := aset s.homes l { h with engine := h.engine.filter (· ≠ id) } }
    | none => s) s

/-- A unit is done: its lines that no later unit writes are released; a suspension takes hold (R421). -/
def State.unitDone (s : State) (id : Nat) : State :=
  match s.cmd? id with
  | none => s
  | some c =>
    let u := c.units + 1
    let done := c.owned.filter fun e => (c.body.writes c.units).any (fun r =>
        decide (r.1.toNat < e.1.toNat + 256 ∧ e.1.toNat < r.1.toNat + r.2)) && !writesLater c.body u e.1
    let s1 := s.disown id (done.map (·.2))
    s1.modCmd id fun d => { d with
      units := u
      got := []
      wrote := false
      tokens := 0
      watched := []
      suspended := d.suspendAfter
      suspendAfter := false
      owned := d.owned.filter fun e => !done.contains e }

/-- Status (Table 9.1). -/
def statusWord (units : Nat) (nonfin : Bool) (code : Nat) : Word :=
  BitVec.ofNat 64 (units % 2 ^ 32 * 65536 + (if nonfin then 256 else 0) + code)

/-- The next commands of a seat are looked at again. -/
def State.kickSeat (s : State) (core seat : Nat) : State :=
  match s.seat? core seat with
  | none => s
  | some t =>
    let s1 := match t.mq with
      | c :: _ => s.kick c.id
      | [] => s
    t.cq.foldl (fun s c => s.kick c.id) s1

/-- A command ends with a CODE (R223, R226, R285): unwritten lines are refunded and released, the promise and the status are
written full, the status with the completion time attached, and the next commands follow. -/
def State.engineEnd (s : State) (id code : Nat) : State :=
  match s.cmd? id with
  | none => s
  | some c =>
    let s1 := c.charged.foldl (fun s e => s.refund e.2 (cmdCluster c) 4) s
    let s2 := (s1.disown id (c.owned.map (·.2))).unqueueAll (.hub id)
    let tw := if c.tmax = 0 then s2.bell else c.tmax
    let s3 := s2.modSheaf c.sheaf fun sh =>
      let sh1 := match c.promise with
        | some p => sh.writeS p (Config.promise s.free)
        | none => sh
      let sh2 := match c.status with
        | some d => let x := sh1.writeS d (statusWord c.units c.nonfin code)
          { x with stime := aset x.stime d.toNat tw }
        | none => sh1
      (akeys sh2.ops fun _ o => decide (o.kind = .engine id)).foldl (fun sh k => sh.opDone k (BitVec.allOnes 32)) sh2
    let s4 := s3.modBed c.bed fun b => { b with tw := maxWord [b.tw, c.tmax] }
    match s4.seatOf id with
    | none => { s4 with hub := s4.hub.filter fun d => d.id ≠ id }
    | some (key, _) =>
      let s5 : State := { s4 with seats := amod s4.seats key fun t => { t with
        mq := t.mq.filter fun d => d.id ≠ id
        cq := t.cq.filter fun d => d.id ≠ id } }
      s5.kickSeat (key / 4) (key % 4)

/-- An uncorrectable error (R224): the command ends with CODE 0x11, which is logged (R352), and its fibres are told. -/
def State.engineBad (s : State) (id : Nat) : State :=
  match s.cmd? id with
  | none => s
  | some c =>
    let lanes := ((s.sheaf? c.sheaf).map fun sh => c.lanes &&& ~~~(sh.ops.foldl (fun x e =>
      if e.2.kind = .engine id then x ||| e.2.gone else x) 0)).getD 0
    let info : W32 := (statusWord c.units c.nonfin 0x11).setWidth 16 |>.setWidth 32
    let s1 := (s.logFor c.launch 0x0E 0 c.pc).engineEnd id 0x11
    if lanes = 0 then s1 else s1.post (.deferredFault ⟨c.sheaf, lanes, 0x0E, 0, info, c.pc, none, none, false⟩)

/-- A fault stops a command before its unit (R224). -/
def State.engineStop (s : State) (c : Cmd) (key : Nat) (cause : BitVec 8) (addr : Word) (info : W32) (log : Bool) : State :=
  ((s.spend c.asn addr (c.sheaf, some c.id)).modCmd c.id fun d => { d with fault := some (cause, addr, info, log) }).post
    (.engineFault (key / 4) (key % 4) c.id)

/-- Whether a command's tile is frosted or its bed lifted: nothing of it moves (R363, R356). (DEDUCED, log 57.) -/
def State.cmdAway (s : State) (c : Cmd) (key : Nat) : Bool :=
  frostedCore s (key / 4) || (match s.bed? c.bed with
    | some b => b.status = .lifted && ((s.hdrOf c.launch).map c.body.touchesWindow).getD false
    | none => false)

/-- Whether the status of a command may be written: a stopped partition's sheafs are not (R422). (DEDUCED, log 57.) -/
def State.mayEnd (s : State) (c : Cmd) : Bool :=
  match s.sheaf? c.sheaf with
  | some sh => !(s.coreState sh.core).stopped.getLsbD sh.part
  | none => true

/-- ENGINE_FAULT (R224): the command is stopped and its fault set out for its issuing batch. -/
def execEngineFault (core seat cmd : Nat) (s : State) : Out :=
  .next (
    match s.cmd? cmd with
    | none => s
    | some c =>
      if s.cmdAway c (State.seatKey core seat) then s.again (.engineFault core seat cmd) else
      match c.fault with
      | none => s
      | some (cause, addr, info, log) =>
        if c.stopped then s else
        (s.modCmd cmd fun d => { d with stopped := true }).post
          (.deferredFault ⟨c.sheaf, c.lanes, cause, addr, info, c.pc, none, some cmd, log⟩))

/-- PROMISED_BELL_TIME (R235): the promise register is written full, with a best estimate.
(DESIGN CHOICE, log 7.) -/
def execPromisedBellTime (core seat cmd : Nat) (s : State) : Out :=
  .next (
    match s.cmd? cmd with
    | none => s
    | some c => match c.promise with
      | none => s
      | some p =>
        if frostedCore s core || !s.mayEnd c then s.again (.promisedBellTime core seat cmd)
        else (s.modSheaf c.sheaf fun sh => sh.writeS p (Config.promise s.free)).modCmd cmd fun d => { d with promise := none })

/-! ### Issue (R220, R221) -/

/-- What a command's record comes to. -/
inductive Made where
  | waits (r : BitVec 8)
  | refuse (code : Nat)
  | trap (fs : List LaneFault)
  | ask (va : Word) (c : Checked)
  | tryLater
  | body (b : CmdBody)

/-- Destination lines that translate, with their virtual lines (R221); what is still to be asked for.
(DEDUCED, log 30.) -/
def State.destLines (s : State) (c : Cmd) : List (Word × Loc) × List (Word × Checked) :=
  let ps := s.spots c .engineWrite c.body.dest
  ((ps.filterMap fun p => match p.spot with
      | .mem loc => some (vaLine p.va, lineOf loc)
      | _ => none).eraseDups,
    ps.filterMap fun p => match p.spot with
      | .ask k => some (p.va, k)
      | _ => none)

/-- Scratchpad words of a destination (R221). -/
def State.destWords (s : State) (c : Cmd) : List Nat :=
  ((s.spots c .engineWrite c.body.dest).flatMap fun p => match p.spot with
    | .pad off => padWords off p.n
    | _ => []).eraseDups

/-- The entry of a command of the issuing batch. -/
def State.newCmd (s : State) (sh : Sheaf) (id : Nat) (b : CmdBody) (status promise : Option (BitVec 6)) : Cmd where
  id := id
  core := sh.core
  seat := sh.seat
  part := sh.part
  launch := sh.launch
  asn := s.asnOf sh
  sheaf := s.cur
  bed := sh.bed
  lanes := sh.issuing
  wid := ((lowestLane sh.issuing).map fun l => sh.fib l 0 (·.wid)).getD 0
  pc := sh.batchPc
  body := b
  status := status
  promise := promise
  units := 0
  started := false
  stopped := false
  suspendAfter := false
  suspended := false
  abandon := none
  nonfin := false
  tmax := 0
  charged := []
  owned := []
  emptied := []
  watched := []
  fault := none
  got := []
  wrote := false
  peersDue := 0
  olds := []
  tokens := 0

/-- A command enters its queue (R220, R221): ownership at the homes, scratchpad words and status empty. -/
def State.enqueueCmd (s : State) (sh : Sheaf) (b : CmdBody) (matrix : Bool) (status promise : Option (BitVec 6)) : State :=
  let (id, s0) := s.fresh
  let c0 := s.newCmd sh id b status promise
  let lines := (s.destLines c0).1
  let words := s.destWords c0
  let c : Cmd := { c0 with charged := s.shf.hold.charged, owned := lines, emptied := words }
  let s1 := lines.foldl (fun s e => s.own id e.2) s0
  let s2 := s1.modBed sh.bed fun b => words.foldl (fun b w => b.emptyWord (4 * w)) b
  let s3 := s2.modSeat sh.core sh.seat fun t =>
    if matrix then { t with mq := t.mq ++ [c] } else { t with cq := t.cq ++ [c] }
  let (k, s4) := s3.fresh
  let s5 := s4.modSheaf s.cur fun x =>
    let x1 : Sheaf := { x with ops := x.ops ++ [(k, ⟨c.pc, .engine id, c.lanes, c.lanes, 0, lanesOf fun _ => 0, [], 0, none⟩)] }
    let x2 := match promise with
      | some p => x1.emptyS p c.pc
      | none => x1
    (match status with
      | some d => x2.emptyS d c.pc
      | none => x2).advance sh.issuing
  let s6 := if promise.isSome then s5.post (.promisedBellTime sh.core sh.seat id) else s5
  s6.kickSeat sh.core sh.seat

/-- The body of a command in progress, and its checks: those that have been made are not made again (R220). -/
def Sheaf.madeFor (sh : Sheaf) (mk : Sheaf → Made) : Made :=
  match sh.hold.cmd with
  | some c => match c.body with
    | .mma .. => .body c.body
    | b => if sh.hold.phase = 0 then mk sh else .body b
  | none => mk sh

/-- What a command has captured outlives every wait (R220). -/
def State.capture (s : State) (sh : Sheaf) (m : Made) (status promise : Option (BitVec 6)) : State :=
  match m with
  | .body b => s.modSheaf s.cur fun x => { x with hold := { x.hold with cmd := some (s.newCmd sh 0 b status promise) } }
  | _ => s

/-- A command whose checks have passed (R220, R221): earlier writes of its fibres seen (R270), its destination translated,
charged and owned. -/
def State.commit (s : State) (sh : Sheaf) (b : CmdBody) (matrix : Bool) (status promise : Option (BitVec 6)) : State :=
  if b.ranges ≠ [] && sh.writesDue sh.issuing then s.await 0x03 0 0 else
  let d := s.destLines (s.newCmd sh 0 b status promise)
  if d.2 ≠ [] then
    (d.2.foldl (fun s w => s.askFor (clusterOf sh.core) (s.asnOf sh) w.1 (s.cur, none) w.2) s).await 0x03 0 0
  else
    match s.chargeLines s.cur sh.core (d.1.map (·.2)) with
    | .waits s' => s'.holdPhase 2 0x03
    | .failed s' line k =>
      let va := ((d.1.find? fun e => e.2 = line).map (·.1)).getD 0
      (s'.refundUnused sh.core s'.shf.hold.charged []).trapAtIssue
        (sameFault sh.issuing 0x06 va (BitVec.ofNat 32 (k % 256)))
    | .all s' => s'.enqueueCmd sh b matrix status promise

/-- A command instruction (R220): record, capture, queue space, checks, charge with ownership, queue; one that reaches memory
comes after its fibres' fences (R190). -/
def engineRun (s : State) (g : Guard) (record : List (BitVec 6)) (matrix : Bool) (status promise : Option (BitVec 6))
    (mk : State → Sheaf → Made) : State :=
  let dests := status.toList ++ promise.toList
  let past := fun (s : State) (k : State → State) => if record = [] then k s else s.pastFences s.shf.issuing k
  s.heldStep g record dests none fun s => past s fun s =>
    let sh := s.shf.seen
    if sh.opsFull then s.await 0x02 0 0 else
    match sh.madeFor (mk s) with
    | .waits r => (s.await 0x01 0 r).askRefill [r]
    | m =>
      let full := match s.seat? sh.core sh.seat with
        | some t => if matrix then decide (16 ≤ t.mq.length) else decide (64 ≤ t.cq.length)
        | none => false
      let s := s.capture sh m status promise
      if full then s.await 0x04 0 0 else
      match m with
      | .waits _ => s
      | .tryLater => s.await 0x03 0 0
      | .trap fs => s.trapAtIssue fs
      | .ask va c => (s.askFor (clusterOf sh.core) (s.asnOf sh) va (s.cur, none) c).await 0x03 0 0
      | .refuse code => s.sheafDone fun x =>
          let x1 := match promise with
            | some p => x.writeS p s.bell
            | none => x
          match status with
          | some d => x1.writeS d (statusWord 0 false code)
          | none => x1
      | .body b => (s.modSheaf s.cur fun x => { x with hold := { x.hold with phase := max 1 x.hold.phase } }).commit sh b matrix
          status promise

end Sys2Proof.Machine
end

