-- ==== Sys2Proof/Machine/Copy.lean ====
section
/-! DEFINITION. The copy commands XCOPY, XFILL, XGATHER and XSCAT (R235, R236) and the units of the copy engine. -/

namespace Sys2Proof.Machine

/-- The registers of a record of n (R220). -/
def recordRegs (a : BitVec 6) (n : Nat) : List (BitVec 6) := (List.range n).map fun i => a + BitVec.ofNat 6 i

/-- Register i of a record. -/
def Sheaf.recWord (sh : Sheaf) (a : BitVec 6) (i : Nat) : Word := sh.readS (a + BitVec.ofNat 6 i)

def mult4 (ws : List Word) : Bool := ws.all fun w => w.toNat % 4 = 0

/-- A body that passes the window check (R437), or its refusal. -/
def State.windowed (s : State) (sh : Sheaf) (b : CmdBody) : Made :=
  match s.headerOf sh with
  | some h => if b.windowBad h then .refuse 0x08 else .body b
  | none => .body b

def makeXcopy (a : BitVec 6) (s : State) (sh : Sheaf) : Made :=
  let r := sh.recWord a
  let n := (r 4).toNat
  let rows := (r 5).toNat
  if n < 4 || 65536 < n || rows = 0 || 65535 < rows then .refuse 0x03
  else if !mult4 [r 0, r 1, r 2, r 3, r 4] then .refuse 0x04
  else s.windowed sh (.xcopy (r 0) (r 1) (r 2) (r 3) n rows)

def makeXfill (a : BitVec 6) (s : State) (sh : Sheaf) : Made :=
  let r := sh.recWord a
  let n := (r 1).toNat
  if n < 4 || 16777216 < n then .refuse 0x03
  else if !mult4 [r 0, r 1] then .refuse 0x04
  else s.windowed sh (.xfill (r 0) n (loHalf (r 2)))

/-- The slots of tokens first to first + count − 1, from the slot offset (R236). Both commands read the page records, so that a
fault or hold on one traps or holds XGATHER as well. (DESIGN CHOICE, log 76.) -/
def State.tokenSlots (s : State) (x : KvCtx) (t : Trellis) (e : SeqEntry) (private_ : Bool) (first count off : Nat) :
    Except KvStop (List Word) :=
  (List.range count).mapM fun k => do
    let p ← s.pageAt x t e ((first + k) / 16)
    let n ← s.refcnt x t p
    if private_ && decide (1 < n) then .error (kvBad 0x0103)
    else .ok (t.slot p ((first + k) % 16) + BitVec.ofNat 64 off)

/-- XGATHER and XSCAT (R236): COUNT, ALIGN, TRELLIS and WINDOW in that order; a page that the agent may not reach traps
(R205). (DEDUCED, log 16.) The SLOTSZ limit is tested once the header is well formed, before the sequence entry is looked at.
(DESIGN CHOICE, log 77.) -/
def makeTrellis (scatter : Bool) (a : BitVec 6) (s : State) (sh : Sheaf) : Made :=
  let r := sh.recWord a
  let first := (r 1).toNat
  let count := (r 2).toNat
  let off := (r 4).toNat
  let n := (r 5).toNat
  if count = 0 || 65535 < count then .refuse 0x03 else
  match s.headerOf sh with
  | none => .refuse 0x07
  | some h =>
    let x : KvCtx := ⟨clusterOf sh.core, s.asnOf sh, h, s.cur, 0, sh.core⟩
    let align := !mult4 [r 3, r 4, r 5]
    let bad := fun (e : KvStop) => match e with
      | .trap c va info lg => if align then Made.refuse 0x04 else if c = 0x0E then Made.refuse 0x07 else
          Made.trap ((lanesIn sh.issuing).map fun l => ⟨l, c, va, info, lg⟩)
      | .ask va c => Made.ask va c
      | _ => Made.tryLater
    match s.readTrellis x sh.trellis with
    | .error e => bad e
    | .ok t =>
      if t.slotsz < off + n then .refuse 0x03
      else if align then .refuse 0x04
      else match (do
          let e ← s.readEntry x t (r 0).toNat
          if e.len < first + count then .error (kvBad 0x0103) else s.tokenSlots x t e scatter first count off) with
        | .error e => bad e
        | .ok slots =>
          let b : CmdBody := if scatter then .xscat slots (r 3) n else .xgather slots (r 3) n
          let w := h.window.toNat
          if !decide (w ≤ (r 3).toNat ∧ (r 3).toNat + count * n ≤ w + h.scratch) then .refuse 0x08
          else s.windowed sh b

def copyRun (o : SopA) (n : Nat) (mk : BitVec 6 → State → Sheaf → Made) (s : State) : State :=
  engineRun s o.g (recordRegs o.a n) false (some (o.d + 1)) (some o.d) (mk o.a)

/-- XCOPY. -/
def execXcopy (o : SopA) (s : State) : Out := .next (copyRun o 6 makeXcopy s)
/-- XGATHER. -/
def execXgather (o : SopA) (s : State) : Out := .next (copyRun o 6 (makeTrellis false) s)
/-- XFILL. -/
def execXfill (o : SopA) (s : State) : Out := .next (copyRun o 3 makeXfill s)
/-- XSCAT. -/
def execXscat (o : SopA) (s : State) : Out := .next (copyRun o 6 (makeTrellis true) s)

/-- The bytes a unit writes: those it read, or the pattern. -/
def CmdBody.unitBytes (b : CmdBody) (data : List (List Byte)) (n : Nat) : List Byte :=
  match b with
  | .xfill _ _ pat => (List.range (n / 4)).flatMap fun _ => natToBytes 4 pat.toNat
  | _ => data.flatten

/-- Whether an earlier command of a copy queue has not started, or is stopped (R224, R225). -/
def Seat.copyBlocked (t : Seat) (c : Cmd) : Bool :=
  !c.started && (t.cq.takeWhile fun d => d.id ≠ c.id).any fun d => !d.started || d.stopped || d.suspended

/-- COPY_UNIT (R236): one progress unit of a copy command. -/
def execCopyUnit (core seat cmd : Nat) (s : State) : Out :=
  .next (
    match (s.seat? core seat).bind fun t => (t.cq.find? fun d => d.id = cmd).map fun c => (t, c) with
    | none => s
    | some (t, c0) =>
      if s.cmdAway c0 (State.seatKey core seat) || c0.stopped || c0.suspended then s
      else if t.copyBlocked c0 || !s.mayEnd c0 then s.again (.copyUnit core seat cmd)
      else
        let s := s.modCmd cmd fun d => { d with started := true }
        let c := { c0 with started := true }
        match c.abandon with
        | some code => s.engineEnd cmd code
        | none =>
          if c.fault.isSome then s.postOnce (.engineFault core seat cmd)
          else if c.wrote then
            if c.peersDue ≠ 0 then s.again (.copyUnit core seat cmd)
            else
              let s1 := s.unitDone cmd
              match s1.cmd? cmd with
              | none => s1
              | some d => if d.body.count ≤ d.units then s1.engineEnd cmd 0 else s1.kick cmd
          else if c.body.count ≤ c.units then s.engineEnd cmd 0
          else match s.unitRead c with
            | .wait s' => s'.again (.copyUnit core seat cmd)
            | .stop cause va info lg => s.engineStop c (State.seatKey core seat) cause va info lg
            | .bad => s.engineBad cmd
            | .go s' data out =>
              (s'.engineWrites c out (c.body.unitBytes data ((out.map (·.n)).sum))).kick cmd)

end Sys2Proof.Machine
end

