-- ==== Sys2Proof/Machine/Matrix.lean ====
section
/-! DEFINITION. The matrix unit: MMA, MMALOOP, ACCZ, ACCST, ACCLDM, ACCRD and ACCWR (R227 to R234), the arithmetic of a step
(R107 to R118), and the sequencer (R385, R387). -/

namespace Sys2Proof.Machine

/-! ### Blocks (R107 to R112) -/

/-- ShiftRNE (R110). -/
def shiftRNE (m : Nat) (sh : Int) : Nat :=
  if 0 ≤ sh then m * 2 ^ sh.toNat else
    let k := (-sh).toNat
    let q := m / 2 ^ k
    let r := m % 2 ^ k
    if 2 ^ k < 2 * r || (2 * r = 2 ^ k && q % 2 = 1) then q + 1 else q

/-- M and E of an E4M3 byte (R107). -/
def e4m3M (b : Byte) : Nat := let x := (b.extractLsb' 3 4).toNat; let f := (b.extractLsb' 0 3).toNat; if x = 0 then f else 8 + f
def e4m3E (b : Byte) : Nat := max 1 (b.extractLsb' 3 4).toNat

/-- An aligned block: 64 integers and the exponent; none is NANBLOCK. -/
abbrev Aligned := Option (List Int × Int)

def alignE4m3 (bs : List Byte) : Aligned :=
  if bs.any fun b => b &&& 0x7F = 0x7F then none else
    let emax := bs.foldl (fun m b => if e4m3M b ≠ 0 then max m (e4m3E b) else m) 1
    some (bs.map (fun b =>
      let a : Int := shiftRNE (e4m3M b) ((e4m3E b : Int) - emax + 4)
      if b.msb then -a else a), (emax : Int) - 14)

/-- The 64 nibbles of an N4 block (R108). -/
def nibbles (bs : List Byte) : List Int := bs.flatMap fun b => [(b.extractLsb' 0 4).toInt, (b.extractLsb' 4 4).toInt]

def alignBlock (f : MFmt) (bs : List Byte) : Aligned :=
  match f with
  | .e4m3 => alignE4m3 bs
  | .n4 => some (nibbles bs, 0)
  | _ => some (bs.map (·.toInt), 0)

/-- The exact block sum (R113). -/
def blockSum (a b : List Int) : Int := ((a.zip b).map fun e => e.1 * e.2).sum

/-- The elements of a float block. -/
def floatBlock (f : MFmt) (bs : List Byte) : List FVal :=
  (elements 2 64 bs).map (unpackF (if f = .fp16 then fp16 else bf16))

def isFinite (v : FVal) : Bool := match v with
  | .fin .. => true
  | _ => false

/-! ### One output (R115 to R118) -/

/-- The aligned path into FP32: the new pattern, and whether an infinity or NaN arose from finite parts. -/
def alignedOut (acc : W32) (a b : Aligned) (sc : Option (Byte × Byte)) : W32 × Bool :=
  let sA := match sc with
    | some e => s8Value e.1
    | none => some (1, 0)
  let sB := match sc with
    | some e => s8Value e.2
    | none => some (1, 0)
  match a, b, sA, sB with
  | some (xs, ea), some (ys, eb), some (ma, xa), some (mb, xb) =>
    let v := blockSum xs ys * ma * mb
    if v = 0 then (acc, false) else
      let r := (out32 (deliver fp32 .rn (addV .rn (f32 acc) (ofInt v (ea + eb + xa + xb) false)))).1
      (r, isFinite (f32 acc) && !isFinite (f32 r))
  | _, _, _, _ => (BitVec.ofNat 32 fp32.nan, false)

/-- The float path (R117): a chain of fused multiply-adds in ascending k. -/
def floatOut (acc : W32) : List (FVal × FVal) → W32 × Bool
  | [] => (acc, false)
  | (a, b) :: t =>
    let r := (out32 (deliver fp32 .rn (fmaV .rn a b (f32 acc)))).1
    let q := floatOut r t
    (q.1, q.2 || (isFinite a && isFinite b && isFinite (f32 acc) && !isFinite (f32 r)))

def isFloatFmt : MFmt → Bool
  | .bf16 | .fp16 => true
  | _ => false

/-- One step over the whole tile (R114): blocks are the 16 A rows and then the 16 B columns. -/
def mmaStep (fa fb : MFmt) (scales : Option (List Byte)) (blocks : List (List Byte)) (t : Tile) : Tile × Bool :=
  let as_ := blocks.take 16
  let bs := blocks.drop 16
  let idx := (List.range 16).flatMap fun i => (List.range 16).map fun j => (i, j)
  let outs : List (W32 × Bool) :=
    if isFloatFmt fa then
      let fas := as_.map (floatBlock fa)
      let fbs := bs.map (floatBlock fb)
      idx.map fun e => floatOut (t.elems.toList.getD (16 * e.1 + e.2) 0) ((fas.getD e.1 []).zip (fbs.getD e.2 []))
    else
      let fas := as_.map (alignBlock fa)
      let fbs := bs.map (alignBlock fb)
      idx.map fun e =>
        let acc := t.elems.toList.getD (16 * e.1 + e.2) 0
        let a := fas.getD e.1 none
        let b := fbs.getD e.2 none
        if t.int32 then match a, b with
          | some (xs, _), some (ys, _) => (acc + BitVec.ofInt 32 (blockSum xs ys), false)
          | _, _ => (acc, false)
        else alignedOut acc a b (scales.map fun l => (l.getD e.1 0, l.getD (16 + e.2) 0))
  ({ t with elems := ⟨⟨(List.range 256).map fun i => (outs.map (·.1)).getD i 0⟩, by simp⟩ }, outs.any (·.2))

/-! ### Issue (R227 to R229, R232, R233) -/

/-- The scale bytes of one step, by lane (R229). -/
def Sheaf.scaleBytes (sh : Sheaf) (sc : ScaleSel) (t : Nat) : List Byte :=
  let k := sc.start.toNat + t
  let r := sc.sv + BitVec.ofNat 8 (k / 4)
  allLanes.map fun l => (sh.readLane r l).extractLsb' (8 * (k % 4)) 8

/-- A scale register with an empty or spilled lane. -/
def Sheaf.scaleWait (sh : Sheaf) (sc : ScaleSel) (count : Nat) : Option (BitVec 8) :=
  ((List.range ((sc.start.toNat + count + 3) / 4)).map fun i => sc.sv + BitVec.ofNat 8 i).find? fun r =>
    (allLanes.any fun l => sh.emptyAt r l) || (sh.spilledName [r]).isSome

/-- The record of MMA and MMALOOP (Table 9.4). -/
def makeMma (o : SopMma) (loop : Bool) (s : State) (sh : Sheaf) : Made :=
  let r := sh.recWord o.a
  let count := if loop then (r 8).toNat else 1
  let ia := if loop then r 6 else 0
  let ib := if loop then r 7 else 0
  let ka := fmtBlock o.afmt
  let kb := fmtBlock o.bfmt
  let limit := match o.scale with
    | some sc => decide (64 < sc.start.toNat + count) || decide (255 < sc.sv.toNat + (sc.start.toNat + count - 1) / 4)
    | none => false
  if r 4 ≠ 0 || r 5 ≠ 0 then .refuse 0x02
  else if count = 0 || 32767 < count then .refuse 0x03
  else if [r 0, r 1, ia].any (fun w => w.toNat % ka ≠ 0) || [r 2, r 3, ib].any (fun w => w.toNat % kb ≠ 0) then .refuse 0x04
  else if limit then .refuse 0x05
  else
    let body := fun scales => CmdBody.mma o.tile o.afmt o.bfmt o.accum (r 0) (r 1) (r 2) (r 3) ia ib count scales
    match o.scale with
    | none => s.windowed sh (body [])
    | some sc => match sh.scaleWait sc count with
      | some reg => .waits reg
      | none => s.windowed sh (body ((List.range count).map (sh.scaleBytes sc)))

/-- MMA (R227). -/
def execMma (o : SopMma) (s : State) : Out :=
  .next (engineRun s o.g (recordRegs o.a 6) true (some o.d) none (makeMma o false))
/-- MMALOOP (R227). -/
def execMmaloop (o : SopMma) (s : State) : Out :=
  .next (engineRun s o.g (recordRegs o.a 9) true (some o.d) none (makeMma o true))
/-- ACCZ (R232): a command without record or status. -/
def execAccz (o : SopAccz) (s : State) : Out :=
  .next (engineRun s o.g [] true none none fun _ _ => .body (.accz o.tile o.int32))

/-- The record of ACCST and ACCLDM (R233). -/
def makeRows (f : TFmt) (a : BitVec 6) (mk : Word → Word → CmdBody) (s : State) (sh : Sheaf) : Made :=
  let r := sh.recWord a
  if [r 0, r 1].any fun w => w.toNat % rowSize f ≠ 0 then .refuse 0x04 else s.windowed sh (mk (r 0) (r 1))

/-- ACCST (R233). -/
def execAccst (o : SopAccst) (s : State) : Out :=
  .next (engineRun s o.g (recordRegs o.a 2) true (some o.d) none (makeRows o.fmt o.a (.accst o.tile o.fmt)))
/-- ACCLDM (R233). -/
def execAccldm (o : SopAccldm) (s : State) : Out :=
  .next (engineRun s o.g (recordRegs o.a 2) true (some o.d) none (makeRows o.fmt o.a (.accldm o.tile o.fmt o.int32)))

/-! ### Tiles -/

def Seat.tile (t : Seat) (a : BitVec 6) : Tile := (aget t.tiles a.toNat).getD Tile.zero
def Seat.setTile (t : Seat) (a : BitVec 6) (x : Tile) : Seat := { t with tiles := aset t.tiles a.toNat x }

/-- The tile a command names. -/
def CmdBody.tile? : CmdBody → Option (BitVec 6)
  | .mma t .. | .accz t _ | .accst t .. | .accldm t .. => some t
  | _ => none

/-- Rows of a tile in a memory format (R233). -/
def rowOut (f : TFmt) (xs : List W32) : List Byte :=
  xs.flatMap fun x => match f with
    | .w32 => natToBytes 4 x.toNat
    | .bf16 => natToBytes 2 (deliver bf16 .rn (f32 x, 0)).1
    | .fp16 => natToBytes 2 (deliver fp16 .rn (f32 x, 0)).1
    | .e4m3 => [(toE4m3 .rn false (f32 x)).1]

/-- One element widened to FP32, exactly (R134). -/
def widenElem (v : FVal) : W32 := (out32 (deliver fp32 .rn (v, 0))).1

def rowIn (f : TFmt) (bs : List Byte) : List W32 :=
  match f with
  | .w32 => (elements 4 16 bs).map (BitVec.ofNat 32)
  | .bf16 => (elements 2 16 bs).map fun x => widenElem (unpackF bf16 x)
  | .fp16 => (elements 2 16 bs).map fun x => widenElem (unpackF fp16 x)
  | .e4m3 => (bs.take 16).map fun b => widenElem (unpackE4m3 b)

def Tile.row (t : Tile) (i : Nat) : List W32 := (t.elems.toList.drop (16 * i)).take 16
def Tile.setRow (t : Tile) (i : Nat) (xs : List W32) : Tile :=
  { t with elems := (xs.zipIdx).foldl (fun v e => if h : 16 * i + e.2 < 256 then v.set (16 * i + e.2) e.1 h else v) t.elems
           bad := t.bad.filter fun k => !(16 * i ≤ k && k < 16 * i + 16) }

/-! ### ACCRD and ACCWR (R234) -/

/-- Whether commands naming a tile that entered the queue before are still there; `n` bounds their keys. -/
def Seat.tileBusy (t : Seat) (a : BitVec 6) (n : Nat) : Bool := t.mq.any fun c => c.id < n && c.body.tile? = some a

/-- Element index of register k at a lane (R234). -/
def accIndex (k : Nat) (l : Fin 32) : Nat := 16 * (2 * k + l.val / 16) + l.val % 16

/-- ACCRD and ACCWR wait for the earlier commands of their tile; those that enter the queue later wait for them. -/
def accRun (s : State) (i : LaneIns) (tile : BitVec 6) (k : State → Sheaf → List LaneFault → Mask → State) : State :=
  s.issueStep i fun s sh fs act =>
    if act = 0 then s.laneFinish sh i fs 0 id else
    let n := if sh.hold.turn = 0 then s.nextId else sh.hold.turn
    if ((s.seat? sh.core sh.seat).map fun t => t.tileBusy tile n).getD false then
      (s.await 0x03 0 0).modSheaf s.cur fun x => { x with hold := { x.hold with turn := n } }
    else k s sh fs act

/-- ACCRD: participants whose elements include one with an uncorrectable error trap (R377). -/
def execAccrd (o : OpAccrd) (s : State) : Out :=
  .next (
    let i : LaneIns := ⟨o.g, [], [], [], regRange o.d 8, none⟩
    accRun s i o.tile fun s sh fs act =>
      let t := ((s.seat? sh.core sh.seat).map fun t => t.tile o.tile).getD Tile.zero
      let bad := (lanesIn act).filter fun l => (List.range 8).any fun k => t.bad.contains (accIndex k l)
      let fs2 := bad.map fun l => (⟨l, 0x0E, 0, 0x0011, false⟩ : LaneFault)
      let go := act &&& ~~~faultMask fs2
      s.laneFinish sh i (fs ++ fs2) go fun x => (List.range 8).foldl (fun x k =>
        x.writeRow (o.d + BitVec.ofNat 8 k) go fun l => t.elems.toList.getD (accIndex k l) 0) x)

/-- ACCWR. -/
def execAccwr (o : OpAccwr) (s : State) : Out :=
  .next (
    let i : LaneIns := ⟨o.g, [vop o.a 8 0], [], [], [], none⟩
    accRun s i o.tile fun s sh fs act =>
      let s1 := s.modSeat sh.core sh.seat fun t =>
        let x := t.tile o.tile
        let idx := (lanesIn act).flatMap fun l => (List.range 8).map fun k => (accIndex k l, sh.readLane (o.a.reg + BitVec.ofNat 8 k) l)
        t.setTile o.tile { x with
          elems := idx.foldl (fun v e => if h : e.1 < 256 then v.set e.1 e.2 h else v) x.elems
          bad := x.bad.filter fun b => !(idx.any fun e => e.1 = b) }
      s1.laneFinish sh i fs act id)

/-! ### MATRIX_COMMAND_START (R231, R233) -/

/-- A sheaf of the seat with an ACCRD or ACCWR that entered the queue before a command (R234). -/
def State.accFirst (s : State) (core seat : Nat) (id : Nat) : Bool :=
  s.sheafs.any fun e => e.2.core = core && e.2.seat = seat &&
    ((e.2.hold.turn ≠ 0 && decide (e.2.hold.turn ≤ id)) || (e.2.putBy.any fun p => p.2.turn ≠ 0 && decide (p.2.turn ≤ id)) ||
      e.2.aside.any fun a => a.hold.turn ≠ 0 && decide (a.hold.turn ≤ id))

/-- Whether a tile's type does not suit a command (R116, R117, R233). -/
def CmdBody.typeBad (b : CmdBody) (t : Tile) : Bool :=
  match b with
  | .mma _ fa fb _ _ _ _ _ _ _ _ sc => t.int32 && (isFloatFmt fa || fa = .e4m3 || fb = .e4m3 || decide (sc ≠ []))
  | .accst _ f _ _ => t.int32 && decide (f ≠ .w32)
  | _ => false

/-- MATRIX_COMMAND_START: $mprog is 0; a type mismatch ends the command with CODE 0x01; ACCLDM sets the type. -/
def execMatrixCommandStart (core seat : Nat) (s : State) : Out :=
  .next (
    match (s.seat? core seat).bind fun t => (t.mq.head?).map fun c => (t, c) with
    | none => s
    | some (t, c) =>
      if s.cmdAway c (State.seatKey core seat) || c.started then s
      else if s.accFirst core seat c.id || !s.mayEnd c then s.again (.matrixCommandStart core seat)
      else match c.abandon with
        | some code => s.engineEnd c.id code
        | none =>
          let tile := t.tile (c.body.tile?.getD 0)
          let s1 := s.modSeat core seat fun t => { t with mprog := 0 }
          if c.body.typeBad tile then s1.engineEnd c.id 0x01
          else
            let s2 := match c.body with
              | .accldm a _ int32 _ _ => s1.modSeat core seat fun t => t.setTile a { t.tile a with int32 := int32 }
              | _ => s1
            (s2.modCmd c.id fun d => { d with started := true }).kick c.id)

/-! ### MATRIX_STEP (R385) -/

/-- A seat whose head command may be given a step: the command and what its step has read. -/
def State.stepReady (s : State) (core seat : Nat) (flt : Bool) : Option (Cmd × State × List (List Byte)) :=
  match (s.seat? core seat).bind fun t => t.mq.head? with
  | none => none
  | some c =>
    match c.body with
    | .mma _ fa _ _ _ _ _ _ _ _ n _ =>
      if isFloatFmt fa = flt && c.started && !c.stopped && !c.suspended && c.fault.isNone && c.abandon.isNone &&
          decide (c.units < n) && !s.cmdAway c (State.seatKey core seat) then
        match s.unitRead c with
        | .go s' data _ => some (c, s', data)
        | _ => none
      else none
    | _ => none

/-- The seat chosen for an array (R385): candidates with their class and the cycles they have waited. -/
def chooseSeat (cands : List (Nat × Nat × Nat)) (last : Nat) : Option Nat :=
  match cands.filter fun c => 4096 ≤ c.2.2 with
  | c :: cs => some (cs.foldl (fun b d => if b.2.2 < d.2.2 || (b.2.2 = d.2.2 && d.1 < b.1) then d else b) c).1
  | [] =>
    let k := (cands.map (·.2.1)).foldl min (((cands.head?).map (·.2.1)).getD 0)
    let mine := (cands.filter fun c => c.2.1 = k).map (·.1)
    ([1, 2, 3, 4].map fun i => (last + i) % 4).find? fun q => mine.contains q

/-- One step of a command: the whole tile is updated, and $mprog rises (R230). -/
def State.giveStep (s : State) (core seat : Nat) (c : Cmd) (data : List (List Byte)) : State :=
  match c.body with
  | .mma a fa fb accum _ _ _ _ _ _ _ scales =>
    let tile0 := ((s.seat? core seat).map fun t => t.tile a).getD Tile.zero
    let fresh := c.units = 0 && !accum
    let tile := if fresh then { tile0 with elems := Vector.replicate 256 0, bad := [] } else tile0
    if tile.bad ≠ [] then s.engineBad c.id else
    let r := mmaStep fa fb (if scales = [] then none else some (scales.getD c.units [])) data tile
    let s1 := s.modSeat core seat fun t => { t.setTile a r.1 with mprog := BitVec.ofNat 64 (c.units + 1) }
    let s2 := (s1.modCmd c.id fun d => { d with nonfin := d.nonfin || r.2 }).unitDone c.id
    match s2.cmd? c.id with
    | none => s2
    | some d => if d.body.count ≤ d.units && s2.mayEnd d then s2.engineEnd c.id 0 else s2.kick c.id
  | _ => s

/-- MATRIX_STEP: the sequencer gives the array one step, to the seat R385 chooses among the candidates; ACCZ takes its one
unit here. The blocks of a step are read here, all at one instant (R383). (DESIGN CHOICE, log 82.) -/
def execMatrixStep (core seat : Nat) (s : State) : Out :=
  .next (
    match (s.seat? core seat).bind fun t => t.mq.head? with
    | none => s
    | some c =>
      if s.cmdAway c (State.seatKey core seat) || !c.started || c.stopped || c.suspended then s
      else if !s.mayEnd c then s.again (.matrixStep core seat)
      else match c.abandon with
        | some code => s.engineEnd c.id code
        | none =>
          match c.body with
          | .accz a int32 =>
            let s1 := s.modSeat core seat fun t => { t.setTile a { Tile.zero with int32 := int32 } with mprog := 1 }
            (s1.unitDone c.id).engineEnd c.id 0
          | .mma _ fa _ _ _ _ _ _ _ _ n _ =>
            if c.fault.isSome then s.postOnce (.engineFault core seat c.id)
            else if n ≤ c.units then (s.modCmd c.id fun d => { d with units := n }).engineEnd c.id 0
            else match s.unitRead c with
              | .wait s' => s'.again (.matrixStep core seat)
              | .stop cause va info lg => s.engineStop c (State.seatKey core seat) cause va info lg
              | .bad => s.engineBad c.id
              | .go _ _ _ =>
                let flt := isFloatFmt fa
                let arr := if flt then 1 else 0
                let cs := s.coreState core
                let ready := [0, 1, 2, 3].filterMap fun q => (s.stepReady core q flt).map fun r => (q, r)
                let cands := ready.map fun e => (e.1, ((s.launch? e.2.1.launch).map (·.cls)).getD 0,
                  (aget cs.seqWaited (2 * e.1 + arr)).getD 0)
                match (chooseSeat cands ((aget cs.seqLast arr).getD 3)).bind fun q => aget ready q |>.map fun r => (q, r) with
                | none => s.again (.matrixStep core seat)
                | some (q, d, s', data) =>
                  let s1 := s'.modCore core fun x => { x with
                    seqLast := aset x.seqLast arr q
                    seqWaited := cands.foldl (fun l e => aset l (2 * e.1 + arr) (if e.1 = q then 0 else e.2.2 + 1)) x.seqWaited }
                  let s2 := s1.giveStep core q d data
                  if q = seat then s2 else s2.again (.matrixStep core seat)
          | _ => s)

/-! ### TILE_ROW_TRANSFER (R233) -/

/-- TILE_ROW_TRANSFER: one row of ACCST or ACCLDM. -/
def execTileRowTransfer (core seat : Nat) (s : State) : Out :=
  .next (
    match (s.seat? core seat).bind fun t => (t.mq.head?).map fun c => (t, c) with
    | none => s
    | some (t, c) =>
      if s.cmdAway c (State.seatKey core seat) || !c.started || c.stopped || c.suspended then s
      else if !s.mayEnd c then s.again (.tileRowTransfer core seat)
      else match c.abandon with
        | some code => s.engineEnd c.id code
        | none =>
          let rowDone := fun (s : State) =>
            let s1 := s.unitDone c.id
            match s1.cmd? c.id with
            | none => s1
            | some d =>
              let s2 := s1.modSeat core seat fun t => { t with mprog := BitVec.ofNat 64 d.units }
              if 16 ≤ d.units then s2.engineEnd c.id 0 else s2.kick c.id
          if c.fault.isSome then s.postOnce (.engineFault core seat c.id)
          else if c.wrote then (if c.peersDue ≠ 0 then s.again (.tileRowTransfer core seat) else rowDone s)
          else if 16 ≤ c.units then (s.modCmd c.id fun d => { d with units := 16 }).engineEnd c.id 0
          else match c.body with
            | .accst a f _ _ =>
              let tile := t.tile a
              if tile.bad.any fun k => 16 * c.units ≤ k && k < 16 * c.units + 16 then s.engineBad c.id else
              match s.unitRead c with
              | .wait s' => s'.again (.tileRowTransfer core seat)
              | .stop cause va info lg => s.engineStop c (State.seatKey core seat) cause va info lg
              | .bad => s.engineBad c.id
              | .go s' _ out => (s'.engineWrites c out (rowOut f (tile.row c.units))).kick c.id
            | .accldm a f _ _ _ =>
              match s.unitRead c with
              | .wait s' => s'.again (.tileRowTransfer core seat)
              | .stop cause va info lg => s.engineStop c (State.seatKey core seat) cause va info lg
              | .bad => s.engineBad c.id
              | .go s' data _ => rowDone (s'.modSeat core seat fun t => t.setTile a
                  ((t.tile a).setRow c.units (rowIn f data.flatten)))
            | _ => s)

end Sys2Proof.Machine
end

