-- ==== Sys2Proof/Machine/Translate.lean ====
section
/-! DEFINITION. Changing a translation: updates with their refusals and the creation of frames (R298, R299, R279, R280), host-assisted
walks (R294, R404), and the host's translation: ATS, PRI and invalidations (R301 to R304). -/

namespace Sys2Proof.Machine

/-! ### Frames that an entry maps (R279, R280) -/

/-- Frames of a leaf of TIER 0 or 1 that no frame of its pool and KIND is yet. -/
def State.newFrames (s : State) (part : Nat) (p : Pte) : List Nat :=
  if !p.v || p.surr || misshapen p || 2 ≤ p.tier.toNat then [] else
    ((List.range (pageFrames p.size)).map fun i => p.frame.toNat + i).filter fun f => match aget s.frames f with
      | none => true
      | some i => i.surrendered || i.kind ≠ p.kind || decide (i.pool ≠ some (part, p.pool.toNat))

/-- Sectors a frame takes when it joins a pool with a KIND: 1,024, or its blocks' and the sidecar's 4. -/
def State.joinSectors (s : State) (kind : BitVec 2) (f : Nat) : Nat :=
  if kind = 0 then 1024 else
    match aget s.frames f with
    | none => 4
    | some i => if i.surrendered then 4 else
        4 + ((List.range 256).map fun b => blockSectors kind (Memory.bytes s.mem (f * 65536 + b * 256) 256)).sum

/-- Write back every dirty line of a frame that no engine owns. -/
def State.settleFrame (s : State) (f : Nat) : State :=
  (s.homes.filterMap fun e => match e.1 with
    | .dev a => if a / 65536 = f && e.2.dirty.isSome && e.2.engine = [] then some e.1 else none
    | _ => none).foldl (fun s l => s.settleLine l) s

/-- The lines of a frame keep no reservation and no committed size: their blocks are to be measured anew. -/
def State.cleanFrame (s : State) (f : Nat) : State :=
  { s with homes := s.homes.map fun e => match e.1 with
      | .dev a => if a / 65536 = f then (e.1, { e.2 with dirty := none, committed := 0 }) else e
      | _ => e }

/-- A frame leaves its pool, which gets its sectors, its lines' reservations and its promise back. -/
def State.leavePool (s : State) (f : Nat) : State :=
  match aget s.frames f with
  | none => s
  | some i =>
    match i.pool with
    | none => s
    | some p =>
      let k := p.1 * 256 + p.2
      let n := s.frameSectors f
      let r := s.frameReserved f
      match s.pool? k with
      | none => s
      | some q => if i.surrendered then s else
          ((s.cleanFrame f).setPool k { q with committed := q.committed - n, promised := q.promised - 1024 }).release k (n + r)

/-- Frames of a leaf of TIER 0 or 1. -/
def pteFrames (p : Pte) : List Nat :=
  if !p.v || misshapen p || 2 ≤ p.tier.toNat then [] else (List.range (pageFrames p.size)).map fun i => p.frame.toNat + i

/-- The entry a moved page gets (R289, R290): between TIER 0 and TIER 1, KIND and POOL stay. -/
def movedPte (m : MigrateReq) (p : Pte) : Pte :=
  let q : Pte := { p with tier := m.newTier, frame := BitVec.ofNat 40 m.newFrame, moving := false }
  if p.tier.toNat < 2 && m.newTier.toNat < 2 then q
  else if m.newTier.toNat < 2 then { q with kind := m.newKind, pool := m.newPool } else { q with kind := 0, pool := 0 }

def MoveRec.new (r : MoveRec) : Pte := movedPte r.req (decodePte r.old)

/-- Frames that the moves under way are to create, of those with a property, but for some. -/
def State.movingTo (s : State) (is : MoveRec → Bool) (but : List Nat) : Nat :=
  ((s.moves.filter is).flatMap fun r => (pteFrames r.new).filter fun f => !but.contains f).length

/-- Promised sectors of the KIND 1 and KIND 2 frames of all pools, and of the moves that have been charged, but for some frames
(R280). -/
def State.promisedKinds (s : State) (but : List Nat) : Nat :=
  1024 * ((s.frames.filter fun (e : Nat × FrameInfo) => e.2.kind ≠ 0 && e.2.pool.isSome && !e.2.surrendered &&
    !but.contains e.1).length + s.movingTo (fun r => r.charged.isSome && r.new.kind ≠ 0) but)

/-- CXL memory holds at most 8 TiB (R3): whether some frames more, on a TIER, are within it. -/
def State.cxlHolds (s : State) (tier : BitVec 2) (new : List Nat) : Bool :=
  tier ≠ 1 || decide ((s.frames.filter fun e => e.2.tier = 1 && !new.contains e.1).length +
    s.movingTo (fun r => r.new.tier = 1) new + new.length ≤ 2 ^ 27)

/-- 6 TiB in sectors (R280). -/
def promiseLimit : Nat := 103079215104

/-- The frames of an entry join its pool; none where R279 or R280 refuses. -/
def State.mapFrames (s : State) (part : Nat) (p : Pte) : Option State :=
  let new := s.newFrames part p
  if new = [] then some s else
    let k := poolKey part p.pool
    let s1 := new.foldl (fun s f => (s.settleFrame f).leavePool f) (s.unuse new)
    let n : Nat := (new.map (s.joinSectors p.kind)).sum
    let room := 1024 * new.length
    match s1.pool? k with
    | none => none
    | some q =>
      if q.ratio * q.granted < 4 * (q.promised + room) then none
      else if p.kind ≠ 0 && decide (promiseLimit < s1.promisedKinds new + room) then none
      else if !s.cxlHolds p.tier new then none
      else match q.ctr.takeHome n with
        | none => none
        | some c =>
          let q1 : Pool := { q.setCtr c with committed := q.committed + n, promised := q.promised + room }
          let fs := new.foldl (fun fs f => aset fs f (⟨p.tier, p.kind, some (part, p.pool.toNat), false⟩ : FrameInfo)) s1.frames
          some ((({ s1.setPool k q1 with frames := fs } : State).reuse new).owesPublish k)

/-- Whether a frame is not to be reused yet (R299), or is the destination of a move. -/
def State.frameResting (s : State) (f : Nat) : Bool :=
  (s.resting.any fun e => e.1 = f && decide (s.bell.toNat < e.2.toNat)) || s.moves.any fun r => (pteFrames r.new).contains f

/-- Whether a frame that an entry is to map is. -/
def State.restingFor (s : State) (p : Pte) : Bool :=
  if s.resting = [] && s.moves = [] then false else (pteFrames p).any fun f => s.frameResting f

/-! ### UPDATE (R298) -/

/-- Accesses under the removed entry that have not completed (R298). -/
def State.updateBusy (s : State) (u : UpdateReq) (old : Word) : Bool :=
  s.pageBusy u.asn u.va u.len true || s.prefetching (decodePte old)

/-! ### What a pointer maps (R299) -/

/-- Entries of a table (Table 13.1). -/
def tableEntries (level : Nat) : Nat := if level = 4 then 256 else if level = 0 then 32 else 512

/-- The table of a pointer entry (Table 13.2). -/
def tableOf (w : Word) : Nat := w.toNat / 256 % 2 ^ 44 * 256

/-- Frames that a table of a level maps. -/
def State.framesUnder (s : State) : Nat → Nat → List Nat
  | 0, t => (List.range (tableEntries 0)).flatMap fun i => pteFrames (decodePte (s.word64 (t + 8 * i)))
  | n + 1, t => (List.range (tableEntries (n + 1))).flatMap fun i =>
      let w := s.word64 (t + 8 * i)
      let p := decodePte w
      if p.v && p.size = 3 then State.framesUnder s n (tableOf w) else pteFrames p

/-- The level of an entry, on the walk of an address from a level's table. -/
def State.levelOf (s : State) (va : Word) (entry : Nat) : Nat → Nat → Option Nat
  | 0, t => if t + 8 * tableIndex 0 va = entry then some 0 else none
  | n + 1, t =>
    let e := t + 8 * tableIndex (n + 1) va
    let w := s.word64 e
    if e = entry then some (n + 1)
    else if (decodePte w).v && (decodePte w).size = 3 then State.levelOf s va entry n (tableOf w) else none

/-- Frames that an entry of an update maps: a leaf's, or those under a pointer. -/
def State.entryFrames (s : State) (u : UpdateReq) (w : Word) : List Nat :=
  let p := decodePte w
  if p.v && p.size = 3 then
    match (aget s.spaces u.asn).bind fun sp => s.levelOf u.va u.entryAddr 4 sp.root with
    | some (n + 1) => s.framesUnder n (tableOf w)
    | _ => []
  else pteFrames p

/-- The first part of an update: refused, or walks held, the entry written and cached translations removed. -/
def State.updateStart (s : State) (u : UpdateReq) : State :=
  match aget s.spaces u.asn with
  | none => s.report (.updateRefused u.asn)
  | some sp =>
    let p := decodePte u.value
    if s.restingFor p || s.moves.any (fun m => m.req.asn = u.asn && m.req.entryAddr = u.entryAddr) then s.again (.update u)
    else match s.mapFrames sp.part p with
      | none => s.report (.updateRefused u.asn)
      | some s1 =>
        let s2 : State := { s1 with holding := s1.holding ++ [(u, s1.word64 u.entryAddr)] }
        ((s2.setEntry u.entryAddr u.value).shootdown u.asn u.va u.len).post (.update u)

/-- Frames that an entry no longer maps rest for 4,096 ticks (R299). -/
def State.rest (s : State) (u : UpdateReq) (old : Word) : State :=
  let kept := s.entryFrames u u.value
  let gone := (s.entryFrames u old).filter fun f => !kept.contains f
  { s with resting := (s.resting.filter fun e => s.bell.toNat < e.2.toNat) ++ gone.map fun f => (f, s.bell + 4096) }

/-- UPDATE. (DEDUCED, log 34.) -/
def execUpdate (u : UpdateReq) (s : State) : Out :=
  .next (
    match s.holding.find? fun e => e.1 = u with
    | none => s.updateStart u
    | some e =>
      if s.updateBusy u e.2 then s.again (.update u)
      else ({ s with holding := s.holding.erase e } : State).rest u e.2)

/-! ### Host-assisted walks (R294, R404) -/

/-- WALK_ANSWER: the driver's update begins, and the walk is made again after it; or the walk is declined. -/
def execWalkAnswer (asn : Nat) (va : Word) (updated : Option UpdateReq) (s : State) : Out :=
  .next (
    let is := fun (w : WalkWait) => w.is asn va
    if !s.walkWaits.any is then s else
      match updated with
      | some u => ({ s with walkWaits := s.walkWaits.filter fun w => !is w } : State).updateStart u
      | none => { s with walkWaits := s.walkWaits.map fun w => if is w then { w with declined := true } else w })

/-- Ticks of 10 ms. -/
def tenMs : Nat := 10000000

/-- WALK_ANSWER_TIMEOUT: no answer within 10 ms counts as declining. -/
def execWalkAnswerTimeout (asn : Nat) (va : Word) (s : State) : Out :=
  .next (
    let is := fun (w : WalkWait) => w.is asn va && !w.declined
    match s.walkWaits.find? is with
    | none => s
    | some w =>
      if s.bell.toNat < w.since.toNat + tenMs then s.again (.walkAnswerTimeout asn va)
      else { s with walkWaits := s.walkWaits.map fun w => if is w then { w with declined := true } else w })

/-! ### ATS and PRI (R301 to R303) -/

/-- An ATS request for a page of a die, unless one is in flight or 256 are: whoever needs it asks again (R301). -/
def State.sendAts (s : State) (die fn : Nat) (pasid : Option (BitVec 20)) (page : Nat) : State :=
  if (s.atsReqs.any fun r => r.die = die && r.fn = fn && r.pasid = pasid && r.page = page) ||
    decide (256 ≤ (s.atsReqs.filter fun r => r.die = die).length) then s else
    let r : AtsReq := ⟨die, fn, pasid, page, false, 0, []⟩
    ({ s with atsReqs := s.atsReqs ++ [r] } : State).emit (.atsRequest r)

/-- Enter a completion in the ATC of its die, which holds 8,192, the least recently used leaving first. -/
def State.enterAtc (s : State) (e : AtcEntry) : State :=
  let rest := s.atc.filter fun x => !(x.die = e.die && x.fn = e.fn && x.pasid = e.pasid && x.page = e.page)
  let kept := if (rest.filter fun x => x.die = e.die).length < 8192 then rest else
    match rest.find? fun x => x.die = e.die with
    | some x => rest.erase x
    | none => rest
  { s with atc := kept ++ [e] }

/-- Page requests sent and not answered yet. -/
def State.priOut (s : State) : Nat := (s.pageReqs.filter fun q => q.answer.isNone && !q.retried && !q.held).length

/-- A page request is sent. -/
def State.sendPage (s : State) (r : PageReq) : State :=
  (s.emit (.pageRequest r)).post (.pageRequestTimeout r.fn r.page)

/-- Room in the host's allocation: the first page request that waits for it is sent (R303). -/
def State.sendHeld (s : State) : State :=
  if Config.priAlloc ≤ s.priOut then s else
    match s.pageReqs.find? fun q => q.held && q.answer.isNone with
    | none => s
    | some r =>
      let r1 : PageReq := { r with held := false, sent := s.bell }
      ({ s with pageReqs := s.pageReqs.map fun q => if q = r then r1 else q } : State).sendPage r1

/-- A completion refuses accesses: a page request for them (R302, R303), or TRANSLATION at once after a failure (Table 13.4). -/
def State.startPage (s : State) (die part : Nat) (pasid : Option (BitVec 20)) (page : Nat) (ws : List ((Nat × Option Nat) × Bool)) :
    State :=
  if ws = [] then s
  else if s.pageReqs.any fun r => r.is part pasid page && r.answer.isNone then
    ws.foldl (fun s w => s.joinPage die w.1 part pasid page w.2) s
  else
    let off := s.priOff.contains part
    let held := !off && decide (Config.priAlloc ≤ s.priOut)
    let r : PageReq := ⟨part, pasid, page, ws.any fun w => w.2, s.bell, if off then some 0x03 else none, false,
      (ws.map fun w => w.1).eraseDups, [die], held, s.nextId % 512⟩
    let s1 : State := { s.fresh.2 with pageReqs := s.pageReqs ++ [r] }
    if off || held then s1 else s1.sendPage r

/-- ATS_COMPLETION (R301 to R304): a marked request's is discarded; else it is entered in the ATC. Where it answers a page
request that succeeded it releases the lanes or refuses them (Table 13.4); the accesses it refuses else start a page request.
(DEDUCED, log 32.) -/
def execAtsCompletion (r : AtsReply) (s : State) : Out :=
  .next (
    let is := fun (q : AtsReq) => q.die = r.die && q.fn = r.fn && q.pasid = r.pasid && q.page = r.page
    match s.atsReqs.find? is with
    | none => s
    | some q =>
      if q.stale ≠ 0 then { s with atsReqs := s.atsReqs.map fun q => if is q then { q with stale := q.stale - 1 } else q }
      else if q.marked then s
      else
        let rr := r.r && !r.untranslatedOnly
        let ww := r.w && !r.untranslatedOnly
        let s1 := ({ s with atsReqs := s.atsReqs.filter fun q => !is q } : State).enterAtc ⟨r.die, r.fn, r.pasid, r.page, r.trans, rr, ww⟩
        let mine := fun (p : PageReq) => p.is r.fn r.pasid r.page && p.retried && p.answer.isNone
        let s2 : State := { s1 with pageReqs := (s1.pageReqs.map fun p =>
          if mine p && !(rr && (ww || !p.write)) then { p with answer := some (if r.r || r.w then 0x04 else 0x03) } else p).filter fun p =>
            !(mine p && rr && (ww || !p.write)) }
        s2.startPage r.die r.fn r.pasid r.page (q.waiters.filter fun w => !(rr && (ww || !w.2))))

/-- A page request has failed: its lanes take TRANSLATION, and the function's further requests trap until PRI is re-enabled. -/
def State.priFails (s : State) (fn : Nat) (which : PageReq → Bool) : State :=
  ({ s with
    pageReqs := s.pageReqs.map fun p => if which p || (p.held && decide (p.fn = fn)) then { p with answer := some 0x03 } else p
    priOff := if s.priOff.contains fn then s.priOff else s.priOff ++ [fn] } : State).report (.pageRequestFailed fn)

/-- PRG_RESPONSE (Table 13.4). -/
def execPrgResponse (r : PrgReply) (s : State) : Out :=
  .next (
    let is := fun (p : PageReq) => p.is r.fn r.pasid r.page && !p.retried && !p.held && p.answer.isNone
    match s.pageReqs.find? is with
    | none => s
    | some q =>
      match r.code with
      | .invalid => ({ s with pageReqs := s.pageReqs.map fun p => if is p then { p with answer := some 0x03 } else p } : State).sendHeld
      | .failure => (s.priFails r.fn is).sendHeld
      | .success =>
        (q.dies.foldl (fun s d => s.sendAts d r.fn r.pasid r.page) ({ s with
          pageReqs := s.pageReqs.map fun p => if is p then { p with retried := true } else p
          atc := s.atc.filter fun e => !(e.fn = r.fn && e.pasid = r.pasid && e.page = r.page) } : State)).sendHeld)

/-- PAGE_REQUEST_TIMEOUT (R303). -/
def execPageRequestTimeout (fn page : Nat) (s : State) : Out :=
  .next (
    let open_ := fun (p : PageReq) => p.fn = fn && p.page = page && !p.retried && !p.held && p.answer.isNone
    let late := fun (p : PageReq) => open_ p && decide (p.sent.toNat + s.priTimeout ≤ s.bell.toNat)
    if s.pageReqs.any late then (s.priFails fn late).sendHeld
    else if s.pageReqs.any open_ then s.again (.pageRequestTimeout fn page) else s)

/-- PRI_REENABLE. -/
def execPriReenable (fn : Nat) (s : State) : Out := .next { s with priOff := s.priOff.filter (· ≠ fn) }

/-! ### Invalidations (R304) -/

def inRange (r : InvReq) (fn : Nat) (pasid : Option (BitVec 20)) (page : Nat) : Bool :=
  fn = r.fn && pasid = r.pasid && r.page ≤ page && page < r.page + r.pages

/-- INVALIDATE_REQUEST: steps 1 and 2. -/
def execInvalidateRequest (r : InvReq) (s : State) : Out :=
  .next (
    let hit := fun (e : AtcEntry) => inRange r e.fn e.pasid e.page
    let pages := ((s.atc.filter hit).map (·.trans)).eraseDups
    ({ s with
      atc := s.atc.filter fun e => !hit e
      atsReqs := s.atsReqs.map fun q => if inRange r q.fn q.pasid q.page && !q.marked then
        { q with marked := true, stale := q.stale + 1 } else q
      invalidates := s.invalidates ++ [(r, pages)] } : State).post (.invalidateCompletion r))

/-- The TIER 2 pages of 4 KiB that an address has, or had before an update in progress (R312). -/
def State.hostPages (s : State) (cl asn : Nat) (va : Word) : List Nat :=
  let now := match s.leafFor cl asn va with
    | some (.leaf p _) => [p]
    | _ => []
  let old := (s.holding.filter fun e => e.1.asn = asn && decide (e.1.va.toNat ≤ va.toNat ∧ va.toNat < e.1.va.toNat + e.1.len)).map
    fun e => decodePte e.2
  ((now ++ old).filter fun p => p.v && p.size ≠ 3 && p.tier = 2).map fun p =>
    (p.frame.toNat * 65536 + va.toNat % pageBytes p.size) / 4096

/-- Accesses translated under a removed entry that have not completed (R298, R304). -/
def State.hostBusy (s : State) (r : InvReq) (pages : List Nat) : Bool :=
  (s.sheafs.any fun e => match aget s.spaces (s.asnOf e.2) with
    | none => false
    | some sp => sp.part = r.fn && sp.pasid = r.pasid && e.2.ops.any fun o => o.2.kind.addressed &&
        (lanesIn (o.2.due &&& o.2.sent &&& ~~~s.heldLanes e.1 o.1)).any fun l =>
          (s.hostPages (clusterOf e.2.core) (s.asnOf e.2) o.2.addrs[l]).any fun n => inRange r sp.part sp.pasid n) ||
  s.events.any fun e => match e with
    | .homeRead m => m.prefetch.isSome && (match m.line with
        | .host a => pages.contains (a / 4096)
        | _ => false)
    | _ => false

/-- Leases still running on lines of removed pages. -/
def State.hostLeased (s : State) (pages : List Nat) : Bool :=
  s.homes.any fun e => match e.1 with
    | .host a => pages.contains (a / 4096) && decide (s.bell.toNat < e.2.leasemax.toNat)
    | _ => false

/-- INVALIDATE_COMPLETION: steps 3 to 5, in the order of arrival; marked requests are made again. -/
def execInvalidateCompletion (r : InvReq) (s : State) : Out :=
  .next (
    match s.invalidates with
    | [] => s
    | (q, pages) :: rest =>
      if q ≠ r then (if rest.any fun e => e.1 = r then s.again (.invalidateCompletion r) else s)
      else if s.hostBusy r pages || s.hostLeased pages then s.again (.invalidateCompletion r)
      else
        let s1 := ({ s with invalidates := rest } : State).emit (.invalidated r)
        let mine := fun (q : AtsReq) => q.marked && inRange r q.fn q.pasid q.page
        (s1.atsReqs.filter mine).foldl (fun s q => s.emit (.atsRequest { q with marked := false }))
          { s1 with atsReqs := s1.atsReqs.map fun q => if mine q then { q with marked := false } else q })

end Sys2Proof.Machine
end

