-- ==== Sys2Proof/Machine/Host.lean ====
section
/-! DEFINITION. What the host and the peers do to device memory and what they answer (R305 to R311), and the state of CXL ports and
Ralec links (R410). -/

namespace Sys2Proof.Machine

/-! ### Writes from outside (R306, R308, R324) -/

/-- Bytes by the line they fall in, for a run of bytes at a frame space address. -/
def devLines (a n : Nat) : List Loc := if n = 0 then [] else (List.range ((a + n - 1) / 256 - a / 256 + 1)).map fun i => .dev ((a / 256 + i) * 256)

/-- Bytes given by offset from an address, dealt to the lines they fall in. -/
def dealLines (a : Nat) (bs : List (Nat × Byte)) : List (Loc × List (Nat × Byte)) :=
  ((bs.map fun e => (a + e.1) / 256).eraseDups).map fun i =>
    (.dev (i * 256), (bs.filter fun e => (a + e.1) / 256 = i).map fun e => ((a + e.1) % 256, e.2))

/-- The record of a write from outside: the one in progress, or a new one. -/
def State.inboundFor (s : State) (r : InReq) : Inbound × State :=
  match s.inbound.find? fun i => i.req = r && i.tw.isNone with
  | some i => (i, s)
  | none =>
    let (k, s1) := s.fresh
    let i : Inbound := ⟨k, r, [], false, none, [], none, [], 0⟩
    (i, { s1 with inbound := s1.inbound ++ [i] })

def State.modInbound (s : State) (key : Nat) (f : Inbound → Inbound) : State :=
  { s with inbound := s.inbound.map fun i => if i.key = key then f i else i }

/-- A write from outside is over: whatever it charged and did not use is given back. -/
def State.endInbound (s : State) (i : Inbound) : State :=
  let cur := (s.inbound.find? fun j => j.key = i.key).getD i
  let s1 := cur.charged.foldl (fun s e => s.refund e.2 hubCluster 4) s
  { s1.unqueueAll (.hub i.key) with inbound := s1.inbound.filter fun j => j.key ≠ i.key }

/-- Charge the lines of a write from outside against the hub die's allowance (R306). -/
def State.chargeIn (s : State) (key : Nat) : List Loc → Except (State × Option Nat) State
  | [] => .ok s
  | line :: rest =>
    let i := s.inbound.find? fun i => i.key = key
    if (i.map fun i => i.charged.any fun e => e.1 = line).getD false then State.chargeIn s key rest else
      match s.chargePool line with
      | none => State.chargeIn s key rest
      | some k =>
        if (i.map (·.failed)).getD false then .error (s, some (k % 256)) else
        match s.charge k hubCluster 4 (.hub key) with
        | .waits s' => .error (s', none)
        | .done s' => State.chargeIn (s'.modInbound key fun i => { i with charged := i.charged ++ [(line, k)] }) key rest

/-- What a write from outside comes to. -/
inductive InEnd where
  | waits (s : State)
  | noCharge (s : State) (pool : Nat)
  | portDown (s : State)
  | made (s : State) (tw : Word)

/-- Where a line of a write from outside lies: its page may have moved while it was held (R289). -/
def Inbound.line (i : Inbound) (l : Loc) : Loc := (aget i.placed l).getD l

def isPeer : Loc → Bool
  | .peer .. => true
  | _ => false

/-- One line of a write from outside, applied at its home with its charge, or sent to the peer it has moved to. -/
def State.putIn (s : State) (key : Nat) (line : Loc) (bs : List (Nat × Byte)) : Word × State :=
  match line with
  | .peer q a => (0, (s.askPeer ⟨q, a, .write bs, 0, s.bell, .inbound key⟩).modInbound key fun i => { i with due := i.due + 1 })
  | _ =>
    let charged := ((s.inbound.find? fun i => i.key = key).map fun i => i.charged.any fun c => c.1 = line).getD false
    let s1 := ((s.recall line none).count line).arriveAt line hubCluster charged
    let (tw, s2) := s1.homeWrite line bs
    (tw, s2.modInbound key fun i => { i with charged := i.charged.filter fun c => c.1 ≠ line })

/-- A write from outside: charged, then applied by HomeWrite at each line, the charge used at its arrival. -/
def State.writeIn (s : State) (key : Nat) (ls0 : List (Loc × List (Nat × Byte))) : InEnd :=
  let i := s.inbound.find? fun i => i.key = key
  let ls := ls0.map fun e => (((i.map fun i => i.line e.1).getD e.1), e.2)
  if (i.map fun i => decide (i.due ≠ 0)).getD false then .waits s
  else if ls.any (fun e => s.portFails e.1) || (ls.any (fun e => isPeer e.1) && (i.map (·.failed)).getD false) then .portDown s else
  match s.chargeIn key (ls.map (·.1)) with
  | .error (s', some k) => .noCharge s' k
  | .error (s', none) => .waits s'
  | .ok s1 =>
    if ls.any fun e => s1.writeWaits e.1 || s1.splitOn e.1 none then .waits s1 else
      let r := ls.foldl (fun (r : Word × State) e =>
        let x := r.2.putIn key e.1 e.2
        (maxWord [r.1, x.1], x.2)) (0, s1)
      .made (r.2.modInbound key fun i => { i with tw := some r.1 }) r.1

/-- A write that has been made and whose Tw the bell has reached. -/
def State.inboundDone (s : State) (r : InReq) : Option Inbound :=
  s.inbound.find? fun i => i.req = r && !i.failed && i.due = 0 && (i.tw.map fun t => decide (t.toNat ≤ s.bell.toNat)).getD false

/-- A write that has been made and has failed at the peer its page had moved to. -/
def State.inboundFailed (s : State) (r : InReq) : Option Inbound :=
  s.inbound.find? fun i => i.req = r && i.failed && i.due = 0 && i.tw.isSome

/-- Whether a write has been made and waits for its Tw. -/
def State.inboundMade (s : State) (r : InReq) : Bool := s.inbound.any fun i => i.req = r && i.tw.isSome

/-- An entry in a partition's error log for an access that no launch made. -/
def State.logPart (s : State) (part : Nat) (cause : BitVec 8) (addr : Nat) : State :=
  s.modPart part fun p => p.logs ⟨cause, BitVec.ofNat 64 addr, 0, 0, s.bell, 0⟩

/-! ### The host (R305, R306) -/

/-- HOST_SNOOP: the agent answers once the line's leases have ended; a host write is then in host memory.
(DEDUCED, log 36.) (DEDUCED, log 37.) -/
def execHostSnoop (line : Nat) (write : Option (List (Nat × Byte))) (s : State) : Out :=
  .next (
    let l := lineOf (.host line)
    if s.engineHolds l none || decide (s.bell.toNat < (s.home l).leasemax.toNat) then s.again (.hostSnoop line write)
    else
      let s1 := match write with
        | some bs => ((s.recall l none).putBytes l bs).touched l
        | none => s
      s1.emit (.snoopDone line))

/-- HOST_READ: served at the home slices as LDB is. -/
def execHostRead (addr len : Nat) (s : State) : Out :=
  .next (
    let ls := devLines addr len
    if ls.any fun l => s.portFails l || (s.home l).poison then s.emit .readError
    else if ls.any fun l => s.engineHolds l none || s.portHolds l then s.again (.hostRead addr len)
    else (ls.foldl (fun (s : State) l => (s.recall l none).count l) s).emit (.readData (Memory.bytes s.mem addr len)))

/-- HOST_WRITE: charged, applied by HomeWrite, and completed at its Tw; a failed charge discards it. -/
def execHostWrite (m : HostWrite) (s : State) : Out :=
  .next (
    match s.inboundDone (.host m), s.inboundFailed (.host m) with
    | some i, _ => (s.endInbound i).emit .writeDone
    | none, some i => ((s.endInbound i).logPart m.part (if i.peerPool.isSome then 0x06 else 0x03) m.addr).emit .writeError
    | none, none =>
      if s.inboundMade (.host m) then s.again (.hostWrite m) else
      let (i, s0) := s.inboundFor (.host m)
      match s0.writeIn i.key (dealLines m.addr (m.bytes.zipIdx.map fun e => (e.2, e.1))) with
      | .waits s1 => s1.again (.hostWrite m)
      | .noCharge s1 _ => ((s1.endInbound i).logPart m.part 0x06 m.addr).emit .writeError
      | .portDown s1 => ((s1.endInbound i).logPart m.part 0x03 m.addr).emit .writeError
      | .made s1 _ => s1.again (.hostWrite m))

/-! ### Accesses of peers (R308 to R311) -/

/-- Whether an aperture admits an access of a peer (R311). -/
def State.admits (s : State) (m : PeerReq) : Bool :=
  let n := match m.op with
    | .read n => n
    | .write bs => (bs.map (·.1)).foldl max 0 + 1
    | .atomic _ w64 _ => if w64 then 8 else 4
    | _ => 1
  let write := match m.op with
    | .read _ => false
    | _ => true
  s.apertures.any fun a => a.peer = m.peer && (a.w || !write) && a.firstFrame ≤ m.addr / 65536 &&
    decide ((m.addr + n - 1) / 65536 < a.firstFrame + a.frames) && (aget s.frames (m.addr / 65536)).isSome

/-- The partition of a frame's pool. -/
def State.partOfFrame (s : State) (f : Nat) : Nat := (((aget s.frames f).bind (·.pool)).map (·.1)).getD 0

/-- The charge a peer asked for about a line, ready to be used by its write (R310). -/
def State.takeReport (s : State) (peer : Nat) (line : Nat) (key : Nat) : State :=
  match s.inbound.find? fun i => i.req = .peer ⟨peer, line, .report false⟩ && i.tw.isSome with
  | none => s
  | some i => ({ s with inbound := s.inbound.filter fun j => j.key ≠ i.key } : State).modInbound key fun j =>
      { j with charged := j.charged ++ i.charged }

/-- An access that goes on to the peer its page has moved to: it is asked once. -/
def State.passOn (s : State) (i : Inbound) (p : PeerPending) : InEnd :=
  if i.due ≠ 0 then .waits s
  else if i.failed then (match i.peerPool with
    | some k => .noCharge s k.toNat
    | none => .portDown s)
  else .waits ((s.askPeer p).modInbound i.key fun i => { i with due := 1 })

/-- Atomics of a peer to one word, executed at its home as one batch's (R308, R184); a counter they name is rolled first (R195). -/
def State.atomicIn (s0 : State) (i : Inbound) (a : Nat) (fn : AtomFn) (w64 : Bool) (ls : List (Nat × Word × Word)) : InEnd :=
  let line := lineOf (.dev a)
  let n := if w64 then 8 else 4
  match locPlus (i.line line) (a % 256) with
  | .peer q b => s0.passOn i ⟨q, b, .atomic fn w64 ls, 0, s0.bell, .inbound i.key⟩
  | w =>
    let s := (s0.countersIn (lineOf w) ((List.range n).map fun j => (a % 256 + j, (0 : Byte)))).foldl State.rollAt s0
    let r := atomAll fn w64 (s.wordAt w n) ls
    match s.writeIn i.key [(line, (natToBytes n r.1.toNat).zipIdx.map fun e => (a % 256 + e.2, e.1))] with
    | .made s1 tw => .made (s1.modInbound i.key fun i => { i with olds := r.2.map (·.2) }) tw
    | e => e

/-- A CWB of a peer. -/
def State.cwbIn (s : State) (i : Inbound) (line0 : Loc) : InEnd :=
  let line := i.line line0
  match line with
  | .peer q a => s.passOn i ⟨q, a, .cwb, 0, s.bell, .inbound i.key⟩
  | _ =>
    if s.writeWaits line then .waits s else
      let s1 := s.settleLine line
      if (s1.home line).dirty.isSome then .waits s1 else
        let (tw, s2) := s1.homeWrite line []
        .made (s2.modInbound i.key fun i => { i with tw := some tw }) tw

/-- PEER_ACCESS: checked against the apertures, performed at its home, and answered once the bell has passed its Tw (R309). -/
def execPeerAccess (m : PeerReq) (s : State) : Out :=
  .next (
    let line := lineOf (.dev m.addr)
    let refuse := fun (s : State) (cause : BitVec 8) => (s.logPart (s.partOfFrame (m.addr / 65536)) cause m.addr).emit (.peerReply .error)
    let mine := s.inbound.find? fun i => i.req = .peer m
    if mine.isNone && !s.admits m then refuse s 0x04 else
    match s.inboundDone (.peer m), m.op with
    | some i, .write _ => (s.endInbound i).emit (.peerReply .done)
    | some i, .cwb => (s.endInbound i).emit (.peerReply .done)
    | some i, .atomic _ _ _ => (s.endInbound i).emit (.peerReply (.olds i.olds))
    | _, .read n =>
      let ls := devLines m.addr n
      if ls.any fun l => s.portFails l || (s.home l).poison then refuse s 0x03
      else if ls.any fun l => s.engineHolds l none || s.portHolds l then s.again (.peerAccess m)
      else (ls.foldl (fun (s : State) l => (s.recall l none).count l) s).emit (.peerReply (.data (Memory.bytes s.mem m.addr n)))
    | _, .report true => s.emit (.peerReply .done)
    | _, .report false =>
      if (s.chargePool line).isNone then ((mine.map s.endInbound).getD s).emit (.peerReply .done) else
      let (i, s0) := s.inboundFor (.peer m)
      match s0.chargeIn i.key [line] with
      | .ok s1 => (s1.modInbound i.key fun i => { i with req := .peer ⟨m.peer, m.addr / 256 * 256, .report false⟩, tw := some 0 }).emit
          (.peerReply .charged)
      | .error (s1, some k) => (s1.endInbound i).emit (.peerReply (.chargeFailed (BitVec.ofNat 8 k)))
      | .error (s1, none) => s1.again (.peerAccess m)
    | none, op =>
      match s.inboundFailed (.peer m) with
      | some i => (match i.peerPool with
        | some k => (s.endInbound i).emit (.peerReply (.chargeFailed k))
        | none => refuse (s.endInbound i) 0x03)
      | none =>
      if s.inboundMade (.peer m) then s.again (.peerAccess m) else
      if s.portFails line || ((s.home line).poison && (match op with
          | .atomic .. => true
          | _ => false)) then refuse s 0x03 else
      let (i, s0) := s.inboundFor (.peer m)
      let s1 := if mine.isNone then s0.takeReport m.peer (m.addr / 256 * 256) i.key else s0
      let r := match op with
        | .write bs => s1.writeIn i.key (dealLines m.addr bs)
        | .atomic fn w64 ls => s1.atomicIn i m.addr fn w64 ls
        | _ => s1.cwbIn i line
      match r with
      | .waits s2 => s2.again (.peerAccess m)
      | .noCharge s2 k => (s2.endInbound i).emit (.peerReply (.chargeFailed (BitVec.ofNat 8 k)))
      | .portDown s2 => refuse (s2.endInbound i) 0x03
      | .made s2 _ => s2.again (.peerAccess m))

/-! ### Answers of peers (R309 to R311) -/

/-- Change the hold that a lane's instruction in progress stands in. -/
def Sheaf.onHold (sh : Sheaf) (l : Nat) (f : Hold → Hold) : Sheaf :=
  let bit := fun (m : Mask) => m.getLsbD (l % 32)
  if bit sh.batch then { sh with hold := f sh.hold }
  else { sh with
    putBy := sh.putBy.map fun p => if bit p.1 then (p.1, f p.2) else p
    aside := sh.aside.map fun a => if bit a.lanes then { a with hold := f a.hold } else a }

/-- An engine command's operand at a peer has failed. -/
def State.cmdFails (s : State) (cmd : Nat) (cause : BitVec 8) (va : Word) (info : W32) (log : Bool) : State :=
  s.modCmd cmd fun c => { c with fault := some (cause, va, info, log), wrote := false, got := [] }

/-- The message of a KV lane's step is changed. -/
def State.modKv (s : State) (u l : Nat) (f : KvMsg → KvMsg) : State :=
  { s with events := s.events.map fun e => match e with
      | .kvAgentStep m => if m.sheaf = u && m.lane = l then .kvAgentStep (f m) else e
      | _ => e }

/-- A KV lane's step ends in a trap found at a peer. -/
def State.kvFails (s : State) (u l : Nat) (write : Bool) (cause : BitVec 8) (va : Word) (info : W32) : State :=
  s.modKv u l fun m => { m with bad := some (m.bad.getD (cause, va, info)), due := if write then m.due - 1 else m.due }

/-- A peer has refused an access, with PERMISSION, or has not answered, with TRANSLATION; either is logged (R311). -/
def State.peerFails (s : State) (p : PeerPending) (cause : BitVec 8) : State :=
  match p.what with
  | .load u k m _ => s.failLanes u k m cause 0 true true
  | .write u k m => s.failLanes u k m cause 1 true true
  | .atomic u k ls _ => s.failLanes u k (maskOfNats ls) cause 1 true true
  | .charge u ls _ => s.modSheaf u fun sh => ls.foldl (fun sh e => sh.onHold e.1 fun h =>
      { h with faults := h.faults ++ [⟨laneOf e.1, cause, e.2, 1, true⟩] }) sh
  | .engine cmd _ =>
    (s.modCmd cmd fun c => { c with peersDue := c.peersDue - (match p.op with
      | .write _ => 1
      | _ => 0) }).cmdFails cmd cause p.va (match p.op with
      | .write _ => 5
      | _ => 4) true
  | .kv u l _ => match p.op with
    | .write _ => s.kvFails u l true cause p.va 5
    | _ => s.kvFails u l false cause p.va 4
  | .fetch key line => { s with fetchBad := aset s.fetchBad (key, line) cause }
  | .inbound key => s.modInbound key fun i => { i with failed := true, due := i.due - 1 }
  | .move asn va _ => { s with moves := s.moves.map fun m => if m.req.asn = asn && m.req.va = va then { m with failed := true } else m }
  | .hub key part line => { s.logPart part cause p.va.toNat with hubGot := aset s.hubGot (key, line) none }

/-- A peer has answered as asked. -/
def State.peerDone (s : State) (p : PeerPending) (code : PeerCode) : State :=
  match p.what, code with
  | .load u k m _, .data bs =>
    match (s.sheaf? u).bind fun sh => aget sh.ops k with
    | none => s
    | some o => s.post (.loadResponse ⟨u, k, (lanesIn m).map fun l =>
        (l.val, lineValue bs (o.addrs[l].toNat % 256) (opBytes o.kind))⟩)
  | .write u k m, .done => s.post (.twReturn ⟨u, k, m, s.bell⟩)
  | .atomic u k ls _, .olds vs => s.post (.atomicReturn ⟨u, k, ls.zipIdx.map fun e => (e.1, vs.getD e.2 0), s.bell⟩)
  | .atomic u k ls ret, .done => if ret then s.peerFails p 0x03 else s.post (.twReturn ⟨u, k, maskOfNats ls, s.bell⟩)
  | .charge u ls line, .charged | .charge u ls line, .done => s.modSheaf u fun sh => match ls with
      | [] => sh
      | e :: _ => sh.onHold e.1 fun h => { h with charged := h.charged ++ [(line, 2 ^ 20)] }
  | .charge u ls _, .chargeFailed k => s.modSheaf u fun sh => ls.foldl (fun sh e => sh.onHold e.1 fun h =>
      { h with faults := h.faults ++ [⟨laneOf e.1, 0x06, p.va, k.setWidth 32, false⟩] }) sh
  | .engine cmd line, .data bs => s.modCmd cmd fun c => { c with got := c.got ++ [(line, bs)] }
  | .engine cmd _, .done => s.modCmd cmd fun c => { c with peersDue := c.peersDue - 1, tmax := maxWord [c.tmax, s.bell] }
  | .engine cmd _, .chargeFailed k => (s.modCmd cmd fun c => { c with peersDue := c.peersDue - 1 }).cmdFails cmd 0x06 p.va (k.setWidth 32) false
  | .kv u l line, .data bs => s.modKv u l fun m => { m with got := m.got ++ [(line, bs)] }
  | .kv u l _, .done => s.modKv u l fun m => { m with due := m.due - 1, tw := maxWord [m.tw, s.bell] }
  | .kv u l _, .chargeFailed k => s.kvFails u l true 0x06 p.va (k.setWidth 32)
  | .fetch key line, .data bs => { s with fetchGot := aset s.fetchGot (key, line) bs }
  | .hub key _ line, .data bs => { s with hubGot := aset s.hubGot (key, line) (some bs) }
  | .hub key _ line, .done => { s with hubGot := aset s.hubGot (key, line) (some []) }
  | .inbound key, .chargeFailed k => s.modInbound key fun i => { i with failed := true, peerPool := some k, due := i.due - 1 }
  | .inbound key, .done => s.modInbound key fun i => { i with due := i.due - 1, tw := some (maxWord [i.tw.getD 0, s.bell]) }
  | .inbound key, .olds vs => s.modInbound key fun i => { i with due := i.due - 1, olds := vs, tw := some s.bell }
  | .move asn va line, .data bs => { s with moves := s.moves.map fun m =>
      if m.req.asn = asn && m.req.va = va then { m with got := m.got ++ [(line, bs)] } else m }
  | .move asn va _, .done => { s with moves := s.moves.map fun m =>
      if m.req.asn = asn && m.req.va = va then { m with due := m.due - 1 } else m }
  | _, .error => s.peerFails p 0x04
  | _, _ => s.peerFails p 0x03

/-- PEER_ANSWER. -/
def execPeerAnswer (id : Nat) (code : PeerCode) (s : State) : Out :=
  .next (
    match aget s.peers id with
    | none => s
    | some p => ({ s with peers := adel s.peers id } : State).peerDone p code)

/-- PEER_TIMEOUT: no answer within 10 ms (R311). -/
def execPeerTimeout (id : Nat) (s : State) : Out :=
  .next (
    match aget s.peers id with
    | none => s
    | some p =>
      if s.bell.toNat < p.sent.toNat + tenMs then s.again (.peerTimeout id)
      else ({ s with peers := adel s.peers id, peerHeld := s.peerHeld.filter (· ≠ id) } : State).peerFails p 0x03)

/-! ### Ports and links (R410) -/

/-- CXL_PORT_DOWN: its accesses are held while it retrains. -/
def execCxlPortDown (port : Nat) (s : State) : Out :=
  .next (if s.dev.cxlDown.any (fun e => e.1 = port) || s.dev.cxlFailed.contains port then s else
    ({ s with dev := { s.dev with cxlDown := s.dev.cxlDown ++ [(port, s.bell)] } } : State).post (.cxlRetrainTimeout port))

/-- CXL_RETRAIN_TIMEOUT: not recovered in 10 ms, its lanes trap and it is reported. (DEDUCED, log 38.) -/
def execCxlRetrainTimeout (port : Nat) (s : State) : Out :=
  .next (
    match s.dev.cxlDown.find? fun e => e.1 = port with
    | none => s
    | some e =>
      if s.bell.toNat < e.2.toNat + tenMs then s.again (.cxlRetrainTimeout port)
      else ({ s with dev := { s.dev with
        cxlDown := s.dev.cxlDown.filter fun e => e.1 ≠ port
        cxlFailed := s.dev.cxlFailed ++ [port] } } : State).report (.portDown port))

/-- CXL_PORT_RETRAINED. -/
def execCxlPortRetrained (port : Nat) (s : State) : Out :=
  .next { s with dev := { s.dev with cxlDown := s.dev.cxlDown.filter fun e => e.1 ≠ port } }

/-- RALEC_LINK_DOWN: accesses over it are held. (DEDUCED, log 38.) -/
def execRalecLinkDown (link : Nat) (s : State) : Out :=
  .next (if s.dev.ralecDown.any fun e => e.1 = link then s else
    { s with dev := { s.dev with ralecDown := s.dev.ralecDown ++ [(link, s.bell)] } })

/-- RALEC_LINK_RETRAINED: what it held is sent. -/
def execRalecLinkRetrained (link : Nat) (s : State) : Out :=
  .next (
    let s1 : State := { s with dev := { s.dev with ralecDown := s.dev.ralecDown.filter fun e => e.1 ≠ link } }
    let mine := s1.peerHeld.filter fun id => ((aget s1.peers id).map fun p => decide (p.peer = link)).getD false
    mine.foldl (fun s id => match aget s.peers id with
      | some p => s.emit (.peerRequest id p)
      | none => s) { s1 with peerHeld := s1.peerHeld.filter fun id => !mine.contains id })

end Sys2Proof.Machine
end

