-- ==== Sys2Proof/Machine/Packed.lean ====
section
/-! DEFINITION. Sidecars and the packed form of a page (R276, R277). -/

namespace Sys2Proof.Machine

/-- Sectors of a sidecar code (Table 12.1). -/
def codeSectors : Nat → Nat
  | 0 => 0
  | 1 => 1
  | 2 => 1
  | 3 => 2
  | 4 => 3
  | _ => 4

/-- The CODES of a sidecar: two blocks in a byte, the even one below (Table 12.3). -/
def codeBytes : List Nat → List Byte
  | a :: b :: t => BitVec.ofNat 8 (a + 16 * b) :: codeBytes t
  | _ => []

/-- A sidecar (Table 12.3). -/
def sidecarBytes (kind : BitVec 2) (codes : List Nat) : List Byte :=
  codeBytes codes ++ [kind.setWidth 8, 1] ++ natToBytes 2 (codes.map codeSectors).sum ++ List.replicate 124 0

/-- The lines of a frame in ascending order. -/
def frameLines (f : Nat) : List Loc := (List.range 256).map fun b => .dev (f * 65536 + b * 256)

/-- The sidecar of a frame (R276): each block's code as the last writeback left it. -/
def State.sidecar (s : State) (f : Nat) : List Byte :=
  sidecarBytes (s.kindOf (.dev (f * 65536))) ((frameLines f).map s.codeOf)

/-- The packed form of a frame's blocks (R277). -/
def packBlocks (kind : BitVec 2) (bs : List (List Byte)) : List Byte :=
  sidecarBytes kind (bs.map fun b => formCode (blockForm kind b)) ++ bs.flatMap (encodeBlock kind)

/-- The packed form of a frame whose lines are clean. -/
def State.packFrame (s : State) (f : Nat) : List Byte :=
  packBlocks (s.kindOf (.dev (f * 65536))) ((frameLines f).map fun l => s.homeBytes l 256)

/-- The codes of a sidecar. -/
def codesOf : List Byte → List Nat
  | [] => []
  | b :: t => b.toNat % 16 :: b.toNat / 16 :: codesOf t

/-- A sidecar that is accepted (R277): its KIND and its codes. -/
def readSidecar (img : List Byte) : Option (BitVec 2 × List Nat) :=
  let codes := codesOf (img.take 128)
  let at_ := fun i => (img.drop i).headD 0
  let kind := (at_ 0x80).toNat
  if decide (256 ≤ img.length) && codes.all (fun c => decide (c ≤ 5)) && (kind = 1 || kind = 2) && at_ 0x81 = 1 &&
      bytesToNat ((img.drop 0x82).take 2) = (codes.map codeSectors).sum && ((img.take 256).drop 0x84).all (· = 0) then
    some (BitVec.ofNat 2 kind, codes)
  else none

/-- A block of an image by its code: refused where it is cut short, its WCODE is another or a reserved bit is set. -/
def readBlock (kind : BitVec 2) (code : Nat) (img : List Byte) : Option (List Byte × List Byte) :=
  let n := 64 * codeSectors code
  let b := img.take n
  if b.length < n || (1 ≤ code && code ≤ 4 && b.headD 0 ≠ BitVec.ofNat 8 (code - 1)) then none
  else some (decodeBlock kind code b, img.drop n)

def readBlocks (kind : BitVec 2) : List Nat → List Byte → Option (List (List Byte) × List Byte)
  | [], img => some ([], img)
  | c :: t, img => (readBlock kind c img).bind fun r => (readBlocks kind t r.2).map fun q => (r.1 :: q.1, q.2)

/-- The blocks of a frame from the head of an image, and what follows it; none where R277 refuses it. -/
def unpackFrame (img : List Byte) : Option ((BitVec 2 × List (List Byte)) × List Byte) :=
  (readSidecar img).bind fun h => (readBlocks h.1 h.2 (img.drop 256)).map fun r => ((h.1, r.1), r.2)

/-- The frames of a page from its image, which ends with the last; each is of the page's KIND. -/
def unpackFrames (kind : BitVec 2) : Nat → List Byte → Option (List (List (List Byte)))
  | 0, img => if img = [] then some [] else none
  | n + 1, img => (unpackFrame img).bind fun r => if r.1.1 ≠ kind then none else (unpackFrames kind n r.2).map (r.1.2 :: ·)

end Sys2Proof.Machine
end

