-- ==== Sys2Proof/Machine/Move.lean ====
section
/-! DEFINITION. Access counts and migration requests (R257, R258), the move of a page that is in use (R289, R290), and
the dump and restore of a page (R277). -/

namespace Sys2Proof.Machine

/-! ### EPOCH_END (R257, Table 10.4) -/

/-- The group of a page's first line, as a report names it. -/
def moveGroup (p : Pte) : Nat :=
  match p.tier.toNat with
  | 3 => (p.frame.toNat / 2 ^ 36 * 2 ^ 40 + p.frame.toNat % 2 ^ 36 / 32) * 4 + 2
  | 2 => p.frame.toNat / 32 * 4 + 1
  | _ => p.frame.toNat / 32 * 4

/-- Whether a group is one of a page's. -/
def groupIn (p : Pte) (k : Nat) : Bool :=
  k % 4 = moveGroup p % 4 && decide (moveGroup p ≤ k) && decide (k < moveGroup p + 4 * max 1 (pageBytes p.size / 2097152))

/-- The page group of a frame. -/
def frameGroup (f : Nat) : Nat := f / 32 * 4

/-- Whether a frame of a group is surrendered, or a page of it moves. -/
def State.groupBusy (s : State) (k : Nat) : Bool :=
  (s.frames.any fun e => frameGroup e.1 = k && e.2.surrendered) || s.moves.any fun m => m.marked && groupIn (decodePte m.old) k

/-- The partition whose thresholds and mode apply to a group: its frames' pool's; the first one where it has none.
(DEDUCED, log 18.) -/
def State.groupPart (s : State) (k : Nat) : Option Partition :=
  match s.frames.findSome? fun e => if frameGroup e.1 = k then e.2.pool.map (·.1) else none with
  | some p => s.part? p
  | none => (s.parts.head?).map (·.2)

/-- The groups that the hub looks at: those counted, and those of created frames. -/
def State.groupKeys (s : State) : List Nat := (s.groups.map (·.1) ++ s.frames.map fun e => frameGroup e.1).eraseDups

/-- What a group has counted; one that has counted nothing has the TIER of the first of its frames. (DESIGN CHOICE, log 68.) -/
def State.groupCount (s : State) (k : Nat) : GroupCount :=
  match aget s.groups k with
  | some g => g
  | none => ⟨(s.frames.findSome? fun e => if frameGroup e.1 = k then some e.2.tier else none).getD 0, 0, 0, 16⟩

/-- A request enters the migration queue of 4,096, or is dropped and counted (R258). -/
def State.askMove (s : State) (r : MigReq) (assisted : Bool) : State :=
  if s.migrations.length < 4096 then
    let s1 : State := { s with migrations := s.migrations ++ [r] }
    if assisted then s1.report (.migrationAsked r) else s1
  else { s with migrationDrops := s.migrationDrops + 1 }

def State.groupAssisted (s : State) (k : Nat) : Bool := ((s.groupPart k).map (·.migrationAssisted)).getD true

/-- Whether a group raises no request whatever its count: it is busy, or has raised one in the last 16 epochs. -/
def State.groupQuiet (s : State) (k : Nat) : Bool := (s.groupCount k).since < 16 || s.groupBusy k

/-- The group of LPDDR6 counted least, where its free sectors are below the margin: it is demoted (R278). One request is raised in
an epoch. (DESIGN CHOICE, log 80.) -/
def State.marginGroup (s : State) : Option Nat :=
  if lpddr6Sectors - s.used0 < lpddr6Margin then
    (s.groupKeys.filter fun k => (s.groupCount k).tier = 0 && k % 4 = 0 && !s.groupQuiet k).foldl (fun (b : Option Nat) k =>
      match b with
      | some x => if (s.groupCount k).count < (s.groupCount x).count then some k else b
      | none => some k) none
  else none

/-- One group at the end of an epoch: its request, if any, and its halved count. -/
def State.groupEpoch (margin : Option Nat) (s : State) (k : Nat) : State :=
  let g := s.groupCount k
  let p := s.groupPart k
  let hot := (p.map (·.hot)).getD 2048
  let low := (p.map (·.cold)).getD 16
  let cold := if g.count ≤ low then g.cold + 1 else 0
  let promote := g.tier ≠ 0 && decide (hot ≤ g.count)
  let demote := g.tier = 0 && (decide (8 ≤ cold) || margin = some k)
  let ask := !s.groupQuiet k && (promote || demote)
  let s1 := if ask then s.askMove ⟨k, promote, g.count⟩ (s.groupAssisted k) else s
  { s1 with groups := aset s1.groups k { g with
    count := g.count / 2
    cold := min cold 8
    since := if ask then 0 else min (g.since + 1) 16 } }

/-- EPOCH_END. -/
def execEpochEnd (s : State) : Out := .next (s.groupKeys.foldl (State.groupEpoch s.marginGroup) s)

/-! ### Where a page lies -/

/-- The location of an offset in a page of an address space; a host page through the ATC of die 0. -/
def State.pageLoc (s : State) (asn : Nat) (p : Pte) (off : Nat) : Option Loc :=
  match p.tier.toNat with
  | 2 => (aget s.spaces asn).bind fun sp =>
      (s.atc.find? fun e => e.die = 0 && e.fn = sp.part && e.pasid = sp.pasid && e.page = p.frame.toNat * 16 + off / 4096).map
        fun e => .host (e.trans * 4096 + off % 4096)
  | 3 => some (.peer (p.frame.toNat / 2 ^ 36) (p.frame.toNat % 2 ^ 36 * 65536 + off))
  | _ => some (.dev (p.frame.toNat * 65536 + off))

/-- The offset of a location in a page, where it lies in it. -/
def State.offIn (s : State) (asn : Nat) (p : Pte) (l : Loc) : Option Nat :=
  let within := fun (base a : Nat) => if base ≤ a ∧ a < base + pageBytes p.size then some (a - base) else none
  match l with
  | .dev a => if p.tier.toNat < 2 then within (p.frame.toNat * 65536) a else none
  | .peer q a => if p.tier = 3 && q = p.frame.toNat / 2 ^ 36 then within (p.frame.toNat % 2 ^ 36 * 65536) a else none
  | .host a => if p.tier ≠ 2 then none else (aget s.spaces asn).bind fun sp =>
      (s.atc.find? fun e => e.fn = sp.part && e.pasid = sp.pasid && e.trans = a / 4096 &&
        decide (p.frame.toNat * 16 ≤ e.page ∧ e.page < p.frame.toNat * 16 + pageFrames p.size * 16)).map
        fun e => (e.page - p.frame.toNat * 16) * 4096 + a % 4096

/-- Offsets of the lines of a page. -/
def pageOffsets (p : Pte) : List Nat := (List.range (pageBytes p.size / 256)).map (· * 256)

/-! ### Starting and abandoning -/

def State.modMove (s : State) (m : MigrateReq) (f : MoveRec → MoveRec) : State :=
  { s with moves := s.moves.map fun r => if r.req = m then f r else r }

/-- What a move has charged and promised goes back (R290). -/
def State.unchargeMove (s : State) (r : MoveRec) : State :=
  match r.charged with
  | some (k, n) => match s.pool? k with
    | some q => (s.setPool k { q with promised := q.promised - 1024 * pageFrames r.new.size }).release k n
    | none => s
  | none => s

/-- The move is abandoned with the page unchanged, and reported; what it charged and promised goes back (R290). -/
def State.abandonMove (s : State) (r : MoveRec) : State :=
  let p := decodePte r.old
  let s0 : State := if r.copied then
    let new := pteFrames r.new
    { s with mem := s.mem.filter fun e => !new.contains (e.1 / 65536) } else s
  let s1 := if r.marked then (s0.setEntry r.req.entryAddr r.old).shootdown r.req.asn (pageBase r.req.va p) (pageBytes p.size) else s0
  let s2 := s1.unchargeMove r
  (({ s2 with moves := s2.moves.filter fun x => x.req ≠ r.req } : State).unqueueAll (.move r.req.asn r.req.va)).report
    (.migrationAbandoned (moveGroup p))

/-- Whether a destination can be moved to: well formed, its frames not created, its pool set up with room to promise. -/
def State.destOk (s : State) (part : Nat) (p q : Pte) : Bool :=
  q.size ≠ 3 && q.kind ≠ 3 && decide (q.frame.toNat % pageFrames q.size = 0) &&
  (match q.tier.toNat with
    | 2 => true
    | 3 => decide (q.frame.toNat / 2 ^ 36 < 12)
    | _ => (pteFrames q).all (fun f => (aget s.frames f).isNone) && s.cxlHolds q.tier (pteFrames q) && (p.tier.toNat < 2 ||
        (match s.pool? (poolKey part q.pool) with
          | none => false
          | some k => decide (4 * (k.promised + 1024 * pageFrames q.size) ≤ k.ratio * k.granted) &&
              (q.kind = 0 || decide (s.promisedKinds (pteFrames q) + 1024 * pageFrames q.size ≤ promiseLimit)))))

/-- The page named is mapped, neither surrendered nor moving, and its destination fits; else the move is abandoned. -/
def State.moveStart (s : State) (m : MigrateReq) : State :=
  match aget s.spaces m.asn, s.walk m.asn m.va with
  | some sp, some (.leaf p entry) =>
    let q := movedPte m p
    let r : MoveRec := ⟨m, s.word64 entry, none, false, false, false, false, [], 0⟩
    if s.walkHeld m.asn m.va || s.walkOwned m.asn m.va || s.restingFor q then s.again (.migration m)
    else if entry ≠ m.entryAddr || p.surr || p.moving || decide (2 ≤ m.newTier.toNat) && (m.newKind ≠ 0 || m.newPool ≠ 0) ||
        s.moves.any (fun x => x.req.entryAddr = entry) || !s.destOk sp.part p q then s.report (.migrationAbandoned (moveGroup p))
    else ({ s with moves := s.moves ++ [r] } : State).post (.migration m)
  | _, _ => s.report (.migrationAbandoned 0)

/-- Sectors a move takes before it begins (R290, R279). -/
def moveSectors (p q : Pte) : Nat :=
  if p.tier.toNat < 2 || decide (2 ≤ q.tier.toNat) then 0
  else if q.kind = 0 then 1024 * pageFrames q.size else 1028 * pageFrames q.size

/-- The update by which MOVING is set (R289, R298). -/
def MoveRec.markUpdate (r : MoveRec) : UpdateReq :=
  let p := decodePte r.old
  ⟨r.req.asn, r.req.entryAddr, encodePte { p with moving := true }, pageBase r.req.va p, pageBytes p.size⟩

/-- The update by which the entry is switched. -/
def MoveRec.switchUpdate (r : MoveRec) : UpdateReq :=
  let p := decodePte r.old
  ⟨r.req.asn, r.req.entryAddr, encodePte r.new, pageBase r.req.va p, pageBytes p.size⟩

/-- The entry of a moving page is updated: walks are held until nothing is under way under the old one (R298). -/
def State.moveUpdate (s : State) (r : MoveRec) (u : UpdateReq) : State :=
  ((({ s with holding := s.holding ++ [(u, r.old)] } : State).setEntry u.entryAddr u.value).shootdown u.asn u.va u.len).post
    (.migration r.req)

/-- Step 1 of R289: MOVING is set. -/
def State.moveMark (s : State) (r : MoveRec) : State :=
  (s.modMove r.req fun x => { x with marked := true }).moveUpdate r r.markUpdate

/-- The charge of a move into a pool, with the wait of R283 where the page becomes KIND 1 or 2; then its destination must still
fit (R280), and MOVING is set. -/
def State.moveCharge (s : State) (r : MoveRec) : State :=
  let p := decodePte r.old
  let q := r.new
  if r.failed || s.word64 r.req.entryAddr ≠ r.old then s.abandonMove r
  else if s.walkHeld r.req.asn r.req.va then s.again (.migration r.req)
  else
    let n := moveSectors p q
    match aget s.spaces r.req.asn with
    | none => s.abandonMove r
    | some sp =>
      let k := poolKey sp.part q.pool
      let took := fun (s : State) =>
        if !s.destOk sp.part p q then (s.release k n).abandonMove r else
        let s1 := match s.pool? k with
          | some x => s.setPool k { x with promised := x.promised + 1024 * pageFrames q.size }
          | none => s
        (s1.modMove r.req fun x => { x with charged := some (k, n) }).moveMark r
      if n = 0 then (if s.destOk sp.part p q then s.moveMark r else s.abandonMove r)
      else if q.kind = 0 then
        match (s.pool? k).bind fun x => (x.ctr.takeHome n).map fun c => x.setCtr c with
        | some x => took ((s.setPool k x).owesPublish k)
        | none => s.abandonMove r
      else match s.charge k hubCluster n (.move r.req.asn r.req.va) with
        | .waits s1 => s1.again (.migration r.req)
        | .done s1 => took s1

/-! ### The copy (steps 2 and 3 of R289) -/

/-- Pages of 4 KiB that the ATC of die 0 lacks for a page of host memory. -/
def State.atcLacks (s : State) (asn : Nat) (p : Pte) : List Nat :=
  if p.tier ≠ 2 then [] else
    ((List.range (pageBytes p.size / 4096)).filter fun i => (s.pageLoc asn p (i * 4096)).isNone).map fun i => p.frame.toNat * 16 + i

/-- Whether the host refuses an access that a move needs. -/
def State.atcRefuses (s : State) (asn : Nat) (p : Pte) (write : Bool) : Bool :=
  p.tier = 2 && (match aget s.spaces asn with
    | some sp => s.atc.any fun e => e.die = 0 && e.fn = sp.part && e.pasid = sp.pasid &&
        decide (p.frame.toNat * 16 ≤ e.page ∧ e.page < p.frame.toNat * 16 + pageFrames p.size * 16) && !(e.r && (e.w || !write))
    | none => true)

/-- The bytes of a line of the source. -/
def State.moveBytes (s : State) (r : MoveRec) (l : Loc) : List Byte :=
  match l with
  | .peer _ _ => (aget r.got l).getD (List.replicate 256 0)
  | _ => s.homeBytes l 256

/-- Lines of the source that a peer has not answered for. -/
def State.movePeerLines (s : State) (r : MoveRec) : List Loc :=
  ((pageOffsets (decodePte r.old)).filterMap (s.pageLoc r.req.asn (decodePte r.old))).filter fun l => match l with
    | .peer _ _ => (aget r.got l).isNone
    | _ => false

/-- Whether a location lies in some frames. -/
def inFrames (fs : List Nat) (l : Loc) : Bool :=
  match l with
  | .dev a => fs.contains (a / 65536)
  | _ => false

/-- Step 2: the page's dirty lines are written back, its counters rolled and its cluster ownerships recalled, so that memory holds
all of it. A line that an engine owns, or that finds no free sector, moves dirty. (DEDUCED, log 39.) -/
def State.moveSettle (s : State) (p : Pte) : State :=
  let fs := pteFrames p
  let s1 := fs.foldl (fun s f => s.settleFrame f) s
  let s2 := ((s1.allows.map (·.1.2)).eraseDups.filter fun a => fs.contains (a / 65536)).foldl State.rollAt s1
  (s2.homes.filterMap fun e => if inFrames fs e.1 && e.2.cluster.isSome then some e.1 else none).foldl (fun s l => s.recall l none) s2

/-- One line written at the destination. -/
def State.movePut (s : State) (r : MoveRec) (off : Nat) (l : Loc) : State :=
  let bs := s.moveBytes r l
  let pairs := bs.zipIdx.map fun e => (e.2, e.1)
  match s.pageLoc r.req.asn r.new off with
  | some (.peer q a) => (s.askPeer ⟨q, a, .write pairs, r.req.va, s.bell, .move r.req.asn r.req.va (.peer q a)⟩).modMove r.req
      fun x => { x with due := x.due + 1 }
  | some (.host a) => (s.homeWrite (.host a) pairs).2
  | some (.dev a) => s.putBytes (.dev a) pairs
  | none => s

/-- The blocks of a frame put in their places. -/
def State.putBlocks (s : State) (f : Nat) (bs : List (List Byte)) : State :=
  ((frameLines f).zip bs).foldl (fun s e => s.putBytes e.1 (e.2.zipIdx.map fun x => (x.2, x.1))) s

/-- A page that keeps its KIND 1 or 2 is copied in its packed form (R289, R277). -/
def State.movePacked (s : State) (p q : Pte) : State :=
  match unpackFrames p.kind (pteFrames p).length ((pteFrames p).flatMap s.packFrame) with
  | some bs => ((pteFrames q).zip bs).foldl (fun s e => s.putBlocks e.1 e.2) s
  | none => s

/-- The copy, once MOVING is known everywhere and the host's translations and a peer's answers are there. -/
def State.moveCopy (s : State) (r : MoveRec) : State :=
  let p := decodePte r.old
  let asn := r.req.asn
  let lacks := (s.atcLacks asn p ++ s.atcLacks asn r.new).eraseDups
  if s.holding.contains (r.markUpdate, r.old) then
    if s.updateBusy r.markUpdate r.old then s.again (.migration r.req)
    else ({ s with holding := s.holding.erase (r.markUpdate, r.old) } : State).post (.migration r.req)
  else if r.failed || s.atcRefuses asn p false || s.atcRefuses asn r.new true then s.abandonMove r
  else if lacks ≠ [] then
    match aget s.spaces asn with
    | none => s.abandonMove r
    | some sp => (lacks.foldl (fun s pg => s.sendAts 0 sp.part sp.pasid pg) s).again (.migration r.req)
  else
    let ask := s.movePeerLines r
    if ask ≠ [] then
      (ask.foldl (fun (s : State) l => match l with
        | .peer q a => if s.peers.any fun e => e.2.what = .move asn r.req.va l then s
            else s.askPeer ⟨q, a, .read 256, r.req.va, s.bell, .move asn r.req.va l⟩
        | _ => s) s).again (.migration r.req)
    else
      let s1 := s.moveSettle p
      let s2 := if p.kind ≠ 0 && r.new.kind ≠ 0 then s1.movePacked p r.new else
        (pageOffsets p).foldl (fun s off => match s.pageLoc asn p off with
          | some l => s.movePut r off l
          | none => s) s1
      (s2.modMove r.req fun x => { x with copied := true, got := [] }).post (.migration r.req)

/-- Step 4: the entry is switched and cached translations go; walks are held until the old one is out of use (R298). -/
def State.moveSwitch (s : State) (r : MoveRec) : State :=
  if r.failed then s.abandonMove r
  else if r.due ≠ 0 then s.again (.migration r.req)
  else (s.modMove r.req fun x => { x with switched := true }).moveUpdate r r.switchUpdate

/-! ### Step 5: the held accesses, the frames and the charges -/

/-- Where a line of the old page lies now. (DEDUCED, log 39.) -/
def State.moved (s : State) (r : MoveRec) (l : Loc) : Option Loc :=
  (s.offIn r.req.asn (decodePte r.old) l).bind (s.pageLoc r.req.asn r.new)

def MoveRec.keepsCharge (r : MoveRec) : Bool := decide (r.new.tier.toNat < 2)

/-- What a charged write gives back when its page has left every pool (R290). -/
def State.uncharge (s : State) (r : MoveRec) (line : Loc) (cl : Nat) (charged : Bool) : State :=
  if charged && !r.keepsCharge then
    match s.chargePool line with
    | some k => s.refund k cl 4
    | none => s
  else s

/-- Charges of lines, with their pools, after a move: those of the old page follow it, or go back to a cluster. -/
def State.moveCharges (s : State) (r : MoveRec) (cl : Nat) (cs : List (Loc × Nat)) : State × List (Loc × Nat) :=
  let mine := cs.filter fun e => (s.moved r e.1).isSome
  (if r.keepsCharge then s else mine.foldl (fun s e => s.refund e.2 cl 4) s,
    cs.filterMap fun e => match s.moved r e.1 with
      | some l => if r.keepsCharge then some (l, e.2) else none
      | none => some e)

/-- Where a device address of the old page lies now. -/
def State.movedAddr (s : State) (r : MoveRec) (a : Nat) : Nat :=
  match s.moved r (.dev a) with
  | some (.dev b) => b
  | _ => a

/-- Loads that wait for an engine's line at a page that has gone to a peer are to be sent out again. -/
def State.unsend (s : State) (m : HomeReq) : State :=
  m.who.foldl (fun s w => (s.modSheaf w.sheaf fun sh => { sh with ops := amod sh.ops w.op fun o =>
    { o with sent := o.sent &&& ~~~maskOfNats (w.lanes.map (·.1)) } }).post (.pageWalk w.sheaf w.op)) s

/-- An access held at the old page sets out for the page's new place (R289). -/
def State.replay (s : State) (r : MoveRec) (e : Event) : State :=
  match e with
  | .homeWrite m =>
    match s.moved r m.line with
    | none => s.post e
    | some l =>
      let cl := match m.src with
        | .fibres _ _ _ c => clusterOf c
        | .hub => hubCluster
      (s.uncharge r m.line cl m.charged).post (.homeWrite { m with line := l, charged := m.charged && r.keepsCharge })
  | .atomicExecution m =>
    match s.moved r m.word with
    | none => s.post e
    | some l => (s.uncharge r (lineOf m.word) (clusterOf m.core) m.charged).post
        (.atomicExecution { m with word := l, charged := m.charged && r.keepsCharge })
  | .homeRead m =>
    match s.moved r m.line with
    | none => s.post e
    | some (.peer _ _) => s.unsend m
    | some l => s.post (.homeRead { m with line := l })
  | .kvAgentStep m =>
    let cl := clusterOf (((s.sheaf? m.sheaf).map (·.core)).getD 0)
    let c := s.moveCharges r cl m.charged
    c.1.post (.kvAgentStep { m with
      charged := c.2
      held := m.held.map (s.movedAddr r)
      taken := m.taken.map fun t => (s.movedAddr r t.1, s.movedAddr r t.2) })
  | _ => s.post e

/-- Every event that concerns the old page, in its order of arrival. -/
def State.replayAll (s : State) (r : MoveRec) : State :=
  s.events.foldl (fun s e => s.replay r e) { s with events := [] }

/-- Every engine command, wherever it waits: in the seats, in the seats' images, on the hub die. -/
def State.allCmds (s : State) : List Cmd :=
  (s.seats.flatMap fun e => e.2.mq ++ e.2.cq) ++ (s.seatImages.flatMap fun e => e.2.seat.mq ++ e.2.seat.cq) ++ s.hub

def Seat.mapCmds (t : Seat) (g : Cmd → Cmd) : Seat := { t with mq := t.mq.map g, cq := t.cq.map g }

def State.mapCmds (s : State) (g : Cmd → Cmd) : State :=
  { s with
    seats := amap s.seats fun _ t => t.mapCmds g
    seatImages := amap s.seatImages fun _ i => { i with seat := i.seat.mapCmds g }
    hub := s.hub.map g }

/-- Engine commands follow their destination lines; a charge that no pool holds any more goes back (R290). -/
def State.moveCommands (s : State) (r : MoveRec) : State :=
  let s1 := s.allCmds.foldl (fun s c => (s.moveCharges r (cmdCluster c) c.charged).1) s
  s1.mapCmds fun d => { d with
    charged := (s1.moveCharges r 0 d.charged).2
    owned := d.owned.map fun e => (e.1, (s1.moved r e.2).getD e.2) }

/-- The lines that a write from outside names. -/
def InReq.lines : InReq → List Loc
  | .host w => devLines w.addr w.bytes.length
  | .peer ⟨_, a, op⟩ => match op with
    | .write bs => (dealLines a bs).map (·.1)
    | _ => [lineOf (.dev a)]
  | .signal _ _ => []

/-- Writes from outside that are held follow the page (R289); a peer's report about one of its lines is void, and its charge goes
back. -/
def State.moveInbound (s : State) (r : MoveRec) : State :=
  s.inbound.foldl (fun s i =>
    let c := s.moveCharges r hubCluster i.charged
    match i.req with
    | .peer ⟨_, a, .report _⟩ => if i.tw.isSome && (s.moved r (lineOf (.dev a))).isSome then
        s.endInbound i else c.1.modInbound i.key fun i => { i with charged := c.2 }
    | _ => c.1.modInbound i.key fun i => { i with
      charged := c.2
      placed := i.req.lines.foldl (fun t l => match s.moved r (i.line l) with
        | some l' => aset t l l'
        | none => t) i.placed }) s

/-- What the homes keep for the old lines goes to the new ones: owners and poison, and between TIER 0 and TIER 1 the dirty state.
The old ones keep their lease ends (R262). -/
def State.moveHomes (s : State) (r : MoveRec) : State :=
  let old := s.homes.filter fun e => (s.moved r e.1).isSome
  let s1 : State := { s with homes := amap s.homes fun l h => if (s.moved r l).isSome then
    { HomeLine.none with lastwrite := h.lastwrite, leasemax := h.leasemax } else h }
  let within := (decodePte r.old).tier.toNat < 2 && r.new.tier.toNat < 2
  old.foldl (fun s1 e => match s.moved r e.1 with
    | none => s1
    | some l =>
      let dirty := if within then e.2.dirty else none
      if e.2.engine = [] && !e.2.poison && dirty.isNone then s1 else
        let h := s1.home l
        let s2 := s1.setHome l { h with
          engine := h.engine ++ e.2.engine
          poison := h.poison || (e.2.poison && isDev l)
          dirty := dirty
          committed := if dirty.isSome then e.2.committed else h.committed
          code := if dirty.isSome then e.2.code else h.code }
        match dirty, l with
        | some _, .dev a => s2.post (.settle a)
        | _, _ => s2) s1

/-- A line of a page that has joined a KIND 1 or 2 pool while writes wait for it, or an engine owns it, keeps its reservation out
of the move's charge (R290). -/
def State.moveReserve (s : State) (r : MoveRec) : State :=
  if (moveSectors (decodePte r.old) r.new = 0) || r.new.kind = 0 then s else
    let waits := s.events.filterMap fun e => match e with
      | .homeWrite m => some m.line
      | .atomicExecution m => some (lineOf m.word)
      | _ => none
    let owned := (s.homes.filter fun e => e.2.engine ≠ []).map (·.1)
    ((waits ++ owned).eraseDups.filter fun l => inPage r.new l).foldl (fun s l =>
      let c := blockSectors r.new.kind (s.homeBytes l 256)
      let s1 := s.setHome l { s.home l with dirty := some (4 - c), committed := c, code := s.codeOf l }
      match l with
      | .dev a => s1.post (.settle a)
      | _ => s1) s

/-- The frames and the pool of the moved page, and the settlement of its charge (R279, R280, R290). -/
def State.moveFrames (s : State) (r : MoveRec) (part : Nat) : State :=
  let p := decodePte r.old
  let q := r.new
  let old := pteFrames p
  let pool := if p.tier.toNat < 2 then ((old.head?.bind fun f => aget s.frames f).bind (·.pool)) else some (part, q.pool.toNat)
  let kept := s.frames.filter fun (e : Nat × FrameInfo) => !old.contains e.1
  let fs := (pteFrames q).foldl (fun fs f => aset fs f (⟨q.tier, q.kind, pool, false⟩ : FrameInfo)) kept
  let s3 := ({ s with frames := fs } : State).moveReserve r
  let s4 := match r.charged with
  | none => s3
  | some (k, n) => match s3.pool? k with
    | none => s3
    | some x =>
      let used : Nat := ((pteFrames q).map s3.frameSectors).sum
      let reserved : Nat := ((pteFrames q).map s3.frameReserved).sum
      (s3.setPool k { x with committed := x.committed + used }).release k (n - used - reserved)
  s4.reuse (pteFrames q)

/-- Nothing of the old frames is left: they rest before they are used again (R299). -/
def State.clearFrames (s : State) (fs : List Nat) : State :=
  if fs = [] then s else
    { s with
      mem := s.mem.filter fun e => !fs.contains (e.1 / 65536)
      l1 := s.l1.filter fun e => !inFrames fs e.1.2
      cluster := s.cluster.filter fun e => !inFrames fs e.1.2
      icache := s.icache.filter fun e => !inFrames fs e.1.2
      allows := s.allows.filter fun e => !fs.contains (e.1.2 / 65536)
      resting := s.resting ++ fs.map fun f => (f, s.bell + 4096) }

/-- The control blocks that lay in the page (R286); the words that the device keeps in them are as they stand now. -/
def State.moveControls (s : State) (r : MoveRec) : State :=
  (s.pools.filter fun e => (s.moved r (.dev e.2.ctrl)).isSome).foldl (fun s e => match s.moved r (.dev e.2.ctrl), s.pool? e.1 with
    | some (.dev a), some x =>
      let y : Pool := { x with ctrl := a }
      (((s.setPool e.1 y).setControl y 0x20 y.granted).setControl y 0x28 y.published).setControl y 0x48 y.reliefDone
    | _, _ => s) s

/-- The end of a move, once no access under the old translation is left. -/
def State.moveEnd (s : State) (r : MoveRec) : State :=
  let p := decodePte r.old
  let prefetching := s.events.any fun e => match e with
    | .homeRead m => m.prefetch.isSome && (s.offIn r.req.asn p m.line).isSome && !s.engineHolds m.line none
    | _ => false
  if s.updateBusy r.switchUpdate r.old || prefetching then s.again (.migration r.req)
  else
    let part := ((aget s.spaces r.req.asn).map (·.part)).getD 0
    let s0 := s.unuse (pteFrames p)
    let s1 := if r.keepsCharge then s0 else (pteFrames p).foldl (fun s f => s.leavePool f) s0
    let s2 := (((s1.replayAll r).moveCommands r).moveInbound r).moveHomes r
    let s3 := ((s2.moveFrames r part).moveControls r).clearFrames (pteFrames p)
    { s3 with
      moves := s3.moves.filter fun x => x.req ≠ r.req
      holding := s3.holding.erase (r.switchUpdate, r.old) }

/-- MIGRATION: one step of a move. (DEDUCED, log 39.) -/
def execMigration (m : MigrateReq) (s : State) : Out :=
  .next (
    match s.moves.find? fun r => r.req = m with
    | none => s.moveStart m
    | some r =>
      if !r.marked then s.moveCharge r
      else if !r.copied then s.moveCopy r
      else if !r.switched then s.moveSwitch r
      else s.moveEnd r)

/-! ### A page dumped and restored by the driver (R277) -/

/-- The page of TIER 0 or 1 at an address that the driver dumps or restores: its leaf, nothing for an error, or a wait for what
holds its lines. -/
inductive PageGot where
  | page (p : Pte)
  | bad
  | waits

def State.pageFor (s : State) (asn : Nat) (va : Word) : PageGot :=
  if s.walkHeld asn va || s.walkOwned asn va then .waits else
  match s.walk asn va with
  | some (.leaf p _) =>
    let fs := pteFrames p
    let ls := s.homes.filter fun e => inFrames fs e.1
    if p.surr || decide (2 ≤ p.tier.toNat) || ls.any (fun e => e.2.poison) || fs.any (fun f => s.portFails (.dev (f * 65536))) then .bad
    else if p.moving || ls.any (fun e => e.2.engine ≠ [] || s.splitOn e.1 none) || fs.any (fun f => s.portHolds (.dev (f * 65536))) then
      .waits
    else .page p
  | _ => .bad

/-- The driver dumps a page: its packed form, or its bytes where it is of KIND 0. (DESIGN CHOICE, log 79.) -/
def State.dumpPage (s : State) (asn : Nat) (va : Word) : State :=
  match s.pageFor asn va with
  | .waits => s.again (.registerWrite (.dumpPage asn va))
  | .bad => s.emit .pageError
  | .page p =>
    let s1 := s.moveSettle p
    s1.emit (.pageDump ((pteFrames p).flatMap fun f =>
      if p.kind = 0 then s1.homeBytes (.dev (f * 65536)) 65536 else s1.packFrame f))

/-- The blocks of a page's image, frame by frame; none where it is refused (R277). -/
def imageBlocks (p : Pte) (img : List Byte) : Option (List (List (List Byte))) :=
  let n := pageFrames p.size
  if p.kind = 0 then
    if img.length = 65536 * n then some ((List.range n).map fun i => (List.range 256).map fun b =>
      (img.drop (65536 * i + 256 * b)).take 256) else none
  else unpackFrames p.kind n img

/-- A page takes the sectors of its new contents: what it grows by is taken from its pool's reserve, none where that is short.
(DESIGN CHOICE, log 79.) -/
def State.regrow (s : State) (p : Pte) (new : Nat) : Option State :=
  let fs := pteFrames p
  let old : Nat := (fs.map s.frameSectors).sum
  match (fs.head?.bind fun f => aget s.frames f).bind (·.pool) with
  | none => some s
  | some (part, pool) =>
    let k := part * 256 + pool
    match s.pool? k with
    | none => some s
    | some q =>
      if p.kind = 0 || new = old then some s
      else if new < old then some ((s.setPool k { q with committed := q.committed + new - old }).release k (old - new))
      else (q.ctr.takeHome (new - old)).map fun c =>
        (s.setPool k { q.setCtr c with committed := q.committed + new - old }).owesPublish k

/-- The driver restores a page from an image; one that is refused changes nothing, and its requester gets the error.
(DESIGN CHOICE, log 79.) -/
def State.restorePage (s : State) (asn : Nat) (va : Word) (img : List Byte) : State :=
  match s.pageFor asn va with
  | .waits => s.again (.registerWrite (.restorePage asn va img))
  | .bad => s.emit .pageError
  | .page p =>
    match imageBlocks p img with
    | none => s.emit .pageError
    | some bs =>
      let s1 := s.moveSettle p
      let new : Nat := (bs.map fun f => 4 + (f.map (blockSectors p.kind)).sum).sum
      match (s1.unuse (pteFrames p)).regrow p new with
      | none => s.emit .pageError
      | some s2 =>
        let s3 := (((pteFrames p).zip bs).flatMap fun e => (frameLines e.1).zip e.2).foldl (fun s e =>
          (s.homeWrite e.1 (e.2.zipIdx.map fun x => (x.2, x.1))).2) s2
        (s3.reuse (pteFrames p)).emit .pageRestored

end Sys2Proof.Machine
end

