-- ==== Sys2Proof/Machine/Ring.lean ====
section
/-! DEFINITION. The rings of the host: registration, doorbells, the reading of commands and their words (R313 to R316), completion
records (R317), and what the hub die reads and writes for them. -/

namespace Sys2Proof.Machine

/-! ### Reads and writes of the hub die -/

/-- A read or a write of the front end: its bytes, a refused address, or a wait. -/
inductive HubGot where
  | bytes (b : List Byte) (s : State)
  | bad (va : Word) (s : State)
  | wait (s : State)

/-- Who waits for the host on behalf of the hub die. -/
def hubWho : Nat × Option Nat := (0, none)

/-- For whom the front end reads or writes: the key of its command or record, the partition and the address space. A key of its
own names the writes. -/
structure HubFor where
  key : Nat
  part : Nat
  asn : Nat

def HubFor.readKey (f : HubFor) : Nat := 2 * f.key
def HubFor.writeKey (f : HubFor) : Nat := 2 * f.key + 1

/-- The key of a ring's command, of a SPAWN's record as it is accepted, and of an arena record as it is read back. -/
def commandKey (ring seq : Nat) : Nat := ring * 2 ^ 32 + seq
def spawnKey (key : Nat) : Nat := 2 ^ 64 + key
def arenaKey (launch slot : Nat) : Nat := 2 ^ 80 + launch * 2 ^ 32 + slot

/-- What peers have answered for a command or a record that is over. -/
def State.hubClear (s : State) (key : Nat) : State :=
  if s.hubGot = [] then s else { s with hubGot := s.hubGot.filter fun e => e.1.1 / 2 ≠ key }

/-- Ask a peer once for a line, or with a write of it (R308). -/
def State.hubAsk (s : State) (key : Nat) (f : HubFor) (line : Loc) (va : Word) (op : PeerOp) (a : Nat) : State :=
  if s.peers.any fun e => e.2.what = .hub key f.part line then s else
    match line with
    | .peer q _ => s.askPeer ⟨q, a, op, vaLine va, s.bell, .hub key f.part line⟩
    | _ => s

/-- One run within a line, read at its home as LDB does; a peer's line is asked for, and kept until the command or record is
over. -/
def State.hubPiece (s : State) (f : HubFor) (ok : Pte → Bool) (a : Acc) (va : Word) (n : Nat) : HubGot :=
  match s.check hubCluster f.asn none va a with
  | .fault _ _ => .bad va (s.spend f.asn va hubWho)
  | .at_ loc p e =>
    let line := lineOf loc
    if !ok p || s.portFails line || (s.home line).poison then .bad va s
    else if s.engineHolds line none || s.portHolds line then .wait s
    else
      let s1 := s.noteTlb hubCluster f.asn va p e
      match loc with
      | .peer _ b => match aget s.hubGot (f.readKey, line) with
        | some (some bs) => .bytes ((bs.drop (locOff loc)).take n) s1
        | some none => .bad va s
        | none => .wait (s1.hubAsk f.readKey f line va (.read 256) (b / 256 * 256))
      | _ =>
        let s2 := s1.recall line none
        .bytes (s2.homeBytes loc n) s2
  | w => .wait (s.askFor hubCluster f.asn va hubWho w)

/-- Several runs, in order. -/
def State.hubRuns (s : State) (f : HubFor) (ok : Pte → Bool) (a : Acc) : List (Word × Nat) → HubGot
  | [] => .bytes [] s
  | r :: t =>
    match s.hubPiece f ok a r.1 r.2 with
    | .bytes b s1 => match s1.hubRuns f ok a t with
      | .bytes b' s2 => .bytes (b ++ b') s2
      | g => g
    | g => g

/-- n bytes read by the front end. (DEDUCED, log 58.) -/
def State.hubRead (s : State) (f : HubFor) (ok : Pte → Bool) (va : Word) (n : Nat) : HubGot :=
  s.hubRuns f ok .load (cutRange (n / 256 + 2) va n)

/-- Bytes dealt to the runs they belong to. -/
def dealRuns : List (Word × Nat) → List Byte → List (Word × List Byte)
  | [], _ => []
  | r :: t, bs => (r.1, bs.take r.2) :: dealRuns t (bs.drop r.2)

/-- Bytes written by the front end where it may write them, a peer's lines first; the bytes answered are those before. -/
def State.hubWrite (s : State) (f : HubFor) (ok : Pte → Bool) (va : Word) (bs : List Byte) : HubGot :=
  let runs := cutRange (bs.length / 256 + 2) va bs.length
  match s.hubRuns f ok .store runs with
  | .bytes b s1 =>
    let at_ := (dealRuns runs bs).filterMap fun r => match s1.check hubCluster f.asn none r.1 .store with
      | .at_ loc _ _ => some (r, loc)
      | _ => none
    let peers := at_.filter fun e => isPeer e.2
    if (at_.filter fun e => !isPeer e.2).any fun e => s1.writeWaits (lineOf e.2) then .wait s1
    else match peers.find? fun e => aget s1.hubGot (f.writeKey, lineOf e.2) = some none with
    | some e => .bad e.1.1 s1
    | none =>
      if peers.any fun e => (aget s1.hubGot (f.writeKey, lineOf e.2)).isNone then
        .wait (peers.foldl (fun s e => match e.2 with
          | .peer _ a => if (aget s.hubGot (f.writeKey, lineOf e.2)).isSome then s else
              s.hubAsk f.writeKey f (lineOf e.2) e.1.1 (.write (e.1.2.zipIdx.map fun x => (x.2, x.1))) a
          | _ => s) s1)
      else .bytes b (at_.foldl (fun s e => (s.homeWrite (lineOf e.2) (e.1.2.zipIdx.map fun x => (locOff e.2 + x.2, x.1))).2) s1)
  | g => g

/-- Bytes within one line stored by the front end, which does not wait for a peer's answer; none while the line's home holds
writes. -/
def State.hubStore (s : State) (f : HubFor) (va : Word) (bs : List Byte) : Option State :=
  let pairs := fun off => bs.zipIdx.map fun e => (off + e.2, e.1)
  match s.check hubCluster f.asn none va .store with
  | .at_ (.peer q a) _ _ => some (s.askPeer ⟨q, a, .write (pairs 0), vaLine va, s.bell, .hub f.writeKey f.part (lineOf (.peer q a))⟩)
  | .at_ loc _ _ => if s.writeWaits (lineOf loc) then none else some (s.homeWrite (lineOf loc) (pairs (locOff loc))).2
  | _ => none

/-- A page for rings and completion queues (R313): KIND 0 with R and W, on TIER 0 or TIER 2. -/
def ringPage (p : Pte) : Bool := p.kind = 0 && p.r && p.w && (p.tier = 0 || p.tier = 2)

/-! ### Registration and restart (R313) -/

def State.ring? (s : State) (r : Nat) : Option Ring := aget s.rings r
def State.modRing (s : State) (r : Nat) (f : Ring → Ring) : State := { s with rings := amod s.rings r f }
/-- A ring's partition: rings are numbered by partition × 16 + index. -/
def ringPart (ring : Nat) : Nat := ring / 16

/-- A ring that cannot be read or written, or that has run past its end, stops and is reported. -/
def State.stopRing (s : State) (r : Nat) : State :=
  if ((s.ring? r).map (·.stopped)).getD true then s else (s.modRing r fun x => { x with stopped := true }).report (.ringStopped r)

/-- A power of two from 64 to 65,536. -/
def ringSize (n : Nat) : Bool := [64, 128, 256, 512, 1024, 2048, 4096, 8192, 16384, 32768, 65536].contains n

def freeRing (s : State) (part : Nat) : Option Nat :=
  ((List.range 16).map fun i => part * 16 + i).find? fun k => (s.ring? k).isNone

/-- RING_REGISTRATION: up to 16 rings in a partition, in one of its address spaces. -/
def execRingRegistration (r : RingReg) (s : State) : Out :=
  .next (
    let space := ((aget s.spaces r.asn).map fun sp => decide (sp.part = r.part)).getD false
    if s.dev.recovery || !(canonical r.base && canonical r.cqBase && ringSize r.entries && ringSize r.cqEntries && space) then s else
    match freeRing s r.part with
    | none => s
    | some k =>
      let ring : Ring := ⟨r, 0, [], false, 0, 0, []⟩
      { s with rings := s.rings ++ [(k, ring)] })

/-- The event that starts a command by its KIND (Table 14.1); a KIND or an OP outside the table goes where it is refused. -/
def commandEvent (c : Command) : Event :=
  let w0 := c.words.getD 0 0
  let w1 := c.words.getD 1 0
  match (w0.extractLsb' 0 8).toNat with
  | 2 => .dma c
  | 3 => .signal c
  | 4 => match (w1.extractLsb' 8 8).toNat with
    | 1 => .raise c
    | 2 => .lower c
    | 3 => .balloon c
    | _ => .config c
  | _ => .launch c

/-- RING_RESTART: its commands go on, and its completion records. (DEDUCED, log 40.) -/
def execRingRestart (ring : Nat) (s : State) : Out :=
  .next (
    match s.ring? ring with
    | none => s
    | some r =>
      let s1 := s.modRing ring fun x => { x with stopped := false }
      let s2 := if r.held = [] then s1 else s1.postOnce (.completionRecord ring)
      r.pending.foldl (fun s p => s.postOnce (commandEvent ⟨ring, p.seq, p.words⟩)) s2)

/-- COMPLETION_QUEUE_HEAD (R317): the driver has taken records up to its new head. -/
def execCompletionQueueHead (ring head : Nat) (s : State) : Out :=
  .next (s.modRing ring fun x => { x with cqHead := head % 2 ^ 32 })

/-! ### DOORBELL (R314) -/

/-- The difference of two counts, modulo 2^32. -/
def ahead (a b : Nat) : Nat := (a + 2 ^ 32 - b % 2 ^ 32) % 2 ^ 32

/-- Little-endian 64-bit words of some bytes. -/
def wordsOf (n : Nat) (bs : List Byte) : List Word := (elements 8 n bs).map fun x => BitVec.ofNat 64 x

/-- Read n commands from a ring's read count on; what remains to be read after a wait. (DEDUCED, log 58.) -/
def State.readCommands : Nat → State → Nat → State × Bool
  | 0, s, _ => (s, false)
  | n + 1, s, ring =>
    match s.ring? ring with
    | none => (s, false)
    | some r =>
      let va := r.reg.base + BitVec.ofNat 64 (64 * (r.readCount % r.reg.entries))
      match s.hubRead ⟨0, r.reg.part, r.reg.asn⟩ ringPage va 64 with
      | .wait s1 => (s1, true)
      | .bad _ s1 => (s1.stopRing ring, false)
      | .bytes b s1 =>
        let ws := wordsOf 8 b
        let p : PendingCmd := ⟨r.readCount, ws, false, 0⟩
        let s2 := s1.modRing ring fun x => { x with
          readCount := (x.readCount + 1) % 2 ^ 32
          pending := x.pending ++ [p] }
        State.readCommands n (s2.post (commandEvent ⟨ring, r.readCount, ws⟩)) ring

/-- DOORBELL: every command up to the new tail is read, and each sets out to be started. (DEDUCED, log 40.) -/
def execDoorbell (ring : Nat) (value : Word) (s : State) : Out :=
  .next (
    match s.ring? ring with
    | none => s
    | some r =>
      let tail := value.toNat % 2 ^ 32
      let n := ahead tail r.readCount
      let oldest := ((r.pending.head?).map (·.seq)).getD r.readCount
      if 2 ^ 32 ≤ value.toNat || n = 0 || 2 ^ 31 ≤ n then s
      else if r.reg.entries < ahead tail oldest then s.stopRing ring
      else
        let x := s.readCommands n ring
        if x.2 then x.1.again (.doorbell ring value) else x.1)

/-! ### Command words (R315) -/

/-- Whether a word is a multiple of a power of two, and canonical. -/
def aligned (w : Word) (n : Nat) : Bool := canonical w && w.toNat % n = 0

def isAsn (w : Word) : Bool := decide (w.toNat < 4096)

/-- Whether word i of a command is refused (Tables 14.1 and 14.2). (DEDUCED, log 41.) -/
def wordBad (ws : List Word) (i : Nat) : Bool :=
  let w := ws.getD i 0
  let op := ((ws.getD 1 0).extractLsb' 8 8).toNat
  let kind := ((ws.getD 0 0).extractLsb' 0 8).toNat
  if i = 0 then kind = 0 || 4 < kind || w.extractLsb' 10 22 ≠ 0 else
    match kind, i with
    | 1, 1 => !aligned w 64
    | 1, 2 => false
    | 1, 3 => decide (16384 ≤ w.toNat)
    | 2, 1 => !aligned w 4
    | 2, 2 => !aligned w 4
    | 2, 3 => w.toNat < 4 || decide (2 ^ 32 ≤ w.toNat) || w.toNat % 4 ≠ 0
    | 2, 4 => !isAsn w
    | 3, 1 => !aligned w 8
    | 3, 2 => false
    | 3, 3 => !isAsn w
    | 4, 1 => decide (65536 ≤ w.toNat) || decide (3 < op)
    | 4, 2 => op = 3 && w ≠ 0
    | 4, 3 => if op = 0 then !aligned w 128 else w ≠ 0
    | 4, 4 => op ≠ 0 && w ≠ 0
    | 4, 5 => if op = 0 then decide (1000000 < w.toNat) else w ≠ 0
    | 4, 6 => if op = 0 then !isAsn w else w ≠ 0
    | 4, 7 => if op = 0 then w.toNat ≠ 0 && (w.toNat < 4 || decide (16 < w.toNat)) else w ≠ 0
    | _, _ => w ≠ 0

/-- The offset of the first refused word of a command. -/
def firstBad (ws : List Word) : Option Nat := ((List.range 8).find? (wordBad ws)).map (· * 8)

/-! ### Starting and completing commands (R316, R317) -/

/-- A command goes on to be completed: its record waits for its ring's queue, for the bell to reach the Tw of the command's writes,
and for those that are still on their way from some sheafs. -/
def State.completeAt (s : State) (ring seq status : Nat) (data : Word) (tw : Word) (writers : List Nat) : State :=
  match s.ring? ring with
  | none => s
  | some r =>
    match r.pending.find? fun p => p.seq = seq with
    | none => s
    | some p =>
      let w0 := p.words.getD 0 0
      let rec_ : Record := ⟨BitVec.ofNat 64 ((w0.toNat / 2 ^ 32) * 2 ^ 32 + status * 256 + w0.toNat % 256), data, w0.getLsbD 9, tw, writers⟩
      ((s.hubClear (commandKey ring seq)).modRing ring fun x => { x with
        pending := x.pending.filter fun q => q.seq ≠ seq
        held := x.held ++ [rec_] }).postOnce (.completionRecord ring)

/-- A command that has written nothing, or whose writes are complete. -/
def State.complete (s : State) (ring seq status : Nat) (data : Word) : State := s.completeAt ring seq status data 0 []

/-- Whether a write of a sheaf that has ended is on its way. -/
def State.writing (s : State) (u : Nat) : Bool :=
  (s.events.any fun e => match e with
    | .homeWrite ⟨.fibres v _ _ _, _, _, _, _⟩ => v = u
    | .atomicExecution m => m.sheaf = u
    | .twReturn r => r.sheaf = u
    | .atomicReturn r => r.sheaf = u
    | .counterReturn r => r.sheaf = u
    | .allowanceRefill m => m.sheaf = u
    | _ => false) ||
  s.peers.any fun e => match e.2.what with
    | .write v _ _ => v = u
    | .atomic v _ _ _ => v = u
    | .kv v _ _ => v = u
    | _ => false

/-- COMPLETION_RECORD: the next record is written once the bell has reached the Tw of its command's writes, and its interrupt
raised; a full queue holds it back.
(DEDUCED, log 40.) -/
def execCompletionRecord (ring : Nat) (s : State) : Out :=
  .next (
    match s.ring? ring with
    | none => s
    | some r =>
      match r.held with
      | [] => s
      | x :: rest =>
        if r.reg.cqEntries ≤ ahead r.cqTail r.cqHead || decide (s.bell.toNat < x.tw.toNat) || x.writers.any s.writing then s.again (.completionRecord ring) else
        let va := r.reg.cqBase + BitVec.ofNat 64 (16 * (r.cqTail % r.reg.cqEntries))
        match s.hubWrite ⟨0, r.reg.part, r.reg.asn⟩ ringPage va (natToBytes 8 x.w0.toNat ++ natToBytes 8 x.w1.toNat) with
        | .wait s1 => s1.again (.completionRecord ring)
        | .bad _ s1 => s1.stopRing ring
        | .bytes _ s1 =>
          let s2 := s1.modRing ring fun y => { y with
            cqTail := (y.cqTail + 1) % 2 ^ 32
            held := rest }
          let s3 := if x.irq then s2.emit (.interrupt r.reg.part r.reg.vector) else s2
          if rest = [] then s3 else s3.postOnce (.completionRecord ring))

/-- What a command's turn comes to. -/
inductive Start where
  | gone
  | later
  | go (r : Ring) (p : PendingCmd)

/-- Whether a command may start or go on: its ring runs, every earlier command of the ring has started, and with WAITPREV, which
a SIGNAL always has, none is pending (R316). -/
def State.startable (s : State) (c : Command) : Start :=
  match s.ring? c.ring with
  | none => .gone
  | some r =>
    match r.pending.find? fun p => p.seq = c.seq with
    | none => .gone
    | some p =>
      let before := r.pending.takeWhile fun q => q.seq ≠ c.seq
      let w0 := p.words.getD 0 0
      let prev := w0.getLsbD 8 || w0.extractLsb' 0 8 = 3
      if p.started then .go r p
      else if r.stopped || (if prev then before ≠ [] else before.any fun q => !q.started) then .later
      else .go r p

def State.started (s : State) (c : Command) (cmd : Nat) : State :=
  s.modRing c.ring fun r => { r with pending := r.pending.map fun p => if p.seq = c.seq then { p with started := true, cmd := cmd } else p }

/-- A command that has passed to its turn: what it does, once its words and its address space (the word named, if any) are in
order. -/
def State.command (s : State) (c : Command) (e : Event) (asnAt : Option Nat) (k : State → Ring → PendingCmd → State) : State :=
  match s.startable c with
  | .gone => s
  | .later => if ((s.ring? c.ring).map (·.stopped)).getD false then s else s.again e
  | .go r p =>
    -- a failed head core: every new command is refused (R406)
    if s.dev.failed && !p.started then s.complete c.ring c.seq 0x09 0 else
    match firstBad p.words with
    | some off => s.complete c.ring c.seq 0x01 (BitVec.ofNat 64 off)
    | none =>
      let asn := (asnAt.map fun i => (p.words.getD i 0).toNat % 4096).getD 0
      if asnAt.isSome && !((aget s.spaces asn).map fun sp => decide (sp.part = r.reg.part)).getD false then
        s.complete c.ring c.seq 0x02 (BitVec.ofNat 64 asn)
      else k s r p

end Sys2Proof.Machine
end

