-- ==== Sys2Proof/Machine/Launch.lean ====
section
/-! DEFINITION. The commands of the rings: LAUNCH with its header, dictionary and launch table (R150, R318 to R320), DMA (R323), SIGNAL
(R324), and POOL (R287, R325). -/

namespace Sys2Proof.Machine

/-! ### The launch header (Table 6.2, R16) -/

/-- Bits lo to lo + n − 1 of a word. -/
def field (w : Word) (lo n : Nat) : Nat := w.toNat / 2 ^ lo % 2 ^ n

/-- The fields of a header, as its 16 words give them. -/
def readHeader (ws : List Word) : Header :=
  let w := fun i => ws.getD i 0
  { entry := w 0
    hwcow := (w 1).getLsbD 51
    grplvl := field (w 1) 48 3
    clulvl := field (w 1) 45 3
    bedlvl := field (w 1) 42 3
    widths := (List.range 6).map fun i => field (w 1) (7 * i) 7
    scratch := field (w 2) 0 20
    window := w 3
    seed := w 4
    popcap := field (w 5) 16 40
    pool := (w 5).setWidth 8
    handler := w 6
    overflow := w 7
    ovfsize := field (w 8) 0 32
    dict := w 9
    dictn := field (w 10) 0 11
    hasdep := (w 11).getLsbD 32
    after := (w 11).setWidth 32
    mapb := ((w 12) >>> 32).setWidth 32
    mapw := field (w 12) 16 16
    mapa := field (w 12) 0 16 }

/-- Reserved bits of a header are 0. (DEDUCED, log 41.) -/
def headerReserved (ws : List Word) : Bool :=
  let w := fun i => ws.getD i 0
  field (w 1) 52 12 = 0 && field (w 2) 20 44 = 0 && field (w 5) 56 8 = 0 && field (w 5) 8 8 = 0 && field (w 8) 32 32 = 0 &&
    field (w 10) 11 53 = 0 && field (w 11) 33 31 = 0 && w 13 = 0 && w 14 = 0 && w 15 = 0

/-- The limits of Table 6.2 and R16; DICTN is checked with the dictionary. -/
def Header.ok (h : Header) : Bool :=
  aligned h.entry 8 && 1 ≤ h.bedlvl && h.bedlvl ≤ 6 && h.bedlvl ≤ h.grplvl && h.grplvl ≤ 6 &&
  (h.clulvl = 0 || (h.bedlvl ≤ h.clulvl && h.clulvl ≤ 6)) && h.widths.all (fun x => decide (x ≤ 64)) &&
  decide (h.widths.sum ≤ 64) && decide (h.bitsBelow h.bedlvl ≤ 11) && decide (h.scratch ≤ 786432) && h.scratch % 256 = 0 &&
  aligned h.window 1048576 && (h.handler = 0 || aligned h.handler 8) && (h.overflow = 0 || aligned h.overflow 64) &&
  h.ovfsize % 64 = 0 && aligned h.dict 8 && (if h.hasdep then 1 ≤ h.mapw else h.after = 0 && h.mapb = 0 && h.mapw = 0 && h.mapa = 0)

/-- A page of an overflow arena (R318): KIND 0 with R and W. -/
def arenaPage (p : Pte) : Bool := p.kind = 0 && p.r && p.w

/-- The bytes of an overflow arena that are looked at when a launch is accepted: one in each 64 KiB it touches. -/
def arenaProbes (h : Header) : List (Word × Nat) :=
  if h.ovfsize = 0 then [] else
    let lo := h.overflow.toNat
    (List.range ((lo + h.ovfsize - 1) / 65536 - lo / 65536 + 1)).map fun i => (BitVec.ofNat 64 (max lo ((lo / 65536 + i) * 65536)), 1)

/-! ### The launch table (R318 to R320) -/

/-- The first identifier from x on that is neither 0 nor in use. -/
def freeNumber : Nat → W32 → List W32 → W32
  | 0, x, _ => x
  | n + 1, x, used => if x = 0 || used.contains x then freeNumber n (x + 1) used else x

/-- $launch of a new launch: not 0 and held by no live launch (R318). (DESIGN CHOICE, log 6.) -/
def State.newNumber (s : State) : W32 :=
  let used := (s.launches.filter fun e => !e.2.completed).map fun e => e.2.number
  freeNumber (used.length + 2) (Config.launchNumber s.free) used

/-- Entries of a partition's launch table, oldest first. -/
def State.entriesOf (s : State) (part : Nat) : List (Nat × Launch) := s.launches.filter fun e => e.2.part = part

/-- The oldest completed entry that no live launch depends on (R319). -/
def State.oldestDone (s : State) (part : Nat) : Option Nat :=
  ((s.entriesOf part).find? fun e => e.2.completed && !s.launches.any fun f => !f.2.completed && f.2.producer = some e.1).map (·.1)

/-- Room for one more entry: the table holds 4,096. -/
def State.entryRoom (s : State) (part : Nat) : Option State :=
  if (s.entriesOf part).length < 4096 then some s
  else (s.oldestDone part).map fun k => { s with launches := adel s.launches k }

/-- The entry that AFTER matches (R320): the most recently accepted with the tag. -/
def State.producerFor (s : State) (part : Nat) (tag : W32) : Option Nat :=
  if tag = 0 then none else ((s.entriesOf part).reverse.find? fun e => e.2.tag = tag).map (·.1)

/-- A launch is accepted: its entry, with its counter at 1, and its seed bed in the queue. -/
def State.accept (s : State) (c : Command) (r : Ring) (ws : List Word) (h : Header) (dict : List Word) : State :=
  let producer := if h.hasdep then s.producerFor r.reg.part h.after else none
  match s.entryRoom r.reg.part with
  | none => s.again (.launch c)
  | some s0 =>
    let (k, s1) := s0.fresh
    let w0 := ws.getD 0 0
    let w3 := ws.getD 3 0
    let arg := ws.getD 2 0
    let la : Launch := {
      number := s0.newNumber
      tag := hiHalf w0
      part := r.reg.part
      asn := field w3 0 12
      cls := field w3 12 2
      hdr := h
      dict := dict
      ring := c.ring
      seq := c.seq
      irq := w0.getLsbD 9
      arg := arg
      counter := 1
      groups := []
      completed := false
      rsmpCount := 0
      rsmp := none
      producer := producer
      bound := []
      told := false }
    let seed : SpawnRec := ⟨k, 0, none, h.entry, arg, 0, 1, 0, [], true⟩
    let s2 : State := { s1 with launches := s1.launches ++ [(k, la)], spawns := s1.spawns ++ [seed] }
    ((s2.started c 0).hubClear (commandKey c.ring c.seq)).postOnce (.bedPlacement r.reg.part)

/-- LAUNCH: the checks of R318 in their order, then acceptance. -/
def execLaunch (c : Command) (s : State) : Out :=
  .next (s.command c (.launch c) (some 3) fun s r p =>
    if p.started then s else
    let asn := field (p.words.getD 3 0) 0 12
    let at_ := p.words.getD 1 0
    let hub : HubFor := ⟨commandKey c.ring c.seq, r.reg.part, asn⟩
    match s.hubRead hub (fun _ => true) at_ 128 with
    | .wait s1 => s1.again (.launch c)
    | .bad _ s1 => s1.complete c.ring c.seq 0x03 at_
    | .bytes b s1 =>
      let ws := wordsOf 16 b
      let h := readHeader ws
      if !headerReserved ws || !h.ok then s1.complete c.ring c.seq 0x03 at_ else
      match s1.hubRuns hub arenaPage .store (arenaProbes h) with
      | .wait s2 => s2.again (.launch c)
      | .bad _ s2 => s2.complete c.ring c.seq 0x03 at_
      | .bytes _ s2 =>
        if 1024 < h.dictn then s2.complete c.ring c.seq 0x04 h.dict else
        match s2.hubRead hub (fun _ => true) h.dict (8 * h.dictn) with
        | .wait s3 => s3.again (.launch c)
        | .bad _ s3 => s3.complete c.ring c.seq 0x04 h.dict
        | .bytes d s3 =>
          if h.hasdep && (s3.producerFor r.reg.part h.after).isNone then s3.complete c.ring c.seq 0x05 (h.after.setWidth 64)
          else s3.accept c r p.words h (wordsOf h.dictn d))

/-! ### DMA (R323) -/

/-- The hub-die command of a DMA. -/
def dmaCmd (id part asn : Nat) (src dst : Word) (len : Nat) : Cmd where
  id := id
  core := 0
  seat := 0
  part := part
  launch := 0
  asn := asn
  sheaf := 0
  bed := 0
  lanes := 0
  wid := 0
  pc := 0
  body := .dma src dst len
  status := none
  promise := none
  units := 0
  started := false
  stopped := false
  suspendAfter := false
  suspended := false
  abandon := none
  nonfin := false
  tmax := 0
  charged := []
  owned := []
  emptied := []
  watched := []
  fault := none
  got := []
  wrote := false
  peersDue := 0
  olds := []
  tokens := 0

/-- A DMA ends with a status (R323, R285), its record after the Tw of what it has copied (R317). -/
def State.dmaEnd (s : State) (c : Command) (id status : Nat) (data : Word) : State :=
  (s.engineEnd id 0).completeAt c.ring c.seq status data (((s.cmd? id).map (·.tmax)).getD 0) []

/-- Charge a DMA's destination lines in order, against the hub die's allowance; true while one waits. -/
def State.dmaCharge (s : State) (id : Nat) : List (Word × Loc) → State × Bool
  | [] => (s, false)
  | e :: t =>
    match s.chargePool e.2, (s.cmd? id).map fun c => c.charged.any fun x => x.1 = e.2 with
    | some k, some false =>
      match s.charge k hubCluster 4 (.hub id) with
      | .waits s1 => (s1, true)
      | .done s1 => State.dmaCharge (s1.modCmd id fun d => { d with charged := d.charged ++ [(e.2, k)] }) id t
    | _, _ => State.dmaCharge s id t

/-- The start of a DMA: its destination is charged, then owned (R221). -/
def State.dmaStart (s : State) (c : Command) (d : Cmd) : State :=
  let x := s.destLines d
  if x.2 ≠ [] then
    (x.2.foldl (fun s w => s.askFor hubCluster d.asn w.1 hubWho w.2) s).again (.dma c)
  else
    match s.dmaCharge d.id x.1 with
    | (s1, true) => s1.again (.dma c)
    | (s1, false) =>
      let s2 := x.1.foldl (fun s e => s.own d.id e.2) s1
      (s2.modCmd d.id fun d => { d with started := true, owned := x.1 }).again (.dma c)

/-- One line of a DMA, or its end. -/
def State.dmaUnit (s : State) (c : Command) (d : Cmd) : State :=
  if d.wrote then
    if d.peersDue ≠ 0 then s.again (.dma c) else (s.unitDone d.id).again (.dma c)
  else if d.body.count ≤ d.units then
    if d.tmax.toNat ≤ s.bell.toNat then s.dmaEnd c d.id 0x00 0 else s.again (.dma c)
  else match s.unitRead d with
    | .wait s1 => s1.again (.dma c)
    | .stop _ va _ _ => (s.spend d.asn va (0, some d.id)).dmaEnd c d.id 0x06 va
    | .bad => s.dmaEnd c d.id 0x06 (((d.body.reads d.units).head?.map (·.1)).getD 0)
    | .go s1 data out => (s1.engineWrites d out (d.body.unitBytes data ((out.map (·.n)).sum))).again (.dma c)

/-- DMA: a copy by the hub die's engine; its fault or its failed charge ends it. (DEDUCED, log 43.) -/
def execDma (c : Command) (s : State) : Out :=
  .next (s.command c (.dma c) (some 4) fun s r p =>
    if !p.started then
      let (id, s1) := s.fresh
      let w := fun i => p.words.getD i 0
      let d := dmaCmd id r.reg.part (field (w 4) 0 12) (w 1) (w 2) (w 3).toNat
      (({ s1 with hub := s1.hub ++ [d] } : State).started c id).again (.dma c)
    else
      match s.cmd? p.cmd with
      | none => s
      | some d =>
        match d.fault with
        | some (cause, va, info, _) => if d.peersDue ≠ 0 then s.again (.dma c) else if cause = 0x06 then s.dmaEnd c d.id 0x07 (info.setWidth 64) else s.dmaEnd c d.id 0x06 va
        | none => if d.started then s.dmaUnit c d else s.dmaStart c d)

/-! ### SIGNAL (R324) -/

/-- The write of a SIGNAL where its page lies. -/
def State.signalWrite (s : State) (i : Inbound) (c : Command) (va : Word) (loc : Loc) (x : Word) : State :=
  let bs := (natToBytes 8 x.toNat).zipIdx.map fun e => (locOff loc + e.2, e.1)
  match loc with
  | .peer p a =>
    if (s.peers.any fun e => e.2.what = .inbound i.key) || s.peerBehind (lineOf loc) then s.again (.signal c)
    else (s.askPeer ⟨p, a, .write ((natToBytes 8 x.toNat).zipIdx.map fun e => (e.2, e.1)), va, s.bell, .inbound i.key⟩).again (.signal c)
  | _ => match s.writeIn i.key [(lineOf loc, bs)] with
    | .waits s1 => s1.again (.signal c)
    | .noCharge s1 k => (s1.endInbound i).complete c.ring c.seq 0x07 (BitVec.ofNat 64 k)
    | .portDown s1 => (s1.endInbound i).complete c.ring c.seq 0x06 va
    | .made s1 _ => s1.again (.signal c)

/-- SIGNAL: a store at .sys after every earlier command of its ring; complete once the bell has reached its Tw. -/
def execSignal (c : Command) (s : State) : Out :=
  .next (s.command c (.signal c) (some 3) fun s _ p =>
    let req : InReq := .signal c.ring c.seq
    let va := p.words.getD 1 0
    let asn := field (p.words.getD 3 0) 0 12
    let failed := fun (s : State) (i : Inbound) => match i.peerPool with
      | some k => (s.endInbound i).complete c.ring c.seq 0x07 (k.setWidth 64)
      | none => (s.endInbound i).complete c.ring c.seq 0x06 va
    match s.inboundDone req, s.inboundFailed req with
    | some i, _ => (s.endInbound i).complete c.ring c.seq 0x00 0
    | none, some i => failed s i
    | none, none =>
      if s.inboundMade req then s.again (.signal c) else
      let (i, s0) := (s.started c 0).inboundFor req
      if i.failed && s0.peers.all (fun e => e.2.what ≠ .inbound i.key) && (match s0.check hubCluster asn none va .store with
          | .at_ (.peer _ _) _ _ => true
          | _ => false) then failed s0 i
      else match s0.check hubCluster asn none va .store with
      | .fault _ _ => ((s0.spend asn va hubWho).endInbound i).complete c.ring c.seq 0x06 va
      | .at_ loc pte e => (s0.noteTlb hubCluster asn va pte e).signalWrite i c va loc (p.words.getD 2 0)
      | w => (s0.askFor hubCluster asn va hubWho w).again (.signal c))

/-! ### POOL (R287, R325) -/

/-- A POOL command completes, its record after the Tw of what it wrote into the control block (R317). -/
def State.poolDone (s : State) (c : Command) (q : Pool) (status : Nat) (data : Word) : State :=
  s.completeAt c.ring c.seq status data (s.twOf (lineOf (.dev q.ctrl))) []

/-- The pool a command names. -/
def poolOf (r : Ring) (p : PendingCmd) : Nat := poolKey r.reg.part ((p.words.getD 1 0).setWidth 8)

/-- A page for a control block (R286): KIND 0 on LPDDR6, with R and W. (DEDUCED, log 59.) -/
def ctrlPage (p : Pte) : Bool := p.kind = 0 && p.tier = 0 && p.r && p.w

/-- CONFIG: the pool as the command gives it; refused while it owns a page or where the grants would pass R279.
(DEDUCED, log 42.) -/
def execConfig (c : Command) (s : State) : Out :=
  .next (s.command c (.config c) (some 6) fun s r p =>
    let w := fun i => p.words.getD i 0
    let k := poolOf r p
    let asn := field (w 6) 0 12
    match s.check hubCluster asn none (w 3) .store with
    | .fault _ _ => (s.spend asn (w 3) hubWho).complete c.ring c.seq 0x06 (w 3)
    | .at_ (.dev a) pte _ =>
      if !ctrlPage pte then s.complete c.ring c.seq 0x06 (w 3) else
      let had := ((s.pool? k).map (·.granted)).getD 0
      let g := (w 2).toNat
      if s.frames.any (fun e => e.2.pool = some (k / 256, k % 256)) || decide (s.ungranted + had < g) then
        s.complete c.ring c.seq 0x08 0
      else
        let q : Pool := {
          ctrl := a
          granted := g
          ceiling := (w 4).toNat
          ratio := if (w 7).toNat = 0 then 8 else (w 7).toNat
          committed := 0
          promised := 0
          remain := g
          allow := []
          queue := ((s.pool? k).map (·.queue)).getD []
          decided := ((s.pool? k).map (·.decided)).getD []
          stale := (s.pool? k).bind (·.stale)
          published := ((s.pool? k).map (·.published)).getD 0
          reliefDone := (s.word64 (a + 0x48)).toNat
          asked := false }
        let s1 : State := { s with pools := aset s.pools k q }
        (((s1.setControl q 0x20 g).setControl q 0x38 (w 5).toNat).owesPublish k).poolDone c q 0x00 0
    | .at_ _ _ _ => s.complete c.ring c.seq 0x06 (w 3)
    | x => (s.askFor hubCluster asn (w 3) hubWho x).again (.config c))

/-- RAISE: G and the reserve rise, within what R279 allows; it answers relief for which the host has been asked (R285, R404). -/
def execRaise (c : Command) (s : State) : Out :=
  .next (s.command c (.raise c) none fun s r p =>
    let k := poolOf r p
    let x := (p.words.getD 2 0).toNat
    match s.pool? k with
    | none => s.complete c.ring c.seq 0x08 0
    | some q =>
      if s.ungranted < x then s.complete c.ring c.seq 0x08 0 else
      let s1 := s.raiseGrant k x
      let asked := (s.word64 (q.ctrl + 0x40)).toNat - q.reliefDone
      let done := min asked x
      let s2 := if q.asked && done ≠ 0 then
          match s1.pool? k with
          | some q1 =>
            (s1.setPool k { q1 with reliefDone := q1.reliefDone + done, asked := decide (done < asked) }).setControl q1 0x48
              (q1.reliefDone + done)
          | none => s1
        else s1
      s2.poolDone c q 0x00 0)

/-- LOWER: taken from the reserve in its turn among the pool's requests, with a roll call; on failure nothing changes. GRANT is
written before it completes. -/
def execLower (c : Command) (s : State) : Out :=
  .next (s.command c (.lower c) none fun s r p =>
    let k := poolOf r p
    let who : Waiter := .command c.ring c.seq
    match s.pool? k with
    | none => s.complete c.ring c.seq 0x08 0
    | some q =>
      let s0 := s.started c 0
      match q.decided.find? fun d => d.1.who = who with
      | some d =>
        let s1 := s0.setPool k (q.takeUp who)
        if d.2 then ((s1.setControl q 0x20 q.granted).owesPublish k).poolDone c q 0x00 0
        else s1.complete c.ring c.seq 0x08 (BitVec.ofNat 64 d.1.amount)
      | none =>
        (if q.queue.any fun w => w.who = who then s0 else
          (s0.setPool k { q with queue := q.queue ++ [⟨who, hubCluster, (p.words.getD 2 0).toNat, none⟩] }).serveQueue k).again (.lower c))

/-- BALLOON: $notice bit 0 in every sheaf of every launch that uses the pool (R41). -/
def execBalloon (c : Command) (s : State) : Out :=
  .next (s.command c (.balloon c) none fun s r p =>
    let k := poolOf r p
    match s.pool? k with
    | none => s.complete c.ring c.seq 0x08 0
    | some _ => (s.noticePool k 1).complete c.ring c.seq 0x00 0)

end Sys2Proof.Machine
end

