-- ==== Sys2Proof/Machine/Place.lean ====
section
/-! DEFINITION. The life of launches and beds: spawns (R153, R326), placement (R20, R332 to R336, R253 to R255), completion of beds and
launches (R149, R327), the end of a launch (R328), and the wakes of NAP and DWAIT, set-aside batches and refills. -/

namespace Sys2Proof.Machine

/-! ### Seats, slots and units of a core -/

/-- The cores of a partition in ascending ($die, $core) (R332). -/
def State.coresIn (s : State) (part : Nat) : List Nat :=
  match s.part? part with
  | none => []
  | some p =>
    let dies := (p.clusters.map fun c => c / 32 % 4).eraseDups
    dies.flatMap fun d => (p.clusters.filter fun c => c / 32 % 4 = d).flatMap fun c => (List.range 4).map fun i => c * 4 + i

/-- The seat of a core that holds a launch. -/
def State.seatFor (s : State) (core la : Nat) : Option Nat :=
  (List.range 4).find? fun i => ((s.seat? core i).map fun t => decide (t.launch = la)).getD false

def State.freeSeat (s : State) (core : Nat) : Option Nat := (List.range 4).find? fun i => (s.seat? core i).isNone

/-- Free sheaf slots of an issue partition of a core, of 128. -/
def State.freeSlots (s : State) (core p : Nat) : List Nat :=
  let used := s.sheafs.filterMap fun e => if e.2.core = core && e.2.part = p && !s.isLifted e.2 then some e.2.slot else none
  (List.range 128).filter fun k => !used.contains k

def State.slotsLeft (s : State) (core : Nat) : Nat :=
  512 - (s.sheafs.filter fun e => e.2.core = core && !s.isLifted e.2).length

/-- Scratchpad units that resident beds of a core have claimed. -/
def State.unitsUsed (s : State) (core : Nat) : Nat :=
  (s.beds.map fun e => if e.2.core = core && e.2.status ≠ .lifted then e.2.units else 0).sum

/-- The longest of some lists of free slots, the lowest index among equals. -/
def mostFree : List (List Nat) → Nat
  | [] => 0
  | l :: t => let j := mostFree t
    if ((t.getD j []).length) ≤ l.length then 0 else j + 1

/-- n slots, each in the partition with the most free ones (R333). -/
def assignSlots : Nat → List (List Nat) → List (Nat × Nat)
  | 0, _ => []
  | n + 1, fs =>
    let p := mostFree fs
    match fs.getD p [] with
    | [] => []
    | k :: t => (p, k) :: assignSlots n (fs.set p t)

def State.assign (s : State) (core n : Nat) : List (Nat × Nat) := assignSlots n ((List.range 4).map (s.freeSlots core))

/-! ### The end of launches (R327, R328) -/

/-- What an instruction in progress has charged goes back. -/
def State.refundHold (s : State) (core : Nat) (h : Hold) : State := s.refundUnused core h.charged []

/-- Every place in a pool's queue of some sheafs is given up. -/
def State.unqueueSheafs (s : State) (us : List Nat) : State :=
  (s.pools.map (·.1)).foldl (fun s k => s.unqueueIf k fun w => match w with
    | .sheaf u _ => us.contains u
    | .kv u _ => us.contains u
    | _ => false) s

/-- A command that will never run on: what it charged and did not write goes back, and its lines are free. -/
def State.dropCmd (s : State) (c : Cmd) : State :=
  ((c.charged.foldl (fun s e => s.refund e.2 (cmdCluster c) 4) s).disown c.id (c.owned.map (·.2))).unqueueAll (.hub c.id)

/-- The surrenders of a sheaf that are not over are made (R180): its pages have been marked. -/
def State.endDrops (s : State) (sh : Sheaf) : State :=
  sh.ops.foldl (fun s o => match o.2.kind with
    | .pgdrop _ pages => pages.foldl (fun s e => (s.dropLane (s.asnOf sh) o.2 e []).2) s
    | _ => s) s

/-- The KV steps of some sheafs are given up (R212). -/
def State.endKvs (s : State) (us : List Nat) : State :=
  s.events.foldl (fun s e => match e with
    | .kvAgentStep m => if us.contains m.sheaf then
        ({ s with events := s.events.erase e } : State).kvUndo m (clusterOf (((s.sheaf? m.sheaf).map (·.core)).getD 0)) else s
    | _ => s) s

/-- Everything of some sheafs outside memory is gone. -/
def State.dropSheafs (s0 : State) (us : List Nat) : State :=
  let s := (s0.sheafs.filter fun e => us.contains e.1).foldl (fun s e => s.endDrops e.2) (s0.endKvs us)
  let mine := s.sheafs.filter fun e => us.contains e.1
  let s1 := mine.foldl (fun s e =>
    let s1 := s.refundHold e.2.core e.2.hold
    let s2 := match e.2.putBy with
      | some p => s1.refundHold e.2.core p.2
      | none => s1
    e.2.aside.foldl (fun s a => s.refundHold e.2.core a.hold) s2) s
  let s2 := s1.unqueueSheafs us
  { s2 with sheafs := s2.sheafs.filter fun e => !us.contains e.1 }

/-- The largest Tw known of the writes of a launch's beds, commands and KV steps. -/
def State.launchTw (s : State) (k : Nat) (cmds : List Cmd) (us : List Nat) : Word :=
  maxWord ((s.beds.filter fun e => e.2.launch = k).map (·.2.tw) ++ cmds.map (·.tmax) ++ s.events.filterMap fun e => match e with
    | .kvAgentStep m => if us.contains m.sheaf then some m.tw else none
    | _ => none)

/-- A launch ends with status 0x09 (R328): its records, beds and seats are discarded, its entry is marked complete. Its record
comes after the Tw of every write of it (R317). -/
def State.endLaunch (s : State) (k : Nat) : State :=
  match s.launch? k with
  | none => s
  | some la =>
    if la.completed then s else
      let us := akeys s.sheafs fun _ sh => decide (sh.launch = k)
      let cmds := (s.seats.filter fun e => e.2.launch = k).flatMap (fun e => e.2.mq ++ e.2.cq) ++
        (s.seatImages.filter fun e => e.2.launch = k).flatMap fun e => e.2.seat.mq ++ e.2.seat.cq
      let s1 := (cmds.foldl (fun s c => s.dropCmd c) s).dropSheafs us
      let s2 : State := { s1 with
        beds := s1.beds.filter fun e => e.2.launch ≠ k
        seats := s1.seats.filter fun e => e.2.launch ≠ k
        seatImages := s1.seatImages.filter fun e => e.2.launch ≠ k
        spawns := s1.spawns.filter fun r => r.launch ≠ k }
      let s3 := s2.modLaunch k fun x => { x with completed := true, rsmp := none, bound := [] }
      ((s3.completeAt la.ring la.seq 0x09 la.counter (s.launchTw k cmds us) us).pollDwait).pollPlace la.part

/-- END_LAUNCH. -/
def execEndLaunch (launch : Nat) (s : State) : Out := .next (s.endLaunch launch)

/-- The spawn-tree counter has reached 0 (R327). -/
def State.finishLaunch (s : State) (k : Nat) : State :=
  match s.launch? k with
  | none => s
  | some la =>
    let s1 : State := { s with
      seats := s.seats.filter fun e => e.2.launch ≠ k
      seatImages := s.seatImages.filter fun e => e.2.launch ≠ k }
    let s2 := s1.modLaunch k fun x => { x with completed := true, bound := [] }
    (s2.complete la.ring la.seq 0x00 (la.number.setWidth 64)).pollDwait

/-! ### Releasing a seat (R13, R358) -/

/-- The last resident bed of a launch has left a core: its seat is released; where beds lifted from it are still to come back, the
seat image they are to meet is kept. -/
def State.releaseSeat (s : State) (core seat la : Nat) : State :=
  if s.beds.any fun e => e.2.core = core && e.2.launch = la && e.2.status ≠ .lifted then s else
  match s.seat? core seat with
  | none => s
  | some t =>
    let away := fun (b : Bed) => b.core = core && b.seat = seat && b.launch = la && b.status = .lifted && b.image.isNone
    let s1 : State := { s with seats := adel s.seats (State.seatKey core seat) }
    if s.beds.any fun e => away e.2 then
      let (k, s2) := s1.fresh
      let img : SeatImage := ⟨la, t⟩
      { s2 with
        seatImages := s2.seatImages ++ [(k, img)]
        beds := amap s2.beds fun _ b => if away b then { b with image := some k } else b }
    else s1

/-! ### SPAWN at the front end (R153, R326) -/

/-- Whether a range is valid (R153). -/
def rangeOk (h : Header) (m : SpawnMsg) : Bool :=
  aligned m.entry 8 && decide (1 ≤ m.count.toNat ∧ m.count.toNat ≤ 2 ^ 40) && m.first.toNat % 2 ^ h.wb = 0 &&
    decide (m.first.toNat + m.count.toNat - 1 < 2 ^ h.wt)

/-- The words of an arena record up to its LAUNCH field (Table 14.5). -/
def arenaWords (r : SpawnRec) (number : W32) : List Word :=
  [r.entry, r.arg, r.first, BitVec.ofNat 64 r.count, BitVec.ofNat 64 r.next, number.setWidth 64]

/-- A whole record (Table 14.5). -/
def arenaBytes (r : SpawnRec) (number : W32) : List Byte :=
  let ws := arenaWords r number
  (ws.take 5).flatMap (fun w => natToBytes 8 w.toNat) ++ natToBytes 4 number.toNat ++ natToBytes 4 (Config.arenaCheck ws).toNat ++
    List.replicate 16 0

def arenaVa (h : Header) (slot : Nat) : Word := h.overflow + BitVec.ofNat 64 (64 * slot)

/-- The first arena slot of a launch that no record is in, or is being written to. -/
def State.freeArena (s : State) (k : Nat) (h : Header) : Option Nat :=
  let used := (s.spawns.filterMap fun r => if r.launch = k then r.arena else none) ++ s.events.filterMap fun e => match e with
    | .spawnRequest m => if ((s.sheaf? m.sheaf).map fun sh => decide (sh.launch = k)).getD false then m.slot else none
    | _ => none
  (List.range (h.ovfsize / 64)).find? fun i => !used.contains i

/-- The answer of a SPAWN to the batch that waits for it, by its key. -/
def Sheaf.takeAnswer (sh : Sheaf) (r : SpawnResp) : Sheaf :=
  let give := fun (h : Hold) => if h.phase = 2 && h.ticket = r.key then { h with answer := some r } else h
  { sh with
    hold := give sh.hold
    putBy := sh.putBy.map fun p => (p.1, give p.2)
    aside := sh.aside.map fun a => { a with hold := give a.hold } }

def State.answerSpawn (s : State) (u key : Nat) (beds : Nat) (flags : CcVal) : State :=
  let r : SpawnResp := ⟨u, key, BitVec.ofNat 64 beds, flags⟩
  s.gate u (.spawn r) fun s _ => s.modSheaf u fun sh => sh.takeAnswer r

/-- A record accepted: the counter rises before it is answered. -/
def State.spawnTaken (s : State) (k : Nat) (h : Header) (m : SpawnMsg) (die : Nat) (arena : Option Nat) (part : Nat) : State :=
  let n := h.bedsOf m.count.toNat
  let r : SpawnRec := ⟨k, die, arena, m.entry, m.arg, m.first, m.count.toNat, 0, [], false⟩
  let s1 := s.modLaunch k fun x => { x with counter := x.counter + BitVec.ofNat 64 n }
  ((({ s1 with spawns := s1.spawns ++ [r] } : State).answerSpawn m.sheaf m.key n (mkFlags false true arena.isSome false)).postOnce
    (.bedPlacement part))

/-- SPAWN_REQUEST: the range is checked, takes a place in its die's queue of 4,096 or in the launch's arena, or is refused. -/
def execSpawnRequest (m : SpawnMsg) (s : State) : Out :=
  .next (
    match s.sheaf? m.sheaf with
    | none => s.hubClear (spawnKey m.key)
    | some sh => match s.launch? sh.launch with
      | none => s
      | some la =>
        let h := la.hdr
        if !rangeOk h m then s.answerSpawn m.sheaf m.key 0 (mkFlags false false false true) else
        let die := dieOf sh.core
        let queued := (s.spawns.filter fun r => r.die = die && r.arena.isNone && !r.seed).length
        if queued < 4096 && m.slot.isNone then s.spawnTaken sh.launch h m die none la.part
        else match m.slot.orElse fun _ => s.freeArena sh.launch h with
          | none => s.answerSpawn m.sheaf m.key 0 0
          | some i =>
            let r : SpawnRec := ⟨sh.launch, die, some i, m.entry, m.arg, m.first, m.count.toNat, 0, [], false⟩
            let f : HubFor := ⟨spawnKey m.key, la.part, la.asn⟩
            match s.hubWrite f arenaPage (arenaVa h i) (arenaBytes r la.number) with
            | .wait s1 => s1.again (.spawnRequest { m with slot := some i })
            | .bad _ s1 => (s1.hubClear f.key).answerSpawn m.sheaf m.key 0 0
            | .bytes _ s1 => (s1.hubClear f.key).spawnTaken sh.launch h m die (some i) la.part)

/-! ### The queue of a partition (R334, R335) -/

/-- A bed to be placed: one that is to be replanted, or bed j of a record. -/
inductive PlaceItem where
  | replant (la bed : Nat)
  | fresh (record j : Nat)
  deriving DecidableEq, Repr

/-- The cluster set of a bed (R16, R334). -/
def Header.setOf (h : Header) (bed : Nat) : Nat := bed / 2 ^ (h.bitsBelow h.clulvl - h.wb)

def SpawnRec.bedAt (r : SpawnRec) (h : Header) (j : Nat) : Nat := r.first.toNat / 2 ^ h.wb + j

/-- The first bed of a record from j on that is not placed. -/
def SpawnRec.firstOpen (r : SpawnRec) : Nat → Nat → Nat
  | 0, j => j
  | n + 1, j => if r.ahead.contains j then r.firstOpen n (j + 1) else j

/-- The first open bed of each cluster set of a record, as far as sets are bound. -/
def SpawnRec.candidates (r : SpawnRec) (h : Header) : Nat → Nat → List Nat
  | 0, _ => []
  | n + 1, j0 =>
    let j := r.firstOpen (r.ahead.length + 1) j0
    if h.bedsOf r.count ≤ j then [] else
      if h.clulvl = 0 then [j]
      else j :: r.candidates h n ((h.setOf (r.bedAt h j) + 1) * 2 ^ (h.bitsBelow h.clulvl - h.wb) - r.first.toNat / 2 ^ h.wb)

/-- Whether a lifted bed may come back: an escalated one once the driver has chosen. -/
def Bed.mayReturn (b : Bed) : Bool := b.status = .lifted && (!b.escalated || b.choice.isSome)

/-- Beds of a launch to be placed, in the order of R335. -/
def State.itemsOf (s : State) (k : Nat) (la : Launch) : List PlaceItem :=
  (s.events.filterMap fun e => match e with
    | .replant l b => if l = k && ((s.bed? b).map Bed.mayReturn).getD false then some (.replant l b) else none
    | _ => none) ++
  s.spawns.zipIdx.flatMap fun e => if e.1.launch = k then
    (e.1.candidates la.hdr (la.bound.length + 2) e.1.next).map fun j => .fresh e.2 j else []

/-- Launches of a partition by class, then by acceptance (R335); within a class those first whose fibres have all arrived at RSMP
(R391). -/
def State.launchOrder (s : State) (part : Nat) : List (Nat × Launch) :=
  (List.range 4).flatMap fun c =>
    let ls := s.launches.filter fun e => e.2.part = part && !e.2.completed && e.2.cls = c
    ls.filter (fun e => s.gathered e.1) ++ ls.filter fun e => !s.gathered e.1

/-- Fibres of bed j of a record, and sheafs for them (R333). -/
def SpawnRec.fibresAt (r : SpawnRec) (h : Header) (j : Nat) : Nat := min (2 ^ h.wb) (r.count - j * 2 ^ h.wb)

def State.needSheafs (s : State) (la : Launch) : PlaceItem → Nat
  | .replant _ b => ((s.bed? b).map fun b => b.sheafs.length).getD 0
  | .fresh i j => ((s.spawns[i]?).map fun r => (r.fibresAt la.hdr j + 31) / 32).getD 0

/-- The bed identifier an item places. -/
def State.itemBed (s : State) (la : Launch) : PlaceItem → Nat
  | .replant _ b => ((s.bed? b).map fun b => b.wid.toNat).getD 0
  | .fresh i j => ((s.spawns[i]?).map fun r => r.bedAt la.hdr j).getD 0

/-- Whether a core has the seat an item needs (R333, R358). -/
def State.seatFits (s : State) (k core : Nat) : PlaceItem → Bool
  | .replant _ b => match s.bed? b with
    | none => false
    | some b => match b.image with
      | none => b.core = core && ((s.seat? core b.seat).map fun t => decide (t.launch = k)).getD false
      | some _ => (s.seatFor core k).isNone && (s.freeSeat core).isSome
  | .fresh .. => (s.seatFor core k).isSome || (s.freeSeat core).isSome

/-- Whether an item fits a core, its cluster binding apart (R333). -/
def State.fits (s : State) (k : Nat) (la : Launch) (core : Nat) (it : PlaceItem) : Bool :=
  !frostedCore s core && s.seatFits k core it && decide (s.needSheafs la it ≤ s.slotsLeft core) &&
    decide (s.unitsUsed core + unitsFor la.hdr ≤ 48)

/-- The core with the most free sheaf slots, the first among equals. -/
def State.roomiest (s : State) : List Nat → Option Nat
  | [] => none
  | c :: t => match s.roomiest t with
    | none => some c
    | some d => if s.slotsLeft c < s.slotsLeft d then some d else some c

/-- Whether a core is in the cluster to which an item's set is bound (R334). -/
def State.boundOk (s : State) (la : Launch) (it : PlaceItem) (core : Nat) : Bool :=
  if la.hdr.clulvl = 0 then true else
    match aget la.bound (la.hdr.setOf (s.itemBed la it)) with
    | some c => clusterOf core = c
    | none => true

/-- The core an item goes to. -/
def State.coreFor (s : State) (k : Nat) (la : Launch) (it : PlaceItem) : Option Nat :=
  let cs := (s.coresIn la.part).filter fun c => s.boundOk la it c && s.fits k la c it
  let held := cs.filter fun c => (s.seatFor c k).isSome
  s.roomiest (if held = [] then cs else held)

/-- Whether only its cluster binding holds an item back. -/
def State.onlyBound (s : State) (k : Nat) (la : Launch) (it : PlaceItem) : Bool := (s.coresIn la.part).any fun c => s.fits k la c it

/-- The first bed of a launch that can be placed: one that cannot holds back the later ones; where only its binding holds it, those
of its cluster set, whose sets are given (R335). -/
def State.firstOf (s : State) (k : Nat) (la : Launch) : List Nat → List PlaceItem → Option (PlaceItem × Nat)
  | _, [] => none
  | held, it :: t =>
    let set := la.hdr.setOf (s.itemBed la it)
    if held.contains set then s.firstOf k la held t else
      match s.coreFor k la it with
      | some c => some (it, c)
      | none => if s.onlyBound k la it then s.firstOf k la (set :: held) t else none

/-- Whether a launch has queued beds, none of which can be placed. -/
def State.isStuck (s : State) (e : Nat × Launch) : Bool :=
  s.itemsOf e.1 e.2 ≠ [] && (s.firstOf e.1 e.2 [] (s.itemsOf e.1 e.2)).isNone

/-- Whether a launch whose fibres have all arrived at RSMP, and whose beds can all be resident, waits for room (R391). -/
def State.waitsRoom (s : State) (e : Nat × Launch) : Bool := s.gathered e.1 && s.isStuck e && !s.tooLarge e.1 e.2.part

/-- The bed of a partition that is placed next, with its core; a launch that waits for room at RSMP holds back those after it.
(DEDUCED, log 81.) -/
def State.nextPlace (s : State) (part : Nat) : Option (Nat × Launch × PlaceItem × Nat) :=
  ((s.launchOrder part).takeWhile fun e => !s.waitsRoom e).findSome? fun e =>
    (s.firstOf e.1 e.2 [] (s.itemsOf e.1 e.2)).map fun x => (e.1, e.2, x.1, x.2)

/-- Launches of a partition with a queued bed, none of which can be placed. -/
def State.stuck (s : State) (part : Nat) : List (Nat × Launch) := (s.launchOrder part).filter s.isStuck

/-! ### Placing -/

/-- The binding of a cluster set that has none (R334). -/
def Launch.bind (la : Launch) (bed cluster : Nat) : Launch :=
  if la.hdr.clulvl = 0 || (aget la.bound (la.hdr.setOf bed)).isSome then la
  else { la with bound := la.bound ++ [(la.hdr.setOf bed, cluster)] }

/-- The lines of a core's L1 outnumber what is left when n more units are claimed (R255). -/
def State.mustReclaim (s : State) (core n : Nat) : Bool :=
  decide ((65536 + 16384 * (48 - s.unitsUsed core - n)) / 256 < (s.l1.filter fun e => e.1.1 = core).length)

/-- Cached slots of a seat and the translations of its core are discarded when it is given (R57, R296). -/
def State.clearSeat (s : State) (key : Nat) : State :=
  { s with
    icache := s.icache.filter fun e => e.1.1 ≠ key
    fetchBad := s.fetchBad.filter fun e => e.1.1 ≠ key
    fetchGot := s.fetchGot.filter fun e => e.1.1 ≠ key
    tlb := s.tlb.filter fun e => e.cluster ≠ clusterOf (key / 4) }

/-- The seat of a launch on a core, given to it where it has none (R13, R14). -/
def State.giveSeat (s : State) (core k : Nat) (la : Launch) : Nat × State :=
  match s.seatFor core k with
  | some i => (i, s)
  | none =>
    let i := (s.freeSeat core).getD 0
    let t : Seat := ⟨k, la.dict, [], [], [], la.hdr.handler, 0⟩
    let s1 := s.clearSeat (State.seatKey core i)
    (i, { s1 with seats := aset s1.seats (State.seatKey core i) t })

/-- A fibre as it begins (R17, R20): its horizon is 0, its floor 0 in a seed bed and, in a bed of SPAWN, as after FENCE.acq.dev
(R266, R153). -/
def newFibre (floor : Word) (la : Launch) (entry wid : Word) : Fibre where
  pc := entry
  cc := Vector.replicate 4 0
  ccFull := BitVec.allOnes 4
  status := .ready
  park := .none
  parkPc := 0
  wid := wid
  rank := wid
  parent := BitVec.allOnes 64
  lineage := la.rsmpCount.setWidth 24 ++ wid.setWidth 40
  fpflags := 0
  horizon := 0
  floor := floor
  written := []
  seen := []
  fence := none

/-- Sheaf i of a bed as it begins (R20); the bed holds n fibres from work identifier `base`. -/
def newSheaf (bell floor : Word) (la : Launch) (b : Bed) (bk : Nat) (entry arg base : Word) (n i : Nat) (at_ : Nat × Nat) : Sheaf :=
  { Sheaf.blank with
    core := b.core
    slot := at_.2
    part := at_.1
    seat := b.seat
    launch := b.launch
    bed := bk
    index := i
    lanes := lanesOf fun l => if 32 * i + l.val < n then .held (newFibre floor la entry (base + BitVec.ofNat 64 (32 * i + l.val)))
      else if la.hdr.popcap ≠ 0 then .dormant none else .empty none
    sregs := ((Vector.replicate 64 (0 : Word)).set 0 arg).set 1 base
    age := bell.toNat }

/-- A new bed on a core (R12, R20, R253). -/
def State.plant (s : State) (k : Nat) (la : Launch) (r : SpawnRec) (j core : Nat) : State :=
  let h := la.hdr
  let n := r.fibresAt h j
  let id := r.bedAt h j
  let base := BitVec.ofNat 64 (id * 2 ^ h.wb)
  let at_ := s.assign core ((n + 31) / 32)
  let (seat, s0) := s.giveSeat core k la
  let (bk, s1) := s0.fresh
  let us := (List.range at_.length).map fun i => s1.nextId + i
  let b : Bed := {
    launch := k
    core := core
    seat := seat
    wid := BitVec.ofNat 64 id
    group := groupOf h base
    status := .resident
    sheafs := us
    pad := []
    padEmpty := []
    units := unitsFor h
    bars := Vector.replicate 16 ⟨0, []⟩
    image := none
    escalated := false
    choice := none
    tw := 0 }
  let shs := (us.zip at_).zipIdx.map fun e => (e.1.1, newSheaf s.bell (if r.seed then 0 else s.bell) la b bk r.entry r.arg base n e.2 e.1.2)
  let s2 : State := { s1 with
    nextId := s1.nextId + at_.length
    beds := s1.beds ++ [(bk, b)]
    sheafs := s1.sheafs ++ shs }
  s2.modLaunch k fun x => { x.bind id (clusterOf core) with told := false }

/-- A record after its bed j is placed; gone with its last bed. -/
def SpawnRec.placed (r : SpawnRec) (j : Nat) : SpawnRec :=
  let a := if j = r.next then r.ahead else r.ahead ++ [j]
  let n := { r with ahead := a }.firstOpen (a.length + 1) (if j = r.next then j + 1 else r.next)
  { r with next := n, ahead := a.filter fun x => n ≤ x }

def State.afterPlaced (s : State) (h : Header) (i : Nat) (r : SpawnRec) : State :=
  { s with spawns := if h.bedsOf r.count ≤ r.next then s.spawns.eraseIdx i else s.spawns.set i r }

/-- A record as the front end reads it back from its arena: none where its CHECK, LAUNCH or reserved words do not hold (R326). -/
def readRecord (r : SpawnRec) (number : W32) (b : List Byte) : Option SpawnRec :=
  let ws := wordsOf 8 b
  let w := fun i => ws.getD i 0
  let x : SpawnRec := { r with
    entry := w 0
    arg := w 1
    first := w 2
    count := (w 3).toNat
    next := (w 4).toNat
    ahead := r.ahead.filter fun j => (w 4).toNat ≤ j }
  if loHalf (w 5) = number && hiHalf (w 5) = Config.arenaCheck (arenaWords x number) && w 6 = 0 && w 7 = 0 then some x else none

/-- Bed j of a record is placed; a record of an arena is read back first, and is what it then is; it is written again after its
bed (R326). -/
def State.placeFresh (s : State) (k : Nat) (la : Launch) (i j core : Nat) : State :=
  match s.spawns[i]? with
  | none => s
  | some r =>
    let r' := r.placed j
    match r.arena with
    | none => ((s.afterPlaced la.hdr i r').plant k la r j core).pollPlace la.part
    | some slot =>
      let f : HubFor := ⟨arenaKey k slot, la.part, la.asn⟩
      let va := arenaVa la.hdr slot
      if s.peers.any fun e => match e.2.what with
          | .hub key _ _ => key = f.writeKey
          | _ => false then s.again (.bedPlacement la.part) else
      match s.hubRead f arenaPage va 64 with
      | .wait s1 => s1.again (.bedPlacement la.part)
      | .bad _ s1 => (s1.hubClear f.key).endLaunch k
      | .bytes b s1 =>
        match readRecord r la.number b with
        | none => (s1.hubClear f.key).endLaunch k
        | some x =>
          if x ≠ r then ((s1.hubClear f.key).afterPlaced la.hdr i x).pollPlace la.part else
          match s1.hubStore f va (arenaBytes r' la.number) with
          | none => s1.again (.bedPlacement la.part)
          | some s2 => (((s2.hubClear f.key).afterPlaced la.hdr i r').plant k la r j core).pollPlace la.part

/-! ### Replant (R358, R359, R350) -/

/-- The seat image a bed is to meet is loaded into a seat of a core, and every bed lifted from it follows there. -/
def State.loadImage (s : State) (core k : Nat) (img : Nat) : Nat × State :=
  let i := (s.freeSeat core).getD 0
  match aget s.seatImages img with
  | none => (i, s)
  | some x =>
    let here := fun (c : Cmd) => { c with core := core, seat := i }
    let t : Seat := { x.seat with mq := x.seat.mq.map here, cq := x.seat.cq.map here }
    let s1 := s.clearSeat (State.seatKey core i)
    (i, { s1 with
      seats := aset s1.seats (State.seatKey core i) t
      seatImages := adel s1.seatImages img
      beds := amap s1.beds fun _ b => if b.launch = k && b.image = some img then { b with image := none, core := core, seat := i } else b })

/-- A record whose push escalates again stays; it is logged and the driver told, as before (R350). -/
def State.escalateAgain (s : State) (u : Nat) (sh : Sheaf) (e : Escalation) : State :=
  let s1 := (s.modSheaf u fun sh => { sh with escalated := sh.escalated ++ [e] }).logFor sh.launch e.frame.cause e.frame.addr e.frame.fpc
  match s.launch? sh.launch, s.bed? sh.bed with
  | some la, some b => s1.report (.escalation la.number b.wid e.frame.cause)
  | _, _ => s1

/-- The escalation records of a sheaf under Retry: each is pushed as a frame, and what was held with it is delivered; one whose
push escalates stays. -/
def State.retryRecords (s : State) (u : Nat) : State :=
  match s.sheaf? u with
  | none => s
  | some sh0 => sh0.escalated.foldl (fun s e =>
      match s.sheaf? u with
      | none => s
      | some sh =>
        if escalates sh (s.hvec sh) then s.escalateAgain u sh e
        else
          let f : Frame := { e.frame with bell := s.bell }
          e.held.foldl (fun s m => s.post (.deferredFault m)) (s.modSheaf u fun sh => sh.pushFrame f (s.hvec sh)))
    (s.modSheaf u fun sh => { sh with escalated := [] })

/-- The driver's choice for an escalated bed takes effect (R350). -/
def State.applyChoice (s : State) (bk : Nat) : State :=
  match s.bed? bk with
  | none => s
  | some b =>
    match b.choice with
    | none => s
    | some ch =>
      let s1 : State := match ch with
        | .cull => b.sheafs.foldl (fun (s : State) u => match s.sheaf? u with
            | none => s
            | some sh =>
              let m := sh.escalated.foldl (fun (x : Mask) (e : Escalation) => x ||| e.frame.mask) 0
              s.leave u m .culled) s
        | .retry handler => b.sheafs.foldl (fun s u => s.retryRecords u)
            (s.modSeat b.core b.seat fun t => { t with hvec := handler })
      let still := b.sheafs.any fun u => ((s1.sheaf? u).map fun (sh : Sheaf) => decide (sh.escalated ≠ [])).getD false
      let s2 := s1.modBed bk fun b => { b with escalated := still, choice := none }
      if still then s2.post (.lift b.launch bk) else s2

/-- A lifted bed takes its place on a core again. -/
def State.restore (s : State) (k bk core : Nat) : State :=
  match s.bed? bk with
  | none => s
  | some b =>
    let at_ := s.assign core b.sheafs.length
    let (seat, s1) := match b.image with
      | some img => s.loadImage core k img
      | none => (b.seat, s)
    let s2 := (b.sheafs.zip at_).foldl (fun s e => s.modSheaf e.1 fun sh =>
      { sh.modFibs sh.held (fun _ f => { f with floor := maxWord [f.floor, s.bell] }) with
        core := core
        seat := seat
        part := e.2.1
        slot := e.2.2
        age := s.bell.toNat
        wait := 0 }) s1
    let s3 := s2.modBed bk fun b => { b with status := .resident, core := core, seat := seat, image := none }
    let s4 : State := { s3 with
      tlb := s3.tlb.filter fun e => e.cluster ≠ clusterOf core
      events := s3.events.filter fun e => e ≠ .replant k bk }
    let s5 := s4.modLaunch k fun x => { x.bind b.wid.toNat (clusterOf core) with told := false }
    ((s5.applyChoice bk).kickSeat core seat).pollDwait

/-! ### When nothing fits (R331, R336) -/

/-- Whether every fibre of a resident bed waits in DWAIT. -/
def State.allDwait (s : State) (b : Bed) : Bool :=
  b.status = .resident && !frostedCore s b.core && s.liveOf b ≠ [] && b.sheafs.all fun u => match s.sheaf? u with
    | some sh => sh.held &&& ~~~(sh.lanesWhere fun f => f.park = .dwait) = 0
    | none => true

/-- The bed that the head core lifts to make room: all in DWAIT, of the lowest class, of the newest launch. -/
def State.dwaitVictim (s : State) (part : Nat) : Option (Nat × Nat) :=
  ((s.launchOrder part).reverse.findSome? fun e =>
    (s.beds.find? fun x => x.2.launch = e.1 && s.allDwait x.2).map fun x => (e.1, x.1))

/-- The bed that the head core lifts for a launch that waits for room at RSMP: of a later launch in the order of placement, the last
one first (R391). (DEDUCED, log 81.) -/
def State.rsmpVictim (s : State) (part : Nat) : Option (Nat × Nat) :=
  (((s.launchOrder part).dropWhile fun e => !s.waitsRoom e).drop 1).reverse.findSome? fun e =>
    if e.2.rsmp.isSome then none else
      (s.beds.find? fun x => x.2.launch = e.1 && x.2.status = .resident && !frostedCore s x.2.core).map fun x => (e.1, x.1)

/-- The head core is told once of a launch that cannot be placed while lower classes hold seats of the partition (R336). -/
def State.tellBlocked (s : State) (k : Nat) (la : Launch) : State :=
  let lower := s.seats.any fun e => match s.launch? e.2.launch with
    | some l => l.part = la.part && decide (la.cls < l.cls)
    | none => false
  if lower && !la.told then (s.modLaunch k fun x => { x with told := true }).report (.placementBlocked k) else s

/-- Beds that cannot be placed: a bed in DWAIT is lifted (R331), or one that makes room for an RSMP (R391), and the head core is told. -/
def State.blocked (s : State) (part : Nat) : State :=
  match s.stuck part with
  | [] => s
  | ls =>
    let busy := s.beds.any fun e => e.2.status = .lifting
    let s1 := match (s.dwaitVictim part).orElse fun _ => s.rsmpVictim part with
      | some v => if busy then s else s.postOnce (.lift v.1 v.2)
      | none => s
    ls.foldl (fun s e => s.tellBlocked e.1 e.2) s1

/-- The next bed of a partition is placed, if one can be. -/
def State.placeNext (s0 : State) (part : Nat) : State :=
  let s := s0.blocked part
  match s.nextPlace part with
  | none => s
  | some (k, la, it, core) =>
    if unitsFor la.hdr ≠ 0 && s.mustReclaim core (unitsFor la.hdr) then s.postOnce (.scratchpadReclaim core) else
    match it with
    | .replant _ bk => (s.restore k bk core).pollPlace part
    | .fresh i j => s.placeFresh k la i j core

/-- BED_PLACEMENT. -/
def execBedPlacement (part : Nat) (s : State) : Out := .next (s.placeNext part)

/-- REPLANT: the bed stands in its partition's queue until it is placed (R359). -/
def execReplant (launch bed : Nat) (s : State) : Out :=
  .next (
    match s.launch? launch, s.bed? bed with
    | some la, some b =>
      if b.launch ≠ launch then s
      else if b.status = .lifting then s.again (.replant launch bed)
      else if b.mayReturn then (s.again (.replant launch bed)).placeNext la.part
      else s
    | _, _ => s)

/-- SCRATCHPAD_RECLAIM (R255): the lines in lent units are discarded. (DEDUCED, log 44.) -/
def execScratchpadReclaim (core : Nat) (s : State) : Out :=
  .next (
    let mine := s.l1.filter fun e => e.1.1 = core
    let gone := mine.drop 256
    let s1 : State := { s with l1 := s.l1.filter fun e => !gone.any fun g => g.1 = e.1 }
    s1.parts.foldl (fun s p => if p.2.clusters.contains (clusterOf core) then s.pollPlace p.1 else s) s1)

/-! ### BED_COMPLETION (R149, R154, R327) -/

/-- Whether a bed of a launch other than one, with an identifier from lo up to hi, is resident, lifted or queued. -/
def State.anyBed (s : State) (k : Nat) (h : Header) (but lo hi : Nat) : Bool :=
  (s.beds.any fun e => e.1 ≠ but && e.2.launch = k && decide (lo ≤ e.2.wid.toNat ∧ e.2.wid.toNat < hi)) ||
  s.spawns.any fun r => r.launch = k && (
    let a := max lo (r.bedAt h r.next)
    let z := min hi (r.bedAt h (h.bedsOf r.count))
    decide ((r.ahead.filter fun j => a ≤ r.bedAt h j && r.bedAt h j < z).length < z - a))

/-- Whether a bed's writes and commands are over (R149 step 4). -/
def State.bedSettled (s : State) (bk : Nat) (b : Bed) : Bool :=
  b.tw.toNat ≤ s.bell.toNat &&
  !(b.sheafs.any fun u => ((s.sheaf? u).map fun sh => sh.ops.any fun o => o.2.kind.writes || o.2.kind.isDrop).getD false) &&
  !(s.seats.any fun e => (e.2.mq ++ e.2.cq).any fun c => c.bed = bk) &&
  !(s.seatImages.any fun e => (e.2.seat.mq ++ e.2.seat.cq).any fun c => c.bed = bk) &&
  !(s.events.any fun e => match e with
    | .kvAgentStep m => b.sheafs.contains m.sheaf
    | _ => false)

/-- BED_COMPLETION: reported once, when every store and engine command of the bed is complete and its tile is not frosted. -/
def execBedCompletion (launch bed : Nat) (s : State) : Out :=
  .next (
    match s.bed? bed, s.launch? launch with
    | some b, some la =>
      if b.status ≠ .completing then s
      else if frostedCore s b.core || !s.bedSettled bed b then s.again (.bedCompletion launch bed)
      else
        let h := la.hdr
        let s1 := s.dropSheafs b.sheafs
        let s2 := ({ s1 with beds := adel s1.beds bed } : State).releaseSeat b.core b.seat launch
        let g := 2 ^ (h.bitsBelow h.grplvl - h.wb)
        let c := 2 ^ (h.bitsBelow h.clulvl - h.wb)
        let alone := !s2.anyBed launch h bed (b.group.toNat * g) ((b.group.toNat + 1) * g)
        let kept := h.clulvl = 0 || s2.anyBed launch h bed (h.setOf b.wid.toNat * c) ((h.setOf b.wid.toNat + 1) * c)
        let s3 := s2.modLaunch launch fun x =>
          let x1 := if alone then x.setGroups [b.group] else x
          { x1 with
            counter := x.counter - 1
            bound := if kept then x.bound else adel x.bound (h.setOf b.wid.toNat) }
        let s4 := if la.counter = 1 then s3.finishLaunch launch else s3
        (s4.pollDwait).pollPlace la.part
    | _, _ => s)

/-! ### Waits of fibres (R146, R330), set-aside batches (R46) and refills (R26) -/

/-- Whether a sheaf's core or bed lets nothing happen to it now. -/
def State.asleep (s : State) (sh : Sheaf) : Bool :=
  !s.isLifted sh && (frostedCore s sh.core || (s.coreState sh.core).stopped.getLsbD sh.part)

/-- DWAIT_READY: the fibres whose window is complete go on, as after FENCE.acq.dev; those of a lifted bed once it is replanted. -/
def execDwaitReady (sheaf : Nat) (s : State) : Out :=
  .next (
    match s.sheaf? sheaf with
    | none => s
    | some sh =>
      if s.asleep sh then s.again (.dwaitReady sheaf)
      else if s.isLifted sh then s.postOnce (.replant sh.launch sh.bed)
      else match s.launch? sh.launch with
        | none => s
        | some la =>
          let m := sh.lanesWhere fun f => f.park = .dwait && s.windowDone la (groupOf la.hdr f.wid)
          s.modSheaf sheaf fun sh => (sh.modFibs m fun _ f => f.wake).setFence m ⟨true, false, .dev⟩)

/-- NAP_WAKE: fibres whose bell value has come go on. -/
def execNapWake (sheaf : Nat) (s : State) : Out :=
  .next (
    match s.sheaf? sheaf with
    | none => s
    | some sh =>
      let due := fun (f : Fibre) => match f.park with
        | .nap t => decide (t.toNat ≤ s.bell.toNat)
        | _ => false
      let naps := fun (f : Fibre) => match f.park with
        | .nap _ => true
        | _ => false
      let m := sh.lanesWhere due
      if s.asleep sh || s.isLifted sh then s.again (.napWake sheaf) else
      let s1 := s.modSheaf sheaf fun sh => sh.modFibs m fun _ f => f.wake
      if sh.lanesWhere naps &&& ~~~m = 0 then s1 else s1.again (.napWake sheaf))

/-- SET_ASIDE (R46): a batch that has waited 64 cycles while another fibre of its sheaf is ready gives up its place.
(DEDUCED, log 55.) -/
def execSetAside (sheaf : Nat) (s : State) : Out :=
  .next (
    match s.sheaf? sheaf with
    | none => s
    | some sh =>
      if !sh.hold.yields || sh.issuing = 0 || sh.readyLanes &&& ~~~sh.batch = 0 then s
      else if s.asleep sh || s.isLifted sh || decide ((s.bell.toNat - sh.hold.since.toNat) * 85 < 6400) then
        s.again (.setAside sheaf)
      else s.modSheaf sheaf fun sh =>
        let m := sh.issuing
        { sh.modFibs m (fun _ f => { f with status := .waiting }) with
          aside := sh.aside ++ [⟨m, sh.hold⟩]
          batch := 0
          hold := Hold.none })

/-- ROW_REFILL (R26): the row is back in the register file. -/
def execRowRefill (sheaf name : Nat) (s : State) : Out :=
  .next (
    match s.sheaf? sheaf with
    | none => s
    | some sh =>
      if frostedCore s sh.core then s.again (.rowRefill sheaf name) else
      (s.spillRows (s.rowsUsed sh.core + 1 - physicalRows) sh.core sheaf).modSheaf sheaf fun sh => { sh with rows := amod sh.rows name fun r => { r with spilled := false } })

end Sys2Proof.Machine
end

