-- ==== Sys2Proof/Machine/Lift.lean ====
section
/-! DEFINITION. Lifting a bed (R356 to R358), the driver's choices for an escalated bed (R350), and frost and thaw of a tile (R363 to
R375). -/

namespace Sys2Proof.Machine

/-! ### LIFT (R356, R357) -/

/-- Bed images of a partition in its lift region, or on their way there. -/
def State.imagesUsed (s : State) (part : Nat) : Nat :=
  (s.beds.filter fun e => (e.2.status = .lifted || e.2.status = .lifting) &&
    ((s.launch? e.2.launch).map fun l => decide (l.part = part)).getD false).length

/-- Whether a bed finds room: 16 images are kept for escalations (R357). -/
def State.liftRoom (s : State) (part : Nat) (escalated : Bool) : Bool :=
  decide (s.imagesUsed part + (if escalated then 0 else 16) < Config.liftRoom part)

/-- The holds of a sheaf. -/
def Sheaf.holds (sh : Sheaf) : List Hold := (sh.hold :: (sh.putBy.toList.map (·.2))) ++ sh.aside.map (·.hold)

/-- Whether a sheaf has come to rest: no instruction that has acted is unfinished, every write has its Tw, which the bell has
reached, and every load that was sent has its data (R356). -/
def State.sheafDrained (s : State) (sh : Sheaf) : Bool :=
  !(sh.holds.any fun h => 2 ≤ h.phase) && sh.putBy.isNone &&
  !(sh.ops.any fun o => o.2.kind.writes) &&
  !(sh.ops.any fun o => (match o.2.kind with
    | .load .. | .sload _ => true
    | _ => false) && o.2.due &&& o.2.sent ≠ 0) &&
  (lanesIn sh.held).all fun l => sh.fib l true fun f => decide (f.horizon.toNat ≤ s.bell.toNat)

/-- Whether no unit of a command that is to stop is half done. -/
def State.cmdsDrained (s : State) (b : Bed) (bk : Nat) : Bool :=
  let last := !s.beds.any fun e => e.1 ≠ bk && e.2.core = b.core && e.2.launch = b.launch && e.2.status ≠ .lifted
  match s.seat? b.core b.seat with
  | none => true
  | some t => (t.mq ++ t.cq).all fun c => !c.wrote ||
      !(last || (c.bed = bk && ((s.hdrOf c.launch).map c.body.touchesWindow).getD false))

def State.bedDrained (s : State) (bk : Nat) (b : Bed) : Bool :=
  b.sheafs.all (fun u => ((s.sheaf? u).map s.sheafDrained).getD true) && s.cmdsDrained b bk

/-- Whether every fibre of a bed waits in DWAIT. -/
def State.bedAllDwait (s : State) (b : Bed) : Bool :=
  s.liveOf b ≠ [] && b.sheafs.all fun u => match s.sheaf? u with
    | some sh => sh.held &&& ~~~(sh.lanesWhere fun f => f.park = .dwait) = 0
    | none => true

/-- The end of a lift: slots, rows and units are free, the seat goes where no other bed of the launch remains, and the bed waits to
come back, an escalated one for the driver's choice, one in DWAIT for its window. -/
def State.liftEnd (s : State) (la : Launch) (bk : Nat) (b : Bed) : State :=
  let s1 := (s.modBed bk fun b => { b with status := .lifted }).releaseSeat b.core b.seat b.launch
  let stays := (b.escalated && b.choice.isNone) || s.bedAllDwait b
  let s2 := if stays then s1.pollDwait else s1.postOnce (.replant b.launch bk)
  s2.pollPlace la.part

/-- LIFT: issue stops, the bed is drained, and its image is taken; none is made without room, of a frosted tile, or while a sheaf of
the bed is stopped (R357, R423) or an RSMP is being completed. (DEDUCED, log 44.) (DEDUCED, log 45.) -/
def execLift (launch bed : Nat) (s : State) : Out :=
  .next (
    match s.launch? launch, s.bed? bed with
    | some la, some b =>
      if b.launch ≠ launch then s else
      let stopped := b.sheafs.any fun u => ((s.sheaf? u).map s.asleep).getD false
      match b.status with
      | .resident =>
        if stopped || la.rsmp.isSome then s.again (.lift launch bed)
        else if !s.liftRoom la.part b.escalated then s
        else (s.modBed bed fun b => { b with status := .lifting }).post (.lift launch bed)
      | .lifting =>
        if s.bedDrained bed b && !stopped && la.rsmp.isNone then s.liftEnd la bed b else s.again (.lift launch bed)
      | _ => s
    | _, _ => s)

/-! ### The driver's choice (R350) -/

/-- A choice is made: it takes effect on replant, or at once where no lift was made. -/
def State.choose (s : State) (launch bed : Nat) (c : EscChoice) : State :=
  match s.bed? bed with
  | none => s
  | some b =>
    if b.launch ≠ launch || !b.escalated then s else
      let s1 := s.modBed bed fun b => { b with choice := some c }
      match b.status with
      | .lifted => s1.postOnce (.replant launch bed)
      | .resident => if s.events.any (· = .lift launch bed) || frostedCore s b.core then s1 else s1.applyChoice bed
      | _ => s1

/-- ESCALATION_END: the launch ends with status 0x09. (DEDUCED, log 45.) -/
def execEscalationEnd (launch bed : Nat) (s : State) : Out :=
  .next (if ((s.bed? bed).map fun b => b.escalated && decide (b.launch = launch)).getD false then s.endLaunch launch else s)

/-- ESCALATION_CULL: the record's fibres are culled. -/
def execEscalationCull (launch bed : Nat) (s : State) : Out := .next (s.choose launch bed .cull)

/-- ESCALATION_RETRY: a new handler address; refused while a sheaf with a record holds four frames. -/
def execEscalationRetry (launch bed : Nat) (handler : Word) (s : State) : Out :=
  .next (
    let full := ((s.bed? bed).map fun b => b.sheafs.any fun u => match s.sheaf? u with
      | some sh => sh.escalated ≠ [] && decide (4 ≤ sh.frames.length)
      | none => false).getD false
    if full then s else s.choose launch bed (.retry handler))

/-! ### STOP_REQUEST and FROST_SEAL (R363 to R368) -/

/-- The partition to which a core's cluster belongs. -/
def State.partOfCore (s : State) (core : Nat) : Nat := ((s.parts.find? fun p => p.2.clusters.contains (clusterOf core)).map (·.1)).getD 0

/-- Beds in a tile. -/
def State.bedsOn (s : State) (core : Nat) : List (Nat × Bed) := s.beds.filter fun e => e.2.core = core && e.2.status ≠ .lifted

/-- The tile that a request on its way, or an answer to one, belongs to (R364). -/
def State.tileOf (s : State) (e : Event) : Option Nat :=
  let core := fun u => ((s.sheaf? u).filter fun sh => !s.isLifted sh).map (·.core)
  match e with
  | .homeRead m => some m.core
  | .homeWrite ⟨.fibres u _ _ _, _, _, _, _⟩ => core u
  | .atomicExecution m => core m.sheaf
  | .allowanceRefill m => core m.sheaf
  | .spawnRequest m => core m.sheaf
  | .kvAgentStep m => if m.sent then core m.sheaf else none
  | .twReturn r => core r.sheaf
  | .atomicReturn r => core r.sheaf
  | .counterReturn r => core r.sheaf
  | .deferredFault m => core m.sheaf
  | .loadResponse r => match ((s.sheaf? r.sheaf).bind fun sh => aget sh.ops r.op).map OpRec.kind with
    | some (.load ..) | some (.sload _) | some (.pgdrop ..) => core r.sheaf
    | _ => none
  | _ => none

/-- The same of a request at a peer. -/
def State.tileOfWait (s : State) (w : PeerWait) : Option Nat :=
  let core := fun u => ((s.sheaf? u).filter fun sh => !s.isLifted sh).map (·.core)
  match w with
  | .load u .. | .write u .. | .atomic u .. | .charge u .. | .kv u .. => core u
  | .engine cmd _ => (s.seatOf cmd).map fun e => e.1 / 4
  | .fetch key _ => some (key / 4)
  | _ => none

/-- INITCRED of every tile's port (R364). -/
def initCred : Nat := 1024

/-- Entries of a port's outstanding table: requests sent whose answers have not reached the tile (R364). (DEDUCED, log 46.) -/
def State.outstanding (s : State) (core : Nat) : Nat :=
  min initCred ((s.events.filter fun e => s.tileOf e = some core).length + (s.peers.filter fun e => s.tileOfWait e.2.what = some core).length)

/-- A frost slot, and the bound of an image (R365, Table 16.1). -/
def frostSlotBytes : Nat := 4718592

/-- The address of a core's frost slot, in the region that the driver has reserved (R365). (DESIGN CHOICE, log 66.) -/
def frostSlot (core : Nat) : Nat := Config.frostBase core

/-- Bytes of a section by its KIND, for the arrays whose size the manual gives (Table 16.2, R3): the rows, their live and full bits,
the scratchpad and its full bits, the instruction cache, the dictionaries, the tiles, the late arrivals. -/
def sectionBytes (outstand : Nat) : Nat → Nat
  | 2 => 24576 * 128
  | 3 => 24576 * 8
  | 4 => 48 * 16384
  | 5 => 48 * 16384 / 32
  | 6 => 65536
  | 7 => 131072
  | 8 => 4 * 1024 * 8
  | 9 => 4 * 64 * 1024
  | 11 => 96 * outstand
  | _ => 0

/-- STOP_REQUEST: the tile stops where it stands; a lift in progress is abandoned. -/
def execStopRequest (core : Nat) (s : State) : Out :=
  .next (
    if frostedCore s core then s else
      let id := s.dev.images + 1
      let img : Image := {
        core := core
        part := s.partOfCore core
        stopBell := s.bell
        sealBell := none
        outstand := s.outstanding core
        credits := initCred - s.outstanding core
        seats := (List.range 4).map fun i => (((s.seat? core i).bind fun t => s.launch? t.launch).map (·.number)).getD 0
        lateSeal := 0
        late := []
        sections := [1, 2, 3, 4, 5, 6, 7, 8, 9, 10, 11]
        tampered := false }
      let lifting := (s.bedsOn core).filterMap fun e => if e.2.status = .lifting then some e.1 else none
      let s1 : State := { s with
        dev := { s.dev with images := id }
        images := s.images ++ [(id, img)]
        beds := amap s.beds fun _ b => if b.core = core && b.status = .lifting then { b with status := .resident } else b
        events := s.events.filter fun e => match e with
          | .lift _ b => !lifting.contains b
          | _ => true }
      (s1.modCore core fun c => { c with frosted := some id }).post (.frostSeal core))

def State.modImage (s : State) (id : Nat) (f : Image → Image) : State := { s with images := amod s.images id f }

/-- FROST_SEAL: the image is complete. (DEDUCED, log 46.) -/
def execFrostSeal (core : Nat) (s : State) : Out :=
  .next (
    match (s.coreState core).frosted with
    | none => s
    | some id => s.modImage id fun i => if i.sealBell.isSome then i else { i with sealBell := some s.bell, lateSeal := i.late.length })

/-! ### Late arrivals (R369) -/

/-- A response delivered to where its sheaf is now, at once: results go to a sheaf in the order in which they came. -/
def State.deliver (s : State) (r : Response) : State :=
  match r with
  | .load r => nextOr s (execLoadResponse r s)
  | .tw r => nextOr s (execTwReturn r s)
  | .atom r => nextOr s (execAtomicReturn r s)
  | .ctr r => nextOr s (execCounterReturn r s)
  | .spawn r => s.gate r.sheaf (.spawn r) fun s _ => s.modSheaf r.sheaf fun sh => sh.takeAnswer r
  | .fault m => nextOr s (execDeferredFault m s)
  | .kv r => s.kvAnswer r
  | .notice u bits => s.setNotice u bits

/-- LATE_ARRIVAL: the next record of the image; or, thawed since, the response goes on. (DEDUCED, log 46.) -/
def execLateArrival (core : Nat) (r : Response) (s : State) : Out :=
  .next (
    match (s.coreState core).frosted with
    | some id => s.modImage id fun i => { i with late := i.late ++ [(s.bell, r)] }
    | none => s.deliver r)

/-! ### THAW (R370, R371) -/

/-- Whether a tile holds no bed and no seat. -/
def State.idle (s : State) (core : Nat) : Bool :=
  s.bedsOn core = [] && (List.range 4).all (fun i => (s.seat? core i).isNone) && !frostedCore s core

/-- Whether the cluster bindings of an image's beds let it go to a cluster (R370). -/
def State.bindingOk (s : State) (core cluster : Nat) : Bool :=
  (s.bedsOn core).all fun e => match s.launch? e.2.launch with
    | none => true
    | some la =>
      let h := la.hdr
      if h.clulvl = 0 then true else
        let set := h.setOf e.2.wid.toNat
        let c := 2 ^ (h.bitsBelow h.clulvl - h.wb)
        aget la.bound set = some cluster ||
          !(({ s with beds := s.beds.filter fun x => !(x.2.core = core && x.2.status ≠ .lifted) } : State).anyBed e.2.launch h 0
            (set * c) ((set + 1) * c))

/-- Whether a tile may take an image. -/
def State.mayThaw (s : State) (img : Image) (target : Nat) : Bool :=
  (target = img.core || s.idle target) && ((s.part? img.part).map fun p => p.clusters.contains (clusterOf target)).getD false &&
    s.bindingOk img.core (clusterOf target)

/-- A section table that R367 admits. -/
def Image.sectionsOk (i : Image) : Bool := 1 ≤ i.sections.length && i.sections.length ≤ 16 && i.sections.all fun k => 1 ≤ k && k ≤ 11

/-- Requests of a tile on their way, as its port forwards their responses to another. -/
def Event.rename (a b : Nat) (e : Event) : Event :=
  let f := fun (c : Nat) => if c = a then b else c
  match e with
  | .homeRead m => .homeRead { m with core := f m.core }
  | .homeWrite ⟨.fibres u k l c, line, bs, w, ch⟩ => .homeWrite ⟨.fibres u k l (f c), line, bs, w, ch⟩
  | .atomicExecution m => .atomicExecution { m with core := f m.core }
  | .matrixCommandStart c t => .matrixCommandStart (f c) t
  | .matrixStep c t => .matrixStep (f c) t
  | .tileRowTransfer c t => .tileRowTransfer (f c) t
  | .copyUnit c t k => .copyUnit (f c) t k
  | .promisedBellTime c t k => .promisedBellTime (f c) t k
  | .engineFault c t k => .engineFault (f c) t k
  | .engineResume c t k => .engineResume (f c) t k
  | e => e

/-- What a tile's caches hold is gone: another tile's contents are streamed in (R370, R57). -/
def State.emptyTile (s : State) (core : Nat) : State :=
  { s with
    l1 := s.l1.filter fun e => e.1.1 ≠ core
    icache := s.icache.filter fun e => e.1.1 / 4 ≠ core
    fetchBad := s.fetchBad.filter fun e => e.1.1 / 4 ≠ core
    fetchGot := s.fetchGot.filter fun e => e.1.1 / 4 ≠ core }

/-- The state of a tile on another core (R361): sheafs, beds, seats with their engines, caches, and its stop (R423). -/
def State.renameCore (s0 : State) (a b : Nat) : State :=
  let s := if a = b then s0 else s0.emptyTile b
  let key := fun (k : Nat) => if k / 4 = a then State.seatKey b (k % 4) else k
  let cmd := fun (c : Cmd) => if c.core = a then { c with core := b } else c
  let own := s.coreState a
  { s with
    sheafs := amap s.sheafs fun _ sh => if sh.core = a && !s.isLifted sh then { sh with core := b } else sh
    beds := amap s.beds fun _ x => if x.core = a && (x.status ≠ .lifted || x.image.isNone) then { x with core := b } else x
    seats := s.seats.map fun e => (key e.1, { e.2 with mq := e.2.mq.map cmd, cq := e.2.cq.map cmd })
    l1 := s.l1.map fun e => if e.1.1 = a then ((b, e.1.2), e.2) else e
    icache := s.icache.map fun e => ((key e.1.1, e.1.2), e.2)
    fetchBad := s.fetchBad.map fun e => ((key e.1.1, e.1.2), e.2)
    fetchGot := s.fetchGot.map fun e => ((key e.1.1, e.1.2), e.2)
    budgets := amap s.budgets fun _ x => { x with queue := x.queue.map fun e => (if e.1 = a then b else e.1, e.2) }
    peers := s.peers.map fun e => match e.2.what with
      | .fetch k line => (e.1, { e.2 with what := .fetch (key k) line })
      | _ => e
    events := s.events.map (Event.rename a b)
    cores := if a = b then s.cores else aset (aset s.cores a CoreState.idle) b own }

/-- An image and its mark are gone. -/
def State.dropImage (s : State) (id : Nat) (core : Nat) : State :=
  ({ s with images := adel s.images id } : State).modCore core fun c => { c with frosted := none }

/-- Notices that the front end has held for a tile are sent (R369). -/
def State.sendNotices (s : State) (core : Nat) : State :=
  (s.coreState core).notices.foldl (fun s r => s.deliver r) (s.modCore core fun c => { c with notices := [] })

/-- The tile runs on at its target: floors rise, TLBs are empty, the late arrivals are replayed, bindings follow (R370). -/
def State.thawTo (s : State) (id : Nat) (img : Image) (target : Nat) : State :=
  let s1 := (s.renameCore img.core target).dropImage id target
  let s2 : State := { s1 with
    sheafs := amap s1.sheafs fun _ sh => if sh.core = target && !s1.isLifted sh then
      sh.modFibs sh.held (fun _ f => { f with floor := maxWord [f.floor, s1.bell] }) else sh
    tlb := s1.tlb.filter fun e => e.cluster ≠ clusterOf target }
  let s3 := (s2.bedsOn target).foldl (fun s e => s.modLaunch e.2.launch fun la => if la.hdr.clulvl = 0 then la else
    { la with bound := aset la.bound (la.hdr.setOf e.2.wid.toNat) (clusterOf target) }) s2
  let s4 := img.late.foldl (fun s r => s.deliver r.2) s3
  let s5 := (List.range 4).foldl (fun s i => s.kickSeat target i) (s4.sendNotices target)
  let s6 := (s5.bedsOn target).foldl (fun s e => if e.2.escalated && e.2.choice.isNone then s.postOnce (.lift e.2.launch e.1)
    else if e.2.escalated then s.applyChoice e.1 else s) s5
  (s6.pollDwait).pollPlace img.part

/-- Each launch named in SEATLAUNCH ends, and the failure is logged (R371). -/
def State.thawFails (s : State) (id : Nat) (img : Image) : State :=
  let las := ((List.range 4).filterMap fun i => (s.seat? img.core i).map (·.launch)).eraseDups
  let s1 := s.logPart img.part 0 id
  ((las.foldl (fun s k => s.endLaunch k) s1).dropImage id img.core).pollPlace img.part

/-- An image rebuilt as bed images and seat images of the lift region (R371). -/
def State.rebuild (s : State) (id : Nat) (img : Image) : State :=
  let beds := s.bedsOn img.core
  let s1 := beds.foldl (fun s e => (s.modBed e.1 fun b => if b.status = .completing then b else { b with status := .lifted })) s
  let s2 := beds.foldl (fun s e => s.releaseSeat e.2.core e.2.seat e.2.launch) s1
  let s3 := (img.late.foldl (fun s r => s.deliver r.2) (s2.dropImage id img.core)).sendNotices img.core
  (beds.foldl (fun s e => if e.2.escalated && e.2.choice.isNone then s else s.postOnce (.replant e.2.launch e.1)) s3).pollPlace img.part

/-- THAW: checked against its seal and its section table, then its revision, and restored. (DEDUCED, log 46.) -/
def execThaw (image target : Nat) (s : State) : Out :=
  .next (
    match aget s.images image with
    | none => s
    | some img =>
      if (s.coreState img.core).frosted ≠ some image then s
      else if img.sealBell.isNone then s.again (.thaw image target)
      else if img.tampered || !img.sectionsOk then (s.report (.thawRefused image)).thawFails image img
      else if !s.mayThaw img target then s
      else
        let rev := Config.tileRevision img.core
        if Config.tileRevision target = rev then s.thawTo image img target
        else
          let s1 := s.report (.thawMismatch image)
          match (s.coresIn img.part).find? fun c => decide (Config.tileRevision c = rev) && c ≠ img.core && s.mayThaw img c with
          | some c => s1.thawTo image img c
          | none => if Config.holdsLayout rev then s1.rebuild image img else s1.thawFails image img)

end Sys2Proof.Machine
end

