-- ==== Sys2Proof/Machine/Services.lean ====
section
/-! DEFINITION. The services of the device: function modes and watchdogs (R404 to R406), the reset ladder (R407 to R409), boot and
recovery (R411, R412), attestation (R413), power, cooling and pins (R414 to R416). -/

namespace Sys2Proof.Machine

def State.modDev (s : State) (f : Services → Services) : State := { s with dev := f s.dev }

/-! ### Modes (R404) -/

/-- MODE_CHANGE: events that begin after it follow the new mode; in recovery the mailbox takes no setting (R411). -/
def execModeChange (part : Nat) (fn : ModeFn) (assisted : Bool) (s : State) : Out :=
  .next (if s.dev.recovery then s else s.modPart part fun p => match fn with
    | .walks => { p with walksAssisted := assisted }
    | .cow => { p with cowAssisted := assisted }
    | .relief => { p with reliefAssisted := assisted }
    | .migration => { p with migrationAssisted := assisted }
    | .predicates => { p with predicatesAssisted := assisted })

/-! ### Rungs 1 and 2 (R407, R409, R388) -/

/-- A command's frame no longer reissues it (R409). -/
def State.forgetReplay (s : State) (cmd : Nat) : State :=
  let f := fun (x : Frame) => match x.replay with
    | some (.command _ _ c) => if c = cmd then { x with replay := none } else x
    | _ => x
  { s with sheafs := amap s.sheafs fun _ sh => { sh with
      frames := sh.frames.map f
      escalated := sh.escalated.map fun e => { e with frame := f e.frame } } }

/-- A command ends with CODE 0x10 after its last whole unit (R388). -/
def State.endReset (s : State) (c : Cmd) : State :=
  ((if c.wrote && c.fault.isNone then s.unitDone c.id else s).engineEnd c.id 0x10).forgetReplay c.id

/-- Commands of a seat's queue. -/
def Seat.queue (t : Seat) (matrix : Bool) : List Cmd := if matrix then t.mq else t.cq

/-- Whether a queue cannot be reset yet: its tile or a sheaf of it stands still, or a unit's writes are unanswered. -/
def State.resetWaits (s : State) (core : Nat) (cs : List Cmd) : Bool :=
  cs ≠ [] && (frostedCore s core || cs.any fun c => !s.mayEnd c || (c.wrote && decide (c.peersDue ≠ 0)))

def State.seatQueue (s : State) (core seat : Nat) (matrix : Bool) : List Cmd := ((s.seat? core seat).map fun t => t.queue matrix).getD []

/-- Every command of a ring that has not started ends with status 0x0A. -/
def State.discardRing (s : State) (ring : Nat) : State :=
  match s.ring? ring with
  | none => s
  | some r => (r.pending.filter fun p => !p.started).foldl (fun s p => s.complete ring p.seq 0x0A 0) s

/-- QUEUE_RESET, rung 1. (DEDUCED, log 49.) -/
def execQueueReset (q : QueueSel) (s : State) : Out :=
  .next (
    let seat := fun (core seat : Nat) (matrix : Bool) =>
      let cs := s.seatQueue core seat matrix
      if s.resetWaits core cs then s.again (.queueReset q) else cs.foldl State.endReset s
    match q with
    | .ring r => s.discardRing r
    | .matrix core n => seat core n true
    | .copy core n => seat core n false)

/-- ENGINE_RESET, rung 2: every command of the engine in all four seats, with an entry in the error log.
(DEDUCED, log 49.) -/
def execEngineReset (e : EngineSel) (s : State) : Out :=
  .next (
    let go := fun (core : Nat) (matrix : Bool) =>
      let cs := [0, 1, 2, 3].flatMap fun n => s.seatQueue core n matrix
      if s.resetWaits core cs then s.again (.engineReset e)
      else (cs.foldl State.endReset s).logPart (s.partOfCore core) 0x0E core
    match e with
    | .matrix core => go core true
    | .copy core => go core false)

/-! ### Rung 3 and the watchdogs (R405, R407) -/

/-- Live launches of which a test holds end with status 0x09. -/
def State.endLaunches (s : State) (p : Nat → Launch → Bool) : State :=
  (akeys s.launches fun k l => p k l && !l.completed).foldl State.endLaunch s

/-- Frost images of which a test holds are discarded. -/
def State.dropImages (s : State) (p : Image → Bool) : State :=
  (s.images.filter fun e => p e.2).foldl (fun s e => s.dropImage e.1 e.2.core) s

/-- The rings of a partition. -/
def State.ringsOf (s : State) (part : Nat) : List (Nat × Ring) := s.rings.filter fun e => ringPart e.1 = part

/-- The partition rung. -/
def State.endPartition (s : State) (part : Nat) : State :=
  let s1 := (s.endLaunches fun _ l => decide (l.part = part)).dropImages fun i => decide (i.part = part)
  let s2 := ((s1.ringsOf part).filter fun e => !e.2.stopped).foldl (fun s e => s.stopRing e.1) s1
  (((s2.ringsOf part).map fun e => e.2.reg.vector).eraseDups.foldl (fun s v => s.emit (.interrupt part v)) s2).logPart part 0 part

/-- PARTITION_RESET, rung 3. (DEDUCED, log 49.) -/
def execPartitionReset (part : Nat) (s : State) : Out := .next (s.endPartition part)

/-- Ten reports of 10 µs each (R405). -/
def tenReports : Nat := 100000

/-- Whether a watched processor has missed ten reports in a row. -/
def State.silent (s : State) (agent : Nat) : Bool := decide ((aget s.dev.heard agent).getD 0 + tenReports ≤ s.bell.toNat)

/-- A processor is heard of, and its missed reports count from here. -/
def State.hear (s : State) (agent : Nat) : State := s.modDev fun d => { d with heard := aset d.heard agent s.bell.toNat }

/-- The front end as a watched processor. -/
def frontEnd : Nat := 6

/-- WATCHDOG_REPORT: an aide core's, or the front end's. -/
def execWatchdogReport (agent : Option Nat) (s : State) : Out := .next (s.hear (agent.getD frontEnd))

/-- AIDE_RESTART: it takes up the completion records and the doorbells that are pending. -/
def execAideRestart (aide : Nat) (s : State) : Out :=
  .next (
    if 6 ≤ aide || !s.silent aide then s else
      s.rings.foldl (fun s e => if e.2.held = [] || e.2.stopped then s else s.postOnce (.completionRecord e.1)) (s.hear aide))

/-- FRONT_END_RESTART: the partition rung everywhere; the restarted front end reads each ring on from its read count. -/
def execFrontEndRestart (s : State) : Out :=
  .next (
    if !s.silent frontEnd then s else
      let s1 := (s.parts.map (·.1)).foldl State.endPartition s
      let s2 := s1.rings.foldl (fun s e => nextOr s (execRingRestart e.1 s)) s1
      (s2.hear frontEnd).report .frontEndRestarted)

/-- HEARTBEAT (R406): the register rises and the hub timer is serviced, while the head core runs. -/
def execHeartbeat (s : State) : Out :=
  .next (if s.dev.failed then s else s.modDev fun d => { d with heartbeat := d.heartbeat + 1, serviced := s.bell.toNat })

/-- HUB_TIMER_EXPIRY (R406): 500 ms without service. -/
def execHubTimerExpiry (s : State) : Out :=
  .next (if s.bell.toNat < s.dev.serviced + 500000000 then s else s.modDev fun d => { d with failed := true, alert := true })

/-! ### Rung 4 (R408) -/

/-- A cluster's allowance of a counter returns to the counter's home. -/
def Ctr.withdraw (c : Ctr) (cl : Nat) : Ctr := { c with remain := c.remain + c.held cl, allow := adel c.allow cl }

/-- The allowances of a die's clusters return. -/
def State.withdrawDie (s : State) (die : Nat) : State :=
  let s1 := (s.allows.filter fun e => e.1.1 / 32 = die).foldl (fun s e => s.setCtr e.1.2 ((s.ctrAt e.1.2).withdraw e.1.1)) s
  { s1 with pools := amap s1.pools fun _ p =>
      p.setCtr ((p.allow.filter fun e => e.1 / 32 = die).foldl (fun c e => c.withdraw e.1) p.ctr) }

/-- Whether a line is homed at a die (R243). -/
def homedAt (die : Nat) (line : Loc) : Bool :=
  match line with
  | .dev a => decide (a / 65536 % 4 = die)
  | _ => false

/-- The dirty lines homed at a die are written back; one that cannot be becomes poisoned, and counts 4 sectors (log 19). -/
def State.writeBackDie (s : State) (die : Nat) : State :=
  ((s.homes.filter fun e => homedAt die e.1 && e.2.dirty.isSome).map (·.1)).zipIdx.foldl (fun s e =>
    let s1 := if Config.lineLost (s.free + e.2) then s.setHome e.1 { s.home e.1 with poison := true } else s
    s1.settleLine e.1) s

/-- Nothing is left in the caches of a die. -/
def State.clearDie (s : State) (die : Nat) : State :=
  { s with
    l1 := s.l1.filter fun e => dieOf e.1.1 ≠ die
    cluster := s.cluster.filter fun e => e.1.1 / 32 ≠ die
    icache := s.icache.filter fun e => dieOf (e.1.1 / 4) ≠ die
    tlb := s.tlb.filter fun e => e.cluster = hubCluster || e.cluster / 32 ≠ die
    cores := s.cores.filter fun e => dieOf e.1 ≠ die }

/-- Launches with a bed, a seat or a frost image on a die. -/
def State.onDie (s : State) (die : Nat) : List Nat :=
  ((s.beds.filter fun e => dieOf e.2.core = die && e.2.status ≠ .lifted).map (·.2.launch) ++
    (s.seats.filter fun e => dieOf (e.1 / 4) = die).map (·.2.launch)).eraseDups

/-- DIE_RESET, rung 4.
(DESIGN CHOICE, log 19.) (DEDUCED, log 50.) (DESIGN CHOICE, log 61.) -/
def execDieReset (die : Nat) (s : State) : Out :=
  .next (
    let las := s.onDie die
    let parts := (las.filterMap fun k => (s.launch? k).map (·.part)).eraseDups
    let s1 := (s.endLaunches fun k _ => las.contains k).dropImages fun i => decide (dieOf i.core = die)
    let owned := s1.homes.filterMap fun e => match e.2.cluster with
      | some c => if c.1 / 32 = die then some e.1 else none
      | none => none
    let s2 := owned.foldl (fun s l => s.recall l none) s1
    let s3 := ((s2.withdrawDie die).writeBackDie die).clearDie die
    let s4 := parts.foldl (fun s p => s.logPart p 0 die) s3
    (s4.parts.map (·.1)).foldl State.pollPlace (s4.report (.dieReset die)))

/-! ### Rung 5 (R407, R417) -/

/-- Whether writes already issued for frames are still on their way, or a page of the partition is being changed. -/
def State.writesTo (s : State) (fs : List Nat) (part : Nat) : Bool :=
  let mine := fun (asn : Nat) => ((aget s.spaces asn).map fun sp => decide (sp.part = part)).getD false
  (s.events.any fun e => match e with
    | .homeWrite m => inFrames fs m.line
    | .atomicExecution m => inFrames fs m.word
    | _ => false) || s.moves.any (fun m => mine m.req.asn) || s.holding.any fun e => mine e.1.asn

/-- Steps of a function's frames and rings that end with them. -/
def Event.ofFunction (part : Nat) (fs : List Nat) (e : Event) : Bool :=
  match e with
  | .homeRead m => inFrames fs m.line
  | .settle a => inFrames fs (.dev a)
  | .homeSliceEviction l => inFrames fs l
  | .allowanceRefill m => inFrames fs (.dev m.ctr)
  | .holderReport _ c => inFrames fs (.dev c)
  | .launch c | .dma c | .signal c | .config c | .raise c | .lower c | .balloon c => ringPart c.ring = part
  | .doorbell r _ | .completionRecord r => ringPart r = part
  | _ => false

/-- What a function had is released: spaces, rings, translations, page requests, log, frames with their contents, pools. -/
def State.releaseFunction (s : State) (part : Nat) (fs : List Nat) : State :=
  let s1 := (s.hub.filter fun c => c.part = part).foldl (fun s c => s.dropCmd c) (s.unuse fs)
  let asns := akeys s1.spaces fun _ sp => decide (sp.part = part)
  let s2 : State := { s1 with
    hub := s1.hub.filter fun c => c.part ≠ part
    events := s1.events.filter fun e => !e.ofFunction part fs
    launches := s1.launches.filter fun e => e.2.part ≠ part
    spaces := s1.spaces.filter fun e => e.2.part ≠ part
    rings := s1.rings.filter fun e => ringPart e.1 ≠ part
    hubGot := s1.hubGot.filter fun e => e.1.1 / 2 / 2 ^ 32 / 16 ≠ part
    peers := s1.peers.filter fun e => match e.2.what with
      | .hub _ p _ => p ≠ part
      | _ => true
    inbound := s1.inbound.filter fun i => match i.req with
      | .signal r _ => ringPart r ≠ part
      | _ => true
    tlb := s1.tlb.filter fun e => !asns.contains e.asn
    walkWaits := s1.walkWaits.filter fun w => !asns.contains w.asn
    atc := s1.atc.filter fun e => e.fn ≠ part
    atsReqs := s1.atsReqs.filter fun r => r.fn ≠ part
    pageReqs := s1.pageReqs.filter fun r => r.fn ≠ part
    priOff := s1.priOff.filter fun p => p ≠ part
    pools := s1.pools.filter fun e => e.1 / 256 ≠ part
    budgets := s1.budgets.filter fun e => e.1.1 / 256 ≠ part
    homes := s1.homes.filter fun e => !inFrames fs e.1
    allows := s1.allows.filter fun e => !inFrames fs (.dev e.1.2)
    totals := s1.totals.filter fun e => !inFrames fs (.dev e.1)
    frames := s1.frames.filter fun e => !fs.contains e.1 }
  (s2.clearFrames fs).modPart part fun p => { p with log := [], overwritten := 0 }

/-- FUNCTION_LEVEL_RESET, rung 5: as rung 3; once the writes already issued have been made, what the function had is gone.
(DEDUCED, log 50.) -/
def execFunctionLevelReset (part : Nat) (s : State) : Out :=
  .next (
    let live := s.launches.any (fun e => e.2.part = part && !e.2.completed) || (s.ringsOf part).any fun e => !e.2.stopped
    let s1 := if live then s.endPartition part else s
    let fs := akeys s1.frames fun _ f => decide (f.pool.map (·.1) = some part)
    if s1.writesTo fs part then s1.again (.functionLevelReset part)
    else ((s1.releaseFunction part fs).emit (.flrDone part)).report (.functionReset part))

/-! ### Rung 6, boot and recovery (R407, R411, R412, R415, R416) -/

/-- Inputs of the pins, the management bus and the physical function, which a whole-device reset does not take away. -/
def Event.outside (e : Event) : Bool :=
  match e with
  | .perstN | .resetN | .pwrgd | .pwrgdFall | .physicalFunctionFlr | .recoveryImage .. | .thermalThrottle _ |
    .thermalThrottleEnd _ | .thermalTrip _ | .getVersion | .getCapabilities | .negotiateAlgorithms _ | .getDigests |
    .getCertificate .. | .challenge _ | .getMeasurements _ => true
  | _ => false

/-- The whole-device rung: everything but the host's memory is as at reset; with power the device boots (R412), or stays in recovery where
its firmware is refused (R411). (DEDUCED, log 50.) -/
def State.restart (s : State) (powered refused : Bool) : State :=
  let stuck := powered && refused
  { State.reset with
    free := s.free
    hostMem := s.hostMem
    events := s.events.filter Event.outside
    reports := s.reports
    out := s.out
    dev := { Services.reset with
      powered := powered
      booted := powered && !stuck
      recovery := if powered then stuck else s.dev.recovery
      failed := stuck
      alert := stuck || s.dev.throttling ≠ []
      thermtrip := s.dev.thermtrip && !powered
      keyDrawn := powered && !stuck
      throttling := s.dev.throttling } }

/-- The device starts again from the images it holds: those refused before, or those that this boot refuses.
(DESIGN CHOICE, log 4.) -/
def State.wholeDevice (s : State) (powered : Bool) : State := s.restart powered (s.dev.recovery || Config.bootRefused s.free)

/-- PERST_N. -/
def execPerstN (s : State) : Out := .next (s.wholeDevice s.dev.powered)
/-- RESET_N. -/
def execResetN (s : State) : Out := .next (s.wholeDevice s.dev.powered)
/-- PHYSICAL_FUNCTION_FLR. -/
def execPhysicalFunctionFlr (s : State) : Out := .next (s.wholeDevice s.dev.powered)
/-- PWRGD: boot begins on its rising edge. -/
def execPwrgd (s : State) : Out := .next (if s.dev.powered then s else s.wholeDevice true)
/-- PWRGD_FALL. -/
def execPwrgdFall (s : State) : Out := .next (s.wholeDevice false)

/-- RECOVERY_IMAGE (R411): both signatures verify and the version is no older than the fuses', or the device stays in
recovery. -/
def execRecoveryImage (version : Nat) (ecdsaOk lmsOk : Bool) (s : State) : Out :=
  .next (
    if !s.dev.recovery then s
    else if ecdsaOk && lmsOk && decide (Config.fuseVersion ≤ version) then
      s.restart s.dev.powered false
    else s.modDev fun d => { d with failed := true, alert := true, booted := false })

/-- THERMAL_THROTTLE: ALERT_N is low while a die throttles; throttling itself changes timing only. -/
def execThermalThrottle (die : Nat) (s : State) : Out :=
  .next (s.modDev fun d => { d with
    throttling := if d.throttling.contains die then d.throttling else d.throttling ++ [die]
    alert := true })

/-- THERMAL_THROTTLE_END. -/
def execThermalThrottleEnd (die : Nat) (s : State) : Out :=
  .next (s.modDev fun d =>
    let rest := d.throttling.filter fun x => x ≠ die
    { d with throttling := rest, alert := d.failed || rest ≠ [] })

/-- THERMAL_TRIP: THERMTRIP_N low and the power gone, as rung 6. -/
def execThermalTrip (_die : Nat) (s : State) : Out := .next ((s.wholeDevice false).modDev fun d => { d with thermtrip := true })

/-- POWER_CAP (R414): from 1.6 to 3.2 kW. -/
def execPowerCap (watts : Nat) (s : State) : Out :=
  .next (if s.dev.recovery || watts < 1600 || 3200 < watts then s else s.modDev fun d => { d with powerCap := watts })

/-! ### Attestation (R413, log 10) -/

def State.spdm (s : State) (a : SpdmAnswer) : State := s.emit (.spdm a)

/-- GET_VERSION: SPDM 1.3; a new exchange begins. (PRESUMED, log 10.) -/
def execGetVersion (s : State) : Out := .next ((s.modDev fun d => { d with spdmVersion := true, spdmAlgs := false }).spdm (.version 1 3))

/-- GET_CAPABILITIES: no secure sessions. -/
def execGetCapabilities (s : State) : Out :=
  .next (s.spdm (if s.dev.spdmVersion then .capabilities true true true false else .error))

/-- NEGOTIATE_ALGORITHMS: ECDSA P-384 with SHA-384, or nothing. (PRESUMED, log 10.) -/
def execNegotiateAlgorithms (offersP384 : Bool) (s : State) : Out :=
  .next (if s.dev.spdmVersion && offersP384 then (s.modDev fun d => { d with spdmAlgs := true }).spdm (.algorithms true true)
    else s.spdm .error)

/-- An answer that needs the algorithms to be settled. -/
def State.attest (s : State) (a : SpdmAnswer) : State := s.spdm (if s.dev.spdmAlgs then a else .error)

/-- GET_DIGESTS. -/
def execGetDigests (s : State) : Out := .next (s.attest (.digests (Config.certDigest 0)))

/-- GET_CERTIFICATE: a part of the chain. -/
def execGetCertificate (offset length : Nat) (s : State) : Out :=
  .next (s.attest (.certificate ((List.range length).map fun i => Config.certByte (offset + i))))

/-- CHALLENGE: signed with the identity key. -/
def execChallenge (nonce : Nat) (s : State) : Out := .next (s.attest (.challengeAuth nonce (Config.signature nonce)))

/-- GET_MEASUREMENTS (Table 19.5): one of the six, or all of them. (PRESUMED, log 10.) -/
def execGetMeasurements (index : Nat) (s : State) : Out :=
  .next (s.attest (if index = 0xFF then .measurements index ([1, 2, 3, 4, 5, 6].map Config.measurement)
    else if 1 ≤ index && index ≤ 6 then .measurements index [Config.measurement index]
    else if index = 0 then .measurements 6 []
    else .error))

end Sys2Proof.Machine
end

