-- ==== Sys2Proof/Machine/Debug.lean ====
section
/-! DEFINITION. Stall samples (R418), watch ranges and their actions (R419 to R421), precise stops (R422, R423), trace triggers (R425),
the periods of bandwidth shares (R342), and the driver's settings through the mailbox. -/

namespace Sys2Proof.Machine

/-! ### BANDWIDTH_PERIOD (R342) -/

/-- The tokens of a pool in its next period, and the debt it carries on. -/
def Budget.refill (b : Budget) (spare favoured : Nat) : Budget :=
  if b.base = 0 then { b with tokens := 0, ports := [], debt := 0, waited := false } else
    let given := b.base + (if b.waited then spare * b.base / favoured else 0)
    { b with tokens := given - b.debt, ports := [], debt := b.debt - given, waited := false }

/-- BANDWIDTH_PERIOD: the unspent tokens of a die are shared among the pools that had a request wait. -/
def execBandwidthPeriod (die : Nat) (s : State) : Out :=
  .next (
    let mine := s.budgets.filter fun e => e.1.2 = die && e.2.base ≠ 0
    let spare := (mine.map fun e => e.2.ctr.total).sum
    let favoured := ((mine.filter fun e => e.2.waited).map fun e => e.2.base).sum
    { s with budgets := amap s.budgets fun k b => if k.2 = die then b.refill spare favoured else b })

/-! ### STALL_SAMPLE (R418) -/

/-- The sheaf that has waited longest, the lowest slot among equals. -/
def longest : List Sheaf → Option Sheaf
  | [] => none
  | a :: t => match longest t with
    | none => some a
    | some b => if b.wait < a.wait || (b.wait = a.wait && a.slot ≤ b.slot) then some a else some b

/-- Whether an operation is to write a c register. -/
def OpKind.writesC (o : OpKind) (k : Nat) : Bool :=
  match o with
  | .counter _ _ (some c) | .kv _ _ (some c) => c.toNat = k
  | _ => false

/-- The PC of the producer of an empty register (R33). -/
def Sheaf.producer (sh : Sheaf) (kind : BitVec 2) (src : BitVec 8) : Word :=
  match kind.toNat with
  | 0 => ((sh.row? src).map (·.prod)).getD 0
  | 1 => (aget sh.sprod src.toNat).getD 0
  | 2 => ((sh.ops.find? fun o => o.2.kind.writesC src.toNat).map (·.2.pc)).getD 0
  | _ => 0

/-- BPC (Table 20.2). -/
def State.blame (s : State) (sh : Sheaf) : Word :=
  match sh.hold.reason.toNat with
  | 1 => sh.producer sh.hold.srcKind sh.hold.src
  | 2 => ((sh.ops.head?).map (·.2.pc)).getD 0
  | 4 => match s.seat? sh.core sh.seat, sh.hold.cmd with
    | some t, some c => (((if c.body.tile?.isSome then t.mq else t.cq).head?).map (·.pc)).getD 0
    | _, _ => 0
  | _ => 0

/-- The record of a sheaf (Table 20.1). A sheaf that does not wait was not chosen; a wait for a fetch or a fence, which Table 20.2
does not list, shows as a hold. (DEDUCED, log 65.) -/
def State.sampleOf (s : State) (sh : Sheaf) : Sample :=
  let w := sh.hold.waiting
  let reason : BitVec 8 := if !w then 0x05 else if sh.hold.reason = 0 then 0x03 else sh.hold.reason
  let named := reason = 0x01
  { core := sh.core
    part := sh.part
    bell := s.bell
    launch := ((s.launch? sh.launch).map (·.number)).getD 0
    reason := reason
    slot := sh.slot
    src := if named then sh.hold.src else 0
    kind := if named then sh.hold.srcKind else 0
    wpc := sh.batchPc
    bpc := if w then s.blame sh else 0
    wait := min sh.wait (2 ^ 32 - 1) }

/-- STALL_SAMPLE: of the sheafs that hold a batch and did not issue. -/
def execStallSample (core part : Nat) (s : State) : Out :=
  .next (
    if (aget (s.coreState core).periods part).getD 0 = 0 || frostedCore s core then s else
    let cands := (s.sheafs.filter fun e => e.2.core = core && e.2.part = part && decide (e.2.issuing ≠ 0#32) &&
      !s.isLifted e.2).map (·.2)
    match longest cands with
    | none => s
    | some sh =>
      if (s.samples.filter fun x => x.core = core && x.part = part).length < Config.sampleRoom then
        { s with samples := s.samples ++ [s.sampleOf sh] }
      else { s with sampleDrops := s.sampleDrops + 1 })

/-! ### Watch hits (R420, R421) -/

/-- The issue partition of a hit's issuer, while it is there. -/
def State.hitSheaf (s : State) (h : WatchHit) : Option Sheaf := s.sheaf? h.sheaf

/-- Whether a hit is put off: its issuer's tile is frosted, or its partition stopped (R423). -/
def State.hitAsleep (s : State) (h : WatchHit) : Bool := ((s.hitSheaf h).map s.asleep).getD false

/-- The load of a lane that a hit belongs to. -/
def Sheaf.hitOp (sh : Sheaf) (h : WatchHit) (l : Nat) : Option Nat :=
  (sh.ops.find? fun o => o.2.pc = h.pc && o.2.due.getLsbD (l % 32) && !o.2.sent.getLsbD (l % 32) && (match o.2.kind with
    | .load .. | .sload _ => true
    | _ => false)).map (·.1)

/-- The access that hit goes on, as far as this range is concerned. -/
def State.releaseHit (s : State) (h : WatchHit) : State :=
  match h.cmd, h.lane with
  | some c, _ => s.modCmd c fun d => { d with watched := d.watched ++ [(h.addr.toNat, h.range)] }
  | none, some l => s.modSheaf h.sheaf fun sh => match h.kind with
    | .load => match sh.hitOp h l with
      | some k => { sh with ops := amod sh.ops k fun o => { o with watched := o.watched ++ [(l, h.range)] } }
      | none => sh.onHold l fun x => { x with watched := x.watched ++ [(l, h.range)] }
    | _ => sh.onHold l fun x => { x with watched := x.watched ++ [(l, h.range)] }
  | none, none => s

/-- The lane that hit traps (Table 20.4): a store or an atomic at the instruction, a load where its fibre stands (R343). -/
def State.trapHit (s : State) (h : WatchHit) (l : Nat) : State :=
  let f : LaneFault := ⟨laneOf l, 0x0D, h.addr, BitVec.ofNat 32 h.range, false⟩
  let held := s.modSheaf h.sheaf fun sh => sh.onHold l fun x => { x with faults := x.faults ++ [f] }
  match h.kind, (s.hitSheaf h).bind fun sh => sh.hitOp h l with
  | .load, some k => s.sendFault h.sheaf k [f]
  | _, _ => held

/-- Whether a command is one of the matrix engine. -/
def CmdBody.isMatrix : CmdBody → Bool
  | .mma .. | .accz .. | .accst .. | .accldm .. => true
  | .xcopy .. | .xfill .. | .xgather .. | .xscat .. | .dma .. => false

/-- The record of a hit (R420): the bell, and of its issuer the $launch, the work identifier and, of a command, the core, seat and
engine. -/
def State.hitRec (s : State) (h : WatchHit) : HitRec :=
  let number := fun k => ((s.launch? k).map (·.number)).getD 0
  match h.cmd.bind s.cmd? with
  | some c => ⟨h, s.bell, number c.launch, c.wid, some (c.core, c.seat, c.body.isMatrix)⟩
  | none =>
    let wid := ((h.lane.bind fun l => (s.hitSheaf h).map fun (sh : Sheaf) => sh.fib (laneOf l) 0 (·.wid))).getD 0
    ⟨h, s.bell, ((s.hitSheaf h).map fun sh => number sh.launch).getD 0, wid, none⟩

/-- What follows a true result (Table 20.4). -/
def State.hitAction (s : State) (h : WatchHit) (action : Nat) : State :=
  let issuer := fun (s : State) => match s.hitSheaf h with
    | some sh => s.stopPartition sh.core sh.part
    | none => s
  match h.cmd, h.lane with
  | some c, _ =>
    let s1 := s.releaseHit h
    let s2 := if action = 0 then s1 else s1.modCmd c fun d => { d with suspendAfter := true }
    if action = 3 && ((s.hitSheaf h).map fun (sh : Sheaf) => decide (sh.held ≠ 0#32)).getD false then issuer s2 else s2
  | none, some l =>
    match action with
    | 0 => s.releaseHit h
    -- the access is held until resume
    | 3 => ({ issuer s with hits := s.hits ++ [s.hitRec h] } : State).post (.predicateResult h false)
    | _ => s.trapHit h l
  | none, none => s

/-- The partition whose mode a hit follows (R404). -/
def State.hitPart (s : State) (h : WatchHit) : Option Partition :=
  let la : Option Nat := match h.cmd with
    | some c => (s.cmd? c).map fun (d : Cmd) => d.launch
    | none => (s.hitSheaf h).map fun (sh : Sheaf) => sh.launch
  (la.bind fun k => (s.launch? k).map fun (l : Launch) => l.part).bind fun p => s.part? p

/-- The trace conditions that a true watch hit meets (R424). -/
def State.hitTrace (s : State) (h : WatchHit) : State :=
  match s.hitSheaf h with
  | none => s
  | some sh => match aget (s.coreState sh.core).traces sh.part with
    | none => s
    | some u => if u.start = .watch || u.stop = .watch then s.trigger sh.core sh.part (u.start = .watch) (u.stop = .watch) else s

/-- A result is in: a false one releases the access; a true one is acted on, its record going to the trace buffer. -/
def State.decideHit (s : State) (r : HitRec) (result : Bool) : State :=
  let h := r.hit
  if !result then s.releaseHit h else
    let s1 := ({ s with hitLog := s.hitLog ++ [r] } : State).hitTrace h
    match aget s.watches (h.die, h.range) with
    | none => s1.releaseHit h
    | some w => s1.hitAction h w.action.toNat

/-- WATCH_HIT: PRED 0 is always true; else the access waits for the predicate, or for the driver.
(DESIGN CHOICE, log 20.) -/
def execWatchHit (h : WatchHit) (s : State) : Out :=
  .next (
    if s.knowsHit h then s
    else if s.hitAsleep h then s.again (.watchHit h)
    else match aget s.watches (h.die, h.range) with
      | none => s
      | some w =>
        let s1 : State := { s with hits := s.hits ++ [s.hitRec h] }
        if w.pred = 0 then s1.post (.predicateResult h true)
        else if ((s.hitPart h).map (·.predicatesAssisted)).getD false then s1.report (.predicateAsked h)
        else (s1.post (.predicateResult h (Config.predicate s.free))).post (.predicateOverrun h))

/-- PREDICATE_RESULT; a hit on a stopped partition is held until resume (R423). (DEDUCED, log 52.) -/
def execPredicateResult (h : WatchHit) (result : Bool) (s : State) : Out :=
  .next (
    if s.hitAsleep h then s.again (.predicateResult h result)
    else match s.hits.find? fun r => r.hit = h with
      | some r =>
        ({ s with
          hits := s.hits.erase r
          events := s.events.filter fun e => e ≠ .predicateOverrun h && e ≠ .predicateResult h true &&
            e ≠ .predicateResult h false } : State).decideHit r result
      | none => s)

/-- PREDICATE_OVERRUN: counts as true, and is counted. -/
def execPredicateOverrun (h : WatchHit) (s : State) : Out :=
  .next (
    if s.hitAsleep h then s.again (.predicateOverrun h)
    else if s.knowsHit h then ({ s with overruns := s.overruns + 1 } : State).post (.predicateResult h true)
    else s)

/-! ### Precise stops (R422) -/

/-- PRECISE_STOP: of a tile that is not frosted and a partition that runs. -/
def execPreciseStop (core part : Nat) (s : State) : Out :=
  .next (
    if frostedCore s core then s.again (.preciseStop core part)
    else if (s.coreState core).stopped.getLsbD (part % 4) then s
    else s.stopPartition core (part % 4))

/-- Whether a response is for a sheaf of a partition. -/
def State.forPart (s : State) (core part : Nat) (r : Response) : Bool :=
  let u := match r with
    | .load r => r.sheaf
    | .tw r => r.sheaf
    | .atom r => r.sheaf
    | .ctr r => r.sheaf
    | .spawn r => r.sheaf
    | .fault m => m.sheaf
    | .kv r => r.sheaf
    | .notice u _ => u
  ((s.sheaf? u).map fun sh => decide (sh.core = core ∧ sh.part = part)).getD true

/-- STOP_RESUME: the waiting results are written in order of arrival, and issue restarts. -/
def execStopResume (core part : Nat) (s : State) : Out :=
  .next (
    if frostedCore s core then s.again (.stopResume core part)
    else if !(s.coreState core).stopped.getLsbD (part % 4) then s
    else
      let w := (s.coreState core).receive
      let s1 := s.modCore core fun c => { c with
        stopped := c.stopped &&& ~~~(1#4 <<< (part % 4))
        receive := w.filter fun r => !s.forPart core (part % 4) r }
      (w.filter fun r => s.forPart core (part % 4) r).foldl State.deliver s1)

/-- ENGINE_RESUME (R421). -/
def execEngineResume (core seat cmd : Nat) (s : State) : Out :=
  .next (
    if frostedCore s core then s.again (.engineResume core seat cmd)
    else if ((s.cmd? cmd).map (·.suspended)).getD false then (s.modCmd cmd fun d => { d with suspended := false }).kickSeat core seat
    else s)

/-- TRACE_TRIGGER (R425). (DEDUCED, log 51.) -/
def execTraceTrigger (core part : Nat) (start stop : Bool) (s : State) : Out := .next (s.trigger core part start stop)

/-! ### REGISTER_WRITE: the driver's settings -/

/-- A partition as the driver first gives it clusters: the defaults of Table 19.2 and of R257. -/
def Partition.new (clusters : List Nat) : Partition where
  clusters := clusters
  walksAssisted := false
  cowAssisted := false
  reliefAssisted := false
  migrationAssisted := true
  predicatesAssisted := false
  log := []
  overwritten := 0
  hot := 2048
  cold := 16
  breakpoints := false

/-- Clusters of a partition (R332): whole, each in one partition only. -/
def State.giveClusters (s : State) (part : Nat) (cs : List Nat) : State :=
  let others := (s.parts.filter fun e => e.1 ≠ part).flatMap fun e => e.2.clusters
  if 16 ≤ part || cs.eraseDups.length ≠ cs.length || cs.any fun c => 128 ≤ c || others.contains c then s else
    (match s.part? part with
      | some _ => s.modPart part fun p => { p with clusters := cs }
      | none => { s with parts := s.parts ++ [(part, Partition.new cs)] }).pollPlace part

/-- A frame is created, in a pool or outside every pool, once it has rested (R241, R279, R280, R299). (DEDUCED, log 34.) -/
def State.createFrame (s : State) (no : Nat) (tier kind : BitVec 2) (pool : Option (Nat × Nat)) : State :=
  if 2 ≤ tier.toNat || kind = 3 || 2 ^ 40 ≤ no then s
  else if s.frameResting no then s.again (.registerWrite (.frame no tier kind pool)) else
  match pool with
  | none =>
    if !s.cxlHolds tier [no] then s.report (.updateRefused 0) else
    let s1 := ((s.unuse [no]).settleFrame no).leavePool no
    ({ s1 with frames := aset s1.frames no ⟨tier, kind, none, false⟩ } : State).reuse [no]
  | some (part, k) =>
    let p : Pte := ⟨true, true, true, false, false, false, false, 0, tier, kind, BitVec.ofNat 8 k, 0, BitVec.ofNat 40 no⟩
    if 256 ≤ k then s else (s.mapFrames part p).getD (s.report (.updateRefused 0))

/-- An address space (R292): an unused ASN, and a root table on a KIND 0 frame of TIER 0. -/
def State.addSpace (s : State) (asn part root : Nat) (pasid : Option (BitVec 20)) : State :=
  let ok := ((aget s.frames (root / 65536)).map fun f => decide (f.tier = 0 ∧ f.kind = 0)).getD false
  if 4096 ≤ asn || (aget s.spaces asn).isSome || root % 2048 ≠ 0 || !ok || (s.part? part).isNone then s
  else { s with spaces := s.spaces ++ [(asn, ⟨part, root, pasid⟩)] }

/-- An address space that nothing uses is removed, with its cached translations. -/
def State.removeSpace (s : State) (asn : Nat) : State :=
  if s.launches.any (fun e => e.2.asn = asn && !e.2.completed) || s.rings.any (fun e => e.2.reg.asn = asn) ||
      s.hub.any (fun c => c.asn = asn) || s.moves.any (fun m => m.req.asn = asn) || s.holding.any fun e => e.1.asn = asn then s
  else { s with
    spaces := adel s.spaces asn
    tlb := s.tlb.filter fun e => e.asn ≠ asn
    walkWaits := s.walkWaits.filter fun w => w.asn ≠ asn }

/-- A pool's share of a die's line requests (R340). -/
def State.setBudget (s : State) (pool die b : Nat) : State :=
  let old := (aget s.budgets (pool, die)).getD ⟨0, 0, [], [], 0, false⟩
  { s with budgets := aset s.budgets (pool, die) { old with base := b, tokens := if old.base = 0 then b else old.tokens } }

/-- CXL capacity assigned to pools: within the 8 TiB, and no less than the grants need (R279, R3). -/
def State.assignCxl (s : State) (sectors : Nat) : State :=
  if 2 ^ 37 < sectors || lpddr6Sectors - lpddr6Margin + sectors < s.grantedAll then s else { s with cxlPools := sectors }

/-- A sampling period (R418): off, or 1,024 to 2^20 cycles. -/
def State.setPeriod (s : State) (core part cycles : Nat) : State :=
  if cycles ≠ 0 && (cycles < 1024 || 2 ^ 20 < cycles) then s else
    s.modCore core fun c => { c with periods := aset c.periods part cycles }

/-- A watch range within its fields (Table 20.3). -/
def WatchOk (n : Nat) (w : WatchRange) : Bool :=
  decide (n < 8) && canonical w.base && canonical w.limit && decide (w.base.toNat ≤ w.limit.toNat ∧ w.asn < 4096 ∧ w.sel ≠ 0)

/-- REGISTER_WRITE: in recovery the mailbox accepts only a new image (R411). (DEDUCED, log 56.) -/
def execRegisterWrite (r : MailReg) (s : State) : Out :=
  .next (
    if s.dev.recovery then s else
    match r with
    | .addressSpace asn part root pasid => s.addSpace asn part root pasid
    | .removeSpace asn => s.removeSpace asn
    | .clusters part cs => s.giveClusters part cs
    | .frame no tier kind pool => s.createFrame no tier kind pool
    | .hotCold part hot cold => s.modPart part fun p => { p with hot := hot, cold := cold }
    | .takeMigrations => { s.report (.migrations s.migrations s.migrationDrops) with migrations := [] }
    | .priTimeout ticks => { s with priTimeout := ticks }
    | .aperture ap => { s with apertures := s.apertures ++ [ap] }
    | .budget pool die b => s.setBudget pool die b
    | .samplePeriod core part cycles => s.setPeriod core part cycles
    | .watch die n w => if !w.en || WatchOk n w then { s with watches := aset s.watches (die, n) w } else s
    | .trace core part start stop wraps => s.modCore core fun c => { c with traces := aset c.traces part ⟨start, stop, wraps, false⟩ }
    | .claimBreakpoints part on => s.modPart part fun p => { p with breakpoints := on }
    | .readLog part => match s.part? part with
      | some p => s.report (.errorLog part p.log p.overwritten)
      | none => s
    | .cxlPools sectors => s.assignCxl sectors
    | .dumpPage asn va => s.dumpPage asn va
    | .restorePage asn va image => s.restorePage asn va image)

end Sys2Proof.Machine
end

