-- ==== Sys2Proof/Machine/Entry.lean ====
section
/-! DEFINITION. Dictionary codes (R71 to R76) with the instructions they name, and the events by their meanings. -/

namespace Sys2Proof.Machine

/-- An instruction that a dictionary entry names (R73): one of Tables 2.11 and 2.12, and nothing else. -/
def runEntry (i : Instr) (s : State) : Out :=
  match i with
  | .iadd o => execIadd o s
  | .isub o => execIsub o s
  | .iadc o => execIadc o s
  | .isbc o => execIsbc o s
  | .imul o => execImul o s
  | .imulh o => execImulh o s
  | .imad o => execImad o s
  | .imin o => execImin o s
  | .imax o => execImax o s
  | .iabs o => execIabs o s
  | .icmp o => execIcmp o s
  | .and o => execAnd o s
  | .or o => execOr o s
  | .xor o => execXor o s
  | .andn o => execAndn o s
  | .shl o => execShl o s
  | .shr o => execShr o s
  | .sar o => execSar o s
  | .rol o => execRol o s
  | .bfx o => execBfx o s
  | .bfi o => execBfi o s
  | .popc o => execPopc o s
  | .clz o => execClz o s
  | .brev o => execBrev o s
  | .sel o => execSel o s
  | .mov o => execMov o s
  | .iadd64 o => execIadd64 o s
  | .isub64 o => execIsub64 o s
  | .imulw o => execImulw o s
  | .lea o => execLea o s
  | .icmp64 o => execIcmp64 o s
  | .iaddi o => execIaddi o s
  | .imuli o => execImuli o s
  | .andi o => execAndi o s
  | .ori o => execOri o s
  | .xori o => execXori o s
  | .shli o => execShli o s
  | .shri o => execShri o s
  | .sari o => execSari o s
  | .icmpi o => execIcmpi o s
  | .movi o => execMovi o s
  | .movhi o => execMovhi o s
  | .leai o => execLeai o s
  | .fadd o => execFadd o s
  | .fsub o => execFsub o s
  | .fmul o => execFmul o s
  | .ffma o => execFfma o s
  | .fmin o => execFmin o s
  | .fmax o => execFmax o s
  | .fcmp o => execFcmp o s
  | .fneg o => execFneg o s
  | .fabs o => execFabs o s
  | .frcp o => execFrcp o s
  | .frsq o => execFrsq o s
  | .fsqrt o => execFsqrt o s
  | .fdiv o => execFdiv o s
  | .fexp2 o => execFexp2 o s
  | .flog2 o => execFlog2 o s
  | .frnd o => execFrnd o s
  | .fclass o => execFclass o s
  | .fscalb o => execFscalb o s
  | .hadd2 o => execHadd2 o s
  | .hmul2 o => execHmul2 o s
  | .hfma2 o => execHfma2 o s
  | .bfma2 o => execBfma2 o s
  | .bdot2 o => execBdot2 o s
  | .cvtfi o => execCvtfi o s
  | .cvtif o => execCvtif o s
  | .cvtfh o => execCvtfh o s
  | .cvthf o => execCvthf o s
  | .cvtfb o => execCvtfb o s
  | .cvtbf o => execCvtbf o s
  | .cvtf8 o => execCvtf8 o s
  | .cvt8f o => execCvt8f o s
  | .cvtf4 o => execCvtf4 o s
  | .cvt4f o => execCvt4f o s
  | .sclq o => execSclq o s
  | .sclf o => execSclf o s
  | .perm o => execPerm o s
  | .xmov o => execXmov o s
  | .vote o => execVote o s
  | .matchv o => execMatchv o s
  | .redux o => execRedux o s
  | .scanx o => execScanx o s
  | .v2s o => execV2s o s
  | .vsrd o => execVsrd o s
  | .ld o => execLd o s
  | .ldb o => execLdb o s
  | .st o => execSt o s
  | .lds o => execLds o s
  | .sts o => execSts o s
  | .ldf o => execLdf o s
  | .ste o => execSte o s
  | .ldw o => execLdw o s
  | .prf o => execPrf o s
  | .cwb o => execCwb o s
  | .pgdrop o => execPgdrop o s
  | .atom o => execAtom o s
  | .atom64 o => execAtom64 o s
  | .acas o => execAcas o s
  | .acas64 o => execAcas64 o s
  | .red o => execRed o s
  | .satom o => execSatom o s
  | .fence o => execFence o s
  | .ctake o => execCtake o s
  | .cgive o => execCgive o s
  | .cpeek o => execCpeek o s
  | .croll o => execCroll o s
  | .kvapp o => execKvapp o s
  | .kvmap o => execKvmap o s
  | .kvshare o => execKvshare o s
  | .kvdrop o => execKvdrop o s
  | .kvcow o => execKvcow o s
  | .rsmp o => execRsmp o s
  | .accrd o => execAccrd o s
  | .accwr o => execAccwr o s
  | .sadd o => execSadd o s
  | .ssub o => execSsub o s
  | .smul o => execSmul o s
  | .sand o => execSand o s
  | .sor o => execSor o s
  | .sxor o => execSxor o s
  | .sshl o => execSshl o s
  | .sshr o => execSshr o s
  | .ssar o => execSsar o s
  | .scmp o => execScmp o s
  | .smov o => execSmov o s
  | .saddi o => execSaddi o s
  | .smovi o => execSmovi o s
  | .smovhi o => execSmovhi o s
  | .sld o => execSld o s
  | .sst o => execSst o s
  | .srd o => execSrd o s
  | .swr o => execSwr o s
  | .scmpi o => execScmpi o s
  | .bra o => execBra o s
  | .bras o => execBras o s
  | .brx o => execBrx o s
  | .call o => execCall o s
  | .ret o => execRet o s
  | .join o => execJoin o s
  | .meet o => execMeet o s
  | .yield o => execYield o s
  | .exit o => execExit o s
  | .nap o => execNap o s
  | .bar o => execBar o s
  | .arrv o => execArrv o s
  | .waitb o => execWaitb o s
  | .spawn o => execSpawn o s
  | .trig o => execTrig o s
  | .dwait o => execDwait o s
  | .mma o => execMma o s
  | .mmaloop o => execMmaloop o s
  | .accz o => execAccz o s
  | .accst o => execAccst o s
  | .accldm o => execAccldm o s
  | .xcopy o => execXcopy o s
  | .xgather o => execXgather o s
  | .xfill o => execXfill o s
  | .xscat o => execXscat o s
  | .resv o => execResv o s
  | .resvx o => execResvx o s
  | .trap o => execTrap o s
  | .rte o => execRte o s
  | .bkpt o => execBkpt o s
  | .frmrd o => execFrmrd o s
  | .frmwr o => execFrmwr o s
  | _ => .next (s.illegal 0x08)

/-- DICTIONARY_CODE: code k of a slot is checked and resolved against the seat's dictionary (R54, R72, R73, R76), and what it names is
run with the PC after the code (R58). -/
def execDictionaryCode (slot : Word) (k : Nat) (s : State) : Out :=
  match slotCheck slot k with
  | some sub => .next (s.illegal sub)
  | none =>
    let sh := s.shf
    let dict := ((s.seat? sh.core sh.seat).map (·.dict)).getD []
    match decodeCode dict (dictCode slot k) with
    | .ok i => runEntry i (s.modSheaf s.cur fun x => { x with npc := nextPc x.batchPc slot })
    | .error sub => .next (s.illegal sub)

/-- A message or an event by its meaning. -/
def runEvent (e : Event) (s : State) : Out :=
  match e with
  | .rowRefill sheaf name => execRowRefill sheaf name s
  | .setAside sheaf => execSetAside sheaf s
  | .napWake sheaf => execNapWake sheaf s
  | .doorbell ring value => execDoorbell ring value s
  | .launch c => execLaunch c s
  | .dma c => execDma c s
  | .signal c => execSignal c s
  | .config c => execConfig c s
  | .raise c => execRaise c s
  | .lower c => execLower c s
  | .balloon c => execBalloon c s
  | .completionRecord ring => execCompletionRecord ring s
  | .ringRegistration r => execRingRegistration r s
  | .ringRestart ring => execRingRestart ring s
  | .completionQueueHead ring head => execCompletionQueueHead ring head s
  | .bedPlacement part => execBedPlacement part s
  | .scratchpadReclaim core => execScratchpadReclaim core s
  | .spawnRequest m => execSpawnRequest m s
  | .bedCompletion launch bed => execBedCompletion launch bed s
  | .dwaitReady sheaf => execDwaitReady sheaf s
  | .loadResponse r => execLoadResponse r s
  | .homeRead m => execHomeRead m s
  | .homeWrite m => execHomeWrite m s
  | .twReturn r => execTwReturn r s
  | .atomicExecution m => execAtomicExecution m s
  | .atomicReturn r => execAtomicReturn r s
  | .settle line => execSettle line s
  | .allowanceRefill m => execAllowanceRefill m s
  | .allowanceReturn cluster => execAllowanceReturn cluster s
  | .holderReport cluster ctr => execHolderReport cluster ctr s
  | .reservePublish part pool => execReservePublish part pool s
  | .capwaitExpiry part pool => execCapwaitExpiry part pool s
  | .reliefGrant part pool => execReliefGrant part pool s
  | .pageWalk sheaf op => execPageWalk sheaf op s
  | .walkAnswer asn va updated => execWalkAnswer asn va updated s
  | .walkAnswerTimeout asn va => execWalkAnswerTimeout asn va s
  | .update u => execUpdate u s
  | .atsCompletion r => execAtsCompletion r s
  | .prgResponse r => execPrgResponse r s
  | .pageRequestTimeout fn page => execPageRequestTimeout fn page s
  | .priReenable fn => execPriReenable fn s
  | .invalidateRequest r => execInvalidateRequest r s
  | .invalidateCompletion r => execInvalidateCompletion r s
  | .hostSnoop line write => execHostSnoop line write s
  | .hostRead addr len => execHostRead addr len s
  | .hostWrite m => execHostWrite m s
  | .peerAccess m => execPeerAccess m s
  | .peerAnswer id code => execPeerAnswer id code s
  | .peerTimeout id => execPeerTimeout id s
  | .cxlPortDown port => execCxlPortDown port s
  | .cxlRetrainTimeout port => execCxlRetrainTimeout port s
  | .epochEnd => execEpochEnd  s
  | .migration m => execMigration m s
  | .matrixCommandStart core seat => execMatrixCommandStart core seat s
  | .matrixStep core seat => execMatrixStep core seat s
  | .tileRowTransfer core seat => execTileRowTransfer core seat s
  | .copyUnit core seat cmd => execCopyUnit core seat cmd s
  | .promisedBellTime core seat cmd => execPromisedBellTime core seat cmd s
  | .engineFault core seat cmd => execEngineFault core seat cmd s
  | .kvAgentStep m => execKvAgentStep m s
  | .rsmpDeciding launch => execRsmpDeciding launch s
  | .cloneLanding m => execCloneLanding m s
  | .rsmpRelease launch => execRsmpRelease launch s
  | .deferredFault m => execDeferredFault m s
  | .escalationEnd launch bed => execEscalationEnd launch bed s
  | .escalationCull launch bed => execEscalationCull launch bed s
  | .escalationRetry launch bed handler => execEscalationRetry launch bed handler s
  | .lift launch bed => execLift launch bed s
  | .replant launch bed => execReplant launch bed s
  | .stopRequest core => execStopRequest core s
  | .frostSeal core => execFrostSeal core s
  | .lateArrival core r => execLateArrival core r s
  | .thaw image target => execThaw image target s
  | .modeChange part fn assisted => execModeChange part fn assisted s
  | .aideRestart aide => execAideRestart aide s
  | .frontEndRestart => execFrontEndRestart  s
  | .heartbeat => execHeartbeat  s
  | .hubTimerExpiry => execHubTimerExpiry  s
  | .queueReset q => execQueueReset q s
  | .engineReset e => execEngineReset e s
  | .partitionReset part => execPartitionReset part s
  | .dieReset die => execDieReset die s
  | .functionLevelReset part => execFunctionLevelReset part s
  | .perstN => execPerstN  s
  | .resetN => execResetN  s
  | .pwrgd => execPwrgd  s
  | .recoveryImage version ecdsaOk lmsOk => execRecoveryImage version ecdsaOk lmsOk s
  | .thermalThrottle die => execThermalThrottle die s
  | .thermalTrip die => execThermalTrip die s
  | .powerCap watts => execPowerCap watts s
  | .getVersion => execGetVersion  s
  | .getCapabilities => execGetCapabilities  s
  | .negotiateAlgorithms offersP384 => execNegotiateAlgorithms offersP384 s
  | .getDigests => execGetDigests  s
  | .getCertificate offset length => execGetCertificate offset length s
  | .challenge nonce => execChallenge nonce s
  | .getMeasurements index => execGetMeasurements index s
  | .bandwidthPeriod die => execBandwidthPeriod die s
  | .stallSample core part => execStallSample core part s
  | .watchHit h => execWatchHit h s
  | .predicateResult h result => execPredicateResult h result s
  | .predicateOverrun h => execPredicateOverrun h s
  | .preciseStop core part => execPreciseStop core part s
  | .stopResume core part => execStopResume core part s
  | .engineResume core seat cmd => execEngineResume core seat cmd s
  | .traceTrigger core part start stop => execTraceTrigger core part start stop s
  | .registerWrite r => execRegisterWrite r s
  | .homeSliceEviction line => execHomeSliceEviction line s
  | .counterReturn r => execCounterReturn r s
  | .watchdogReport agent => execWatchdogReport agent s
  | .endLaunch launch => execEndLaunch launch s
  | .cxlPortRetrained port => execCxlPortRetrained port s
  | .ralecLinkDown link => execRalecLinkDown link s
  | .ralecLinkRetrained link => execRalecLinkRetrained link s
  | .physicalFunctionFlr => execPhysicalFunctionFlr  s
  | .thermalThrottleEnd die => execThermalThrottleEnd die s
  | .pwrgdFall => execPwrgdFall  s

end Sys2Proof.Machine
end

