-- ==== Sys2Proof/Machine/Dispatch.lean ====
section
/-! DEFINITION. One arm per constructor of Instr: the meaning of every instruction, operation and event. -/

namespace Sys2Proof.Machine

def exec (i : Instr) (s : State) : Host.Outcome State Fault Refusal :=
  match i with
  | .iadd o => Sys2Proof.Machine.execIadd o s
  | .isub o => Sys2Proof.Machine.execIsub o s
  | .iadc o => Sys2Proof.Machine.execIadc o s
  | .isbc o => Sys2Proof.Machine.execIsbc o s
  | .imul o => Sys2Proof.Machine.execImul o s
  | .imulh o => Sys2Proof.Machine.execImulh o s
  | .imad o => Sys2Proof.Machine.execImad o s
  | .imin o => Sys2Proof.Machine.execImin o s
  | .imax o => Sys2Proof.Machine.execImax o s
  | .iabs o => Sys2Proof.Machine.execIabs o s
  | .icmp o => Sys2Proof.Machine.execIcmp o s
  | .and o => Sys2Proof.Machine.execAnd o s
  | .or o => Sys2Proof.Machine.execOr o s
  | .xor o => Sys2Proof.Machine.execXor o s
  | .andn o => Sys2Proof.Machine.execAndn o s
  | .shl o => Sys2Proof.Machine.execShl o s
  | .shr o => Sys2Proof.Machine.execShr o s
  | .sar o => Sys2Proof.Machine.execSar o s
  | .rol o => Sys2Proof.Machine.execRol o s
  | .bfx o => Sys2Proof.Machine.execBfx o s
  | .bfi o => Sys2Proof.Machine.execBfi o s
  | .popc o => Sys2Proof.Machine.execPopc o s
  | .clz o => Sys2Proof.Machine.execClz o s
  | .brev o => Sys2Proof.Machine.execBrev o s
  | .sel o => Sys2Proof.Machine.execSel o s
  | .mov o => Sys2Proof.Machine.execMov o s
  | .iadd64 o => Sys2Proof.Machine.execIadd64 o s
  | .isub64 o => Sys2Proof.Machine.execIsub64 o s
  | .imulw o => Sys2Proof.Machine.execImulw o s
  | .lea o => Sys2Proof.Machine.execLea o s
  | .icmp64 o => Sys2Proof.Machine.execIcmp64 o s
  | .iaddi o => Sys2Proof.Machine.execIaddi o s
  | .imuli o => Sys2Proof.Machine.execImuli o s
  | .andi o => Sys2Proof.Machine.execAndi o s
  | .ori o => Sys2Proof.Machine.execOri o s
  | .xori o => Sys2Proof.Machine.execXori o s
  | .shli o => Sys2Proof.Machine.execShli o s
  | .shri o => Sys2Proof.Machine.execShri o s
  | .sari o => Sys2Proof.Machine.execSari o s
  | .icmpi o => Sys2Proof.Machine.execIcmpi o s
  | .movi o => Sys2Proof.Machine.execMovi o s
  | .movhi o => Sys2Proof.Machine.execMovhi o s
  | .leai o => Sys2Proof.Machine.execLeai o s
  | .fadd o => Sys2Proof.Machine.execFadd o s
  | .fsub o => Sys2Proof.Machine.execFsub o s
  | .fmul o => Sys2Proof.Machine.execFmul o s
  | .ffma o => Sys2Proof.Machine.execFfma o s
  | .fmin o => Sys2Proof.Machine.execFmin o s
  | .fmax o => Sys2Proof.Machine.execFmax o s
  | .fcmp o => Sys2Proof.Machine.execFcmp o s
  | .fneg o => Sys2Proof.Machine.execFneg o s
  | .fabs o => Sys2Proof.Machine.execFabs o s
  | .frcp o => Sys2Proof.Machine.execFrcp o s
  | .frsq o => Sys2Proof.Machine.execFrsq o s
  | .fsqrt o => Sys2Proof.Machine.execFsqrt o s
  | .fdiv o => Sys2Proof.Machine.execFdiv o s
  | .fexp2 o => Sys2Proof.Machine.execFexp2 o s
  | .flog2 o => Sys2Proof.Machine.execFlog2 o s
  | .frnd o => Sys2Proof.Machine.execFrnd o s
  | .fclass o => Sys2Proof.Machine.execFclass o s
  | .fscalb o => Sys2Proof.Machine.execFscalb o s
  | .hadd2 o => Sys2Proof.Machine.execHadd2 o s
  | .hmul2 o => Sys2Proof.Machine.execHmul2 o s
  | .hfma2 o => Sys2Proof.Machine.execHfma2 o s
  | .bfma2 o => Sys2Proof.Machine.execBfma2 o s
  | .bdot2 o => Sys2Proof.Machine.execBdot2 o s
  | .cvtfi o => Sys2Proof.Machine.execCvtfi o s
  | .cvtif o => Sys2Proof.Machine.execCvtif o s
  | .cvtfh o => Sys2Proof.Machine.execCvtfh o s
  | .cvthf o => Sys2Proof.Machine.execCvthf o s
  | .cvtfb o => Sys2Proof.Machine.execCvtfb o s
  | .cvtbf o => Sys2Proof.Machine.execCvtbf o s
  | .cvtf8 o => Sys2Proof.Machine.execCvtf8 o s
  | .cvt8f o => Sys2Proof.Machine.execCvt8f o s
  | .cvtf4 o => Sys2Proof.Machine.execCvtf4 o s
  | .cvt4f o => Sys2Proof.Machine.execCvt4f o s
  | .sclq o => Sys2Proof.Machine.execSclq o s
  | .sclf o => Sys2Proof.Machine.execSclf o s
  | .perm o => Sys2Proof.Machine.execPerm o s
  | .xmov o => Sys2Proof.Machine.execXmov o s
  | .vote o => Sys2Proof.Machine.execVote o s
  | .matchv o => Sys2Proof.Machine.execMatchv o s
  | .redux o => Sys2Proof.Machine.execRedux o s
  | .scanx o => Sys2Proof.Machine.execScanx o s
  | .v2s o => Sys2Proof.Machine.execV2s o s
  | .vsrd o => Sys2Proof.Machine.execVsrd o s
  | .ld o => Sys2Proof.Machine.execLd o s
  | .ldb o => Sys2Proof.Machine.execLdb o s
  | .st o => Sys2Proof.Machine.execSt o s
  | .lds o => Sys2Proof.Machine.execLds o s
  | .sts o => Sys2Proof.Machine.execSts o s
  | .ldf o => Sys2Proof.Machine.execLdf o s
  | .ste o => Sys2Proof.Machine.execSte o s
  | .ldw o => Sys2Proof.Machine.execLdw o s
  | .prf o => Sys2Proof.Machine.execPrf o s
  | .cwb o => Sys2Proof.Machine.execCwb o s
  | .pgdrop o => Sys2Proof.Machine.execPgdrop o s
  | .atom o => Sys2Proof.Machine.execAtom o s
  | .atom64 o => Sys2Proof.Machine.execAtom64 o s
  | .acas o => Sys2Proof.Machine.execAcas o s
  | .acas64 o => Sys2Proof.Machine.execAcas64 o s
  | .red o => Sys2Proof.Machine.execRed o s
  | .satom o => Sys2Proof.Machine.execSatom o s
  | .fence o => Sys2Proof.Machine.execFence o s
  | .ctake o => Sys2Proof.Machine.execCtake o s
  | .cgive o => Sys2Proof.Machine.execCgive o s
  | .cpeek o => Sys2Proof.Machine.execCpeek o s
  | .croll o => Sys2Proof.Machine.execCroll o s
  | .kvapp o => Sys2Proof.Machine.execKvapp o s
  | .kvmap o => Sys2Proof.Machine.execKvmap o s
  | .kvshare o => Sys2Proof.Machine.execKvshare o s
  | .kvdrop o => Sys2Proof.Machine.execKvdrop o s
  | .kvcow o => Sys2Proof.Machine.execKvcow o s
  | .rsmp o => Sys2Proof.Machine.execRsmp o s
  | .accrd o => Sys2Proof.Machine.execAccrd o s
  | .accwr o => Sys2Proof.Machine.execAccwr o s
  | .sadd o => Sys2Proof.Machine.execSadd o s
  | .ssub o => Sys2Proof.Machine.execSsub o s
  | .smul o => Sys2Proof.Machine.execSmul o s
  | .sand o => Sys2Proof.Machine.execSand o s
  | .sor o => Sys2Proof.Machine.execSor o s
  | .sxor o => Sys2Proof.Machine.execSxor o s
  | .sshl o => Sys2Proof.Machine.execSshl o s
  | .sshr o => Sys2Proof.Machine.execSshr o s
  | .ssar o => Sys2Proof.Machine.execSsar o s
  | .scmp o => Sys2Proof.Machine.execScmp o s
  | .smov o => Sys2Proof.Machine.execSmov o s
  | .saddi o => Sys2Proof.Machine.execSaddi o s
  | .smovi o => Sys2Proof.Machine.execSmovi o s
  | .smovhi o => Sys2Proof.Machine.execSmovhi o s
  | .sld o => Sys2Proof.Machine.execSld o s
  | .sst o => Sys2Proof.Machine.execSst o s
  | .srd o => Sys2Proof.Machine.execSrd o s
  | .swr o => Sys2Proof.Machine.execSwr o s
  | .scmpi o => Sys2Proof.Machine.execScmpi o s
  | .bra o => Sys2Proof.Machine.execBra o s
  | .bras o => Sys2Proof.Machine.execBras o s
  | .brx o => Sys2Proof.Machine.execBrx o s
  | .call o => Sys2Proof.Machine.execCall o s
  | .ret o => Sys2Proof.Machine.execRet o s
  | .join o => Sys2Proof.Machine.execJoin o s
  | .meet o => Sys2Proof.Machine.execMeet o s
  | .yield o => Sys2Proof.Machine.execYield o s
  | .exit o => Sys2Proof.Machine.execExit o s
  | .nap o => Sys2Proof.Machine.execNap o s
  | .bar o => Sys2Proof.Machine.execBar o s
  | .arrv o => Sys2Proof.Machine.execArrv o s
  | .waitb o => Sys2Proof.Machine.execWaitb o s
  | .spawn o => Sys2Proof.Machine.execSpawn o s
  | .trig o => Sys2Proof.Machine.execTrig o s
  | .dwait o => Sys2Proof.Machine.execDwait o s
  | .mma o => Sys2Proof.Machine.execMma o s
  | .mmaloop o => Sys2Proof.Machine.execMmaloop o s
  | .accz o => Sys2Proof.Machine.execAccz o s
  | .accst o => Sys2Proof.Machine.execAccst o s
  | .accldm o => Sys2Proof.Machine.execAccldm o s
  | .xcopy o => Sys2Proof.Machine.execXcopy o s
  | .xgather o => Sys2Proof.Machine.execXgather o s
  | .xfill o => Sys2Proof.Machine.execXfill o s
  | .xscat o => Sys2Proof.Machine.execXscat o s
  | .resv o => Sys2Proof.Machine.execResv o s
  | .resvx o => Sys2Proof.Machine.execResvx o s
  | .trap o => Sys2Proof.Machine.execTrap o s
  | .rte o => Sys2Proof.Machine.execRte o s
  | .bkpt o => Sys2Proof.Machine.execBkpt o s
  | .frmrd o => Sys2Proof.Machine.execFrmrd o s
  | .frmwr o => Sys2Proof.Machine.execFrmwr o s
  | .dictionaryCode slot k => Sys2Proof.Machine.execDictionaryCode slot k s
  | .rowRefill sheaf name => Sys2Proof.Machine.execRowRefill sheaf name s
  | .setAside sheaf => Sys2Proof.Machine.execSetAside sheaf s
  | .napWake sheaf => Sys2Proof.Machine.execNapWake sheaf s
  | .doorbell ring value => Sys2Proof.Machine.execDoorbell ring value s
  | .launch c => Sys2Proof.Machine.execLaunch c s
  | .dma c => Sys2Proof.Machine.execDma c s
  | .signal c => Sys2Proof.Machine.execSignal c s
  | .config c => Sys2Proof.Machine.execConfig c s
  | .raise c => Sys2Proof.Machine.execRaise c s
  | .lower c => Sys2Proof.Machine.execLower c s
  | .balloon c => Sys2Proof.Machine.execBalloon c s
  | .completionRecord ring => Sys2Proof.Machine.execCompletionRecord ring s
  | .ringRegistration r => Sys2Proof.Machine.execRingRegistration r s
  | .ringRestart ring => Sys2Proof.Machine.execRingRestart ring s
  | .completionQueueHead ring head => Sys2Proof.Machine.execCompletionQueueHead ring head s
  | .bedPlacement part => Sys2Proof.Machine.execBedPlacement part s
  | .scratchpadReclaim core => Sys2Proof.Machine.execScratchpadReclaim core s
  | .spawnRequest m => Sys2Proof.Machine.execSpawnRequest m s
  | .bedCompletion launch bed => Sys2Proof.Machine.execBedCompletion launch bed s
  | .dwaitReady sheaf => Sys2Proof.Machine.execDwaitReady sheaf s
  | .loadResponse r => Sys2Proof.Machine.execLoadResponse r s
  | .homeRead m => Sys2Proof.Machine.execHomeRead m s
  | .homeWrite m => Sys2Proof.Machine.execHomeWrite m s
  | .twReturn r => Sys2Proof.Machine.execTwReturn r s
  | .atomicExecution m => Sys2Proof.Machine.execAtomicExecution m s
  | .atomicReturn r => Sys2Proof.Machine.execAtomicReturn r s
  | .settle line => Sys2Proof.Machine.execSettle line s
  | .allowanceRefill m => Sys2Proof.Machine.execAllowanceRefill m s
  | .allowanceReturn cluster => Sys2Proof.Machine.execAllowanceReturn cluster s
  | .holderReport cluster ctr => Sys2Proof.Machine.execHolderReport cluster ctr s
  | .reservePublish part pool => Sys2Proof.Machine.execReservePublish part pool s
  | .capwaitExpiry part pool => Sys2Proof.Machine.execCapwaitExpiry part pool s
  | .reliefGrant part pool => Sys2Proof.Machine.execReliefGrant part pool s
  | .pageWalk sheaf op => Sys2Proof.Machine.execPageWalk sheaf op s
  | .walkAnswer asn va updated => Sys2Proof.Machine.execWalkAnswer asn va updated s
  | .walkAnswerTimeout asn va => Sys2Proof.Machine.execWalkAnswerTimeout asn va s
  | .update u => Sys2Proof.Machine.execUpdate u s
  | .atsCompletion r => Sys2Proof.Machine.execAtsCompletion r s
  | .prgResponse r => Sys2Proof.Machine.execPrgResponse r s
  | .pageRequestTimeout fn page => Sys2Proof.Machine.execPageRequestTimeout fn page s
  | .priReenable fn => Sys2Proof.Machine.execPriReenable fn s
  | .invalidateRequest r => Sys2Proof.Machine.execInvalidateRequest r s
  | .invalidateCompletion r => Sys2Proof.Machine.execInvalidateCompletion r s
  | .hostSnoop line write => Sys2Proof.Machine.execHostSnoop line write s
  | .hostRead addr len => Sys2Proof.Machine.execHostRead addr len s
  | .hostWrite m => Sys2Proof.Machine.execHostWrite m s
  | .peerAccess m => Sys2Proof.Machine.execPeerAccess m s
  | .peerAnswer id code => Sys2Proof.Machine.execPeerAnswer id code s
  | .peerTimeout id => Sys2Proof.Machine.execPeerTimeout id s
  | .cxlPortDown port => Sys2Proof.Machine.execCxlPortDown port s
  | .cxlRetrainTimeout port => Sys2Proof.Machine.execCxlRetrainTimeout port s
  | .epochEnd => Sys2Proof.Machine.execEpochEnd  s
  | .migration m => Sys2Proof.Machine.execMigration m s
  | .matrixCommandStart core seat => Sys2Proof.Machine.execMatrixCommandStart core seat s
  | .matrixStep core seat => Sys2Proof.Machine.execMatrixStep core seat s
  | .tileRowTransfer core seat => Sys2Proof.Machine.execTileRowTransfer core seat s
  | .copyUnit core seat cmd => Sys2Proof.Machine.execCopyUnit core seat cmd s
  | .promisedBellTime core seat cmd => Sys2Proof.Machine.execPromisedBellTime core seat cmd s
  | .engineFault core seat cmd => Sys2Proof.Machine.execEngineFault core seat cmd s
  | .kvAgentStep m => Sys2Proof.Machine.execKvAgentStep m s
  | .rsmpDeciding launch => Sys2Proof.Machine.execRsmpDeciding launch s
  | .cloneLanding m => Sys2Proof.Machine.execCloneLanding m s
  | .rsmpRelease launch => Sys2Proof.Machine.execRsmpRelease launch s
  | .deferredFault m => Sys2Proof.Machine.execDeferredFault m s
  | .escalationEnd launch bed => Sys2Proof.Machine.execEscalationEnd launch bed s
  | .escalationCull launch bed => Sys2Proof.Machine.execEscalationCull launch bed s
  | .escalationRetry launch bed handler => Sys2Proof.Machine.execEscalationRetry launch bed handler s
  | .lift launch bed => Sys2Proof.Machine.execLift launch bed s
  | .replant launch bed => Sys2Proof.Machine.execReplant launch bed s
  | .stopRequest core => Sys2Proof.Machine.execStopRequest core s
  | .frostSeal core => Sys2Proof.Machine.execFrostSeal core s
  | .lateArrival core r => Sys2Proof.Machine.execLateArrival core r s
  | .thaw image target => Sys2Proof.Machine.execThaw image target s
  | .modeChange part fn assisted => Sys2Proof.Machine.execModeChange part fn assisted s
  | .aideRestart aide => Sys2Proof.Machine.execAideRestart aide s
  | .frontEndRestart => Sys2Proof.Machine.execFrontEndRestart  s
  | .heartbeat => Sys2Proof.Machine.execHeartbeat  s
  | .hubTimerExpiry => Sys2Proof.Machine.execHubTimerExpiry  s
  | .queueReset q => Sys2Proof.Machine.execQueueReset q s
  | .engineReset e => Sys2Proof.Machine.execEngineReset e s
  | .partitionReset part => Sys2Proof.Machine.execPartitionReset part s
  | .dieReset die => Sys2Proof.Machine.execDieReset die s
  | .functionLevelReset part => Sys2Proof.Machine.execFunctionLevelReset part s
  | .perstN => Sys2Proof.Machine.execPerstN  s
  | .resetN => Sys2Proof.Machine.execResetN  s
  | .pwrgd => Sys2Proof.Machine.execPwrgd  s
  | .recoveryImage version ecdsaOk lmsOk => Sys2Proof.Machine.execRecoveryImage version ecdsaOk lmsOk s
  | .thermalThrottle die => Sys2Proof.Machine.execThermalThrottle die s
  | .thermalTrip die => Sys2Proof.Machine.execThermalTrip die s
  | .powerCap watts => Sys2Proof.Machine.execPowerCap watts s
  | .getVersion => Sys2Proof.Machine.execGetVersion  s
  | .getCapabilities => Sys2Proof.Machine.execGetCapabilities  s
  | .negotiateAlgorithms offersP384 => Sys2Proof.Machine.execNegotiateAlgorithms offersP384 s
  | .getDigests => Sys2Proof.Machine.execGetDigests  s
  | .getCertificate offset length => Sys2Proof.Machine.execGetCertificate offset length s
  | .challenge nonce => Sys2Proof.Machine.execChallenge nonce s
  | .getMeasurements index => Sys2Proof.Machine.execGetMeasurements index s
  | .bandwidthPeriod die => Sys2Proof.Machine.execBandwidthPeriod die s
  | .stallSample core part => Sys2Proof.Machine.execStallSample core part s
  | .watchHit h => Sys2Proof.Machine.execWatchHit h s
  | .predicateResult h result => Sys2Proof.Machine.execPredicateResult h result s
  | .predicateOverrun h => Sys2Proof.Machine.execPredicateOverrun h s
  | .preciseStop core part => Sys2Proof.Machine.execPreciseStop core part s
  | .stopResume core part => Sys2Proof.Machine.execStopResume core part s
  | .engineResume core seat cmd => Sys2Proof.Machine.execEngineResume core seat cmd s
  | .traceTrigger core part start stop => Sys2Proof.Machine.execTraceTrigger core part start stop s
  | .registerWrite r => Sys2Proof.Machine.execRegisterWrite r s
  | .homeSliceEviction line => Sys2Proof.Machine.execHomeSliceEviction line s
  | .counterReturn r => Sys2Proof.Machine.execCounterReturn r s
  | .watchdogReport agent => Sys2Proof.Machine.execWatchdogReport agent s
  | .endLaunch launch => Sys2Proof.Machine.execEndLaunch launch s
  | .cxlPortRetrained port => Sys2Proof.Machine.execCxlPortRetrained port s
  | .ralecLinkDown link => Sys2Proof.Machine.execRalecLinkDown link s
  | .ralecLinkRetrained link => Sys2Proof.Machine.execRalecLinkRetrained link s
  | .physicalFunctionFlr => Sys2Proof.Machine.execPhysicalFunctionFlr  s
  | .thermalThrottleEnd die => Sys2Proof.Machine.execThermalThrottleEnd die s
  | .pwrgdFall => Sys2Proof.Machine.execPwrgdFall  s

end Sys2Proof.Machine
end

