-- ==== Sys2Proof/Machine/Issue.lean ====
section
/-! DEFINITION. The readiness of batches (R337): a batch whose instruction would wait before it issues is no candidate, and becomes
one, with its counts anew, when what it waits for has come. -/

namespace Sys2Proof.Machine

/-- The hold with which the instruction of a sheaf's batch would wait before it issues, if it would: its attempt is tried, and what
the attempt does is not kept. -/
def State.wouldHold (s : State) (u : Nat) : Option Hold :=
  match ({ s with cur := u } : State).prepare with
  | .over _ => none
  | .run i s1 => match exec i s1 with
    | .next s2 => ((s2.sheaf? u).map (·.hold)).filter Hold.unissued
    | _ => none

/-- A batch that waits before it issues, with what it waits for. -/
def Sheaf.holdBy (sh : Sheaf) (bell : Word) (h : Hold) : Sheaf := { sh with hold := { (sh.await bell h.reason h.srcKind h.src).hold with word := h.word } }

/-- One sheaf at the end of a step: a new batch is selected where none is left (R46), and the batch is held or becomes a
candidate as its instruction is ready or not (R337). An instruction in progress is left alone, and so is a fetch. -/
def State.weigh (s0 : State) (u : Nat) : State :=
  let s := s0.withBatch u
  match s.sheaf? u with
  | none => s
  | some sh =>
    if sh.issuing = 0 || !s.canIssue sh || (sh.hold.waiting && (!sh.hold.unissued || sh.hold.word.isNone)) then s
    else match s.wouldHold u with
      | some h => s.modSheaf u fun sh => sh.holdBy s.bell h
      | none => if sh.hold.waiting then s.ripe u else s

/-- The end of a step: the batches of every sheaf are weighed. -/
def State.settled (s : State) : State := (s.sheafs.map (·.1)).foldl State.weigh s

def settleOut : Host.Outcome State Fault Refusal → Host.Outcome State Fault Refusal
  | .next s => .next s.settled
  | o => o

end Sys2Proof.Machine
end

