-- ==== Sys2Proof/Machine/Step.lean ====
section
/-! DEFINITION. One step of the machine, and an instruction put where the next step fetches it. -/

namespace Sys2Proof.Machine

/-- One step: the turn taken issues or tries again an instruction of one batch, or lets one message or event happen; then the bell
advances (R5, log 2), and the batches that may issue next are found (R337). With nothing to do only the bell advances; a
device without power and without an input takes no step. -/
def step (s : State) : Host.Outcome State Fault Refusal :=
  settleOut (match s.nextTurn with
    | none => if s.dev.powered then .next s.endTurn else .fault .powerOff
    | some t => match s.task t with
      | .instr i s1 => endOut (exec i s1)
      | .event e s1 => endOut (runEvent e s1)
      | .over s1 => .next s1.endTurn)

/-! ### An instruction to be fetched next -/

/-- Where the program lies that stands for a loaded one: its slot, its header, its launch. -/
def placedEntry : Word := 0x10000

def placedHeader : Header where
  entry := placedEntry
  hwcow := false
  grplvl := 1
  clulvl := 0
  bedlvl := 1
  widths := [11, 40, 0, 0, 0, 0]
  scratch := 0
  window := 0x7FF00000
  seed := 0
  popcap := 0
  pool := 0
  handler := 0
  overflow := 0
  ovfsize := 0
  dict := 0
  dictn := 0
  hasdep := false
  after := 0
  mapb := 0
  mapw := 0
  mapa := 0

def placedLaunch : Launch where
  number := 1
  tag := 0
  part := 0
  asn := 0
  cls := 0
  hdr := placedHeader
  dict := []
  ring := 0
  seq := 0
  irq := false
  arg := 0
  counter := 1
  groups := []
  completed := false
  rsmpCount := 0
  rsmp := none
  producer := none
  bound := []
  told := false

def placedBed : Bed where
  launch := 3
  core := 0
  seat := 0
  wid := 0
  group := 0
  status := .resident
  sheafs := [1]
  pad := []
  padEmpty := []
  units := 0
  bars := Vector.replicate 16 ⟨0, []⟩
  image := none
  escalated := false
  choice := none
  tw := 0

/-- A pointer to a table at an address (Table 13.1). -/
def pointerTo (a : Nat) : Word := BitVec.ofNat 64 (2 ^ 63 + 3 * 2 ^ 55 + a)

/-- The page tables of the placed program in frame 0, its page in frame 1. -/
def placedTables : List (Nat × Word) :=
  [(0x0000, pointerTo 0x1000), (0x1000, pointerTo 0x2000), (0x2000, pointerTo 0x3000), (0x3000, pointerTo 0x4000),
    (0x4008, encodePte ⟨true, true, true, true, false, false, false, 0, 0, 0, 0, 0, 1⟩)]

/-- A slot of 64 bits written at a frame space address. -/
def putSlot (m : Memory) (a : Nat) (w : Word) : Memory := Memory.writes m a (natToBytes 8 w.toNat)

/-- A one-instruction program loaded and its seed placed: what LAUNCH and placement do, for a machine in which nothing runs.
(DESIGN CHOICE, log 21.) -/
def State.placeProgram (s : State) (w : Word) : State :=
  { s with
    events := []
    cur := 1
    nextId := max 4 s.nextId
    sheafs := [(1, newSheaf s.bell 0 placedLaunch placedBed 2 placedEntry 0 0 1 0 (0, 0))]
    beds := [(2, placedBed)]
    seats := [(0, ⟨3, [], [], [], [], 0, 0⟩)]
    launches := [(3, placedLaunch)]
    spawns := []
    seatImages := []
    cores := []
    mem := putSlot (placedTables.foldl (fun m e => putSlot m e.1 e.2) s.mem) 0x10000 w
    icache := []
    fetchBad := []
    fetchGot := []
    frames := aset (aset s.frames 0 ⟨0, 0, none, false⟩) 1 ⟨0, 0, none, false⟩
    spaces := [(0, ⟨0, 0, none⟩)]
    tlb := []
    walkWaits := []
    holding := []
    moves := []
    parts := [(0, Partition.new [0])]
    dev := { s.dev with powered := true, booted := true, recovery := false } }

/-- The frame space address of the slot that the next step is to fetch, with the cache line that would hide it. -/
def State.nextSlot (s : State) : Option (Nat × (Nat × Loc)) :=
  match s.nextTurn with
  | some (.issue c _) => (s.sheaf? c.uid).bind fun sh0 =>
      let sh := if sh0.issuing = 0 then sh0.selectBatch else sh0
      if sh.batchPc.extractLsb' 0 3 ≠ 0 then none else
        match s.check (clusterOf sh.core) (s.asnOf sh) (s.headerOf sh) sh.batchPc .fetch with
        | .at_ (.dev a) _ _ => some (a, (State.seatKey sh.core sh.seat, lineOf (.dev a)))
        | _ => none
  | _ => none

/-- The machine with an instruction stored where step fetches its next instruction; where nothing is about to issue, a program of that
instruction is loaded and placed. (DESIGN CHOICE, log 21.) -/
def State.withFetchWord (s : State) (nbits w : Nat) : State :=
  let x : Word := BitVec.ofNat 64 (w % 2 ^ nbits)
  match s.nextSlot with
  | some (a, k) => { s with mem := putSlot s.mem a x, icache := adel s.icache k }
  | none => s.placeProgram x

end Sys2Proof.Machine
end

