-- ==== Sys2Proof/Safety.lean ====
section
/-! DEFINITION. What a safe run keeps, and the terms in which the statements speak: when an instruction finds everything it needs,
and what it leaves behind. -/

namespace Sys2Proof.Machine

/-! ### What every state of a safe run keeps -/

/-- The device's memory and the host's are in their canonical form. -/
def State.Canonical (s : State) : Prop := Memory.wf s.mem = true ∧ Memory.wf s.hostMem = true

/-- A run is safe while its memories are canonical and no step has stopped it. -/
def State.Safe (s : State) : Prop := s.Canonical ∧ ∀ r, step s ≠ .refused r

/-! ### Sheafs, as a program sees them -/

/-- Whether a lane of a name is live (R21). -/
def Sheaf.liveLane (sh : Sheaf) (n : BitVec 8) (l : Fin 32) : Bool :=
  match sh.row? n with
  | some r => hasLane r.live l
  | none => false

/-- Lanes of the batch that issues whose guard is true (R36): the participants of a lane instruction (R94). -/
def State.acting (s : State) (g : Guard) : Mask := s.shf.guarded g s.shf.issuing

/-- Whether lane l of the issuing batch acts. -/
def State.acts (s : State) (g : Guard) (l : Fin 32) : Prop := hasLane (s.acting g) l = true

/-- Whether lane l is in the batch that issues. -/
def State.inBatch (s : State) (l : Fin 32) : Prop := hasLane s.shf.issuing l = true

/-- A LANE INSTRUCTION FINDS EVERYTHING IT NEEDS: its batch has a fibre; its guard's c register, its sources, the c
registers and the destinations are full where the batch reads or writes them (R30 to R32); no row it names is spilled,
and the register file has a row for each destination (R26). -/
structure LaneClear (s : State) (i : LaneIns) : Prop where
  batch : s.shf.issuing ≠ 0#32
  guard : guardReads i.g = true → ∀ l, s.inBatch l → s.shf.fib l true (·.fullC i.g.cc) = true
  sources : ∀ o ∈ i.srcs, ∀ l, s.acts i.g l → s.shf.emptyReg o l = none
  sregs : ∀ r ∈ i.sregs, s.shf.fullS r = true
  flags : ∀ k ∈ i.ccs, ∀ l, s.acts i.g l → s.shf.fib l true (·.fullC k) = true
  dests : ∀ d ∈ i.dests, ∀ l, s.acts i.g l → s.shf.fullLane d l = true
  flagDest : ∀ k, i.ccd = some k → ∀ l, s.acts i.g l → s.shf.fib l true (·.fullC k) = true
  rows : ∀ n ∈ i.names, ∀ r, s.shf.row? n = some r → r.spilled = false
  room : s.rowsUsed s.shf.core + i.dests.length ≤ physicalRows

/-- A sheaf besides what a lane instruction may change: its lanes, rows, exceptions and hold. -/
def Sheaf.besides (sh : Sheaf) : Sheaf :=
  { sh with lanes := Vector.replicate 32 (.empty none), rows := [], fpflags := 0, hold := Hold.none }

/-- What of a fibre no lane instruction changes. -/
def Fibre.identity (f : Fibre) : Status × Park × Word × Word × Word × Word × Word × Word × List Loc × List Loc × Option Fence :=
  (f.status, f.park, f.parkPc, f.wid, f.rank, f.parent, f.lineage, f.floor, f.written, f.seen, f.fence)

/-- A register written for the acting lanes, with the value of each. -/
abbrev LaneWrite := BitVec 8 × (Fin 32 → W32)

/-- Whether an instruction marks a name as a last read (R22). -/
def marksLast (i : LaneIns) (n : BitVec 8) : Prop := n ∈ lastRegs i.srcs

/-- WHAT A LANE INSTRUCTION LEAVES: the acting lanes hold the values `w`, full, in the destinations and the flags `fl`, and have
raised the exceptions `fp`; every fibre of the batch stands at the next PC; everything else, the rest of the machine
included, is as before, but for names whose last read this was. -/
structure LaneDone (s t : State) (i : LaneIns) (w : List LaneWrite) (fl : Option (BitVec 2 × (Fin 32 → CcVal)))
    (fp : Fin 32 → BitVec 5) : Prop where
  machine : t = s.setShf t.shf
  sheaf : t.shf.besides = s.shf.besides ∧ t.shf.hold = Hold.none
  values : ∀ e ∈ w, ∀ l, s.acts i.g l → t.shf.readLane e.1 l = e.2 l ∧ t.shf.fullLane e.1 l = true ∧ t.shf.liveLane e.1 l = true
  kept : ∀ n l, hasLane s.shf.held l = true → s.shf.liveLane n l = true → ¬ (n ∈ w.map (·.1) ∧ s.acts i.g l) →
    ¬ (marksLast i n ∧ s.inBatch l) →
    t.shf.readLane n l = s.shf.readLane n l ∧ t.shf.fullLane n l = s.shf.fullLane n l ∧ t.shf.liveLane n l = true
  flags : ∀ k v, fl = some (k, v) → ∀ l, s.acts i.g l → t.shf.fib l 0 (·.readC k) = v l
  flagsKept : ∀ k l, (∀ v, fl = some (k, v) → ¬ s.acts i.g l) → t.shf.fib l 0 (·.readC k) = s.shf.fib l 0 (·.readC k)
  exceptions : ∀ l, t.shf.fib l 0 (·.fpflags) = s.shf.fib l 0 (·.fpflags) ||| (if hasLane (s.acting i.g) l then fp l else 0)
  sheafExceptions : t.shf.fpflags = (lanesIn (s.acting i.g)).foldl (fun x l => x ||| fp l) s.shf.fpflags
  pcs : ∀ l, t.shf.pcOf l = if hasLane s.shf.issuing l then s.shf.npc else s.shf.pcOf l
  fibres : ∀ l, t.shf.fib l none (fun f => some f.identity) = s.shf.fib l none (fun f => some f.identity)

/-- The instruction i answers the next state that `LaneDone` describes. -/
def LaneCompletes (i : Instr) (s : State) (n : LaneIns) (w : List LaneWrite) (fl : Option (BitVec 2 × (Fin 32 → CcVal)))
    (fp : Fin 32 → BitVec 5) : Prop :=
  ∃ t, exec i s = .next t ∧ LaneDone s t n w fl fp

/-- Flags of class add, sub, mul and log (R83, Table 3.1), from the exact values. -/
def flagsOfSum {n : Nat} (a b : BitVec n) (c : Nat) : CcVal :=
  let r := a + b + BitVec.ofNat n c
  mkFlags r.msb (r == 0#n) (decide (2 ^ n ≤ a.toNat + b.toNat + c)) (decide (r.toInt ≠ a.toInt + b.toInt + c))
def flagsOfDiff {n : Nat} (a b : BitVec n) (c : Nat) : CcVal :=
  let r := a - b - BitVec.ofNat n c
  mkFlags r.msb (r == 0#n) (decide (b.toNat + c ≤ a.toNat)) (decide (r.toInt ≠ a.toInt - b.toInt - c))
def flagsOfProduct {n : Nat} (a b : BitVec n) : CcVal :=
  let r := a * b
  mkFlags r.msb (r == 0#n) (decide (2 ^ n ≤ a.toNat * b.toNat)) (decide (r.toInt ≠ a.toInt * b.toInt))
def flagsOfResult {n : Nat} (r : BitVec n) : CcVal := mkFlags r.msb (r == 0#n) false false

/-- A 32-bit result of one, two or three operands completes with the value `r` and the flags `f` of each acting lane. -/
def ResultA (i : OpA → Instr) (r : W32 → W32) (f : W32 → CcVal) (s : State) : Prop :=
  ∀ o : OpA, LaneClear s (insA o.g o.d o.a o.fl) →
    LaneCompletes (i o) s (insA o.g o.d o.a o.fl) [(o.d, fun l => r (s.shf.readLane o.a.reg l))]
      (o.fl.map fun k => (k, fun l => f (s.shf.readLane o.a.reg l))) (fun _ => 0)
def ResultAB (i : OpAB → Instr) (r : W32 → W32 → W32) (f : W32 → W32 → CcVal) (s : State) : Prop :=
  ∀ o : OpAB, LaneClear s (insAB o.g o.d o.a o.b o.fl) →
    LaneCompletes (i o) s (insAB o.g o.d o.a o.b o.fl) [(o.d, fun l => r (s.shf.readLane o.a.reg l) (s.shf.bval o.b l))]
      (o.fl.map fun k => (k, fun l => f (s.shf.readLane o.a.reg l) (s.shf.bval o.b l))) (fun _ => 0)
def ResultABU (i : OpABU → Instr) (r : Bool → W32 → W32 → W32) (s : State) : Prop :=
  ∀ o : OpABU, LaneClear s (insAB o.g o.d o.a o.b o.fl) →
    LaneCompletes (i o) s (insAB o.g o.d o.a o.b o.fl) [(o.d, fun l => r o.uns (s.shf.readLane o.a.reg l) (s.shf.bval o.b l))]
      (o.fl.map fun k => (k, fun l => flagsOfResult (r o.uns (s.shf.readLane o.a.reg l) (s.shf.bval o.b l)))) (fun _ => 0)
def ResultABK (i : OpABK → Instr) (r : W32 → W32 → Bool → W32) (f : W32 → W32 → Bool → CcVal) (s : State) : Prop :=
  ∀ o : OpABK, LaneClear s { insAB o.g o.d o.a o.b o.fl with ccs := [o.k] } →
    LaneCompletes (i o) s { insAB o.g o.d o.a o.b o.fl with ccs := [o.k] }
      [(o.d, fun l => r (s.shf.readLane o.a.reg l) (s.shf.bval o.b l) (s.shf.fib l false fun x => flagC (x.readC o.k)))]
      (o.fl.map fun k => (k, fun l =>
        f (s.shf.readLane o.a.reg l) (s.shf.bval o.b l) (s.shf.fib l false fun x => flagC (x.readC o.k)))) (fun _ => 0)
def ResultABC (i : OpABC → Instr) (r : W32 → W32 → W32 → W32) (s : State) : Prop :=
  ∀ o : OpABC, LaneClear s (insABC o.g o.d o.a o.b o.c o.fl) →
    LaneCompletes (i o) s (insABC o.g o.d o.a o.b o.c o.fl)
      [(o.d, fun l => r (s.shf.readLane o.a.reg l) (s.shf.bval o.b l) (s.shf.readLane o.c.reg l))]
      (o.fl.map fun k => (k, fun l =>
        flagsOfResult (r (s.shf.readLane o.a.reg l) (s.shf.bval o.b l) (s.shf.readLane o.c.reg l)))) (fun _ => 0)
def ResultI (i : OpI → Instr) (r : W32 → BitVec 24 → W32) (f : W32 → BitVec 24 → CcVal) (s : State) : Prop :=
  ∀ o : OpI, LaneClear s (insA o.g o.d o.a o.fl) →
    LaneCompletes (i o) s (insA o.g o.d o.a o.fl) [(o.d, fun l => r (s.shf.readLane o.a.reg l) o.imm)]
      (o.fl.map fun k => (k, fun l => f (s.shf.readLane o.a.reg l) o.imm)) (fun _ => 0)
/-- A 64-bit result in the pair D:D+1 completes. -/
def ResultPair (i : OpAB → Instr) (r : Word → Word → Word) (f : Word → Word → CcVal) (s : State) : Prop :=
  ∀ o : OpAB, LaneClear s (ins64 o.g o.d o.a o.b o.fl) →
    LaneCompletes (i o) s (ins64 o.g o.d o.a o.b o.fl)
      [(o.d, fun l => loHalf (r (s.shf.readPair o.a.reg l) (s.shf.bval64 o.b l))),
        (o.d + 1, fun l => hiHalf (r (s.shf.readPair o.a.reg l) (s.shf.bval64 o.b l)))]
      (o.fl.map fun k => (k, fun l => f (s.shf.readPair o.a.reg l) (s.shf.bval64 o.b l))) (fun _ => 0)

/-- A floating-point result of one, two or three operands completes with the value and the exceptions that `r` gives each acting
lane (R124, R125). -/
def ResultF1X (i : FopAX → Instr) (r : W32 → W32 × Exc) (s : State) : Prop :=
  ∀ o : FopAX, LaneClear s (fins o.g o.d o.a) →
    let v := fun l => r (s.shf.readLane o.a.reg l)
    LaneCompletes (i o) s (fins o.g o.d o.a) [(o.d, fun l => (v l).1)] none fun l => (v l).2
def ResultF2 (i : FopAB → Instr) (r : Rounding → W32 → W32 → W32 × Exc) (s : State) : Prop :=
  ∀ o : FopAB, LaneClear s (finsAB o.g o.d o.a o.b) →
    let v := fun l => r o.rm (s.shf.readLane o.a.reg l) (s.shf.bval o.b l)
    LaneCompletes (i o) s (finsAB o.g o.d o.a o.b) [(o.d, fun l => (v l).1)] none fun l => (v l).2
def ResultF2X (i : FopABX → Instr) (r : W32 → W32 → W32 × Exc) (s : State) : Prop :=
  ∀ o : FopABX, LaneClear s (finsAB o.g o.d o.a o.b) →
    let v := fun l => r (s.shf.readLane o.a.reg l) (s.shf.bval o.b l)
    LaneCompletes (i o) s (finsAB o.g o.d o.a o.b) [(o.d, fun l => (v l).1)] none fun l => (v l).2
def ResultF3 (i : FopABC → Instr) (r : Rounding → W32 → W32 → W32 → W32 × Exc) (s : State) : Prop :=
  ∀ o : FopABC, LaneClear s (insABC o.g o.d o.a o.b o.c none) →
    let v := fun l => r o.rm (s.shf.readLane o.a.reg l) (s.shf.bval o.b l) (s.shf.readLane o.c.reg l)
    LaneCompletes (i o) s (insABC o.g o.d o.a o.b o.c none) [(o.d, fun l => (v l).1)] none fun l => (v l).2
def ResultSel {n : Nat} (i : CvtSel n → Instr) (r : W32 → Nat → W32 × Exc) (s : State) : Prop :=
  ∀ o : CvtSel n, LaneClear s (fins o.g o.d o.a) →
    let v := fun l => r (s.shf.readLane o.a.reg l) o.sel.toNat
    LaneCompletes (i o) s (fins o.g o.d o.a) [(o.d, fun l => (v l).1)] none fun l => (v l).2

/-! ### Rounding, by exact numbers -/

/-- The flags of a NaN result (R102): NV where an operand is a signalling NaN. -/
def nvOf (invalid : Bool) : Exc := if invalid then excNV else 0

/-- The number a finite value is. -/
def FVal.toRat : FVal → Rat
  | .fin n m e => (if n then -1 else 1) * m * (2 : Rat) ^ e
  | _ => 0

def FVal.finite : FVal → Bool
  | .fin .. => true
  | _ => false

/-- A number rounded to an integer under a mode (R103). -/
def roundInt (md : Rounding) (y : Rat) : Int :=
  match md with
  | .rz => if 0 ≤ y then ⌊y⌋ else ⌈y⌉
  | .rp => ⌈y⌉
  | .rm => ⌊y⌋
  | .rn => if y - ⌊y⌋ < 1 / 2 then ⌊y⌋ else if 1 / 2 < y - ⌊y⌋ then ⌊y⌋ + 1 else if ⌊y⌋ % 2 = 0 then ⌊y⌋ else ⌊y⌋ + 1

/-- A number rounded to a multiple of 2^q. -/
def roundTo (md : Rounding) (x : Rat) (q : Int) : Rat := roundInt md (x / (2 : Rat) ^ q) * (2 : Rat) ^ q

/-- The largest finite value and the smallest normal of a format (R101). -/
def Fmt.largest (f : Fmt) : Rat := (2 ^ (f.fb + 1) - 1) * (2 : Rat) ^ ((f.bias : Int) - f.fb)
def Fmt.smallest (f : Fmt) : Rat := (2 : Rat) ^ (1 - (f.bias : Int))

/-- Round(x, f, md) of R103 with the flags of R104, x being a number that is not zero, or a zero of a sign: `r` is the pattern of the
value x rounded as with an unbounded exponent, on the subnormal grid where that is coarser, and on overflow that of Table 4.4. -/
def Rounds (f : Fmt) (md : Rounding) (x : Rat) (zeroNeg : Bool) (r : FOut) : Prop :=
  if x = 0 then r = (if zeroNeg then f.signBit else 0, 0) else
    let q := Int.log 2 |x| - f.fb
    let u := roundTo md x q
    if f.largest < |u| then r = (overflowed f md (decide (x < 0)), excOF ||| excNX) else
      let v := roundTo md x (max q f.grid)
      let d := unpackF f r.1
      r.1 < 2 * f.signBit ∧ d.finite = true ∧ d.toRat = v ∧ d.isNeg = decide (x < 0) ∧
      r.2 = (if v = x then 0 else if |u| < f.smallest then excNX ||| excUF else excNX)

/-- Round of the positive root ρ with ρ² · c = d, which need not be a rational number (R103, R106): a normal FP32 result `r`, chosen among
the multiples of its last place as the mode says, exact or with NX. A root is never half way between two of them. -/
def RoundsRoot (md : Rounding) (c d : Rat) (r : FOut) : Prop :=
  ∃ k n : Int, let y := fun m : Rat => m * (2 : Rat) ^ (k - 23)
    let sq := fun x : Rat => x * x * c
    let v := unpackF fp32 r.1
    sq ((2 : Rat) ^ k) ≤ d ∧ d < sq ((2 : Rat) ^ (k + 1)) ∧ 0 < n ∧ r.1 < fp32.signBit ∧ v.finite = true ∧ v.toRat = y n ∧
    r.2 = (if sq (y n) = d then 0 else excNX) ∧
    match md with
    | .rn => sq (y (n - 1 / 2)) < d ∧ d < sq (y (n + 1 / 2))
    | .rp => sq (y (n - 1)) < d ∧ d ≤ sq (y n)
    | .rz | .rm => sq (y n) ≤ d ∧ d < sq (y (n + 1))

/-- A LANE INSTRUCTION THAT READS A OF ANOTHER LANE finds everything: B as in `LaneClear`, and A at the lane that `m` names, which is full or
whose slot no fibre holds (R95). -/
structure CrossClear (s : State) (g : Guard) (d : BitVec 8) (a b : VSrc) (m : Fin 32 → Option (Fin 32)) : Prop where
  lane : LaneClear s ⟨g, [vop b 1 1], [], [], [d], none⟩
  far : ∀ l, s.acts g l → ∀ k, m l = some k → s.shf.emptyAt a.reg k = false
  row : ∀ r, s.shf.row? a.reg = some r → r.spilled = false

/-! ### Memory instructions at issue -/

/-- The batch tries its instruction for the first time: nothing is in progress but the slot it has fetched. -/
def State.FirstTry (s : State) : Prop := ∃ w, s.shf.hold = { Hold.none with word := w }

/-- AN INSTRUCTION THAT MAY BE HELD FINDS EVERYTHING IT NEEDS AT ISSUE: it is ready as a lane instruction, some lane acts, and the sheaf has
room for one more outstanding operation (R173). -/
structure IssueClear (s : State) (i : LaneIns) : Prop where
  lane : LaneClear s i
  first : s.FirstTry
  some : ∃ l, s.acts i.g l
  room : s.shf.ops.length < 64

/-- A MEMORY INSTRUCTION FINDS EVERYTHING IT NEEDS AT ISSUE: besides, every acting lane's address is aligned (R164), and no fence of an acting
lane is still to complete (R190). -/
structure MemClear (s : State) (i : LaneIns) (va : Fin 32 → Word) (n : Nat) : Prop extends IssueClear s i where
  aligned : ∀ l, s.acts i.g l → (va l).toNat % n = 0
  fences : ∀ l, s.acts i.g l → s.shf.fib l none (·.fence) = none

/-- No fence of a fibre of the batch is still to complete (R190). -/
def State.unfenced (s : State) : Prop := ∀ l, s.inBatch l → s.shf.fib l none (·.fence) = none

/-- What of a fibre a memory instruction never changes. -/
def Fibre.brief (f : Fibre) : Status × Park × Word × Word × Word × Word × Word :=
  (f.status, f.park, f.parkPc, f.wid, f.rank, f.parent, f.lineage)

/-- A MEMORY INSTRUCTION HAS BEEN SENT OUT: the batch stands at the next PC, the destinations of the acting lanes are empty, and the rest of
the sheaf besides its outstanding operations, and every other sheaf, is as before. -/
structure LaneIssued (s t : State) (i : LaneIns) : Prop where
  others : ∀ u, u ≠ s.cur → t.sheaf? u = s.sheaf? u
  sheaf : ({ t.shf with ops := s.shf.ops } : Sheaf).besides = s.shf.besides ∧ t.shf.fpflags = s.shf.fpflags ∧ t.shf.hold = Hold.none
  empties : ∀ d ∈ i.dests, ∀ l, s.acts i.g l → t.shf.fullLane d l = false
  kept : ∀ n l, hasLane s.shf.held l = true → s.shf.liveLane n l = true → ¬ (n ∈ i.dests ∧ s.acts i.g l) →
    ¬ (marksLast i n ∧ s.inBatch l) →
    t.shf.readLane n l = s.shf.readLane n l ∧ t.shf.fullLane n l = s.shf.fullLane n l ∧ t.shf.liveLane n l = true
  flags : ∀ k l, t.shf.fib l 0 (·.readC k) = s.shf.fib l 0 (·.readC k) ∧ t.shf.fib l 0 (·.fpflags) = s.shf.fib l 0 (·.fpflags)
  pcs : ∀ l, t.shf.pcOf l = if hasLane s.shf.issuing l then s.shf.npc else s.shf.pcOf l
  fibres : ∀ l, t.shf.fib l none (fun f => some f.brief) = s.shf.fib l none (fun f => some f.brief)

/-- Lines that fibres have written since their last release (R190) are as before. -/
def WrittenKept (s t : State) : Prop := ∀ l, t.shf.fib l [] (·.written) = s.shf.fib l [] (·.written)

/-- What a lane instruction of form LM reads: its address, and the data registers of a store. -/
def lmIns (g : Guard) (a : LmAddr) (data : List VOp) (dests : List (BitVec 8)) : LaneIns := ⟨g, lmSrc a :: data, lmSregs a, [], dests, none⟩

/-- The line requests of the issuing sheaf take no bandwidth tokens: its pool has no budget on its die (R340). -/
def State.unmetered (s : State) : Prop := s.metered (s.budgetKey s.shf) = false

/-- WHERE A WRITE GOES AT ONCE: every acting lane's address passes the checks of R295 to the location `loc` in memory of this device or of the
host, no watch range is hit, no earlier load of its fibre from its line is still to be sent out (R261), its pool is not metered, and no
line is charged (R167: its page is of KIND 0 or in no pool). -/
structure WriteClear (s : State) (g : Guard) (va : Fin 32 → Word) (a : Acc) (n : Nat) (k : AccKind) (loc : Fin 32 → Loc) : Prop where
  checked : ∀ l, s.acts g l → ∃ p e, s.check (clusterOf s.shf.core) (s.asnOf s.shf) (s.headerOf s.shf) (va l) a = .at_ (loc l) p e
  here : ∀ l, s.acts g l → ∀ p x, loc l ≠ .peer p x
  unwatched : ∀ l, s.acts g l → s.watchesFor (dieOf s.shf.core) (s.asnOf s.shf) (va l) n k = []
  ahead : ∀ l, s.acts g l → ∀ p e, s.behindLoad s.shf s.shf.ops ⟨l, va l, loc l, p, e⟩ = false
  unmetered : s.unmetered
  uncharged : ∀ l, s.acts g l → s.chargePool (lineOf (loc l)) = none

/-- The lines of the acting lanes, in the order of the lowest lane of each (R284). -/
def State.actingLines (s : State) (g : Guard) (loc : Fin 32 → Loc) : List Loc :=
  ((lanesIn (s.acting g)).map fun l => lineOf (loc l)).eraseDups

/-- The acting lanes whose location lies in a line. -/
def State.lanesAt (s : State) (g : Guard) (loc : Fin 32 → Loc) (line : Loc) : List (Fin 32) :=
  (lanesIn (s.acting g)).filter fun l => lineOf (loc l) = line

/-- The operation a memory instruction leaves outstanding (R173), under the next fresh key. -/
def State.opOf (s : State) (g : Guard) (k : OpKind) (sent : Bool) (va : Fin 32 → Word) : Nat × OpRec :=
  (s.nextId, ⟨s.shf.batchPc, k, s.acting g, if sent then s.acting g else 0, 0, lanesOf va, [], 0, none⟩)

/-- What an atomic instruction is (R181 to R187). -/
def atomOf : Instr → Option AtomDesc
  | .atom o => some ⟨o.g, some o.d, o.a, o.b, none, false, .rmw o.aop, o.scope, o.order⟩
  | .atom64 o => some ⟨o.g, some o.d, o.a, o.b, none, true, .rmw o.aop, o.scope, o.order⟩
  | .acas o => some ⟨o.g, some o.d, o.a, o.b, some o.c, false, .cas, o.scope, o.order⟩
  | .acas64 o => some ⟨o.g, some o.d, o.a, o.b, some o.c, true, .cas, o.scope, o.order⟩
  | .red o => some ⟨o.g, none, o.a, o.b, none, o.w64, .rmw o.aop, o.scope, if o.rel then .rel else .relaxed⟩
  | _ => none

/-- Registers of an atomic's operands, and what it reads and writes. -/
def AtomDesc.regs (f : AtomDesc) : Nat := if f.w64 then 2 else 1
def AtomDesc.ins (f : AtomDesc) : LaneIns where
  g := f.g
  srcs := [vop f.a 2 0, vop f.b f.regs 1] ++ ((f.c.map fun c => [vop c f.regs 2]).getD [])
  sregs := []
  ccs := []
  dests := (f.d.map fun d => regRange d f.regs).getD []
  ccd := none

/-- A COUNTER INSTRUCTION FINDS ITS COUNTERS: it is clear as a memory instruction of 64 bytes, each acting lane's address passes the checks to a
counter line of a KIND 0 page in LPDDR6 with its reserved bytes 0 (R194), no page moves (R289), nothing goes before it (R261), and its
cluster has room for the allowances (R200). -/
structure CounterClear (s : State) (i : LaneIns) (va : Fin 32 → Word) (k : AccKind) (ctr : Fin 32 → Nat) : Prop where
  mem : MemClear s i va 64
  line : ∀ l, s.acts i.g l → ctr l % 64 = 0 ∧ (∀ b ∈ Memory.bytes s.mem (ctr l + 0x18) 40, b = 0) ∧
    ∃ p e, s.check (clusterOf s.shf.core) (s.asnOf s.shf) (s.headerOf s.shf) (va l) .counter = .at_ (.dev (ctr l)) p e ∧ p.tier = 0 ∧ p.kind = 0
  unwatched : ∀ l, s.acts i.g l → s.watchesFor (dieOf s.shf.core) (s.asnOf s.shf) (va l) 64 k = []
  still : s.moves = []
  ahead : ∀ l, s.acts i.g l → ∀ p e, s.behindLoad s.shf s.shf.ops ⟨l, va l, .dev (ctr l), p, e⟩ = false
  unmetered : s.unmetered
  room : ∀ l, s.acts i.g l → (aget s.allows (clusterOf s.shf.core, ctr l)).isSome = true ∨
    (s.allows.filter fun e => e.1.1 = clusterOf s.shf.core).length + 32 ≤ 256

/-- A COUNTER INSTRUCTION HAS BEEN SENT OUT: as a memory instruction; its operation is recorded, earlier events stand, and no byte has changed but
REMAIN and OUT of the counters of the acting lanes. -/
structure CounterIssued (s t : State) (i : LaneIns) (ctr : Fin 32 → Nat) (o : Nat × OpRec) : Prop where
  issued : LaneIssued s t i
  machine : t = { s with sheafs := t.sheafs, nextId := s.nextId + 1, tlb := t.tlb, atc := t.atc, budgets := t.budgets, mem := t.mem,
                         homes := t.homes, allows := t.allows, totals := t.totals, events := t.events }
  op : t.shf.ops = s.shf.ops ++ [o]
  flag : ∀ k, i.ccd = some k → ∀ l, s.acts i.g l → t.shf.fib l true (·.fullC k) = false
  events : s.events <+: t.events
  bytes : ∀ a, (∀ l, s.acts i.g l → ¬ (ctr l ≤ a ∧ a < ctr l + 8) ∧ ¬ (ctr l + 16 ≤ a ∧ a < ctr l + 24)) →
    Memory.read t.mem a = Memory.read s.mem a

/-- What the acting lanes ask of one counter, by lane (R198), and its sum. -/
def State.asked (s : State) (g : Guard) (b : BitVec 8) (ctr : Fin 32 → Nat) (c : Nat) : List (Nat × Nat) :=
  ((lanesIn (s.acting g)).filter fun l => ctr l = c).map fun l => (l.val, (s.shf.readLane b l).toNat)
def sumOf (ls : List (Nat × Nat)) : Nat := (ls.map (·.2)).sum

/-- Every lane asked is given what it asked. -/
def grantAll (ls : List (Nat × Nat)) : List (Nat × Word × Bool) := ls.map fun e => (e.1, BitVec.ofNat 64 e.2, true)

/-- A RESPONSE REACHES A SHEAF: it is there, its tile is not frosted (R369), and its partition there is not stopped (R422). -/
structure Reaches (s : State) (u : Nat) (sh : Sheaf) : Prop where
  there : s.sheaf? u = some sh
  thawed : frostedCore s sh.core = false
  running : (s.coreState sh.core).stopped.getLsbD sh.part = false

/-- WHERE A SCRATCHPAD ACCESS GOES: the bed's part of the launch's window (R174). -/
structure PadClear (s : State) (g : Guard) (va : Fin 32 → Word) (b : Bed) (off : Fin 32 → Nat) : Prop where
  bed : s.bed? s.shf.bed = some b
  inside : ∀ l, s.acts g l → ∃ h, s.headerOf s.shf = some h ∧ h.window.toNat ≤ (va l).toNat ∧
    (va l).toNat < h.window.toNat + h.scratch ∧ off l = (va l).toNat - h.window.toNat

/-- A SHEAF INSTRUCTION RUNS: its batch has a fibre, its guard is true of its sc register (R36), and that register, its sources
and its destinations are full (R31, R32). -/
structure SheafClear (s : State) (g : Guard) (srcs dests : List (BitVec 6)) (scd : Option (BitVec 2)) : Prop where
  batch : s.shf.issuing ≠ 0#32
  guardFull : guardReads g = true → s.shf.fullSc g.cc = true
  guard : condHolds g.cond (s.shf.readSc g.cc) = true
  sources : ∀ r ∈ srcs, s.shf.fullS r = true
  dests : ∀ r ∈ dests, s.shf.fullS r = true
  flagDest : ∀ k, scd = some k → s.shf.fullSc k = true

/-- What of a fibre no sheaf instruction of the arithmetic kind changes. -/
def Fibre.besidesPc (f : Fibre) : Fibre := { f with pc := 0, horizon := 0 }

/-- A sheaf besides what a sheaf instruction may change: its fibres, s and sc registers and hold. -/
def Sheaf.besidesS (sh : Sheaf) : Sheaf :=
  { sh with lanes := Vector.replicate 32 (.empty none), sregs := Vector.replicate 64 0, sfull := 0, sprod := [], stime := []
            scs := Vector.replicate 4 0, scfull := 0, hold := Hold.none }

/-- WHAT A SHEAF INSTRUCTION LEAVES: the s registers of `w` and the sc register of `fl` written, every fibre of the batch at the next
PC, and everything else, the rest of the machine included, as before. -/
structure SheafDone (s t : State) (w : List (BitVec 6 × Word)) (fl : Option (BitVec 2 × CcVal)) : Prop where
  machine : t = s.setShf t.shf
  sheaf : t.shf.besidesS = s.shf.besidesS ∧ t.shf.hold = Hold.none
  values : ∀ e ∈ w, t.shf.readS e.1 = e.2 ∧ t.shf.fullS e.1 = true
  kept : ∀ r, r ∉ w.map (·.1) → t.shf.readS r = s.shf.readS r ∧ t.shf.fullS r = s.shf.fullS r
  flags : ∀ k v, fl = some (k, v) → t.shf.readSc k = v ∧ t.shf.fullSc k = true
  flagsKept : ∀ k, (∀ v, fl ≠ some (k, v)) → t.shf.readSc k = s.shf.readSc k ∧ t.shf.fullSc k = s.shf.fullSc k
  pcs : ∀ l, t.shf.pcOf l = if hasLane s.shf.issuing l then s.shf.npc else s.shf.pcOf l
  fibres : ∀ l, t.shf.fib l none (fun f => some f.besidesPc) = s.shf.fib l none (fun f => some f.besidesPc)

/-- A 64-bit result of two s registers completes. -/
def ResultS (i : SopAB → Instr) (r : Word → Word → Word) (s : State) : Prop :=
  ∀ o : SopAB, SheafClear s o.g [o.a, o.b] [o.d] none →
    ∃ t, exec (i o) s = .next t ∧ SheafDone s t [(o.d, r (s.shf.readS o.a) (s.shf.readS o.b))] none

/-- A sheaf instruction's guard is false (R36). -/
structure GuardFalse (s : State) (g : Guard) : Prop where
  batch : s.shf.issuing ≠ 0#32
  guardFull : guardReads g = true → s.shf.fullSc g.cc = true
  guard : condHolds g.cond (s.shf.readSc g.cc) = false

/-- An instruction passes its batch on to the next PC and does nothing else. -/
def Passes (s : State) (i : Instr) : Prop := ∃ t, exec i s = .next t ∧ SheafDone s t [] none

/-- WHAT A CONTROL INSTRUCTION LEAVES: each fibre of the batch stands at its PC of `pc`, the batch has ended (R46), the s registers of `w` are
written, and everything else, the rest of the machine included, is as before. -/
structure BatchEnds (s t : State) (w : List (BitVec 6 × Word)) (pc : Fin 32 → Word) : Prop where
  machine : t = s.setShf t.shf
  ended : t.shf.batch = 0 ∧ t.shf.hold = Hold.none
  sheaf : ({ t.shf with batch := s.shf.batch } : Sheaf).besidesS = s.shf.besidesS
  values : ∀ e ∈ w, t.shf.readS e.1 = e.2 ∧ t.shf.fullS e.1 = true
  kept : ∀ r, r ∉ w.map (·.1) → t.shf.readS r = s.shf.readS r ∧ t.shf.fullS r = s.shf.fullS r
  flags : t.shf.scs = s.shf.scs ∧ t.shf.scfull = s.shf.scfull
  pcs : ∀ l, t.shf.pcOf l = if hasLane s.shf.issuing l then pc l else s.shf.pcOf l
  fibres : ∀ l, t.shf.fib l none (fun f => some f.besidesPc) = s.shf.fib l none (fun f => some f.besidesPc)

/-- An instruction ends its batch, each fibre at its PC of `pc`. -/
def EndsBatch (s : State) (i : Instr) (w : List (BitVec 6 × Word)) (pc : Fin 32 → Word) : Prop :=
  ∃ t, exec i s = .next t ∧ BatchEnds s t w pc

/-- No fibre of the batch is in handler (R44, R353). -/
def State.noHandler (s : State) : Prop := s.shf.issuing &&& s.shf.inHandler = 0#32

/-- The registers, flags and frames of the issuing sheaf are as before. -/
def RegistersKept (s t : State) : Prop :=
  t.shf.rows = s.shf.rows ∧ t.shf.sregs = s.shf.sregs ∧ t.shf.sfull = s.shf.sfull ∧ t.shf.scs = s.shf.scs ∧ t.shf.scfull = s.shf.scfull ∧
  t.shf.frames = s.shf.frames

/-- Where a fibre stands: ready or parked, and on what. -/
def Sheaf.stands (sh : Sheaf) (l : Fin 32) : Option (Status × Park) := sh.fib l none fun f => some (f.status, f.park)

/-! ### Engine commands -/

/-- What a command instruction is (R220): its guard, the registers of its record, its queue, its status and promise, and what its record
comes to. -/
structure EngineDesc where
  g : Guard
  record : List (BitVec 6)
  matrix : Bool
  status : Option (BitVec 6)
  promise : Option (BitVec 6)
  make : State → Sheaf → Made

def engineOf : Instr → Option EngineDesc
  | .mma o => some ⟨o.g, recordRegs o.a 6, true, some o.d, none, makeMma o false⟩
  | .mmaloop o => some ⟨o.g, recordRegs o.a 9, true, some o.d, none, makeMma o true⟩
  | .accz o => some ⟨o.g, [], true, none, none, fun _ _ => .body (.accz o.tile o.int32)⟩
  | .accst o => some ⟨o.g, recordRegs o.a 2, true, some o.d, none, makeRows o.fmt o.a (.accst o.tile o.fmt)⟩
  | .accldm o => some ⟨o.g, recordRegs o.a 2, true, some o.d, none, makeRows o.fmt o.a (.accldm o.tile o.fmt o.int32)⟩
  | .xcopy o => some ⟨o.g, recordRegs o.a 6, false, some (o.d + 1), some o.d, makeXcopy o.a⟩
  | .xfill o => some ⟨o.g, recordRegs o.a 3, false, some (o.d + 1), some o.d, makeXfill o.a⟩
  | .xgather o => some ⟨o.g, recordRegs o.a 6, false, some (o.d + 1), some o.d, makeTrellis false o.a⟩
  | .xscat o => some ⟨o.g, recordRegs o.a 6, false, some (o.d + 1), some o.d, makeTrellis true o.a⟩
  | _ => none

/-- Where a command stands: in a queue of its seat, alone under its number. -/
structure InQueue (s : State) (core seat : Nat) (st : Seat) (c : Cmd) : Prop where
  there : s.seat? core seat = some st
  found : s.seatOf c.id = some (State.seatKey core seat, st)
  cmd : s.cmd? c.id = some c
  hub : ∀ d ∈ s.hub, d.id ≠ c.id

/-- A command has ended with a CODE: it is in no queue of its seat, and its status and promise are full (R223, Table 9.1). -/
structure CommandEnds (s t : State) (core seat : Nat) (c : Cmd) (code : Nat) : Prop where
  gone : ∃ st, t.seat? core seat = some st ∧ ∀ d ∈ st.mq ++ st.cq, d.id ≠ c.id
  status : ∀ sh d, s.sheaf? c.sheaf = some sh → c.status = some d → ∃ sh', t.sheaf? c.sheaf = some sh' ∧ sh'.fullS d = true ∧
    sh'.readS d = BitVec.ofNat 64 (c.units % 2 ^ 32 * 65536 + (if c.nonfin then 256 else 0) + code)
  promise : ∀ sh p, s.sheaf? c.sheaf = some sh → c.promise = some p → ∃ sh', t.sheaf? c.sheaf = some sh' ∧ sh'.fullS p = true

/-- A unit of a command may move: it has started, nothing has stopped it, and its unit has not written. -/
structure Moves (s : State) (core seat : Nat) (c : Cmd) : Prop where
  here : s.cmdAway c (State.seatKey core seat) = false
  ends : s.mayEnd c = true
  free : c.stopped = false ∧ c.suspended = false ∧ c.fault = none ∧ c.abandon = none ∧ c.wrote = false

/-- Bytes written at one place of device memory and nowhere else. -/
def WroteAt (s t : State) (a : Nat) (bs : List Byte) : Prop :=
  Memory.bytes t.mem a bs.length = bs ∧ ∀ c, c < a ∨ a + bs.length ≤ c → Memory.read t.mem c = Memory.read s.mem c

/-- A place of device memory that takes a write as it is: not poisoned, and in no counter. -/
structure Plain (s : State) (a n : Nat) : Prop where
  canonical : s.Canonical
  poison : (s.home (lineOf (.dev a))).poison = false
  counters : ∀ e ∈ s.allows, e.1.2 + 64 ≤ a ∨ a + n ≤ e.1.2

/-! ### Exceptions -/

/-- A trap of the issuing sheaf that does not escalate (R158): its stack has room and its vector is set and aligned. -/
def State.CanTrap (s : State) : Prop :=
  s.shf.frames.length < 4 ∧ s.hvec s.shf ≠ 0 ∧ (s.hvec s.shf).extractLsb' 0 3 = 0

/-- THE FRAME OF A TRAP found at issue for the fibres of a mask (R157, R344, Table 15.2): the saved PC of each lane is the PC at which it stands. -/
def State.frameAt (s : State) (m : Mask) (cause : BitVec 8) (addr : Word) (info : W32) (saved : Fin 32 → Word) : Frame where
  cause := cause
  info := info
  addr := addr
  mask := m
  fpc := s.shf.batchPc
  bell := s.bell
  pcs := lanesOf saved
  ccs := lanesOf fun l => s.shf.fib l 0 Fibre.ccBits
  replay := none
  rte := 0

/-- WHAT TAKING AN EXCEPTION LEAVES: the frame on top of the sheaf's stack, the fibres of its mask ready at the vector and out of every batch, and
the rest of the sheaf (its registers, flags and barriers) and of the machine as before, but for the error log. -/
structure TrapTaken (s t : State) (f : Frame) : Prop where
  machine : t = { s with sheafs := t.sheafs, parts := t.parts }
  others : ∀ u, u ≠ s.cur → t.sheaf? u = s.sheaf? u
  frames : t.shf.frames = f :: s.shf.frames
  vector : ∀ l, hasLane f.mask l = true → t.shf.pcOf l = s.hvec s.shf ∧ t.shf.fib l .onFault (·.status) = .ready
  elsewhere : ∀ l, hasLane f.mask l = false → t.shf.fib l none (fun x => some (x.pc, x.status, x.park)) =
    s.shf.fib l none (fun x => some (x.pc, x.status, x.park))
  batch : t.shf.batch = 0 ∧ t.shf.hold = Hold.none
  registers : t.shf.rows = s.shf.rows ∧ t.shf.sregs = s.shf.sregs ∧ t.shf.sfull = s.shf.sfull ∧ t.shf.scs = s.shf.scs ∧
    t.shf.scfull = s.shf.scfull ∧ t.shf.bars = s.shf.bars ∧ t.shf.ops = s.shf.ops ∧ t.shf.fpflags = s.shf.fpflags
  fibres : ∀ l, t.shf.fib l none (fun x => some (x.cc, x.ccFull, x.identity.2.2.2)) = s.shf.fib l none (fun x => some (x.cc, x.ccFull, x.identity.2.2.2))

/-- An instruction traps at issue for the fibres of a mask, if the trap does not escalate. -/
def TrapsAtIssue (s : State) (i : Instr) (m : Mask) (cause : BitVec 8) (addr : Word) (info : W32) : Prop :=
  s.CanTrap → ∃ t, exec i s = .next t ∧ TrapTaken s t (s.frameAt m cause addr info s.shf.pcOf)

/-! ### Fibres, launches and commands as a whole -/

/-- Fibres of a sheaf go on or stop, and nothing else of the machine changes: status and park become `st` for the lanes of a mask. -/
structure Stand (s t : State) (u : Nat) (m : Mask) (st : Status × Park) : Prop where
  machine : ∃ sh', t = { s with sheafs := amod s.sheafs u fun _ => sh' } ∧ t.sheaf? u = some sh'
  stands : ∀ sh sh', s.sheaf? u = some sh → t.sheaf? u = some sh' → ∀ l, hasLane sh.held l = true →
    sh'.pcOf l = sh.pcOf l ∧ sh'.stands l = if hasLane m l then some st else sh.stands l
  rest : ∀ sh sh', s.sheaf? u = some sh → t.sheaf? u = some sh' → sh'.rows = sh.rows ∧ sh'.sregs = sh.sregs ∧ sh'.sfull = sh.sfull ∧
    sh'.scs = sh.scs ∧ sh'.frames = sh.frames ∧ sh'.ops = sh.ops ∧ sh'.bars = sh.bars ∧ sh'.held = sh.held

/-- A LAUNCH HAS ENDED with status 0x09 (R328): its entry is marked complete, and nothing of it is left on a core, in a queue or in a lift region. -/
structure LaunchEnded (t : State) (k : Nat) : Prop where
  entry : ∃ la, t.launch? k = some la ∧ la.completed = true
  beds : ∀ e ∈ t.beds, e.2.launch ≠ k
  seats : (∀ e ∈ t.seats, e.2.launch ≠ k) ∧ ∀ e ∈ t.seatImages, e.2.launch ≠ k
  records : ∀ r ∈ t.spawns, r.launch ≠ k
  sheafs : ∀ e ∈ t.sheafs, e.2.launch ≠ k

/-- The end of a launch changes no byte: no surrender (R180) and no step of the KV agents (R212) is under way, whose undoing could. -/
structure NoneUnderWay (s : State) : Prop where
  drops : ∀ e ∈ s.sheafs, ∀ o ∈ e.2.ops, o.2.kind.isDrop = false
  steps : ∀ m, .kvAgentStep m ∉ s.events

/-- A COMMAND MAY START or go on: its ring runs, it is the only one pending there, its words are in order and the head core works (R315, R316, R406). -/
structure CommandReady (s : State) (c : Command) (r : Ring) (p : PendingCmd) : Prop where
  ring : s.ring? c.ring = some r
  running : r.stopped = false
  pending : r.pending = [p]
  words : p.seq = c.seq ∧ p.words = c.words
  head : s.dev.failed = false

/-- The record of a command (R317, Table 14.3). -/
def recordOf (c : Command) (status : Nat) (data tw : Word) (writers : List Nat) : Record :=
  let w0 := c.words.getD 0 0
  ⟨BitVec.ofNat 64 (w0.toNat / 2 ^ 32 * 2 ^ 32 + status * 256 + w0.toNat % 256), data, w0.getLsbD 9, tw, writers⟩

/-- A COMMAND IS COMPLETE with a status and a word of data: it is no longer pending, and its record waits for the completion queue, for the bell
to reach `tw` and for the writes of the sheafs `writers`. -/
structure CommandDoneAt (t : State) (c : Command) (r : Ring) (status : Nat) (data tw : Word) (writers : List Nat) : Prop where
  ring : t.ring? c.ring = some { r with pending := [], held := r.held ++ [recordOf c status data tw writers] }
  event : .completionRecord c.ring ∈ t.events

/-- A command is complete that has no write to wait for. -/
def CommandDone (t : State) (c : Command) (r : Ring) (status : Nat) (data : Word) : Prop := CommandDoneAt t c r status data 0 []

/-- The address space that a word of a command names is its partition's (R315). -/
def spaceOk (s : State) (c : Command) (r : Ring) (i : Nat) : Prop :=
  ∃ sp, aget s.spaces ((c.words.getD i 0).toNat % 4096) = some sp ∧ sp.part = r.reg.part

/-- An address of the front end lies at a place of device memory, on a page of KIND 0 on LPDDR6 with R and W, and nothing owns its line. -/
structure HubAt (s : State) (asn : Nat) (va : Word) (a : Nat) : Prop where
  read : ∃ p e, s.check hubCluster asn none va .load = .at_ (.dev a) p e ∧ p.kind = 0 ∧ p.tier = 0 ∧ p.r = true ∧ p.w = true
  write : ∃ p e, s.check hubCluster asn none va .store = .at_ (.dev a) p e ∧ p.kind = 0 ∧ p.tier = 0 ∧ p.r = true ∧ p.w = true
  free : s.writeWaits (lineOf (.dev a)) = false ∧ (s.home (lineOf (.dev a))).poison = false ∧ s.portFails (lineOf (.dev a)) = false

/-! ### Steps -/

/-- The operation of the opcode table that a message or an event is. -/
def IsInstr (e : Event) (i : Instr) : Prop :=
  match e with
  | .rowRefill sheaf name => i = .rowRefill sheaf name
  | .setAside sheaf => i = .setAside sheaf
  | .napWake sheaf => i = .napWake sheaf
  | .doorbell ring value => i = .doorbell ring value
  | .launch c => i = .launch c
  | .dma c => i = .dma c
  | .signal c => i = .signal c
  | .config c => i = .config c
  | .raise c => i = .raise c
  | .lower c => i = .lower c
  | .balloon c => i = .balloon c
  | .completionRecord ring => i = .completionRecord ring
  | .ringRegistration r => i = .ringRegistration r
  | .ringRestart ring => i = .ringRestart ring
  | .completionQueueHead ring head => i = .completionQueueHead ring head
  | .bedPlacement part => i = .bedPlacement part
  | .scratchpadReclaim core => i = .scratchpadReclaim core
  | .spawnRequest m => i = .spawnRequest m
  | .bedCompletion launch bed => i = .bedCompletion launch bed
  | .dwaitReady sheaf => i = .dwaitReady sheaf
  | .loadResponse r => i = .loadResponse r
  | .homeRead m => i = .homeRead m
  | .homeWrite m => i = .homeWrite m
  | .twReturn r => i = .twReturn r
  | .atomicExecution m => i = .atomicExecution m
  | .atomicReturn r => i = .atomicReturn r
  | .settle line => i = .settle line
  | .allowanceRefill m => i = .allowanceRefill m
  | .allowanceReturn cluster => i = .allowanceReturn cluster
  | .holderReport cluster ctr => i = .holderReport cluster ctr
  | .reservePublish part pool => i = .reservePublish part pool
  | .capwaitExpiry part pool => i = .capwaitExpiry part pool
  | .reliefGrant part pool => i = .reliefGrant part pool
  | .pageWalk sheaf op => i = .pageWalk sheaf op
  | .walkAnswer asn va updated => i = .walkAnswer asn va updated
  | .walkAnswerTimeout asn va => i = .walkAnswerTimeout asn va
  | .update u => i = .update u
  | .atsCompletion r => i = .atsCompletion r
  | .prgResponse r => i = .prgResponse r
  | .pageRequestTimeout fn page => i = .pageRequestTimeout fn page
  | .priReenable fn => i = .priReenable fn
  | .invalidateRequest r => i = .invalidateRequest r
  | .invalidateCompletion r => i = .invalidateCompletion r
  | .hostSnoop line write => i = .hostSnoop line write
  | .hostRead addr len => i = .hostRead addr len
  | .hostWrite m => i = .hostWrite m
  | .peerAccess m => i = .peerAccess m
  | .peerAnswer id code => i = .peerAnswer id code
  | .peerTimeout id => i = .peerTimeout id
  | .cxlPortDown port => i = .cxlPortDown port
  | .cxlRetrainTimeout port => i = .cxlRetrainTimeout port
  | .epochEnd => i = .epochEnd
  | .migration m => i = .migration m
  | .matrixCommandStart core seat => i = .matrixCommandStart core seat
  | .matrixStep core seat => i = .matrixStep core seat
  | .tileRowTransfer core seat => i = .tileRowTransfer core seat
  | .copyUnit core seat cmd => i = .copyUnit core seat cmd
  | .promisedBellTime core seat cmd => i = .promisedBellTime core seat cmd
  | .engineFault core seat cmd => i = .engineFault core seat cmd
  | .kvAgentStep m => i = .kvAgentStep m
  | .rsmpDeciding launch => i = .rsmpDeciding launch
  | .cloneLanding m => i = .cloneLanding m
  | .rsmpRelease launch => i = .rsmpRelease launch
  | .deferredFault m => i = .deferredFault m
  | .escalationEnd launch bed => i = .escalationEnd launch bed
  | .escalationCull launch bed => i = .escalationCull launch bed
  | .escalationRetry launch bed handler => i = .escalationRetry launch bed handler
  | .lift launch bed => i = .lift launch bed
  | .replant launch bed => i = .replant launch bed
  | .stopRequest core => i = .stopRequest core
  | .frostSeal core => i = .frostSeal core
  | .lateArrival core r => i = .lateArrival core r
  | .thaw image target => i = .thaw image target
  | .modeChange part fn assisted => i = .modeChange part fn assisted
  | .aideRestart aide => i = .aideRestart aide
  | .frontEndRestart => i = .frontEndRestart
  | .heartbeat => i = .heartbeat
  | .hubTimerExpiry => i = .hubTimerExpiry
  | .queueReset q => i = .queueReset q
  | .engineReset e => i = .engineReset e
  | .partitionReset part => i = .partitionReset part
  | .dieReset die => i = .dieReset die
  | .functionLevelReset part => i = .functionLevelReset part
  | .perstN => i = .perstN
  | .resetN => i = .resetN
  | .pwrgd => i = .pwrgd
  | .recoveryImage version ecdsaOk lmsOk => i = .recoveryImage version ecdsaOk lmsOk
  | .thermalThrottle die => i = .thermalThrottle die
  | .thermalTrip die => i = .thermalTrip die
  | .powerCap watts => i = .powerCap watts
  | .getVersion => i = .getVersion
  | .getCapabilities => i = .getCapabilities
  | .negotiateAlgorithms offersP384 => i = .negotiateAlgorithms offersP384
  | .getDigests => i = .getDigests
  | .getCertificate offset length => i = .getCertificate offset length
  | .challenge nonce => i = .challenge nonce
  | .getMeasurements index => i = .getMeasurements index
  | .bandwidthPeriod die => i = .bandwidthPeriod die
  | .stallSample core part => i = .stallSample core part
  | .watchHit h => i = .watchHit h
  | .predicateResult h result => i = .predicateResult h result
  | .predicateOverrun h => i = .predicateOverrun h
  | .preciseStop core part => i = .preciseStop core part
  | .stopResume core part => i = .stopResume core part
  | .engineResume core seat cmd => i = .engineResume core seat cmd
  | .traceTrigger core part start stop => i = .traceTrigger core part start stop
  | .registerWrite r => i = .registerWrite r
  | .homeSliceEviction line => i = .homeSliceEviction line
  | .counterReturn r => i = .counterReturn r
  | .watchdogReport agent => i = .watchdogReport agent
  | .endLaunch launch => i = .endLaunch launch
  | .cxlPortRetrained port => i = .cxlPortRetrained port
  | .ralecLinkDown link => i = .ralecLinkDown link
  | .ralecLinkRetrained link => i = .ralecLinkRetrained link
  | .physicalFunctionFlr => i = .physicalFunctionFlr
  | .thermalThrottleEnd die => i = .thermalThrottleEnd die
  | .pwrgdFall => i = .pwrgdFall

end Sys2Proof.Machine
end

