-- ==== Sys2Proof/Certificates/Slice0/Obligations.lean ====
section
/-! DEFINITION. The statements for the provers. Each says which rules of the manual it formalises. -/

open Sys2Proof Sys2Proof.Machine

/-! ### Reset, a new sheaf, encodings and a step (R20, R55 to R58, R71 to R80, R407, R412) -/

/-- R407, R412: after reset nothing has been created and memory is canonical; a step then only lets the bell advance. What an unlisted byte reads
as (log 5), the bell's value (log 2) and that the device has booted (log 4) are the model's choices. -/
def Obligations.ResetState : Prop :=
  let r := State.reset
  r.Canonical ∧ (∀ a, Memory.read r.mem a = 0 ∧ Memory.read r.hostMem a = 0) ∧ r.bell = 0 ∧
  r.sheafs = [] ∧ r.beds = [] ∧ r.seats = [] ∧ r.launches = [] ∧ r.spawns = [] ∧ r.rings = [] ∧ r.parts = [] ∧ r.pools = [] ∧ r.spaces = [] ∧
  r.l1 = [] ∧ r.cluster = [] ∧ r.icache = [] ∧ r.tlb = [] ∧ r.atc = [] ∧ r.homes = [] ∧ r.frames = [] ∧ r.watches = [] ∧ r.images = [] ∧
  r.dev.powered = true ∧ r.dev.booted = true ∧ r.dev.recovery = false ∧ r.dev.failed = false ∧ r.dev.alert = false ∧
  ∃ t, step r = .next t ∧ t = { r with bell := t.bell, free := 1 }

/-- R17, R20, R266: when a sheaf begins, s0 is its argument, s1 the lowest work identifier of its bed, the other s, the sc, c and b registers and the
exceptions are 0, every one is full and no name is mapped; each of its fibres stands ready at the entry with its own work identifier, which is its rank
before the launch's first RSMP; its horizon is 0 and its floor the one it begins with (R266), and no fence or write is behind it. -/
def Obligations.NewSheafs : Prop :=
  ∀ (bell floor : Word) (la : Launch) (b : Bed) (bk : Nat) (entry arg base : Word) (n i : Nat) (at_ : Nat × Nat),
    let sh := newSheaf bell floor la b bk entry arg base n i at_
    sh.readS 0 = arg ∧ sh.readS 1 = base ∧ (∀ r : BitVec 6, 2 ≤ r.toNat → sh.readS r = 0) ∧ (∀ r, sh.fullS r = true) ∧
    (∀ k, sh.readSc k = 0 ∧ sh.fullSc k = true) ∧ (∀ k, sh.bar k = 0) ∧ sh.fpflags = 0 ∧ sh.notice = 0 ∧ (∀ v, sh.row? v = none) ∧
    sh.frames = [] ∧ sh.ops = [] ∧ sh.batch = 0 ∧
    ∀ l : Fin 32, (32 * i + l.val < n → ∃ f, sh.lanes[l] = .held f ∧ f.pc = entry ∧ f.status = .ready ∧ f.park = .none ∧
        f.wid = base + BitVec.ofNat 64 (32 * i + l.val) ∧ f.rank = f.wid ∧ f.parent = BitVec.allOnes 64 ∧
        f.lineage = BitVec.ofNat 64 (la.rsmpCount.toNat % 2 ^ 24 * 2 ^ 40 + f.wid.toNat % 2 ^ 40) ∧ f.fpflags = 0 ∧
        f.floor = floor ∧ f.horizon = 0 ∧ f.fence = none ∧ f.written = [] ∧ f.seen = [] ∧ ∀ k, f.readC k = 0 ∧ f.fullC k = true) ∧
      (n ≤ 32 * i + l.val → sh.lanes[l].isHeld = false)

/-- The worked encodings of Table 2.14 and the packed slot below it decode to the instructions they stand for; a dictionary slot of no code, an unassigned
opcode, a guard of condition 0 and CC 1, a reserved bit and a position past the codes are refused with their subcodes (Table 2.13). -/
def Obligations.DecodedWords : Prop :=
  let v := fun (r : BitVec 8) => (⟨r, false, false⟩ : VSrc)
  decodeSlot 0x00000A0608008000 0 = .ok (.iadd ⟨⟨0, 0⟩, 5, v 3, .lane ⟨4, true, false⟩ .straight, none⟩) ∧
  decodeSlot 0x00380C041200012E 0 = .ok (.iadd ⟨⟨1, 12⟩, 6, v 2, .lane (v 9) (.rot 5), some 2⟩) ∧
  decodeSlot 0x00000E0E08000700 0 = .ok (.iadd ⟨⟨0, 0⟩, 7, v 7, .sheaf 4, none⟩) ∧
  decodeSlot 0x10000809FFFFFA00 0 = .ok (.iaddi ⟨⟨0, 0⟩, 4, v 4, 0xFFFFFD, none⟩) ∧
  decodeSlot 0x5000140E10020086 0 = .ok (.ld ⟨⟨0, 0⟩, 10, ⟨.sum 2, v 7, 16⟩, .w32, false, .clu, false⟩) ∧
  decodeSlot 0x82C0145000000001 0 = .ok (.saddi ⟨⟨0, 0⟩, 5, 5, 1⟩) ∧
  decodeSlot 0x881C000000000003 0 = .ok (.bra ⟨⟨1, 12⟩, 3⟩) ∧
  decodeSlot 0xF00001C201800140 2 = .ok (.dictionaryCode 0xF00001C201800140 2) ∧
  codeIndex (dictCode 0xF00001C201800140 2) = 7 ∧ codeOverride (dictCode 0xF00001C201800140 2) = ⟨0, 2⟩ ∧
  decodeSlot 0xC000000000000000 1 = .error 0x07 ∧ decodeSlot 0x7FC0000000000000 0 = .error 0x01 ∧
  decodeSlot 0x00200A0608008000 0 = .error 0x0A ∧ decodeSlot 0x00000A0608008800 0 = .error 0x02 ∧ decodeSlot 0x00000A0608008000 1 = .error 0x0D

/-- Tables 2.2 to 2.12: decoding the slot of a well-formed instruction gives it back, with every operand; and a slot that decodes to an instruction is
the slot of that instruction, which is well formed, so that no two slots mean the same. -/
def Obligations.DecodeAndEncodeAgree : Prop :=
  (∀ i : Instr, i.wf = true → i.isEvent = false → ∃ w, encode i = some w ∧ decodeSlot w 0 = .ok i) ∧
  ∀ (w : Word) (i : Instr), decodeSlot w 0 = .ok i → i.isEvent = false → i.wf = true ∧ encode i = some w

/-- R55, R56, R58, R80, R81, R337: a step that issues runs the instruction that the slot at the batch's PC decodes to, the next PC noted beside it; the
bell then advances (log 2), and the batches are weighed: one whose instruction would wait before it issues is no candidate, and one whose wait is over
becomes a candidate with its counts anew. A batch that tries again keeps its slot; a pattern that is no instruction traps ILLEGAL with its subcode for the
whole batch, a PC between slots with 0x0D, and a fetch that fails with its cause at the slot's address; a message or an event runs its operation. The slot is
the 8 bytes of memory at that address. -/
def Obligations.StepRunsTheInstruction : Prop :=
  (∀ (s : State) (c : Cand) (others : List Nat), s.nextTurn = some (.issue c others) →
    let s0 := (s.chosen c others).withBatch c.uid
    let pc := s0.shf.batchPc
    let k := (pc.extractLsb' 0 3).toNat
    s0.shf.issuing ≠ 0 → s0.shf.hold.word = none →
    (k < 3 → ∀ w s1, s0.fetchSlot s0.cur s0.shf pc = .word w s1 →
      let s2 := s1.modSheaf s1.cur fun x => { x with npc := nextPc pc w, hold := { x.hold with word := some w } }
      (∀ i, decodeSlot w k = .ok i → i.wf = true ∧ step s = settleOut (endOut (exec i (s2.traceIssue c)))) ∧
      ∀ sub, decodeSlot w k = .error sub → s2.CanTrap →
        ∃ t, step s = .next t.endTurn.settled ∧ TrapTaken s2 t (s2.frameAt s2.shf.issuing 0x01 0 (sub.setWidth 32) s2.shf.pcOf)) ∧
    (k < 3 → ∀ cause lg, s0.fetchSlot s0.cur s0.shf pc = .trap cause lg →
      let s2 := (s0.spend (s0.asnOf s0.shf) (slotOf pc) (s0.cur, none)).clearBad (State.seatKey s0.shf.core s0.shf.seat)
      s2.CanTrap → ∃ t, step s = .next t.endTurn.settled ∧ TrapTaken s2 t (s2.frameAt s2.shf.issuing cause (slotOf pc) 2 s2.shf.pcOf)) ∧
    (3 ≤ k → s0.CanTrap → ∃ t, step s = .next t.endTurn.settled ∧ TrapTaken s0 t (s0.frameAt s0.shf.issuing 0x01 0 0x0D s0.shf.pcOf))) ∧
  (∀ (s : State) (u : Nat), s.nextTurn = some (.retry u) → let s0 := { s with cur := u }
    let pc := s0.shf.batchPc
    let k := (pc.extractLsb' 0 3).toNat
    s0.shf.issuing ≠ 0 →
    (∀ w i, s0.shf.hold.word = some w → decodeSlot w k = .ok i →
      step s = settleOut (endOut (exec i (s0.modSheaf u fun x => { x with npc := nextPc pc w, hold := { x.hold with word := some w } })))) ∧
    (s0.shf.hold.word = none → k < 3 → ∀ w s1, s0.fetchSlot u s0.shf pc = .word w s1 → (decodeSlot w k).toOption.isSome = true → ∃ t,
      step s = .next t.endTurn.settled ∧ t = s1.setShf t.shf ∧ t.shf.hold.word = some w ∧ t.shf.hold.waiting = false ∧ t.shf.npc = nextPc pc w ∧
      t.shf.wait = 0 ∧ t.shf.age = s1.bell.toNat)) ∧
  (∀ (s : State) (k : Nat) (e : Event), s.nextTurn = some (.event k) → s.events[k]? = some e →
    ∀ i, IsInstr e i → step s = settleOut (endOut (exec i { s with events := s.events.eraseIdx k }))) ∧
  (∀ (s : State) (u : Nat) (sh : Sheaf) (pc : Word) (a : Nat) (p : Pte) (e : Nat), a % 8 = 0 →
    s.check (clusterOf sh.core) (s.asnOf sh) (s.headerOf sh) (slotOf pc) .fetch = .at_ (.dev a) p e →
    aget s.icache (State.seatKey sh.core sh.seat, lineOf (.dev a)) = none →
    ∃ s1, s.fetchSlot u sh pc = .word (BitVec.ofNat 64 (bytesToNat (Memory.bytes s.mem a 8))) s1 ∧
      s1 = { s with tlb := s1.tlb, atc := s1.atc, icache := s1.icache }) ∧
  (∀ (s t : State), endOut (.next s) = .next t → t.mem = s.mem ∧ t.bell = s.bell + BitVec.ofNat 64 (Config.stepTicks s.free) ∧ t.free = s.free + 1) ∧
  (∀ (s : State) (u : Nat) (sh : Sheaf), s.sheaf? u = some sh → sh.issuing ≠ 0 → s.canIssue sh = true →
    (sh.hold.waiting = true → sh.hold.unissued = true ∧ sh.hold.word.isSome = true) →
    (∀ h, s.wouldHold u = some h → ∃ sh', s.weigh u = { s with sheafs := amod s.sheafs u fun _ => sh' } ∧ sh'.hold.waiting = true ∧
      sh'.hold.reason = h.reason ∧ sh'.issuing = sh.issuing ∧ sh'.rows = sh.rows ∧ sh'.sregs = sh.sregs ∧ (u, sh') ∉ (s.weigh u).ready) ∧
    (s.wouldHold u = none → sh.hold.waiting = false → s.weigh u = s) ∧
    (s.wouldHold u = none → sh.hold.waiting = true → s.weigh u = { s with sheafs := amod s.sheafs u fun x =>
      { x with hold := { x.hold with waiting := false }, wait := 0, age := s.bell.toNat } })) ∧
  ∀ pc w, nextPc pc w = if slotKind w = .dict ∧ pc.toNat % 8 + 1 < dictN w then slotOf pc + BitVec.ofNat 64 (pc.toNat % 8 + 1) else slotOf pc + 8

/-- The memories keep their canonical form: every byte listed is listed once, in rising order, and differs from what an unlisted byte reads as. -/
def Obligations.StepKeepsCanonical : Prop := ∀ s t : State, s.Canonical → step s = .next t → t.Canonical

/-- R7, R292, R305, R313, R332, R404, R419: no instruction of a program changes host memory, an address space, a ring, a watch range, an aperture, an image, a device service,
or the clusters and modes of a partition; those change only by the operations of the host, the front end and the head core. -/
def Obligations.ProgramsKeepWhatTheDriverSet : Prop :=
  ∀ (i : Instr) (s t : State), (i.isEvent = false ∨ ∃ w k, i = .dictionaryCode w k) → exec i s = .next t →
    t.hostMem = s.hostMem ∧ t.spaces = s.spaces ∧ t.rings = s.rings ∧ t.watches = s.watches ∧ t.apertures = s.apertures ∧ t.images = s.images ∧
    t.dev = s.dev ∧ ∀ k, (t.part? k).map (fun p => (p.clusters, p.walksAssisted, p.cowAssisted, p.reliefAssisted, p.migrationAssisted, p.predicatesAssisted)) =
      (s.part? k).map (fun p => (p.clusters, p.walksAssisted, p.cowAssisted, p.reliefAssisted, p.migrationAssisted, p.predicatesAssisted))

/-! ### Integer lane instructions (Tables 3.1 to 3.3) -/

/-- R83, R84, R85, R90: IADD, ISUB, IADC, ISBC and IADDI complete with the sum or difference and its flags; for ISBC the
borrow-in is 1 − cin.
R83, R84, R88 to R90: IMUL, IMULI, IMULH, IMAD and IMULW complete with the product the tables give, signed or unsigned where
there is a U bit. -/
def Obligations.IntegerArithmetic : Prop :=
  (∀ s : State,
     ResultAB .iadd (fun a b => a + b) (fun a b => flagsOfSum a b 0) s ∧
     ResultAB .isub (fun a b => a - b) (fun a b => flagsOfDiff a b 0) s ∧
     ResultABK .iadc (fun a b c => a + b + BitVec.ofNat 32 c.toNat) (fun a b c => flagsOfSum a b c.toNat) s ∧
     ResultABK .isbc (fun a b c => a - b - BitVec.ofNat 32 (1 - c.toNat)) (fun a b c => flagsOfDiff a b (1 - c.toNat)) s ∧
     ResultI .iaddi (fun a i => a + i.signExtend 32) (fun a i => flagsOfSum a (i.signExtend 32) 0) s) ∧
  (∀ s : State,
     ResultAB .imul (fun a b => a * b) flagsOfProduct s ∧
     ResultI .imuli (fun a i => a * i.signExtend 32) (fun a i => flagsOfProduct a (i.signExtend 32)) s ∧
     ResultABU .imulh (fun u a b => if u then BitVec.ofNat 32 (a.toNat * b.toNat / 2 ^ 32)
       else BitVec.ofInt 32 (a.toInt * b.toInt / 2 ^ 32)) s ∧
     ResultABC .imad (fun a b c => a * b + c) s ∧
     ∀ o : OpABU, LaneClear s ⟨o.g, vop o.a 1 0 :: bops o.b 1, bsregs o.b, [], [o.d, o.d + 1], o.fl⟩ →
       let r := fun l => let a := s.shf.readLane o.a.reg l; let b := s.shf.bval o.b l
         if o.uns then BitVec.ofNat 64 (a.toNat * b.toNat) else BitVec.ofInt 64 (a.toInt * b.toInt)
       LaneCompletes (.imulw o) s ⟨o.g, vop o.a 1 0 :: bops o.b 1, bsregs o.b, [], [o.d, o.d + 1], o.fl⟩
         [(o.d, fun l => loHalf (r l)), (o.d + 1, fun l => hiHalf (r l))] (o.fl.map fun k => (k, fun l => flagsOfResult (r l))) (fun _ => 0))

/-- R83, R84, R89, R90: IMIN, IMAX and IABS complete with the smaller, the larger and the absolute value, and ICMP and ICMPI with the
flags of the difference and no register written; IABS sets V for the value that has no absolute value in 32 bits. -/
def Obligations.IntegerOrderAndCompare : Prop :=
  ∀ s : State,
    ResultABU .imin (fun u a b => if (if u then b.toNat < a.toNat else b.toInt < a.toInt) then b else a) s ∧
    ResultABU .imax (fun u a b => if (if u then a.toNat < b.toNat else a.toInt < b.toInt) then b else a) s ∧
    ResultA .iabs (fun a => BitVec.ofNat 32 a.toInt.natAbs)
      (fun a => let r := BitVec.ofNat 32 a.toInt.natAbs; mkFlags r.msb (r == 0#32) false (a == 0x80000000#32)) s ∧
    (∀ o : OpCmp, LaneClear s ⟨o.g, vop o.a 1 0 :: bops o.b 1, bsregs o.b, [], [], some o.k⟩ →
      LaneCompletes (.icmp o) s ⟨o.g, vop o.a 1 0 :: bops o.b 1, bsregs o.b, [], [], some o.k⟩ []
        (some (o.k, fun l => flagsOfDiff (s.shf.readLane o.a.reg l) (s.shf.bval o.b l) 0)) (fun _ => 0)) ∧
    ∀ o : OpCmpI, LaneClear s ⟨o.g, [vop o.a 1 0], [], [], [], some o.k⟩ →
      LaneCompletes (.icmpi o) s ⟨o.g, [vop o.a 1 0], [], [], [], some o.k⟩ []
        (some (o.k, fun l => flagsOfDiff (s.shf.readLane o.a.reg l) (o.imm.signExtend 32) 0)) (fun _ => 0)

/-- R83, R84, R87, R90: the logic instructions and moves complete with their results, SEL with a where its condition holds and b
otherwise. -/
def Obligations.LogicAndMoves : Prop :=
  ∀ s : State,
    ResultAB .and (fun a b => a &&& b) (fun a b => flagsOfResult (a &&& b)) s ∧
    ResultAB .or (fun a b => a ||| b) (fun a b => flagsOfResult (a ||| b)) s ∧
    ResultAB .xor (fun a b => a ^^^ b) (fun a b => flagsOfResult (a ^^^ b)) s ∧
    ResultAB .andn (fun a b => a &&& ~~~b) (fun a b => flagsOfResult (a &&& ~~~b)) s ∧
    ResultI .andi (fun a i => a &&& i.signExtend 32) (fun a i => flagsOfResult (a &&& i.signExtend 32)) s ∧
    ResultI .ori (fun a i => a ||| i.signExtend 32) (fun a i => flagsOfResult (a ||| i.signExtend 32)) s ∧
    ResultI .xori (fun a i => a ^^^ i.signExtend 32) (fun a i => flagsOfResult (a ^^^ i.signExtend 32)) s ∧
    ResultI .movhi (fun a i => BitVec.ofNat 32 (i.toNat % 256 * 2 ^ 24 + a.toNat % 2 ^ 24))
      (fun a i => flagsOfResult (BitVec.ofNat 32 (i.toNat % 256 * 2 ^ 24 + a.toNat % 2 ^ 24))) s ∧
    (∀ o : OpMovi, LaneClear s ⟨o.g, [], [], [], [o.d], o.fl⟩ →
      LaneCompletes (.movi o) s ⟨o.g, [], [], [], [o.d], o.fl⟩ [(o.d, fun _ => o.imm.signExtend 32)]
        (o.fl.map fun k => (k, fun _ => flagsOfResult (o.imm.signExtend 32))) (fun _ => 0)) ∧
    (∀ o : OpB, LaneClear s ⟨o.g, bops o.b 1, bsregs o.b, [], [o.d], o.fl⟩ →
      LaneCompletes (.mov o) s ⟨o.g, bops o.b 1, bsregs o.b, [], [o.d], o.fl⟩ [(o.d, fun l => s.shf.bval o.b l)]
        (o.fl.map fun k => (k, fun l => flagsOfResult (s.shf.bval o.b l))) (fun _ => 0)) ∧
    ∀ o : OpSel, let n := { insAB o.g o.d o.a o.b o.fl with ccs := if o.sel.cond = 0 then [] else [o.sel.cc] }
      LaneClear s n →
      let r := fun l => if s.shf.fib l false (fun f => condHolds o.sel.cond (f.readC o.sel.cc)) = true
        then s.shf.readLane o.a.reg l else s.shf.bval o.b l
      LaneCompletes (.sel o) s n [(o.d, r)] (o.fl.map fun k => (k, fun l => flagsOfResult (r l))) (fun _ => 0)

/-- R84, R86, R90: shifts, rotations and bit-field instructions complete with their results: a shift of the width or more gives
zero, or copies of the sign. -/
def Obligations.ShiftsAndBitFields : Prop :=
  ∀ s : State,
    let shl := fun (a : W32) (k : Nat) => BitVec.ofNat 32 (a.toNat * 2 ^ k)
    let shr := fun (a : W32) (k : Nat) => BitVec.ofNat 32 (a.toNat / 2 ^ k)
    let sar := fun (a : W32) (k : Nat) => BitVec.ofInt 32 (a.toInt / 2 ^ k)
    let rol := fun (a b : W32) => maskOf fun l => a.getLsbD ((l.val + 32 - b.toNat % 32) % 32)
    let clz := fun (a : W32) => BitVec.ofNat 32 (32 - a.toNat.size)
    let popc := fun (a : W32) => BitVec.ofNat 32 ((List.range 32).countP fun i => a.getLsbD i)
    ResultAB .shl (fun a b => shl a b.toNat) (fun a b => flagsOfResult (shl a b.toNat)) s ∧
    ResultAB .shr (fun a b => shr a b.toNat) (fun a b => flagsOfResult (shr a b.toNat)) s ∧
    ResultAB .sar (fun a b => sar a b.toNat) (fun a b => flagsOfResult (sar a b.toNat)) s ∧
    ResultAB .rol rol (fun a b => flagsOfResult (rol a b)) s ∧
    ResultI .shli (fun a i => shl a i.toNat) (fun a i => flagsOfResult (shl a i.toNat)) s ∧
    ResultI .shri (fun a i => shr a i.toNat) (fun a i => flagsOfResult (shr a i.toNat)) s ∧
    ResultI .sari (fun a i => sar a i.toNat) (fun a i => flagsOfResult (sar a i.toNat)) s ∧
    ResultABU .bfx (fun u a b => let p := b.toNat % 32; let w := min (b.toNat / 256 % 64) 32
      if u then BitVec.ofNat 32 (a.toNat / 2 ^ p % 2 ^ w) else BitVec.ofInt 32 (Int.bmod (a.toInt / 2 ^ p) (2 ^ w))) s ∧
    ResultABC .bfi (fun a b c => let p := b.toNat % 32; let w := min (b.toNat / 256 % 64) 32
      maskOf fun l => if p ≤ l.val ∧ l.val < p + w then a.getLsbD (l.val - p) else c.getLsbD l.val) s ∧
    ResultA .popc popc (fun a => flagsOfResult (popc a)) s ∧
    ResultA .clz clz (fun a => flagsOfResult (clz a)) s ∧
    ResultA .brev (fun a => maskOf fun l => a.getLsbD (31 - l.val))
      (fun a => flagsOfResult (maskOf fun l => a.getLsbD (31 - l.val))) s

/-- R83, R88 to R90: the 64-bit instructions complete with their results in the pair D:D+1, and ICMP64 with the flags of the
64-bit difference. -/
def Obligations.SixtyFourBitResults : Prop :=
  ∀ s : State,
    ResultPair .iadd64 (fun a b => a + b) (fun a b => flagsOfSum a b 0) s ∧
    ResultPair .isub64 (fun a b => a - b) (fun a b => flagsOfDiff a b 0) s ∧
    (∀ o : OpLea, let n : LaneIns := ⟨o.g, vop o.a 2 0 :: bops o.b 1, bsregs o.b, [], [o.d, o.d + 1], o.fl⟩
      LaneClear s n →
      let x := fun l => (if o.uns then (s.shf.bval o.b l).setWidth 64 else (s.shf.bval o.b l).signExtend 64) <<< o.sh.toNat
      let r := fun l => s.shf.readPair o.a.reg l + x l
      LaneCompletes (.lea o) s n [(o.d, fun l => loHalf (r l)), (o.d + 1, fun l => hiHalf (r l))]
        (o.fl.map fun k => (k, fun l => flagsOfSum (s.shf.readPair o.a.reg l) (x l) 0)) (fun _ => 0)) ∧
    (∀ o : OpI, let n : LaneIns := ⟨o.g, [vop o.a 2 0], [], [], [o.d, o.d + 1], o.fl⟩
      LaneClear s n →
      let r := fun l => s.shf.readPair o.a.reg l + o.imm.signExtend 64
      LaneCompletes (.leai o) s n [(o.d, fun l => loHalf (r l)), (o.d + 1, fun l => hiHalf (r l))]
        (o.fl.map fun k => (k, fun l => flagsOfSum (s.shf.readPair o.a.reg l) (o.imm.signExtend 64) 0)) (fun _ => 0)) ∧
    ∀ o : OpCmp, let n : LaneIns := ⟨o.g, vop o.a 2 0 :: bops o.b 2, bsregs o.b, [], [], some o.k⟩
      LaneClear s n →
      LaneCompletes (.icmp64 o) s n []
        (some (o.k, fun l => flagsOfDiff (s.shf.readPair o.a.reg l) (s.shf.bval64 o.b l) 0)) (fun _ => 0)

/-! ### Floating-point lane instructions (Tables 5.1 to 5.5) -/

/-- R102 to R104, R106, R122 to R126, R129, R131 and Tables 4.5 and 5.1: FADD, FSUB, FMUL, FFMA, FDIV, FRCP, FSQRT, FRSQ, FRND and FSCALB complete, and each
acting lane holds, with its exceptions, Round of the exact result, the integral value, or the NaN, infinity or zero of the special operands, written out by the
operands themselves. FEXP2 and FLOG2 complete with the special and exact results; of every other operand the result is inexact and lies between the two powers,
or the two integers, around it (the last place of it is log 14's, and is not stated here). -/
def Obligations.FloatingPointResults : Prop :=
  ∀ s : State,
    let nan := fun (a : W32) => decide (0x7F800000 < (a &&& 0x7FFFFFFF).toNat)
    let inf := fun (a : W32) => decide ((a &&& 0x7FFFFFFF).toNat = 0x7F800000)
    let nil := fun (a : W32) => decide ((a &&& 0x7FFFFFFF).toNat = 0)
    let sig := fun (a : W32) => nan a && !a.getLsbD 22
    let val := fun (x : W32) => (f32 x).toRat
    let isNan := fun (invalid : Bool) (r : W32 × Exc) => r = (0x7FC00000, nvOf invalid)
    let signed := fun (neg : Bool) (x : W32) => if neg then x ||| 0x80000000 else x
    let rounds := fun (md : Rounding) (x : Rat) (zeroNeg : Bool) (r : W32 × Exc) => Rounds fp32 md x zeroNeg (r.1.toNat, r.2)
    let zero := fun (md : Rounding) (x y : Rat) (nx ny : Bool) => if x = 0 ∧ y = 0 ∧ nx = ny then nx else decide (md = .rm)
    let sum := fun (md : Rounding) (a b : W32) (r : W32 × Exc) =>
      if nan a || nan b then isNan (sig a || sig b) r
      else if inf a && inf b && a.msb != b.msb then isNan true r
      else if inf a then r = (a, 0) else if inf b then r = (b, 0)
      else rounds md (val a + val b) (zero md (val a) (val b) a.msb b.msb) r
    let product := fun (md : Rounding) (a b : W32) (r : W32 × Exc) =>
      if nan a || nan b then isNan (sig a || sig b) r
      else if (inf a && nil b) || (nil a && inf b) then isNan true r
      else if inf a || inf b then r = (signed (a.msb != b.msb) 0x7F800000, 0)
      else rounds md (val a * val b) (a.msb != b.msb) r
    let fused := fun (md : Rounding) (a b c : W32) (r : W32 × Exc) => let n := a.msb != b.msb
      let invalid := (inf a && nil b) || (nil a && inf b)
      if nan a || nan b || nan c || invalid then isNan (sig a || sig b || sig c || invalid) r
      else if inf a || inf b then (if inf c && c.msb != n then isNan true r else r = (signed n 0x7F800000, 0))
      else if inf c then r = (c, 0)
      else rounds md (val a * val b + val c) (zero md (val a * val b) (val c) n c.msb) r
    let quotient := fun (md : Rounding) (a b : W32) (r : W32 × Exc) => let n := a.msb != b.msb
      if nan a || nan b then isNan (sig a || sig b) r
      else if (inf a && inf b) || (nil a && nil b) then isNan true r
      else if inf a then r = (signed n 0x7F800000, 0) else if inf b then r = (signed n 0, 0)
      else if nil b then r = (signed n 0x7F800000, excDZ) else rounds md (val a / val b) n r
    let one := fun (i : FopA → Instr) (law : Rounding → W32 → W32 × Exc → Prop) => ∀ o : FopA, LaneClear s (fins o.g o.d o.a) →
      ∃ r : Fin 32 → W32 × Exc, LaneCompletes (i o) s (fins o.g o.d o.a) [(o.d, fun l => (r l).1)] none (fun l => (r l).2) ∧
        ∀ l, s.acts o.g l → law o.rm (s.shf.readLane o.a.reg l) (r l)
    let two := fun (i : FopAB → Instr) (law : Rounding → W32 → W32 → W32 × Exc → Prop) => ∀ o : FopAB, LaneClear s (finsAB o.g o.d o.a o.b) →
      ∃ r : Fin 32 → W32 × Exc, LaneCompletes (i o) s (finsAB o.g o.d o.a o.b) [(o.d, fun l => (r l).1)] none (fun l => (r l).2) ∧
        ∀ l, s.acts o.g l → law o.rm (s.shf.readLane o.a.reg l) (s.shf.bval o.b l) (r l)
    two .fadd sum ∧ two .fsub (fun md a b r => sum md a (b ^^^ 0x80000000) r) ∧ two .fmul product ∧
    (∀ o : FopABC, LaneClear s (insABC o.g o.d o.a o.b o.c none) → ∃ r : Fin 32 → W32 × Exc,
      LaneCompletes (.ffma o) s (insABC o.g o.d o.a o.b o.c none) [(o.d, fun l => (r l).1)] none (fun l => (r l).2) ∧
      ∀ l, s.acts o.g l → fused o.rm (s.shf.readLane o.a.reg l) (s.shf.bval o.b l) (s.shf.readLane o.c.reg l) (r l)) ∧
    two .fdiv quotient ∧ one .frcp (fun md a r => quotient md 0x3F800000 a r) ∧
    one .fsqrt (fun md a r => if nan a then isNan (sig a) r else if nil a then r = (a, 0) else if a.msb then isNan true r
      else if inf a then r = (a, 0) else RoundsRoot md 1 (val a) (r.1.toNat, r.2)) ∧
    one .frsq (fun md a r => if nan a then isNan (sig a) r else if nil a then r = (signed a.msb 0x7F800000, excDZ) else if a.msb then isNan true r
      else if inf a then r = (0, 0) else RoundsRoot md (val a) 1 (r.1.toNat, r.2)) ∧
    one .fexp2 (fun md a r => let k := ⌊val a⌋
      if nan a then isNan (sig a) r else if inf a then r = (if a.msb then 0 else 0x7F800000, 0)
      else if (k : Rat) = val a then rounds md ((2 : Rat) ^ k) false r
      else r.2 &&& excNX = excNX ∧ nan r.1 = false ∧ r.1.msb = false ∧ (-126 ≤ k → k ≤ 126 → inf r.1 = false ∧ r.2 = excNX ∧
        (2 : Rat) ^ k ≤ val r.1 ∧ val r.1 ≤ (2 : Rat) ^ (k + 1))) ∧
    one .flog2 (fun md a r => let k := Int.log 2 (val a)
      if nan a then isNan (sig a) r else if nil a then r = (0xFF800000, excDZ) else if a.msb then isNan true r else if inf a then r = (a, 0)
      else if (2 : Rat) ^ k = val a then rounds md k false r
      else r.2 &&& excNX = excNX ∧ nan r.1 = false ∧ inf r.1 = false ∧ (k : Rat) ≤ val r.1 ∧ val r.1 ≤ (k : Rat) + 1) ∧
    one .frnd (fun md a r => if nan a then isNan (sig a) r else if inf a then r = (a, 0)
      else (f32 r.1).finite = true ∧ val r.1 = roundInt md (val a) ∧ r.1.msb = a.msb ∧ r.2 = if val r.1 = val a then 0 else excNX) ∧
    two .fscalb (fun md a b r => if nan a then isNan (sig a) r else if inf a then r = (a, 0)
      else rounds md (val a * (2 : Rat) ^ b.toInt) a.msb r)

/-- R126 to R128, R130 and Tables 5.2 and 5.3: FMIN, FMAX, FNEG, FABS, FCLASS and FCMP complete with the value, the class or the flags the
manual gives, written out by the values of their operands; only a signalling NaN of FMIN, FMAX and FCMP raises NV. -/
def Obligations.FloatingPointOrderSignAndClass : Prop :=
  ∀ s : State,
    let nan := fun (a : W32) => decide (0x7F800000 < (a &&& 0x7FFFFFFF).toNat)
    let signalling := fun (a : W32) => nan a && !a.getLsbD 22
    let nv := fun (a b : W32) => if (signalling a || signalling b) = true then excNV else (0 : Exc)
    let key := fun (a : W32) => if a.msb then -((a &&& 0x7FFFFFFF).toNat : Int) else (a.toNat : Int)
    let below := fun (a b : W32) => decide (key a < key b) || (decide (key a = key b) && a.msb && !b.msb)
    ResultF2X .fmin (fun a b => (if nan a && nan b then 0x7FC00000 else if nan a then b else if nan b then a
      else if below b a then b else a, nv a b)) s ∧
    ResultF2X .fmax (fun a b => (if nan a && nan b then 0x7FC00000 else if nan a then b else if nan b then a
      else if below a b then b else a, nv a b)) s ∧
    ResultF1X .fneg (fun a => (if nan a then 0x7FC00000 else a ^^^ 0x80000000, 0)) s ∧
    ResultF1X .fabs (fun a => (if nan a then 0x7FC00000 else a &&& 0x7FFFFFFF, 0)) s ∧
    ResultF1X .fclass (fun a =>
      let k := if signalling a then 0 else if nan a then 1
        else if a.toNat % 2 ^ 31 = 0x7F800000 then (if a.msb then 2 else 3)
        else if a.toNat % 2 ^ 31 = 0 then (if a.msb then 8 else 9)
        else if a.toNat % 2 ^ 31 < 2 ^ 23 then (if a.msb then 6 else 7)
        else if a.msb then 4 else 5
      (BitVec.ofNat 32 (2 ^ k), 0)) s ∧
    ∀ o : OpCmp, let n : LaneIns := ⟨o.g, vop o.a 1 0 :: bops o.b 1, bsregs o.b, [], [], some o.k⟩
      LaneClear s n →
      let a := fun l => s.shf.readLane o.a.reg l
      let b := fun l => s.shf.bval o.b l
      LaneCompletes (.fcmp o) s n [] (some (o.k, fun l =>
        if nan (a l) || nan (b l) then mkFlags false false true true
        else if key (a l) < key (b l) then mkFlags true false false false
        else if key (b l) < key (a l) then mkFlags false false true false else mkFlags false true true false))
        fun l => nv (a l) (b l)

/-- R132 to R134: packed pairs and BDOT2 complete with the results of their elements, each of the low and the high half by itself, and the
exceptions of both. -/
def Obligations.PackedPairResults : Prop :=
  ∀ s : State,
    let lo := fun (f : Fmt) (x : W32) => unpackF f (x.toNat % 2 ^ 16)
    let hi := fun (f : Fmt) (x : W32) => unpackF f (x.toNat / 2 ^ 16)
    let pair := fun (x y : FOut) => ((BitVec.ofNat 16 y.1 ++ BitVec.ofNat 16 x.1, x.2 ||| y.2) : W32 × Exc)
    ResultF2 .hadd2 (fun md a b => pair (deliver fp16 md (addV md (lo fp16 a) (lo fp16 b)))
      (deliver fp16 md (addV md (hi fp16 a) (hi fp16 b)))) s ∧
    ResultF2 .hmul2 (fun md a b => pair (deliver fp16 md (mulV (lo fp16 a) (lo fp16 b)))
      (deliver fp16 md (mulV (hi fp16 a) (hi fp16 b)))) s ∧
    ResultF3 .hfma2 (fun md a b c => pair (deliver fp16 md (fmaV md (lo fp16 a) (lo fp16 b) (lo fp16 c)))
      (deliver fp16 md (fmaV md (hi fp16 a) (hi fp16 b) (hi fp16 c)))) s ∧
    ResultF3 .bfma2 (fun md a b c => pair (deliver bf16 md (fmaV md (lo bf16 a) (lo bf16 b) (lo bf16 c)))
      (deliver bf16 md (fmaV md (hi bf16 a) (hi bf16 b) (hi bf16 c)))) s ∧
    ResultF3 .bdot2 bdot2 s ∧
    ResultF2 .cvtfh (fun md a b => pair (deliver fp16 md (f32 a, sigExc [f32 a])) (deliver fp16 md (f32 b, sigExc [f32 b]))) s ∧
    ResultF2 .cvtfb (fun md a b => pair (deliver bf16 md (f32 a, sigExc [f32 a])) (deliver bf16 md (f32 b, sigExc [f32 b]))) s

/-- R134 to R139 and Table 5.5: the other conversions complete with their results; the element, byte or nibble the selector names is
the one read or written. -/
def Obligations.ConversionResults : Prop :=
  ∀ s : State,
    (∀ o : CvtU, LaneClear s (fins o.g o.d o.a) →
      let v := fun l => toIntV o.rm (if o.uns then 0 else -2 ^ 31) (if o.uns then 2 ^ 32 - 1 else 2 ^ 31 - 1)
        (f32 (s.shf.readLane o.a.reg l))
      LaneCompletes (.cvtfi o) s (fins o.g o.d o.a) [(o.d, fun l => BitVec.ofInt 32 (v l).1)] none fun l => (v l).2) ∧
    (∀ o : CvtU, LaneClear s (fins o.g o.d o.a) →
      let x := fun l => let a := s.shf.readLane o.a.reg l; if o.uns then (a.toNat : Int) else a.toInt
      let v := fun l => deliver fp32 o.rm (ofInt (x l) 0 false, 0)
      LaneCompletes (.cvtif o) s (fins o.g o.d o.a) [(o.d, fun l => BitVec.ofNat 32 (v l).1)] none fun l => (v l).2) ∧
    ResultSel .cvthf (fun a k => widen (unpackF fp16 (a.toNat / 2 ^ (16 * k) % 2 ^ 16))) s ∧
    ResultSel .cvtbf (fun a k => widen (unpackF bf16 (a.toNat / 2 ^ (16 * k) % 2 ^ 16))) s ∧
    ResultSel .cvt8f (fun a k => widen (unpackE4m3 (BitVec.ofNat 8 (a.toNat / 2 ^ (8 * k))))) s ∧
    ResultSel .cvt4f (fun a k => widen (ofInt (BitVec.ofNat 4 (a.toNat / 2 ^ (4 * k))).toInt 0 false)) s ∧
    ResultSel .sclf (fun a k => sclf32 (BitVec.ofNat 8 (a.toNat / 2 ^ (8 * k)))) s ∧
    (∀ o : OpSclq, LaneClear s (fins o.g o.d o.a) →
      let v := fun l => sclqV (match o.target with | .e4m3 => 448 | .int8 => 127 | .int4 => 7) (f32 (s.shf.readLane o.a.reg l))
      LaneCompletes (.sclq o) s (fins o.g o.d o.a) [(o.d, fun l => BitVec.ofNat 32 (v l).1.toNat)] none fun l => (v l).2) ∧
    (∀ o : CvtF8, LaneClear s (finsAB o.g o.d o.a o.b) →
      let ea := fun l => toE4m3 o.rm o.nan (f32 (s.shf.readLane o.a.reg l))
      let eb := fun l => toE4m3 o.rm o.nan (f32 (s.shf.bval o.b l))
      LaneCompletes (.cvtf8 o) s (finsAB o.g o.d o.a o.b) [(o.d, fun l =>
        BitVec.ofNat 32 (((eb l).1.toNat * 2 ^ 8 + (ea l).1.toNat) * if o.hi then 2 ^ 16 else 1))] none
        fun l => (ea l).2 ||| (eb l).2) ∧
    ∀ o : CvtF4, LaneClear s (finsAB o.g o.d o.a o.b) →
      let na := fun l => toIntV o.rm (-8) 7 (f32 (s.shf.readLane o.a.reg l))
      let nb := fun l => toIntV o.rm (-8) 7 (f32 (s.shf.bval o.b l))
      LaneCompletes (.cvtf4 o) s (finsAB o.g o.d o.a o.b) [(o.d, fun l => BitVec.ofNat 32
        (((nb l).1 % 16).toNat * 2 ^ (8 * o.byte.toNat + 4) + ((na l).1 % 16).toNat * 2 ^ (8 * o.byte.toNat)))] none
        fun l => (na l).2 ||| (nb l).2

/-! ### Rounding -/

/-- R103, R104: rounding a finite number to FP32, FP16 or BF16 gives the value and the flags of Round. -/
def Obligations.RoundingIsRound : Prop :=
  ∀ f ∈ [fp32, fp16, bf16], ∀ (md : Rounding) (neg : Bool) (m : Nat) (e : Int),
    Rounds f md (FVal.fin neg m e).toRat neg (roundF f md neg m e false)

/-- R103, R126: on finite operands FADD, FSUB, FMUL and FFMA deliver Round of the exact sum, difference, product and fused sum, a zero sum
having the sign R103 gives it. -/
def Obligations.SumsAndProductsAreRounded : Prop :=
  ∀ (md : Rounding) (a b c : W32), (f32 a).finite = true → (f32 b).finite = true → (f32 c).finite = true →
    let val := fun (x : W32) => (f32 x).toRat
    let zero := fun (x y : Rat) (nx ny : Bool) => if x = 0 ∧ y = 0 ∧ nx = ny then nx else decide (md = .rm)
    let gives := fun (x : Rat) (z : Bool) (r : W32 × Exc) => Rounds fp32 md x z (r.1.toNat, r.2)
    gives (val a + val b) (zero (val a) (val b) a.msb b.msb) (fadd32 md a b) ∧
    gives (val a - val b) (zero (val a) (val b) a.msb (!b.msb)) (out32 (deliver fp32 md (addV md (f32 a) (f32 b).neg))) ∧
    gives (val a * val b) (a.msb != b.msb) (fmul32 md a b) ∧
    gives (val a * val b + val c) (zero (val a * val b) (val c) (a.msb != b.msb) c.msb) (ffma32 md a b c)

/-- R106 for division: on finite operands FDIV and FRCP deliver Round of the exact quotient; over zero they give the infinity or NaN of
Table 4.5 with DZ or NV.
R102, R106 (Table 4.5): a NaN operand of the FP32 operations gives the default NaN, with NV when it is signalling, and the special
functions give their special and exact results. -/
def Obligations.QuotientsAndSpecialOperands : Prop :=
  (∀ (md : Rounding) (a b : W32), (f32 a).finite = true → (f32 b).finite = true →
     let val := fun (x : W32) => (f32 x).toRat
     let r := divV md (f32 a) (f32 b)
     (val b ≠ 0 → Rounds fp32 md (val a / val b) (a.msb != b.msb) r) ∧
     (val b = 0 → val a ≠ 0 → r = ((if a.msb != b.msb then 0xFF800000 else 0x7F800000), excDZ)) ∧
     (val b = 0 → val a = 0 → r = (0x7FC00000, excNV))) ∧
  (∀ md : Rounding,
     (∀ (sig : Bool) (v : FVal), let x := FVal.nan sig
       let nv : Exc := if sig || v.isSig then excNV else 0
       deliver fp32 md (addV md x v) = (0x7FC00000, nv) ∧ deliver fp32 md (addV md v x) = (0x7FC00000, nv) ∧
       deliver fp32 md (mulV x v) = (0x7FC00000, nv) ∧ deliver fp32 md (mulV v x) = (0x7FC00000, nv) ∧
       divV md x v = (0x7FC00000, nv) ∧ divV md v x = (0x7FC00000, nv)) ∧
     (∀ sig : Bool, let x := FVal.nan sig
       ∀ f ∈ [sqrtV, rsqrtV, exp2V, log2V], f md x = (0x7FC00000, if sig then excNV else 0)) ∧
     (∀ neg : Bool, let zero := f32 (if neg then 0x80000000 else 0); let inf := FVal.inf neg
       let sign := if neg then 0x80000000 else 0
       divV md (f32 0x3F800000) zero = (sign + 0x7F800000, excDZ) ∧ divV md (f32 0x3F800000) inf = (sign, 0) ∧
       rsqrtV md zero = (sign + 0x7F800000, excDZ) ∧ rsqrtV md inf = (if neg then (0x7FC00000, excNV) else (0, 0)) ∧
       sqrtV md zero = (sign, 0) ∧ sqrtV md inf = (if neg then (0x7FC00000, excNV) else (0x7F800000, 0)) ∧
       exp2V md zero = (0x3F800000, 0) ∧ exp2V md inf = (if neg then (0, 0) else (0x7F800000, 0)) ∧
       log2V md zero = (0xFF800000, excDZ) ∧ log2V md inf = (if neg then (0x7FC00000, excNV) else (0x7F800000, 0))) ∧
     (∀ (m : Nat) (e : Int), m ≠ 0 → ∀ f ∈ [sqrtV, rsqrtV, log2V], f md (.fin true m e) = (0x7FC00000, excNV)) ∧
     (∀ n : Int, -149 ≤ n → n ≤ 127 → exp2V md (ofInt n 0 false) = deliver fp32 md (.fin false 1 n, 0)) ∧
     (∀ n : Int, -149 ≤ n → n ≤ 127 → log2V md (.fin false 1 n) = deliver fp32 md (ofInt n 0 false, 0)))

/-- R133, R135, R136, R138, R139: on finite operands BDOT2 rounds the exact sum once, ToInt and ToE4M3 round and saturate with their flags,
SCLQ gives the smallest scale that is large enough, and SCLF the value of a scale. -/
def Obligations.ConversionsByExactNumbers : Prop :=
  (∀ (md : Rounding) (lo hi : Int) (v : FVal), v.finite = true → -2 ^ 32 ≤ lo → lo ≤ hi → hi ≤ 2 ^ 32 →
    let n := roundInt md v.toRat
    toIntV md lo hi v = if n < lo then (lo, excNV) else if hi < n then (hi, excNV)
      else (n, if (n : Rat) = v.toRat then 0 else excNX)) ∧
  (∀ (md : Rounding) (nan : Bool) (v : FVal), v.finite = true → v.toRat ≠ 0 →
    let y := roundTo md v.toRat (max (Int.log 2 |v.toRat| - 3) (-9))
    let r := toE4m3 md nan v
    if 448 < |y| then r = (if nan then 0x7F else if v.isNeg then 0xFE else 0x7E, excOF ||| excNX)
    else (unpackE4m3 r.1).toRat = y ∧ (unpackE4m3 r.1).finite = true ∧ r.1.msb = v.isNeg ∧
      r.2 = if y = v.toRat then 0 else if y ≠ 0 ∧ |y| < 2 ^ (-6 : Int) then excNX ||| excUF else excNX) ∧
  (∀ (md : Rounding) (a b c : W32),
    let a0 := unpackF bf16 (a.toNat % 2 ^ 16); let a1 := unpackF bf16 (a.toNat / 2 ^ 16)
    let b0 := unpackF bf16 (b.toNat % 2 ^ 16); let b1 := unpackF bf16 (b.toNat / 2 ^ 16)
    a0.finite = true → a1.finite = true → b0.finite = true → b1.finite = true → (f32 c).finite = true →
    let p := a0.toRat * b0.toRat; let q := a1.toRat * b1.toRat; let x := (f32 c).toRat
    let np := a0.isNeg != b0.isNeg; let nq := a1.isNeg != b1.isNeg; let nc := c.msb
    let allZero := decide (p = 0 ∧ q = 0 ∧ x = 0)
    Rounds fp32 md (p + q + x)
      ((allZero && np && nq && nc) || (md = .rm && !(allZero && !np && !nq && !nc)))
      ((bdot2 md a b c).1.toNat, (bdot2 md a b c).2)) ∧
  (∀ (t : Nat) (v : FVal), t = 448 ∨ t = 127 ∨ t = 7 → v.finite = true → v.toRat ≠ 0 →
    let scale := fun (c : Nat) => ((8 + c % 8 : Nat) : Rat) * (2 : Rat) ^ ((c / 8 : Nat) - 18 : Int)
    let enough := fun (c : Nat) => 8 ≤ c ∧ c < 248 ∧ |v.toRat| ≤ scale c * t
    let r := sclqV t v
    (∀ c, enough c → enough r.1.toNat ∧ scale r.1.toNat ≤ scale c ∧
      r.2 = (if scale r.1.toNat * t = |v.toRat| then 0 else excNX)) ∧
    ((∀ c, ¬ enough c) → r = (0xF7, excOF ||| excNX))) ∧
  ∀ x : Byte, let e := x.toNat / 8
    if e = 31 then sclf32 x = (0x7FC00000, excNV)
    else (f32 (sclf32 x).1).finite = true ∧ (sclf32 x).1.msb = false ∧ (sclf32 x).2 = 0 ∧
      (f32 (sclf32 x).1).toRat = if e = 0 then 0 else ((8 + x.toNat % 8 : Nat) : Rat) * (2 : Rat) ^ ((e : Int) - 18)

/-! ### Lane crossing (Tables 3.5 and 3.6, R94 to R99) and VSRD -/

/-- R94, R95 and Table 3.5: PERM gives each acting lane the A of the lane v[B] names, XMOV the A of the lane its kind and v[B] name, or 0 past
the edge. The lane read is full, or its slot is not held. -/
def Obligations.PermutationsAcrossLanes : Prop :=
  ∀ s : State,
    let amount := fun (b : VSrc) (l : Fin 32) => (s.shf.readLane b.reg l).toNat % 32
    (∀ o : OpPerm, CrossClear s o.g o.d o.a o.b (fun l => some (laneOf (amount o.b l))) →
      LaneCompletes (.perm o) s ⟨o.g, [vop o.a 1 0, vop o.b 1 1], [], [], [o.d], none⟩
        [(o.d, fun l => s.shf.readLane o.a.reg (laneOf (amount o.b l)))] none (fun _ => 0)) ∧
    ∀ o : OpXmov,
      let from_ : Fin 32 → Option (Fin 32) := fun l => let k := amount o.b l
        match o.kind with
        | .rot => some (laneOf (l.val + k))
        | .fly => some (laneOf (l.val ^^^ k))
        | .up => if k ≤ l.val then some (laneOf (l.val - k)) else none
        | .down => if l.val + k ≤ 31 then some (laneOf (l.val + k)) else none
      CrossClear s o.g o.d o.a o.b from_ →
      LaneCompletes (.xmov o) s ⟨o.g, [vop o.a 1 0, vop o.b 1 1], [], [], [o.d], none⟩
        [(o.d, fun l => ((from_ l).map (s.shf.readLane o.a.reg)).getD 0)] none (fun _ => 0)

/-- R97, R99 and Tables 3.5, 3.6: VOTE, MATCH, REDUX and SCANX complete with what the participants hold; every participant raises the
exceptions of every step; the integer reductions are the sum, the smallest, the largest and the bitwise results. -/
def Obligations.VotesMatchesAndReductions : Prop :=
  (∀ s : State,
    (∀ o : OpVote, let n : LaneIns := ⟨o.g, [vop o.a 1 0], [], [], [o.d], none⟩
      LaneClear s n →
      let x := s.shf.readLane o.a.reg
      let act := fun l => hasLane (s.acting o.g) l
      LaneCompletes (.vote o) s n [(o.d, fun _ => match o.mode with
        | .any => if (lanesIn (s.acting o.g)).any (fun l => x l ≠ 0) then 1 else 0
        | .all => if (lanesIn (s.acting o.g)).all (fun l => x l ≠ 0) then 1 else 0
        | .ballot => maskOf fun l => act l && x l ≠ 0
        | .eq => if (lanesIn (s.acting o.g)).all (fun l => (lanesIn (s.acting o.g)).all fun m => x l = x m) then 1 else 0)]
        none (fun _ => 0)) ∧
    (∀ o : OpMatch, let n : LaneIns := ⟨o.g, [vop o.a (if o.w64 then 2 else 1) 0], [], [], [o.d], none⟩
      LaneClear s n →
      let x := s.shf.readLane o.a.reg
      let y := s.shf.readLane (o.a.reg + 1)
      LaneCompletes (.matchv o) s n [(o.d, fun l => maskOf fun j =>
        hasLane (s.acting o.g) j && x j == x l && (!o.w64 || y j == y l))] none (fun _ => 0)) ∧
    (∀ o : OpRedux, let n : LaneIns := ⟨o.g, [vop o.a 1 0], [], [], [o.d], none⟩
      LaneClear s n →
      let r := redFold o.op ((lanesIn (s.acting o.g)).map (s.shf.readLane o.a.reg))
      LaneCompletes (.redux o) s n [(o.d, fun _ => r.1)] none (fun _ => r.2)) ∧
    ∀ o : OpScan, let n : LaneIns := ⟨o.g, [vop o.a 1 0], [], [], [o.d], none⟩
      LaneClear s n →
      let upTo := fun (l : Fin 32) => (lanesIn (s.acting o.g)).filter fun m => decide (m.val < l.val) || (!o.excl && m = l)
      let r := fun l => redFold o.op ((upTo l).map (s.shf.readLane o.a.reg))
      LaneCompletes (.scanx o) s n [(o.d, fun l => (r l).1)] none
        (fun _ => (lanesIn (s.acting o.g)).foldl (fun e l => e ||| (r l).2) 0)) ∧
  ∀ (x : W32) (xs : List W32), let all := x :: xs
    redFold .add all = (BitVec.ofNat 32 (all.map (·.toNat)).sum, 0) ∧
    (redFold .minu all).1 ∈ all ∧ (∀ y ∈ all, (redFold .minu all).1.toNat ≤ y.toNat) ∧
    (redFold .maxu all).1 ∈ all ∧ (∀ y ∈ all, y.toNat ≤ (redFold .maxu all).1.toNat) ∧
    (redFold .mins all).1 ∈ all ∧ (∀ y ∈ all, (redFold .mins all).1.toInt ≤ y.toInt) ∧
    (redFold .maxs all).1 ∈ all ∧ (∀ y ∈ all, y.toInt ≤ (redFold .maxs all).1.toInt) ∧
    ∀ i : Nat, (redFold .and all).1.getLsbD i = all.all (fun y => y.getLsbD i) ∧
      (redFold .or all).1.getLsbD i = all.any (fun y => y.getLsbD i) ∧
      (redFold .xor all).1.getLsbD i = decide ((all.countP fun y => y.getLsbD i) % 2 = 1)

/-- R29, R37, R98 and Table 1.3: VSRD completes with the lane's special register; V2S completes with its s register empty and the value of the lane named, or of
the lowest participant, zero-extended, on its way to it, and leaves every other register, the flags and the rest of the machine as they were. -/
def Obligations.LaneRegistersToAndFromSheafs : Prop :=
  ∀ s : State,
    (∀ o : OpVsrd, let n : LaneIns := ⟨o.g, [], [], [], [o.d], none⟩
      LaneClear s n →
      let fib := fun (l : Fin 32) (g : Fibre → Word) => s.shf.fib l 0 g
      let place := s.placement (((s.launch? s.shf.launch).map (·.part)).getD 0) s.shf.core
      LaneCompletes (.vsrd o) s n [(o.d, fun l => match o.sel with
        | .lane => BitVec.ofNat 32 l.val
        | .widlo => loHalf (fib l (·.wid)) | .widhi => hiHalf (fib l (·.wid))
        | .ranklo => loHalf (fib l (·.rank)) | .rankhi => hiHalf (fib l (·.rank))
        | .parentlo => loHalf (fib l (·.parent)) | .parenthi => hiHalf (fib l (·.parent))
        | .linlo => loHalf (fib l (·.lineage)) | .linhi => hiHalf (fib l (·.lineage))
        | .belllo => loHalf s.bell | .bellhi => hiHalf s.bell
        | .core => BitVec.ofNat 32 place.2 | .die => BitVec.ofNat 32 place.1
        | .fpflags => s.shf.fib l 0 fun f => f.fpflags.setWidth 32)] none (fun _ => 0)) ∧
    ∀ (o : OpV2s) (m : Fin 32),
      s.shf.issuing ≠ 0#32 → (guardReads o.g = true → ∀ l, s.inBatch l → s.shf.fib l true (·.fullC o.g.cc) = true) →
      (match o.from_ with
        | .lane k => (∃ l, s.acts o.g l) ∧ m = laneOf k.toNat
        | .first => s.acts o.g m ∧ ∀ l, s.acts o.g l → m ≤ l) →
      (∀ r ∈ regRange o.a.reg (if o.w64 then 2 else 1), s.shf.emptyAt r m = false ∧
        ∀ x, s.shf.row? r = some x → x.spilled = false) →
      s.shf.fullS o.d = true → s.shf.ops.length < 64 →
      let x := if o.w64 then s.shf.readPair o.a.reg m else zext64 (s.shf.readLane o.a.reg m)
      ∃ t, exec (.v2s o) s = .next t ∧
        t = { s with sheafs := t.sheafs, nextId := s.nextId + 1
                     events := s.events ++ [.loadResponse ⟨s.cur, s.nextId, (lanesIn s.shf.issuing).map fun l => (l.val, x.setWidth 128)⟩] } ∧
        (∀ u, u ≠ s.cur → t.sheaf? u = s.sheaf? u) ∧ t.shf.ops = s.shf.ops ++ [s.opOf .al (.token o.d) true fun _ => 0] ∧
        t.shf.fullS o.d = false ∧ (∀ r, r ≠ o.d → t.shf.readS r = s.shf.readS r ∧ t.shf.fullS r = s.shf.fullS r) ∧
        t.shf.scs = s.shf.scs ∧ t.shf.scfull = s.shf.scfull ∧ t.shf.fpflags = s.shf.fpflags ∧
        ({ t.shf with ops := s.shf.ops } : Sheaf).besidesS.besides = s.shf.besidesS.besides ∧
        (∀ l, t.shf.pcOf l = if hasLane s.shf.issuing l then s.shf.npc else s.shf.pcOf l) ∧
        (∀ l k, t.shf.fib l 0 (·.readC k) = s.shf.fib l 0 (·.readC k)) ∧
        (∀ l, t.shf.fib l none (fun f => some f.identity) = s.shf.fib l none (fun f => some f.identity)) ∧
        ∀ n l, hasLane s.shf.held l = true → s.shf.liveLane n l = true →
          ¬ (o.a.last = true ∧ n ∈ regRange o.a.reg (if o.w64 then 2 else 1) ∧ s.inBatch l) →
          t.shf.readLane n l = s.shf.readLane n l ∧ t.shf.fullLane n l = s.shf.fullLane n l ∧ t.shf.liveLane n l = true

/-! ### Memory instructions (R163 to R190) -/

/-- R166, R168, R169, R171, R173, R190: a load whose lanes are ready and aligned is sent to translation with the address of each acting lane, its
destinations are empty, and its batch stands at the next PC; with .acq the later memory instructions of its fibres wait for the acquire. Memory is not
touched. -/
def Obligations.LoadsAreSentOut : Prop :=
  ∀ (s : State) (o : OpLoad) (ldb : Bool),
    let va := s.shf.laneAddr o.addr
    let i := lmIns o.g o.addr [] (regRange o.d (widthRegs o.width))
    let op := s.opOf o.g (.load o.d o.width o.sgn ldb) false va
    MemClear s i va (widthBytes o.width) →
    (ldb = true → ∀ l, s.acts o.g l → ∀ x p e,
      s.check (clusterOf s.shf.core) (s.asnOf s.shf) (s.headerOf s.shf) (va l) .load = .at_ x p e → (s.home (lineOf x)).poison = false) →
    ∃ t, exec (if ldb then .ldb o else .ld o) s = .next t ∧
      t = { s with sheafs := t.sheafs, nextId := s.nextId + 1, events := s.events ++ [.pageWalk s.cur s.nextId] } ∧
      t.shf.ops = s.shf.ops ++ [(op.1, { op.2 with acq := if o.acq then some o.scope else none })] ∧ WrittenKept s t ∧ LaneIssued s t i ∧
      ∀ l, t.shf.fib l none (·.fence) = if hasLane (s.acting o.g) l = true ∧ o.acq = true then some ⟨true, false, o.scope⟩
        else s.shf.fib l none (·.fence)

/-- R171, R190, R192: a FENCE issues at once and completes for each fibre whose waits are over: at a release of .clu or wider the lines it has written, and of
.die or wider those it has seen, start anew; at an acquire of .clu or wider its core's L1 holds no line, and of .die or wider its floor is at least the bell;
for the others it is still to complete. An instruction that reaches memory waits while a fence of an acting lane, or the acquire of its earlier load, is not
ready; once all are, it completes them and is sent out. -/
def Obligations.AcquiresAndFences : Prop :=
  let ends := fun (s t : State) (l : Fin 32) (x : Fence) =>
    t.shf.fib l [] (·.written) = (if x.rel = true ∧ 3 ≤ scopeRank x.scope then [] else s.shf.fib l [] (·.written)) ∧
    t.shf.fib l [] (·.seen) = (if x.rel = true ∧ 4 ≤ scopeRank x.scope then [] else s.shf.fib l [] (·.seen)) ∧
    t.shf.fib l 0 (·.floor) = (if x.acq = true ∧ 4 ≤ scopeRank x.scope then maxWord [s.shf.fib l 0 (·.floor), s.bell] else s.shf.fib l 0 (·.floor)) ∧
    (x.acq = true → 3 ≤ scopeRank x.scope → t.l1 = s.l1.filter fun e => e.1.1 ≠ s.shf.core)
  let kept := fun (s t : State) (l : Fin 32) => t.shf.fib l none (fun f => some (f.written, f.seen, f.floor, f.fence)) =
    s.shf.fib l none (fun f => some (f.written, f.seen, f.floor, f.fence))
  (∀ (s : State) (o : OpFence), let i : LaneIns := ⟨o.g, [], [], [], [], none⟩
     LaneClear s i → s.FirstTry → (∀ l, s.acts o.g l → s.shf.fib l none (·.fence) = none) →
     let x : Fence := ⟨decide (o.kind ≠ .rel), decide (o.kind ≠ .acq), o.scope⟩
     let done := fun (l : Fin 32) => (o.kind ≠ .rel → s.shf.acquireReady (1#32 <<< l.val) = true) ∧
       (o.kind ≠ .acq → s.releaseReady s.shf (1#32 <<< l.val) o.scope = true)
     ∃ t, exec (.fence o) s = .next t ∧ LaneIssued s t i ∧ t.shf.ops = s.shf.ops ∧ t = { s with sheafs := t.sheafs, l1 := t.l1 } ∧
       ((∀ l, s.acts o.g l → ¬ done l) ∨ o.kind = .rel ∨ scopeRank o.scope ≤ 2 → t.l1 = s.l1) ∧
       ∀ l, (s.acts o.g l → done l → t.shf.fib l none (·.fence) = none ∧ ends s t l x) ∧
         (s.acts o.g l → ¬ done l → t.shf.fib l none (fun f => some (f.written, f.seen, f.floor, f.fence)) =
           s.shf.fib l none (fun f => some (f.written, f.seen, f.floor, some x))) ∧
         (¬ s.acts o.g l → kept s t l)) ∧
  ∀ (s : State) (o : OpLoad), let i := lmIns o.g o.addr [] (regRange o.d (widthRegs o.width))
     let va := s.shf.laneAddr o.addr
     IssueClear s i → (∀ l, s.acts o.g l → (va l).toNat % widthBytes o.width = 0) →
     ((∃ l, s.acts o.g l ∧ s.fenceReady s.shf l = false) → ∀ j ∈ [Instr.ld o, .ldb o], ∃ t, exec j s = .next t ∧
       t = { s with sheafs := t.sheafs, l1 := t.l1 } ∧ t.shf.hold.waiting = true ∧ t.shf.hold.phase = 0 ∧ t.shf.batch = s.shf.batch ∧
       t.shf.ops = s.shf.ops ∧ t.shf.rows = s.shf.rows ∧ (∀ l, t.shf.pcOf l = s.shf.pcOf l) ∧
       ∀ l, s.acts o.g l → s.fenceReady s.shf l = false → kept s t l) ∧
     ((∀ l, s.acts o.g l → s.fenceReady s.shf l = true) → ∃ t, exec (.ld o) s = .next t ∧ LaneIssued s t i ∧
       t = { s with sheafs := t.sheafs, l1 := t.l1, nextId := s.nextId + 1, events := s.events ++ [.pageWalk s.cur s.nextId] } ∧
       ∀ l, s.acts o.g l → (∀ x, s.shf.fib l none (·.fence) = some x → ends s t l x) ∧
         t.shf.fib l none (·.fence) = if o.acq then some ⟨true, false, o.scope⟩ else none)

/-- R167, R170, R171, R173, R249, R261: a store whose lanes are ready, aligned and translated, on pages that are not charged, updates its core's copies
and sends the bytes of each line to its home, higher lanes over lower ones; memory itself is as before until the home has them. -/
def Obligations.StoresAreSentOut : Prop :=
  ∀ (s : State) (o : OpStore) (loc : Fin 32 → Loc),
    let n := widthBytes o.width
    let va := s.shf.laneAddr o.addr
    let i := lmIns o.g o.addr [vop o.d (widthRegs o.width) 3] []
    MemClear s i va n → WriteClear s o.g va .store n .store loc →
    (o.rel = true → s.releaseReady s.shf (s.acting o.g) o.scope = true) →
    let lines := s.actingLines o.g loc
    let bytes := fun (line : Loc) => (s.lanesAt o.g loc line).flatMap fun l =>
      (s.shf.storeData o.d.reg n l).zipIdx.map fun e => (locOff (loc l) + e.2, e.1)
    ∃ t, exec (.st o) s = .next t ∧ LaneIssued s t i ∧
      t = { s with sheafs := t.sheafs, nextId := s.nextId + 1, l1 := t.l1, cluster := t.cluster, tlb := t.tlb, atc := t.atc
                   events := s.events ++ lines.map fun line => .homeWrite
                     ⟨.fibres s.cur s.nextId (maskOf fun l => (s.lanesAt o.g loc line).contains l) s.shf.core, line, bytes line, false, false⟩ } ∧
      t.shf.ops = s.shf.ops ++ [s.opOf o.g .store true va] ∧
      (∀ c line, aget t.l1 (c, line) = if c = s.shf.core ∧ line ∈ lines then (aget s.l1 (c, line)).map (·.put (bytes line))
        else aget s.l1 (c, line)) ∧
      (∀ c line, aget t.cluster (c, line) = if c = clusterOf s.shf.core ∧ line ∈ lines then (aget s.cluster (c, line)).map (·.put (bytes line))
        else aget s.cluster (c, line)) ∧
      ∀ l, s.acts o.g l → t.shf.fib l [] (·.written) =
        ((if o.rel = true ∧ 3 ≤ scopeRank o.scope then [] else s.shf.fib l [] (·.written)) ++ [lineOf (loc l)]).eraseDups

/-- R165, R178, R301: PRF goes on at once with its lanes' addresses noted, and its walk then asks for the line of every lane, or drops it where it would fault;
it writes no register and no byte. R179: CWB asks the home of each line to write it back.
R167, R180, R298: PGDROP marks each page's entry surrendered, holds the walks of it and shoots its translations down, and goes on with v[D] empty; once no
access under an old translation is outstanding the contents are gone, and the answer gives each page's committed sectors to its lowest lane and 0 to the
others. -/
def Obligations.PrefetchesWritebacksAndPages : Prop :=
  (∀ (s : State) (o : OpPrf), let va := s.shf.laneAddr o.addr; let i := lmIns o.g o.addr [] []
     MemClear s i va 1 →
     ∃ t, exec (.prf o) s = .next t ∧ LaneIssued s (t.setShf { t.shf with prfs := s.shf.prfs }) i ∧ WrittenKept s t ∧ t.shf.ops = s.shf.ops ∧
       t.shf.prfs = s.shf.prfs ++ [(s.nextId, ⟨s.acting o.g, lanesOf va, decide (scopeRank o.scope ≤ 2)⟩)] ∧
       t = { s with sheafs := t.sheafs, nextId := s.nextId + 1, events := s.events ++ [.pageWalk s.cur s.nextId] }) ∧
  (∀ (s : State) (u k : Nat) (sh : Sheaf) (r : PrfRec), s.sheaf? u = some sh → aget sh.ops k = none → aget sh.prfs k = some r →
     frostedCore s sh.core = false → s.isLifted sh = false → s.metered (s.budgetKey sh) = false → s.missEntries sh.core + 32 ≤ 256 →
     let m := r.due &&& sh.held
     let at_ := fun (l : Fin 32) => s.check (clusterOf sh.core) (s.asnOf sh) (s.headerOf sh) r.addrs[l] .prefetch
     let gone : List (Nat × Sheaf) := amod s.sheafs u fun x => { x with prfs := adel x.prfs k }
     (∀ loc : Fin 32 → Loc, (∀ l, hasLane m l = true → ∃ p e, at_ l = .at_ (loc l) p e) →
       let lines := ((lanesIn m).map fun l => lineOf (loc l)).eraseDups
       let mask := fun line => ((lanesIn m).filter fun l => lineOf (loc l) = line).foldl (fun x l => x ||| sectorMask (locOff (loc l)) 1) 0#4
       (∀ line ∈ lines, (∀ p a, line ≠ .peer p a) ∧ aget s.l1 (sh.core, line) = none ∧ aget s.cluster (clusterOf sh.core, line) = none ∧
         ∀ q, .homeRead q ∈ s.events → q.core = sh.core → q.line ≠ line) →
       ∃ t, exec (.pageWalk u k) s = .next t ∧ t = { s with sheafs := gone, tlb := t.tlb, atc := t.atc, events := s.events ++ lines.map fun line => .homeRead ⟨sh.core, line, false, some r.l1, mask line, []⟩ }) ∧
     ((∀ l, hasLane m l = true → ∃ c lg, at_ l = .fault c lg) → ∃ t, exec (.pageWalk u k) s = .next t ∧ t.sheafs = gone ∧ t.events = s.events ∧
       t.mem = s.mem ∧ t.homes = s.homes)) ∧
  (∀ (s : State) (o : OpCwb) (loc : Fin 32 → Loc), let va := s.shf.laneAddr o.addr; let i := lmIns o.g o.addr [] []
     MemClear s i va 1 → WriteClear s o.g va .cwb 1 .prefetch loc →
     ∃ t, exec (.cwb o) s = .next t ∧ LaneIssued s t i ∧ WrittenKept s t ∧
       t.shf.ops = s.shf.ops ++ [s.opOf o.g .cwb true va] ∧
       t = { s with sheafs := t.sheafs, nextId := s.nextId + 1, l1 := t.l1, cluster := t.cluster, tlb := t.tlb, atc := t.atc
                    events := s.events ++ (s.actingLines o.g loc).map fun line => .homeWrite
                      ⟨.fibres s.cur s.nextId (maskOf fun l => (s.lanesAt o.g loc line).contains l) s.shf.core, line, [], true, false⟩ }) ∧
  (∀ (s : State) (o : OpPgdrop) (page : Fin 32 → WLane),
     let va := s.shf.laneAddr o.addr; let i := lmIns o.g o.addr [] [o.d]
     let asn := s.asnOf s.shf
     let lo := fun (l : Fin 32) => pageBase (va l) (page l).pte
     let mine := (lanesIn (s.acting o.g)).filter fun l => !(page l).pte.surr &&
       (lanesIn (s.acting o.g)).all fun m => decide ((page m).entry = (page l).entry → l ≤ m)
     MemClear s i va 4 → s.unmetered →
     (∀ l, s.acts o.g l → s.check (clusterOf s.shf.core) asn (s.headerOf s.shf) (va l) .pgdrop = .at_ (page l).loc (page l).pte (page l).entry ∧
       (page l).lane = l ∧ (page l).va = va l ∧ (page l).pte.moving = false ∧ s.watchesFor (dieOf s.shf.core) asn (va l) 4 .prefetch = [] ∧
       s.behindLoad s.shf s.shf.ops (page l) = false ∧ (page l).entry % 8 = 0 ∧ Plain s (page l).entry 8) →
     ∃ t, exec (.pgdrop o) s = .next t ∧ LaneIssued s t i ∧ WrittenKept s t ∧ t.nextId = s.nextId + 1 ∧ t.frames = s.frames ∧ t.pools = s.pools ∧
       t.hostMem = s.hostMem ∧ s.events <+: t.events ∧ .pageWalk s.cur s.nextId ∈ t.events ∧
       t.shf.ops = s.shf.ops ++ [s.opOf o.g (.pgdrop o.d (mine.map fun l => (l.val, (page l).pte, (page l).entry))) true va] ∧
       (∀ l ∈ mine, t.word64 (page l).entry = encodePte { (page l).pte with surr := true } ∧
         (∀ e ∈ t.tlb, e.asn = asn → ¬ (e.base.toNat < (lo l).toNat + pageBytes (page l).pte.size ∧ (lo l).toNat < e.base.toNat + e.bytes)) ∧
         ∀ x : Word, (lo l).toNat ≤ x.toNat → x.toNat < (lo l).toNat + pageBytes (page l).pte.size → t.walkHeld asn x = true) ∧
       ∀ a, (∀ l ∈ mine, a < (page l).entry ∨ (page l).entry + 8 ≤ a) → Memory.read t.mem a = Memory.read s.mem a) ∧
  ∀ (s : State) (u k : Nat) (sh : Sheaf) (o : OpRec) (d : BitVec 8) (pages : List (Nat × Pte × Nat)), s.sheaf? u = some sh → aget sh.ops k = some o →
    o.kind = .pgdrop d pages → o.gone = 0 →
    let busy := fun e : Nat × Pte × Nat =>
      s.pageBusy (s.asnOf sh) (pageBase o.addrs[laneOf e.1] e.2.1) (pageBytes e.2.1.size) false || s.prefetching e.2.1
    let frames := fun e : Nat × Pte × Nat => (List.range (pageFrames e.2.1.size)).map fun j => e.2.1.frame.toNat + j
    ((∃ e ∈ pages, busy e = true) → exec (.pageWalk u k) s = .next (s.again (.pageWalk u k))) ∧
    ((∀ e ∈ pages, busy e = false) → (pages.map (·.1)).Nodup → (pages.flatMap frames).Nodup → ∃ t, exec (.pageWalk u k) s = .next t ∧
      .loadResponse ⟨u, k, (lanesIn o.due).map fun l => (l.val, match pages.find? fun e => e.1 = l.val with
        | some e => BitVec.ofNat 128 ((frames e).map s.frameSectors).sum
        | none => 0)⟩ ∈ t.events ∧ t.hostMem = s.hostMem ∧
      (∀ f ∈ pages.flatMap frames, (∀ a, a / 65536 = f → Memory.read t.mem a = 0) ∧
        aget t.frames f = (aget s.frames f).map fun i => { i with surrendered := true }) ∧
      ∀ a, a / 65536 ∉ pages.flatMap frames → Memory.read t.mem a = Memory.read s.mem a)

/-- R181 to R187: an atomic whose lanes are ready, aligned and translated, on pages that are not charged and lines that are not poisoned, sends
one operation for each word with the operands of its lanes in ascending order and discards its core's copies; memory is as before. A release is of the
scope named, .sys at a host target; with an acquire, the later memory instructions of its fibres wait for it. -/
def Obligations.AtomicsAreSentOut : Prop :=
  ∀ (s : State) (i : Instr) (f : AtomDesc) (loc : Fin 32 → Loc), atomOf i = some f →
    let n := 4 * f.regs
    let va := s.shf.readPair f.a.reg
    let val := fun (v : VSrc) (l : Fin 32) => if f.w64 then s.shf.readPair v.reg l else zext64 (s.shf.readLane v.reg l)
    MemClear s f.ins va n → WriteClear s f.g va .atomic n (if f.d.isSome then .atomic else .store) loc →
    (∀ l, s.acts f.g l → (s.home (lineOf (loc l))).poison = false) →
    let sc := fun (l : Fin 32) => if isDev (loc l) then f.scope else Scope.sys
    let rel := f.order = .rel ∨ f.order = .ar
    (rel → ∀ l, s.acts f.g l → s.releaseReady s.shf (1#32 <<< l.val) (sc l) = true) →
    let words := ((lanesIn (s.acting f.g)).map loc).eraseDups
    ∃ t, exec i s = .next t ∧ LaneIssued s t f.ins ∧
      t = { s with sheafs := t.sheafs, nextId := s.nextId + 1, tlb := t.tlb, atc := t.atc
                   l1 := s.l1.filter fun e => !(e.1.1 = s.shf.core && (s.actingLines f.g loc).contains e.1.2)
                   events := s.events ++ words.map fun w => .atomicExecution ⟨s.cur, s.nextId, s.shf.core, w, f.w64, f.fn, f.scope, f.d.isSome,
                     ((lanesIn (s.acting f.g)).filter fun l => loc l = w).map (fun l => (l.val, val f.b l, (f.c.map fun c => val c l).getD 0)),
                     false, f.order = .relaxed && f.fn ≠ .cas && decide (4 ≤ scopeRank f.scope), s.bell, none⟩ } ∧
      t.shf.ops = s.shf.ops ++ [s.opOf f.g (.atomic f.d f.w64) true va] ∧
      ∀ l, s.acts f.g l →
        t.shf.fib l [] (·.written) =
          ((if rel ∧ 3 ≤ scopeRank (sc l) then [] else s.shf.fib l [] (·.written)) ++ [lineOf (loc l)]).eraseDups ∧
        t.shf.fib l [] (·.seen) = (if rel ∧ 4 ≤ scopeRank (sc l) then [] else s.shf.fib l [] (·.seen)) ∧
        t.shf.fib l none (·.fence) = if f.order = .acq ∨ f.order = .ar then some ⟨true, false, sc l⟩ else none

/-- R174 to R176, R188: LDS, STS and SATOM act on the bed's scratchpad in ascending lane order: LDS reads whatever the full bits, STS and SATOM
write the bytes and set the full bit of each word they touch; SATOM with a return leaves its destination empty, with each lane's old value on its way.
R177 and Table 7.2: where the words of the acting lanes are in the state required (and are different words, where they change), LDF reads a
full word, LDW reads and empties it, and STE writes an empty word and makes it full. -/
def Obligations.ScratchpadAccesses : Prop :=
  (∀ (s : State) (b : Bed) (off : Fin 32 → Nat),
     (∀ o : OpLds, let n := widthBytes o.width; let va := s.shf.laneAddr o.addr
       let i := lmIns o.g o.addr [] (regRange o.d (widthRegs o.width))
       MemClear s i va n → PadClear s o.g va b off →
       let x := fun l => extendLoad o.width o.sgn (BitVec.ofNat 128 (bytesToNat (b.padBytes (off l) n)))
       LaneCompletes (.lds o) s i ((List.range (widthRegs o.width)).map fun k =>
         (o.d + BitVec.ofNat 8 k, fun l => (x l).extractLsb' (32 * k) 32)) none (fun _ => 0)) ∧
     (∀ o : OpSts, let n := widthBytes o.width; let va := s.shf.laneAddr o.addr
       let i := lmIns o.g o.addr [vop o.d (widthRegs o.width) 3] []
       MemClear s i va n → PadClear s o.g va b off →
       let b' := (lanesIn (s.acting o.g)).foldl (fun b l => b.padWrite (off l) (s.shf.storeData o.d.reg n l)) b
       ∃ t, exec (.sts o) s = .next t ∧ LaneDone (s.modBed s.shf.bed fun _ => b') t i [] none (fun _ => 0)) ∧
     ∀ o : OpSatom, let n := if o.w64 then 2 else 1; let va := s.shf.laneAddr o.addr
       let i := lmIns o.g o.addr [vop o.d n 3] (if o.ret then regRange o.d.reg n else [])
       MemClear s i va (4 * n) → PadClear s o.g va b off →
       let new := fun (old x : Word) => if o.w64 then satomNew o.op old x else zext64 (satomNew o.op (loHalf old) (loHalf x))
       let r := (lanesIn (s.acting o.g)).foldl (fun (r : Bed × (Fin 32 → Word)) l =>
         let old : Word := BitVec.ofNat 64 (bytesToNat (r.1.padBytes (off l) (4 * n)))
         let x := if o.w64 then s.shf.readPair o.d.reg l else zext64 (s.shf.readLane o.d.reg l)
         (r.1.padWrite (off l) (natToBytes (4 * n) (new old x).toNat), fun m => if m = l then old else r.2 m)) (b, fun _ => 0)
       ∃ t, exec (.satom o) s = .next t ∧ if o.ret = true then LaneIssued s t i ∧ WrittenKept s t ∧
           t.shf.ops = s.shf.ops ++ [s.opOf o.g (.pad o.d.reg o.w64) true fun _ => 0] ∧
           t = { s.modBed s.shf.bed fun _ => r.1 with sheafs := t.sheafs, nextId := s.nextId + 1, events := s.events ++
             [.loadResponse ⟨s.cur, s.nextId, (lanesIn (s.acting o.g)).map fun l => (l.val, (r.2 l).setWidth 128)⟩] }
         else LaneDone (s.modBed s.shf.bed fun _ => r.1) t i [] none (fun _ => 0)) ∧
  (∀ (s : State) (b : Bed) (off : Fin 32 → Nat),
     let word := fun l => BitVec.ofNat 32 (bytesToNat (b.padBytes (off l) 4))
     let distinct := fun (g : Guard) => ∀ l, s.acts g l → off l % 4 = 0 ∧ ∀ m, s.acts g m → off l / 4 = off m / 4 → l = m
     (∀ o : OpLdf, let va := s.shf.laneAddr o.addr; let i := lmIns o.g o.addr [] [o.d]
       MemClear s i va 4 → PadClear s o.g va b off → (∀ l, s.acts o.g l → off l / 4 ∉ b.padEmpty) →
       LaneCompletes (.ldf o) s i [(o.d, word)] none (fun _ => 0) ∧
       (distinct o.g → ∃ t, exec (.ldw o) s = .next t ∧
         LaneDone (s.modBed s.shf.bed fun _ => (lanesIn (s.acting o.g)).foldl (fun b l => { b with padEmpty := b.padEmpty ++ [off l / 4] }) b)
           t i [(o.d, word)] none (fun _ => 0))) ∧
     ∀ o : OpSte, let va := s.shf.laneAddr o.addr; let i := lmIns o.g o.addr [vop o.d 1 3] []
       MemClear s i va 4 → PadClear s o.g va b off → (∀ l, s.acts o.g l → off l / 4 ∈ b.padEmpty) → distinct o.g →
       ∃ t, exec (.ste o) s = .next t ∧
         LaneDone (s.modBed s.shf.bed fun _ => (lanesIn (s.acting o.g)).foldl (fun b l =>
           b.padWrite (off l) (natToBytes 4 (s.shf.readLane o.d.reg l).toNat)) b) t i [] none (fun _ => 0))

/-- R92, R173: SLD and SST of an aligned address complete: SLD leaves its s register empty with the load on its way, SST, translated and on a page
that is not charged, sends its word to the home; an address that is not a multiple of 8 traps MISALIGNED for every fibre of the batch.
R203: RESV answers the published figure of its pool, and RESVX asks for a roll call of it; s[D] is empty until written, and the rest of the
sheaf is as before but for the PCs. -/
def Obligations.SheafLoadsStoresAndReserveReads : Prop :=
  (∀ s : State, s.FirstTry → s.unfenced → s.shf.ops.length < 64 →
     (∀ o : SopAI, let va := s.shf.readS o.a + o.imm.signExtend 64
       SheafClear s o.g [o.a] [o.d] none → va.toNat % 8 = 0 →
       ∃ t, exec (.sld o) s = .next t ∧
         t = { s with sheafs := t.sheafs, nextId := s.nextId + 1, events := s.events ++ [.pageWalk s.cur s.nextId] } ∧
         t.shf.ops = s.shf.ops ++ [s.opOf .al (.sload o.d) false (fun _ => va)] ∧ t.shf.fullS o.d = false ∧
         (∀ r, r ≠ o.d → t.shf.readS r = s.shf.readS r ∧ t.shf.fullS r = s.shf.fullS r) ∧ t.shf.rows = s.shf.rows ∧ t.shf.scs = s.shf.scs ∧
         t.shf.hold = Hold.none ∧ ∀ l, t.shf.pcOf l = if hasLane s.shf.issuing l then s.shf.npc else s.shf.pcOf l) ∧
     (∀ (o : SopSst) (loc : Loc), let va := s.shf.readS o.a + o.imm.signExtend 64
       SheafClear s o.g [o.a, o.b] [] none → va.toNat % 8 = 0 → WriteClear s .al (fun _ => va) .store 8 .store (fun _ => loc) →
       ∃ t, exec (.sst o) s = .next t ∧
         t = { s with sheafs := t.sheafs, nextId := s.nextId + 1, l1 := t.l1, cluster := t.cluster, tlb := t.tlb, atc := t.atc
                      events := s.events ++ [.homeWrite ⟨.fibres s.cur s.nextId s.shf.issuing s.shf.core, lineOf loc,
                        (lanesIn s.shf.issuing).flatMap (fun _ => (natToBytes 8 (s.shf.readS o.b).toNat).zipIdx.map fun e => (locOff loc + e.2, e.1)),
                        false, false⟩] } ∧
         t.shf.ops = s.shf.ops ++ [s.opOf .al .store true (fun _ => va)] ∧ t.shf.sregs = s.shf.sregs ∧ t.shf.sfull = s.shf.sfull ∧
         t.shf.rows = s.shf.rows ∧ t.shf.scs = s.shf.scs ∧ t.shf.hold = Hold.none ∧
         ∀ l, t.shf.pcOf l = if hasLane s.shf.issuing l then s.shf.npc else s.shf.pcOf l) ∧
     (∀ (i : Instr) (g : Guard) (srcs dests : List (BitVec 6)) (va : Word),
       (∃ o : SopAI, i = .sld o ∧ g = o.g ∧ srcs = [o.a] ∧ dests = [o.d] ∧ va = s.shf.readS o.a + o.imm.signExtend 64) ∨
       (∃ o : SopSst, i = .sst o ∧ g = o.g ∧ srcs = [o.a, o.b] ∧ dests = [] ∧ va = s.shf.readS o.a + o.imm.signExtend 64) →
       SheafClear s g srcs dests none → va.toNat % 8 ≠ 0 → TrapsAtIssue s i s.shf.issuing 0x02 va 3)) ∧
  (∀ (s : State) (o : SopResv) (la : Launch),
     SheafClear s o.g (resvSrcs o) [o.d] none → s.unfenced → s.shf.ops.length < 64 → s.launch? s.shf.launch = some la →
     let pool := la.part * 256 + (match o.pool with | some r => (s.shf.readS r).toNat % 256 | none => la.hdr.pool.toNat)
     let asked := fun (i : Instr) (e : Event) => ∃ t, exec i s = .next t ∧
       t = { s with sheafs := t.sheafs, nextId := s.nextId + 1, events := s.events ++ [e] } ∧ (∀ u, u ≠ s.cur → t.sheaf? u = s.sheaf? u) ∧
       t.shf.ops = s.shf.ops ++ [(s.nextId, ⟨s.shf.batchPc, .reserve o.d, s.shf.issuing, s.shf.issuing, 0, lanesOf fun _ => 0, [], 0, none⟩)] ∧
       t.shf.fullS o.d = false ∧ (∀ r, r ≠ o.d → t.shf.readS r = s.shf.readS r ∧ t.shf.fullS r = s.shf.fullS r) ∧
       t.shf.rows = s.shf.rows ∧ t.shf.scs = s.shf.scs ∧ t.shf.hold = Hold.none ∧
       ∀ l, t.shf.pcOf l = if hasLane s.shf.issuing l then s.shf.npc else s.shf.pcOf l
     asked (.resv o) (.counterReturn ⟨s.cur, s.nextId, [(0, BitVec.ofNat 64 (((s.pool? pool).map (·.published)).getD 0), true)], 0⟩) ∧
     asked (.resvx o) (.allowanceRefill ⟨s.cur, s.nextId, clusterOf s.shf.core, pool, [], false⟩))

/-! ### Counters, pools and the reserve (R194 to R203) -/

/-- R194 to R199, R201: counter instructions whose lanes are ready and whose lines are counters are sent out. A CTAKE is decided at once where the
cluster's allowance holds the sum of the lanes of that counter, and is else asked of the home; CGIVE adds to the total, up to 2^64 − 1; CPEEK
asks the home what it has, and CROLL for a roll call. -/
def Obligations.CounterInstructions : Prop :=
  ∀ (s : State) (c : Fin 32 → Nat), s.Canonical → let cl := clusterOf s.shf.core
    (∀ o : OpCtake, let va := s.shf.readPair o.a.reg; let i : LaneIns := ⟨o.g, [vop o.a 2 0, vop o.b 1 1], [], [], [o.d], some o.k⟩
      CounterClear s i va .atomic c →
      ∃ t, exec (.ctake o) s = .next t ∧ CounterIssued s t i c (s.opOf o.g (.counter o.d false (some o.k)) true va) ∧
        ∀ l, s.acts o.g l → let ls := s.asked o.g o.b.reg c (c l)
          if sumOf ls ≤ (s.ctrAt (c l)).held cl then .counterReturn ⟨s.cur, s.nextId, grantAll ls, s.bell⟩ ∈ t.events ∧
            (t.ctrAt (c l)).total + sumOf ls = (s.ctrAt (c l)).total ∧ (t.ctrAt (c l)).held cl + sumOf ls = (s.ctrAt (c l)).held cl
          else .allowanceRefill ⟨s.cur, s.nextId, cl, c l, ls, false⟩ ∈ t.events ∧ (t.ctrAt (c l)).total = (s.ctrAt (c l)).total) ∧
    (∀ o : OpCgive, let va := s.shf.readPair o.a.reg; let i : LaneIns := ⟨o.g, [vop o.a 2 0, vop o.b 1 1], [], [], [o.d], none⟩
      CounterClear s i va .atomic c → (∀ l, s.acts o.g l → (s.ctrAt (c l)).total < 2 ^ 64) →
      ∃ t, exec (.cgive o) s = .next t ∧ CounterIssued s t i c (s.opOf o.g (.counter o.d false none) true va) ∧
        ∀ l, s.acts o.g l → let ls := s.asked o.g o.b.reg c (c l)
          .counterReturn ⟨s.cur, s.nextId, grantAll ls, s.bell⟩ ∈ t.events ∧
          (t.ctrAt (c l)).total = min ((s.ctrAt (c l)).total + sumOf ls) (2 ^ 64 - 1) ∧
          (t.word64 (c l + 16)).toNat = (t.ctrAt (c l)).out) ∧
    (∀ o : OpCread, let va := s.shf.readPair o.a.reg; let i : LaneIns := ⟨o.g, [vop o.a 2 0], [], [], regRange o.d 2, none⟩
      let mine := fun l => (lanesIn (s.acting o.g)).filter fun m => c m = c l
      (CounterClear s i va .load c →
        ∃ t, exec (.cpeek o) s = .next t ∧ CounterIssued s t i c (s.opOf o.g (.counter o.d true none) true va) ∧ t.mem = s.mem ∧
          ∀ l, s.acts o.g l → .allowanceRefill ⟨s.cur, s.nextId, cl, c l, (mine l).map fun m => (m.val, 0), true⟩ ∈ t.events) ∧
      (CounterClear s i va .atomic c →
        ∃ t, exec (.croll o) s = .next t ∧ CounterIssued s t i c (s.opOf o.g (.counter o.d true none) true va) ∧ t.mem = s.mem ∧
          ∀ l, s.acts o.g l → .allowanceRefill ⟨s.cur, s.nextId, cl, c l, (mine l).map fun m => (m.val, 0), false⟩ ∈ t.events))

/-- R195, R197, R198, R200 to R203: the home decides a refill in one step: all lanes succeed where the total holds their sum, else each in
ascending order by what remains; a roll call returns every allowance; a CPEEK is answered with a figure no further than the totals of the last 8 µs, the
total where every report is current; a cluster's oldest allowance goes home without changing any total; a report makes the figure current; an answer is
written to its lanes, raises their horizon to the completion time it carries, and ends their operation. -/
def Obligations.CounterEventsAtTheHome : Prop :=
  ∀ s : State, s.Canonical →
    let opKind := fun (m : RefillMsg) => ((s.sheaf? m.sheaf).bind fun sh => aget sh.ops m.op).map (·.kind)
    (∀ (m : RefillMsg) (d : BitVec 8) (k : Option (BitVec 2)), let c := s.ctrAt m.ctr
      opKind m = some (.counter d false k) → s.engineHolds (lineOf (.dev m.ctr)) none = false → c.total < 2 ^ 64 → m.ctr % 64 = 0 →
      ((aget s.allows (m.cluster, m.ctr)).isSome = true ∨ (s.allows.filter fun e => e.1.1 = m.cluster).length < 256) →
      ∃ t r, exec (.allowanceRefill m) s = .next t ∧ .counterReturn ⟨m.sheaf, m.op, r, t.twOf (lineOf (.dev m.ctr))⟩ ∈ t.events ∧
        t = { s with mem := t.mem, homes := t.homes, allows := t.allows, totals := t.totals, events := t.events } ∧
        (sumOf m.lanes ≤ c.total → r = grantAll m.lanes ∧ (t.ctrAt m.ctr).total + sumOf m.lanes = c.total) ∧
        (c.total < sumOf m.lanes → r = (decideLanes c.total m.lanes).2 ∧ (t.ctrAt m.ctr).total = (decideLanes c.total m.lanes).1) ∧
        ∀ a, ¬ (m.ctr ≤ a ∧ a < m.ctr + 8) → ¬ (m.ctr + 16 ≤ a ∧ a < m.ctr + 24) → Memory.read t.mem a = Memory.read s.mem a) ∧
    (∀ (left : Nat) (ls : List (Nat × Nat)) (l n : Nat), let r := decideLanes left ls
      decideLanes left (ls ++ [(l, n)]) = if n ≤ r.1 then (r.1 - n, r.2 ++ [(l, BitVec.ofNat 64 n, true)]) else (r.1, r.2 ++ [(l, 0, false)])) ∧
    (∀ (m : RefillMsg) (d : BitVec 8) (k : Option (BitVec 2)), let c := s.ctrAt m.ctr
      opKind m = some (.counter d true k) → s.engineHolds (lineOf (.dev m.ctr)) none = false → c.total < 2 ^ 64 → m.ctr % 64 = 0 →
      (m.peek = false → ∃ t, exec (.allowanceRefill m) s = .next t ∧ (t.ctrAt m.ctr).remain = c.total ∧ (t.ctrAt m.ctr).out = 0 ∧
        .counterReturn ⟨m.sheaf, m.op, m.lanes.map fun e => (e.1, BitVec.ofNat 64 c.total, true), t.twOf (lineOf (.dev m.ctr))⟩ ∈ t.events) ∧
      (m.peek = true → ∃ t, ∃ x : Nat, exec (.allowanceRefill m) s = .next t ∧ t = { s with homes := t.homes, events := t.events } ∧
        .counterReturn ⟨m.sheaf, m.op, m.lanes.map fun e => (e.1, BitVec.ofNat 64 x, true), 0⟩ ∈ t.events ∧
        let seen := c.total :: (s.totals.filter fun e => e.1 = m.ctr ∧ s.bell.toNat ≤ e.2.1.toNat + 8000).map (·.2.2)
        ((∀ e ∈ c.allow, e.2.amount = e.2.reported) → x = c.total) ∧ (∃ y ∈ seen, y ≤ x) ∧ ∃ y ∈ seen, x ≤ y)) ∧
    (∀ (m : RefillMsg) (d : BitVec 6) (p : Pool), opKind m = some (.reserve d) → s.pool? m.ctr = some p →
      ∃ t q, exec (.allowanceRefill m) s = .next t ∧ t = { s with pools := t.pools, events := t.events } ∧ t.pool? m.ctr = some q ∧
        q.remain = p.reserve ∧ q.reserve = p.reserve ∧
        t.events = s.events ++ [.counterReturn ⟨m.sheaf, m.op, [(0, BitVec.ofNat 64 p.reserve, true)], s.bell⟩]) ∧
    (∀ cl : Nat, (∀ e ∈ s.allows, e.1.2 % 64 = 0 ∧ (s.ctrAt e.1.2).total < 2 ^ 64) →
      ∃ t, exec (.allowanceReturn cl) s = .next t ∧
        t = { s with mem := t.mem, homes := t.homes, allows := t.allows, events := t.events } ∧ (∀ c, c % 64 = 0 → (t.ctrAt c).total = (s.ctrAt c).total) ∧
        ((∃ e ∈ s.allows, e.1.1 = cl) → ∃ e ∈ s.allows, e.1.1 = cl ∧ (∀ x ∈ s.allows, x.1.1 = cl → e.2.used ≤ x.2.used) ∧
          aget t.allows (cl, e.1.2) = none)) ∧
    (∀ cl c : Nat, ∃ t, exec (.holderReport cl c) s = .next t ∧ t = { s with allows := t.allows } ∧
      ∀ k, aget t.allows k = if k = (cl, c) then (aget s.allows k).map fun a => { a with reported := a.amount } else aget s.allows k) ∧
    ∀ (r : CtrResp) (sh : Sheaf) (o : OpRec), Reaches s r.sheaf sh → aget sh.ops r.op = some o →
      ∃ t sh', exec (.counterReturn r) s = .next t ∧ t = { s with sheafs := t.sheafs, beds := t.beds } ∧ t.sheaf? r.sheaf = some sh' ∧
        (∀ u, u ≠ r.sheaf → t.sheaf? u = s.sheaf? u) ∧
        (∀ d, o.kind = .reserve d → sh'.readS d = (((r.vals.head?).map fun e => e.2.1).getD 0) ∧ sh'.fullS d = true ∧ aget sh'.ops r.op = none) ∧
        ∀ d pair k, o.kind = .counter d pair k → ∀ l v ok, aget r.vals l.val = some (v, ok) →
          (∀ op, aget sh'.ops r.op = some op → hasLane op.due l = false) ∧
          (hasLane sh.held l = true → hasLane o.gone l = false → sh'.fib l 0 (·.horizon) = maxWord [sh.fib l 0 (·.horizon), r.tw]) ∧
          (hasLane o.due l = true → hasLane o.gone l = false → sh'.fullLane d l = true ∧ sh'.readLane d l = loHalf v ∧
            (pair = true → sh'.fullLane (d + 1) l = true ∧ sh'.readLane (d + 1) l = hiHalf v) ∧
            ∀ c, k = some c → hasLane sh.held l = true →
              sh'.fib l 0 (·.readC c) = mkFlags false ok ok false ∧ sh'.fib l false (·.fullC c) = true)

/-- R41, R203, R283, R285 and Table 12.4: a publish brings the published figure up to date in the control block and tells the sheafs of a pool below
its low mark; the request at the head of a pool's queue fails once its CAPWAIT has run out, and not before, and those behind it are then decided in their
order as far as the reserve holds; a relief grants what was asked up to what is ungranted and the ceiling, or asks the host. -/
def Obligations.PoolEvents : Prop :=
  ∀ (s : State) (part pool : Nat) (p : Pool), s.Canonical → pool < 256 → s.pool? (part * 256 + pool) = some p →
    (∀ e ∈ s.allows, e.1.2 + 64 ≤ p.ctrl ∨ p.ctrl + 128 ≤ e.1.2) → (∀ x, (s.home (lineOf (.dev (p.ctrl + x)))).poison = false) →
    let k := part * 256 + pool
    (∃ t, exec (.reservePublish part pool) s = .next t ∧
      t.pool? k = some { p with published := p.reserve
                                stale := if p.reserve < (t.word64 (p.ctrl + 0x30)).toNat then some s.bell else none } ∧
      t = { s with pools := t.pools, mem := t.mem, homes := t.homes, allows := t.allows, events := t.events, sheafs := t.sheafs, cores := t.cores } ∧
      (p.reserve < 2 ^ 64 → (t.word64 (p.ctrl + 0x28)).toNat = p.reserve) ∧
      (p.reserve < (t.word64 (p.ctrl + 0x30)).toNat → .reservePublish part pool ∈ t.events ∧
        ∀ u sh la, s.sheaf? u = some sh → s.launch? sh.launch = some la → poolKey la.part la.hdr.pool = k → frostedCore s sh.core = false →
          ∃ sh', t.sheaf? u = some sh' ∧ sh' = { sh with notice := sh.notice ||| 2 }) ∧
      ((t.word64 (p.ctrl + 0x30)).toNat ≤ p.reserve → t.sheafs = s.sheafs)) ∧
    (∀ who cl n d rest, p.queue = ⟨who, cl, n, some d⟩ :: rest →
      (s.bell.toNat < d.toNat → exec (.capwaitExpiry part pool) s = .next (s.again (.capwaitExpiry part pool))) ∧
      (d.toNat ≤ s.bell.toNat → ∃ t q, ∃ m : Nat, exec (.capwaitExpiry part pool) s = .next t ∧ t.pool? k = some q ∧
        q.queue.map (·.who) = (rest.map (·.who)).drop m ∧ q.decided.map (·.1.who) = p.decided.map (·.1.who) ++ (rest.map (·.who)).take m ∧
        ((∀ e ∈ rest, e.who.isCommand = false ∧ p.reserve < e.amount) → q.reserve = p.reserve ∧ m = 0) ∧
        ∀ u tk sh, who = .sheaf u tk → s.sheaf? u = some sh → sh.hold.ticket = tk →
          ∃ sh', t.sheaf? u = some sh' ∧ sh'.hold = { sh.hold with chargeFailed := true, ticket := 0 })) ∧
    let asked := (s.word64 (p.ctrl + 0x40)).toNat - p.reliefDone
    let n := min asked (min s.ungranted (p.ceiling - p.granted))
    let assisted := ((s.part? part).map (·.reliefAssisted)).getD false
    (asked = 0 → exec (.reliefGrant part pool) s = .next s) ∧
    (asked ≠ 0 → (assisted = true ∨ n = 0) → exec (.reliefGrant part pool) s =
      .next ((s.setPool k { p with asked := true }).report (.reliefAsked part pool asked))) ∧
    (assisted = false → n ≠ 0 → ∃ t, exec (.reliefGrant part pool) s = .next t ∧
      t = { s with pools := t.pools, mem := t.mem, homes := t.homes, allows := t.allows, events := t.events, reports := t.reports } ∧
      (t.pool? k).map (·.reliefDone) = some (p.reliefDone + n) ∧
      (p.queue = [] → t.pool? k = some { p with granted := p.granted + n, remain := p.remain + n, reliefDone := p.reliefDone + n
                                                stale := if p.published = p.reserve + n then p.stale else some (p.stale.getD s.bell) }) ∧
      (p.granted + n < 2 ^ 64 → (t.word64 (p.ctrl + 0x20)).toNat = p.granted + n) ∧
      (p.reliefDone + n < 2 ^ 64 → (t.word64 (p.ctrl + 0x48)).toNat = p.reliefDone + n))

/-! ### The trellis (R204 to R212) -/

/-- R206, R207: a KV instruction whose fibres' earlier stores are visible empties its destination and sends its lanes to their agents one at a time, in
ascending order, and its batch is held; once every lane has been decided without a trap, the batch goes on with the answers in place. -/
def Obligations.KvInstructions : Prop :=
  ∀ (s : State) (i : Instr) (g : Guard) (kind : KvKind) (a : VSrc) (b : Option VSrc) (d : Option (BitVec 8)) (pair : Bool) (k : Option (BitVec 2)),
    ((∃ o, i = .kvapp o ∧ g = o.g ∧ kind = .app ∧ a = o.a ∧ b = none ∧ d = some o.d ∧ pair = true ∧ k = some o.k) ∨
     (∃ o, i = .kvmap o ∧ g = o.g ∧ kind = .map ∧ a = o.a ∧ b = some o.b ∧ d = some o.d ∧ pair = true ∧ k = some o.k) ∨
     (∃ o, i = .kvshare o ∧ g = o.g ∧ kind = .share ∧ a = o.a ∧ b = some o.b ∧ d = none ∧ pair = false ∧ k = some o.k) ∨
     (∃ o, i = .kvdrop o ∧ g = o.g ∧ kind = .drop ∧ a = o.a ∧ b = none ∧ d = some o.d ∧ pair = false ∧ k = none) ∨
     (∃ o, i = .kvcow o ∧ g = o.g ∧ kind = .cow ∧ a = o.a ∧ b = none ∧ d = some o.d ∧ pair = false ∧ k = some o.k)) →
    let dests := (d.map fun d => regRange d (if pair then 2 else 1)).getD []
    let n : LaneIns := ⟨g, vop a 1 0 :: ((b.map fun b => [vop b 1 1]).getD []), [], [], dests, k⟩
    (MemClear s n (fun _ => 0) 1 → s.releaseReady s.shf (s.acting g) .dev = true →
      ∃ t l0 rest, exec i s = .next t ∧
        ((l0, s.shf.readLane a.reg (laneOf l0), (b.map fun b => s.shf.readLane b.reg (laneOf l0)).getD 0) :: rest) =
          (lanesIn (s.acting g)).map (fun l => (l.val, s.shf.readLane a.reg l, (b.map fun b => s.shf.readLane b.reg l).getD 0)) ∧
        t = { s with sheafs := t.sheafs, nextId := s.nextId + 1, events := s.events ++ [.kvAgentStep ⟨s.cur, s.nextId, kind, l0,
          s.shf.readLane a.reg (laneOf l0), (b.map fun b => s.shf.readLane b.reg (laneOf l0)).getD 0, rest, true, false, none, none, [], [], [],
          false, 0, 0, none, none⟩] } ∧
        t.shf.ops = s.shf.ops ++ [s.opOf g (.kv d pair k) true fun _ => 0] ∧
        t.shf.hold.phase = 2 ∧ t.shf.hold.waiting = true ∧ t.shf.hold.acted = s.acting g ∧ (∀ l, t.shf.pcOf l = s.shf.pcOf l) ∧
        (∀ r ∈ dests, ∀ l, s.acts g l → t.shf.fullLane r l = false) ∧
        ∀ c, k = some c → ∀ l, s.acts g l → t.shf.fib l true (·.fullC c) = false) ∧
    (s.shf.hold.phase = 2 → s.shf.hold.faults = [] → s.shf.issuing ≠ 0#32 → s.rowsUsed s.shf.core + dests.length ≤ physicalRows →
      (∀ o ∈ s.shf.ops, o.2.kind.isKv = true → o.2.due &&& s.shf.hold.acted = 0#32) →
      ∃ t, exec i s = .next t ∧ LaneDone s t n [] none (fun _ => 0) ∧
        ∀ r ∈ dests, ∀ l, hasLane (s.shf.hold.acted &&& s.shf.issuing) l = true → s.shf.liveLane r l = true → s.shf.fullLane r l = true →
          t.shf.liveLane r l = true ∧ t.shf.fullLane r l = true ∧ t.shf.readLane r l = s.shf.readLane r l)

/-- R205 to R212, R398, R399: an agent's step that succeeds is kept with its answer, and one that fails or traps changes no trellis state, but for a CTAKE
that was refused or given back; the results of KVMAP, KVAPP, KVCOW, KVDROP and KVSHARE are those of their rules, a copy holding its entry first; a word of the
trellis is written in its bytes alone. -/
def Obligations.KvAgentSteps : Prop :=
  ∀ (s : State) (m0 : KvMsg) (sh : Sheaf) (la : Launch), s.sheaf? m0.sheaf = some sh → s.launch? sh.launch = some la → m0.sent = true →
    let hw := m0.cow.getD (la.hdr.hwcow && !((s.part? la.part).map (·.cowAssisted)).getD false)
    let m := { m0 with cow := some hw }
    let x : KvCtx := ⟨clusterOf sh.core, la.asn, la.hdr, m.sheaf, m.lane, sh.core⟩
    let run := s.kvStep x sh.trellis hw m
    let drop := s.metaLines x sh.trellis (m.a.toNat :: if m.kind = .share then [m.b.toNat] else [])
    (∀ v f st, run = .ok (v, f, st) → exec (.kvAgentStep m0) s = .next (st.1.kvDecided m v f none st.2 drop)) ∧
    (∀ f, run = .error (.fails f) → ∃ v, exec (.kvAgentStep m0) s = .next ((s.kvUndo m x.cl).kvDecided m v f none 0 drop) ∧ (m.kind ≠ .cow → v = 0)) ∧
    (∀ s' f, run = .error (.kept s' (.fails f)) → ∃ v, exec (.kvAgentStep m0) s = .next ((s'.kvUndo m x.cl).kvDecided m v f none 0 drop) ∧
      (m.kind ≠ .cow → v = 0)) ∧
    (∀ f c va info lg, run = .error (.fails f) ∨ run = .error (.trap c va info lg) → m.charged = [] → m.taken = none →
      ∃ t, exec (.kvAgentStep m0) s = .next t ∧ t.mem = s.mem ∧ t.hostMem = s.hostMem ∧ t.homes = s.homes ∧ t.allows = s.allows) ∧
    (run = .error .hold → exec (.kvAgentStep m0) s = .next (s.again (.kvAgentStep m))) ∧
    (∀ s' m', run = .error (.more s' m') → exec (.kvAgentStep m0) s = .next (s'.again (.kvAgentStep m'))) ∧
    (∀ (tr : Trellis) (e : SeqEntry), s.readTrellis x sh.trellis = .ok tr → s.readEntry x tr m.a.toNat = .ok e → s.entryHeld e = false →
      m.held = none → let t := m.b.toNat
      (m.kind = .map → t < e.len → ∀ p, s.pageAt x tr e (t / 16) = .ok p → run = .ok (tr.slot p (t % 16), kvOk, (s, 0))) ∧
      (m.kind = .map → e.len ≤ t → run = .error (.fails kvRange)) ∧
      (m.kind = .app → e.len = 16 * e.cap → run = .error (.fails kvRange)) ∧
      (m.kind = .app → e.len ≠ 16 * e.cap → e.len % 16 ≠ 0 → ∀ p n, s.pageAt x tr e (e.len / 16) = .ok p → s.refcnt x tr p = .ok n →
        (n ≤ 1 → ∀ st, State.kvWrite (s, 0) x e.va 4 (e.len + 1) = .ok st → run = .ok (tr.slot p (e.len % 16), kvOk, st)) ∧
        (1 < n → hw = false → run = .error (.trap 0x07 e.va (BitVec.ofNat 32 p) false))) ∧
      (m.kind = .app → e.len ≠ 16 * e.cap → e.len % 16 ≠ 0 → ∀ p n, s.pageAt x tr e (e.len / 16) = .ok p → s.refcnt x tr p = .ok n → 1 < n → hw = true →
        run = .error (.more s { m with held := some e.loc })) ∧
      (m.kind = .app → e.len ≠ 16 * e.cap → e.len % 16 = 0 → ∀ a s0, s.freeCtr x tr = .ok a →
        (s.takeOne x.cl a = (false, s0) → run = .error (.kept s0 (.fails 0))) ∧
        (s.takeOne x.cl a = (true, s0) →
          (∀ why, State.popRing (s0, 0) x tr = .error why → run = .error (.kept (s0.giveOne x.cl a) why)) ∧
          ∀ p s1 s2 s3 s4, State.popRing (s0, 0) x tr = .ok (p, s1) → State.setRec s1 x tr p 1 = .ok s2 →
            State.kvWrite s2 x (e.pageVa (e.len / 16)) 4 p = .ok s3 → State.kvWrite s3 x e.va 4 (e.len + 1) = .ok s4 →
            run = .ok (tr.slot p 0, kvOk, s4))) ∧
      (m.kind = .cow → e.len = 0 → run = .ok (0, kvOk, (s, 0))) ∧
      (m.kind = .cow → e.len ≠ 0 → ∀ p, s.pageAt x tr e ((e.len - 1) / 16) = .ok p → (e.len % 16 = 0 ∨ s.refcnt x tr p = .ok 1) →
        run = .ok (BitVec.ofNat 64 p, kvOk, (s, 0))) ∧
      (m.kind = .cow → e.len % 16 ≠ 0 → ∀ p n, s.pageAt x tr e ((e.len - 1) / 16) = .ok p → s.refcnt x tr p = .ok n → n ≠ 1 →
        run = .error (.more s { m with held := some e.loc })) ∧
      (m.kind = .drop → e.len = 0 → ∀ st, State.kvWrite (s, 0) x e.va 4 0 = .ok st → run = .ok (0, kvOk, st)) ∧
      (m.kind = .share → m.b = m.a → run = if e.len = 0 then .ok (0, kvOk, (s, 0)) else .error (.fails kvRange))) ∧
    ∀ (va : Word) (n v a : Nat) (w : Word) (st : KvS), s.Canonical → State.kvWrite (s, w) x va n v = .ok st → s.kvLoc x va .agentWrite = .ok a →
      (s.home (lineOf (.dev a))).poison = false → (∀ e ∈ s.allows, e.1.2 + 64 ≤ a ∨ a + n ≤ e.1.2) →
      Memory.bytes st.1.mem a n = natToBytes n v ∧ ∀ c, (c < a ∨ a + n ≤ c) → Memory.read st.1.mem c = Memory.read s.mem c

/-! ### Resampling (R213 to R219) -/

/-- R216: the counts are those of g, which is the floor the manual writes; they sum to N, and a fibre of weight 0 receives 0. -/
def Obligations.ResampleCountsSumToN : Prop :=
  (∀ seed k : Word,
    let z0 := (seed.toNat + (k.toNat + 1) * 0x9E3779B97F4A7C15) % 2 ^ 64
    let z1 := (z0 ^^^ z0 / 2 ^ 30) * 0xBF58476D1CE4E5B9 % 2 ^ 64
    let z2 := (z1 ^^^ z1 / 2 ^ 27) * 0x94D049BB133111EB % 2 ^ 64
    let z3 := z2 ^^^ z2 / 2 ^ 31
    rsmpDraw seed k = z3 / 2 ^ 32) ∧
  (∀ rs, (sortRank rs).Pairwise (fun a b => a.rank.toNat ≤ b.rank.toNat) ∧ (sortRank rs).Perm rs) ∧
  ∀ (n d : Nat) (rs : List RsmpRec), d < 2 ^ 32 → let w := (rs.map fun r => r.w.toNat).sum
    0 < w →
    (∀ c : Nat, (rsmpG n d w c : Int) = ⌊((n * 2 ^ 32 * c - d * w + 2 ^ 32 * w - 1 : Rat) / (2 ^ 32 * w))⌋) ∧
    rsmpG n d w 0 = 0 ∧ rsmpG n d w w = n ∧
    let cs := rsmpCounts n d w 0 rs
    cs.map (·.1) = rs ∧ (cs.map (·.2)).sum = n ∧ (∀ e ∈ cs, e.1.w = 0 → e.2 = 0) ∧
    ∀ i (h : i < cs.length), ((cs[i]'h).2 : Int) =
      (rsmpG n d w ((rs.take (i + 1)).map fun r => r.w.toNat).sum : Int) - rsmpG n d w ((rs.take i).map fun r => r.w.toNat).sum

/-- R213, R214, R217 to R219: fibres outside a handler whose mapped lanes are full arrive at RSMP and wait; deciding culls those with count 0 and sends out
the clones; a clone lands with its parent's registers and its own rank, ordinal and lineage; the release makes every survivor and clone ready and
counts one more RSMP. -/
def Obligations.Resampling : Prop :=
  ∀ s : State,
    (∀ o : OpRsmp, let i : LaneIns := ⟨o.g, [vop o.a 1 0, vop o.b 1 1], [], [], [o.d], none⟩
      IssueClear s i → (∀ l, s.acts o.g l → hasLane s.shf.inHandler l = false) →
      (∀ e ∈ s.shf.rows, ∀ l, s.acts o.g l → hasLane e.2.full l = true) →
      ∃ t, exec (.rsmp o) s = .next t ∧ t = { s with sheafs := t.sheafs, nextId := s.nextId + 1, events := t.events } ∧
        (t.events = s.events ∨ t.events = s.events ++ [.rsmpDeciding s.shf.launch]) ∧
        t.shf.ops = s.shf.ops ++ [s.opOf o.g (.rsmp o.d) true fun _ => 0] ∧ t.shf.hold = Hold.none ∧
        (∀ l, t.shf.pcOf l = if hasLane s.shf.issuing l then s.shf.npc else s.shf.pcOf l) ∧
        (∀ l, s.acts o.g l → t.shf.fullLane o.d l = false ∧ t.shf.fib l .ready (·.status) = .waiting ∧
          t.shf.fib l .none (·.park) = .rsmp (s.shf.readLane o.a.reg l) (s.shf.readLane o.b.reg l) o.d (lastRegs i.srcs)) ∧
        ∀ l, ¬ s.acts o.g l → t.shf.fib l none (fun f => some (f.status, f.park)) = s.shf.fib l none (fun f => some (f.status, f.park))) ∧
    (∀ (la : Nat) (l : Launch), s.launch? la = some l → l.rsmp = none → let ps := sortRank (s.participants la)
      ps ≠ [] → ps.length = (s.population la).length → s.allResident la = true → (s.launches.filter fun e => e.2.rsmp.isSome).length < 16 →
      s.rsmpCheck l la ps = none →
      let cs := rsmpCounts (((ps.head?).map fun r => r.n.toNat).getD 0) (rsmpDraw l.hdr.seed l.rsmpCount) (ps.map fun r => r.w.toNat).sum 0 ps
      ∃ t run, exec (.rsmpDeciding la) s = .next t ∧ (t.launch? la).bind (·.rsmp) = some run ∧ run.landed = [] ∧
        run.keep.map (fun k => (k.sheaf, k.lane)) = (cs.filter fun e => e.2 ≠ 0).map (fun e => (e.1.sheaf, e.1.lane)) ∧
        (∀ k ∈ run.keep, k.value = 0) ∧
        (∀ e ∈ cs, e.2 = 0 → ∀ sh, t.sheaf? e.1.sheaf = some sh → sh.lanes[e.1.lane].isHeld = false) ∧
        ∃ more, t.events = s.events ++ more ∧ run.due = more.countP fun e => match e with | .cloneLanding _ => true | _ => false) ∧
    (∀ (m : CloneMsg) (p sh : Sheaf) (f : Fibre) (l : Launch) (run : RsmpRun), let pl := laneOf m.parentLane; let dl := laneOf m.destLane
      s.sheaf? m.parentSheaf = some p → s.sheaf? m.destSheaf = some sh → frostedCore s p.core = false → frostedCore s sh.core = false →
      p.lanes[pl] = .held f → s.launch? m.launch = some l → l.rsmp = some run → m.d < 256 →
      s.rowsUsed sh.core + (p.rows.filter fun e => (aget sh.rows e.1).isNone).length + 1 ≤ physicalRows →
      ∃ t sh', exec (.cloneLanding m) s = .next t ∧ t.sheaf? m.destSheaf = some sh' ∧
        t = { s with sheafs := t.sheafs, launches := t.launches, events := t.events } ∧
        (∃ g, sh'.lanes[dl] = .held g ∧ g.pc = f.pc ∧ g.cc = f.cc ∧ g.fpflags = f.fpflags ∧ g.wid = f.wid ∧ g.rank = m.rank ∧
          g.parent = m.parentRank ∧ g.lineage = m.lineage) ∧
        sh'.readLane (BitVec.ofNat 8 m.d) dl = m.ordinal ∧
        (∀ n : BitVec 8, n.toNat ≠ m.d → p.liveLane n pl = true → sh'.readLane n dl = p.readLane n pl ∧ sh'.liveLane n dl = true) ∧
        (t.launch? m.launch).bind (·.rsmp) = some { run with due := run.due - 1, landed := run.landed ++ [(m.destSheaf, dl)] } ∧
        t.events = s.events ++ (if run.due - 1 = 0 then [.rsmpRelease m.launch] else [])) ∧
    ∀ (la : Nat) (l : Launch) (run : RsmpRun), s.launch? la = some l → l.rsmp = some run → run.due = 0 →
      (∀ e ∈ s.population la, ∀ sh, s.sheaf? e.1 = some sh → frostedCore s sh.core = false ∧ (s.coreState sh.core).stopped.getLsbD sh.part = false) →
      (run.keep.map fun k => (k.sheaf, k.lane)).Nodup →
      ∃ t, exec (.rsmpRelease la) s = .next t ∧ t.launch? la = some { l with rsmp := none, rsmpCount := l.rsmpCount + 1 } ∧
        (∀ k ∈ run.keep, ∀ sh f, s.sheaf? k.sheaf = some sh → sh.lanes[k.lane] = .held f → ∃ sh' g, t.sheaf? k.sheaf = some sh' ∧
          sh'.lanes[k.lane] = .held g ∧ g.status = .ready ∧ g.rank = k.rank ∧ g.parent = k.parent ∧ g.lineage = k.lineage ∧ g.pc = f.pc ∧
          sh'.readLane k.d k.lane = k.value ∧ sh'.fullLane k.d k.lane = true) ∧
        ∀ e ∈ run.landed, ∀ sh f, s.sheaf? e.1 = some sh → sh.lanes[e.2] = .held f → ∃ sh' g, t.sheaf? e.1 = some sh' ∧
          sh'.lanes[e.2] = .held g ∧ g.status = .ready

/-! ### Sheaf instructions and control (R91, R93, R140 to R149) -/

/-- R91 and Table 3.4: sheaf arithmetic completes with its 64-bit result or flags; shifts of 64 or more give 0, or copies of the sign; with a false
guard it does nothing. -/
def Obligations.SheafArithmetic : Prop :=
  ∀ s : State,
    ResultS .sadd (fun a b => a + b) s ∧ ResultS .ssub (fun a b => a - b) s ∧ ResultS .smul (fun a b => a * b) s ∧
    ResultS .sand (fun a b => a &&& b) s ∧ ResultS .sor (fun a b => a ||| b) s ∧ ResultS .sxor (fun a b => a ^^^ b) s ∧
    ResultS .sshl (fun a b => BitVec.ofNat 64 (a.toNat * 2 ^ b.toNat)) s ∧
    ResultS .sshr (fun a b => BitVec.ofNat 64 (a.toNat / 2 ^ b.toNat)) s ∧
    ResultS .ssar (fun a b => BitVec.ofInt 64 (a.toInt / 2 ^ b.toNat)) s ∧
    (∀ o : SopA, SheafClear s o.g [o.a] [o.d] none → ∃ t, exec (.smov o) s = .next t ∧ SheafDone s t [(o.d, s.shf.readS o.a)] none) ∧
    (∀ o : SopAI, SheafClear s o.g [o.a] [o.d] none →
      ∃ t, exec (.saddi o) s = .next t ∧ SheafDone s t [(o.d, s.shf.readS o.a + o.imm.signExtend 64)] none) ∧
    (∀ o : SopI, SheafClear s o.g [] [o.d] none → ∃ t, exec (.smovi o) s = .next t ∧ SheafDone s t [(o.d, o.imm.signExtend 64)] none) ∧
    (∀ o : SopI, SheafClear s o.g [o.d] [o.d] none → ∃ t, exec (.smovhi o) s = .next t ∧
      SheafDone s t [(o.d, BitVec.ofInt 64 (o.imm.toInt * 2 ^ 30 + (s.shf.readS o.d).toNat % 2 ^ 30))] none) ∧
    (∀ o : SopCmp, SheafClear s o.g [o.a, o.b] [] (some o.k) → ∃ t, exec (.scmp o) s = .next t ∧
      SheafDone s t [] (some (o.k, flagsOfDiff (s.shf.readS o.a) (s.shf.readS o.b) 0))) ∧
    (∀ o : SopCmpI, SheafClear s o.g [o.a] [] (some o.k) → ∃ t, exec (.scmpi o) s = .next t ∧
      SheafDone s t [] (some (o.k, flagsOfDiff (s.shf.readS o.a) (o.imm.signExtend 64) 0))) ∧
    ∀ i ∈ [Instr.sadd, .ssub, .smul, .sand, .sor, .sxor, .sshl, .sshr, .ssar], ∀ o : SopAB, GuardFalse s o.g → Passes s (i o)

/-- R29, R39 to R43, R93 and Table 1.4: SRD completes with the special register it names, of $bell on its way to an empty s register; SWR writes the register it names and no other, $notice by
clearing the bits written as one, $fpflags also by masking each fibre of the batch, $mprog only while the head command is stopped. -/
def Obligations.SpecialRegisters : Prop :=
  ∀ s : State,
    (∀ o : SopSrd, SheafClear s o.g [] [o.d] none → let la := s.launch? s.shf.launch; let seat := s.seat? s.shf.core s.shf.seat
      (o.sel = .bell → s.shf.ops.length < 64 → ∃ t, exec (.srd o) s = .next t ∧
        t = { s with sheafs := t.sheafs, nextId := s.nextId + 1
                     events := s.events ++ [.loadResponse ⟨s.cur, s.nextId, (lanesIn s.shf.issuing).map fun l => (l.val, s.bell.setWidth 128)⟩] } ∧
        (∀ u, u ≠ s.cur → t.sheaf? u = s.sheaf? u) ∧ t.shf.ops = s.shf.ops ++ [s.opOf .al (.token o.d) true fun _ => 0] ∧
        t.shf.fullS o.d = false ∧ (∀ r, r ≠ o.d → t.shf.readS r = s.shf.readS r ∧ t.shf.fullS r = s.shf.fullS r) ∧
        t.shf.rows = s.shf.rows ∧ t.shf.scs = s.shf.scs ∧ t.shf.scfull = s.shf.scfull ∧ t.shf.hold = Hold.none ∧
        ∀ l, t.shf.stands l = s.shf.stands l ∧ t.shf.pcOf l = if hasLane s.shf.issuing l then s.shf.npc else s.shf.pcOf l) ∧
      (o.sel ≠ .bell → ∃ t, exec (.srd o) s = .next t ∧ SheafDone s t [(o.d, match o.sel with
        | .bell => s.bell
        | .seat => BitVec.ofNat 64 s.shf.seat | .sheaf => BitVec.ofNat 64 s.shf.index
        | .bed => ((s.bed? s.shf.bed).map (·.wid)).getD 0
        | .launch => (la.map fun l => l.number.setWidth 64).getD 0
        | .seed => (la.map (·.hdr.seed)).getD 0
        | .pool => (la.map fun l => l.hdr.pool.setWidth 64).getD 0
        | .trellis => s.shf.trellis
        | .hvec => (seat.map (·.hvec)).getD 0 | .mprog => (seat.map (·.mprog)).getD 0
        | .tdepth => BitVec.ofNat 64 s.shf.frames.length
        | .notice => s.shf.notice.setWidth 64
        | .fpflags => s.shf.fpflags.setWidth 64)] none)) ∧
    ∀ o : SopSwr, SheafClear s o.g [o.a] [] none → let x := s.shf.readS o.a
      let moved := fun (t : State) => RegistersKept s t ∧ t.shf.hold = Hold.none ∧ (∀ l, t.shf.stands l = s.shf.stands l) ∧
        ∀ l, t.shf.pcOf l = if hasLane s.shf.issuing l then s.shf.npc else s.shf.pcOf l
      (o.sel = .trellis → ∃ t, exec (.swr o) s = .next t ∧ t = s.setShf t.shf ∧ moved t ∧ t.shf.trellis = x ∧ t.shf.notice = s.shf.notice ∧
        t.shf.fpflags = s.shf.fpflags) ∧
      (o.sel = .hvec → ∃ t, exec (.swr o) s = .next t ∧ t = { s with sheafs := t.sheafs, seats := t.seats } ∧ moved t ∧
        t.seat? s.shf.core s.shf.seat = (s.seat? s.shf.core s.shf.seat).map fun st => { st with hvec := x }) ∧
      (o.sel = .notice → ∃ t, exec (.swr o) s = .next t ∧ t = s.setShf t.shf ∧ moved t ∧ t.shf.notice = s.shf.notice &&& ~~~(x.setWidth 2) ∧
        t.shf.trellis = s.shf.trellis ∧ t.shf.fpflags = s.shf.fpflags) ∧
      (o.sel = .fpflags → ∃ t, exec (.swr o) s = .next t ∧ t = s.setShf t.shf ∧ moved t ∧ t.shf.fpflags = x.setWidth 5 ∧
        t.shf.notice = s.shf.notice ∧ t.shf.trellis = s.shf.trellis ∧
        ∀ l, t.shf.fib l 0 (·.fpflags) = if hasLane s.shf.issuing l then s.shf.fib l 0 (·.fpflags) &&& x.setWidth 5 else s.shf.fib l 0 (·.fpflags)) ∧
      (o.sel = .mprog → s.shf.frames ≠ [] → ∃ t, exec (.swr o) s = .next t ∧ t = { s with sheafs := t.sheafs, seats := t.seats } ∧ moved t ∧
        ∀ st, s.seat? s.shf.core s.shf.seat = some st → ∃ st', t.seat? s.shf.core s.shf.seat = some st' ∧
          ((∀ c ∈ st.mq.head?, c.stopped = false) → st' = st) ∧
          ∀ c rest, st.mq = c :: rest → c.stopped = true → st'.mprog = x ∧
            st'.mq = { c with units := if x.msb then x.toNat % 32768 else x.toNat, abandon := if x.msb then some 0x06 else c.abandon } :: rest)

/-- R46, R69, R70, R140 to R142: BRA takes each fibre by its own guard and BRAS the whole batch; BRX and RET go to the address of a register, or trap
ILLEGAL where it is not a multiple of 8; CALL also writes its link. Each ends the batch. -/
def Obligations.BranchesCallsAndReturns : Prop :=
  ∀ s : State, s.shf.issuing ≠ 0#32 →
    let target := fun (off : BitVec 30) => BitVec.ofNat 64 (s.shf.batchPc.toNat / 8 * 8) + off.signExtend 64 * 8
    (∀ o : SopBra, (guardReads o.g = true → ∀ l, s.inBatch l → s.shf.fib l true (·.fullC o.g.cc) = true) →
      EndsBatch s (.bra o) [] fun l => if hasLane (s.acting o.g) l then target o.off else s.shf.npc) ∧
    (∀ o : SopBra, (guardReads o.g = true → s.shf.fullSc o.g.cc = true) →
      EndsBatch s (.bras o) [] fun _ => if condHolds o.g.cond (s.shf.readSc o.g.cc) then target o.off else s.shf.npc) ∧
    (∀ o : SopBrx, ∀ i ∈ [Instr.brx o, .ret o], (GuardFalse s o.g → Passes s i) ∧
      (SheafClear s o.g [o.a] [] none → ((s.shf.readS o.a).toNat % 8 = 0 → EndsBatch s i [] fun _ => s.shf.readS o.a) ∧
        ((s.shf.readS o.a).toNat % 8 ≠ 0 → TrapsAtIssue s i s.shf.issuing 0x01 0 0x09))) ∧
    ∀ o : SopCall, (GuardFalse s o.g → Passes s (.call o)) ∧
      (SheafClear s o.g [] [o.d] none → EndsBatch s (.call o) [(o.d, s.shf.npc)] fun _ => target o.off)

/-- R143, R145, R146, R149: JOIN adds the batch to a reconvergence mask and those parked on it; MEET parks the members of the batch, and the last one
frees them all; YIELD passes the pipe on; NAP parks until its time; EXIT ends the fibres whose guard is true. -/
def Obligations.JoiningParkingAndLeaving : Prop :=
  ∀ s : State,
    (∀ o : SopBar, SheafClear s o.g [] [] none → ∃ t, exec (.join o) s = .next t ∧ t = s.setShf t.shf ∧
      t.shf.bar o.k = s.shf.issuing ||| s.shf.atMeet o.k ∧ (∀ j, j ≠ o.k → t.shf.bar j = s.shf.bar j) ∧
      SheafDone s (t.setShf { t.shf with bars := s.shf.bars }) [] none) ∧
    (∀ o : SopBar, SheafClear s o.g [] [] none → s.noHandler →
      let b := s.shf.bar o.k
      let stay := s.shf.issuing &&& b
      let done := b ≠ 0#32 ∧ b &&& ~~~(s.shf.atMeet o.k ||| stay) = 0#32
      ∃ t, exec (.meet o) s = .next t ∧ t = s.setShf t.shf ∧ RegistersKept s t ∧ t.shf.batch = 0 ∧ t.shf.hold = Hold.none ∧
        (∀ l, t.shf.pcOf l = if hasLane s.shf.issuing l then s.shf.npc else s.shf.pcOf l) ∧
        (∀ j, j ≠ o.k → t.shf.bar j = s.shf.bar j) ∧
        (done → t.shf.bar o.k = 0 ∧ ∀ l, t.shf.stands l = if hasLane b l then some (.ready, .none) else s.shf.stands l) ∧
        (¬ done → t.shf.bar o.k = b ∧ ∀ l, t.shf.stands l = if hasLane stay l then some (.atBarrier, .meet o.k) else s.shf.stands l)) ∧
    (∀ o : SopG, SheafClear s o.g [] [] none → ∃ t, exec (.yield o) s = .next t ∧ t.shf.yielded = true ∧ t = s.setShf t.shf ∧
      BatchEnds s (t.setShf { t.shf with yielded := s.shf.yielded }) [] fun _ => s.shf.npc) ∧
    (∀ o : SopNap, SheafClear s o.g [o.a] [] none → let at_ := s.shf.readS o.a + o.imm.signExtend 64
      (at_.toNat ≤ s.bell.toNat → EndsBatch s (.nap o) [] fun _ => s.shf.npc) ∧
      (s.bell.toNat < at_.toNat → ∃ t, exec (.nap o) s = .next t ∧
        t = { s with sheafs := t.sheafs, events := s.events ++ [.napWake s.cur] } ∧ RegistersKept s t ∧ t.shf.batch = 0 ∧
        ∀ l, t.shf.pcOf l = (if hasLane s.shf.issuing l then s.shf.npc else s.shf.pcOf l) ∧
          t.shf.stands l = if hasLane s.shf.issuing l then some (.waiting, .nap at_) else s.shf.stands l)) ∧
    ∀ o : SopG, s.shf.issuing ≠ 0#32 → (guardReads o.g = true → ∀ l, s.inBatch l → s.shf.fib l true (·.fullC o.g.cc) = true) →
      let dormant := ((s.launch? s.shf.launch).map fun la => decide (la.hdr.popcap ≠ 0)).getD false
      ∃ t, exec (.exit o) s = .next t ∧ t.mem = s.mem ∧ t.hostMem = s.hostMem ∧ t.shf.batch = 0 ∧
        (∀ l, s.acts o.g l → t.shf.lanes[l] = (if dormant then .dormant (some .exited) else .empty (some .exited)) ∧
          (∀ k, hasLane (t.shf.bar k) l = false) ∧ ∀ f ∈ t.shf.frames, hasLane f.mask l = false) ∧
        (s.shf.frames = [] → ∀ l, s.inBatch l → ¬ s.acts o.g l → t.shf.pcOf l = s.shf.npc ∧ (t.shf.stands l).map (·.1) = some .ready)

/-- R147, R148: with no fibre in handler, a fibre that arrives at a bed barrier last completes the phase and frees those parked on it; until then
BAR parks, ARRV goes on with its token, and WAITB parks while the token is the current phase. -/
def Obligations.BedBarriers : Prop :=
  ∀ (s : State) (b : Bed), s.bed? s.shf.bed = some b → s.cur ∈ b.sheafs → s.noHandler →
    (∀ o : SopBedBar, SheafClear s o.g [] [] none →
      let bar := b.bar o.k
      let here := fun (e : Nat × Fin 32) => e ∈ bar.arrived ∨ (e.1 = s.cur ∧ s.inBatch e.2)
      ∃ t b', exec (.bar o) s = .next t ∧ t = { s with sheafs := t.sheafs, beds := t.beds } ∧ t.bed? s.shf.bed = some b' ∧
        (∀ j, j ≠ o.k → b'.bar j = b.bar j) ∧ t.shf.batch = 0 ∧ (∀ l, s.inBatch l → t.shf.pcOf l = s.shf.npc) ∧
        ((∃ e ∈ s.liveOf b, ¬ here e) → (b'.bar o.k).phase = bar.phase ∧ (∀ e, e ∈ (b'.bar o.k).arrived ↔ here e) ∧
          ∀ l, t.shf.stands l = if hasLane s.shf.issuing l then some (.atBarrier, .bar o.k) else s.shf.stands l) ∧
        ((∀ e ∈ s.liveOf b, here e) →
          (∀ u ∈ b.sheafs, ∀ sh, s.sheaf? u = some sh → ∀ l, ∀ p d, sh.fib l .none (·.park) ≠ .arrv o.k p d) →
          (b'.bar o.k) = ⟨bar.phase + 1, []⟩ ∧ (∀ l, s.inBatch l → t.shf.stands l = some (.ready, .none)) ∧
          ∀ u ∈ b.sheafs, ∀ sh, s.sheaf? u = some sh → ∀ l, sh.fib l .none (·.park) = .bar o.k →
            ∃ sh', t.sheaf? u = some sh' ∧ sh'.stands l = some (.ready, .none))) ∧
    (∀ o : SopArrv, SheafClear s o.g [] [o.d] none → s.shf.ops.length < 64 →
      let bar := b.bar o.k
      (∀ l, s.inBatch l → (s.cur, l) ∉ bar.arrived) → (∃ e ∈ s.liveOf b, ¬ (e ∈ bar.arrived ∨ (e.1 = s.cur ∧ s.inBatch e.2))) →
      ∃ t b', exec (.arrv o) s = .next t ∧ t = { s with sheafs := t.sheafs, beds := t.beds, nextId := s.nextId + 1 } ∧ t.bed? s.shf.bed = some b' ∧
        (b'.bar o.k).phase = bar.phase ∧ (∀ e, e ∈ (b'.bar o.k).arrived ↔ e ∈ bar.arrived ∨ (e.1 = s.cur ∧ s.inBatch e.2)) ∧
        t.shf.readS o.d = zext64 bar.phase ∧ t.shf.fullS o.d = true ∧ aget t.shf.ops s.nextId = none ∧ t.shf.batch = 0 ∧
        (∀ l, t.shf.stands l = s.shf.stands l) ∧ ∀ l, t.shf.pcOf l = if hasLane s.shf.issuing l then s.shf.npc else s.shf.pcOf l) ∧
    ∀ o : SopWaitb, SheafClear s o.g [o.a] [] none → let tok := loHalf (s.shf.readS o.a)
      ((b.bar o.k).phase ≠ tok → EndsBatch s (.waitb o) [] fun _ => s.shf.npc) ∧
      ((b.bar o.k).phase = tok → ∃ t, exec (.waitb o) s = .next t ∧ t = s.setShf t.shf ∧ RegistersKept s t ∧ t.shf.batch = 0 ∧
        ∀ l, t.shf.pcOf l = (if hasLane s.shf.issuing l then s.shf.npc else s.shf.pcOf l) ∧
          t.shf.stands l = if hasLane s.shf.issuing l then some (.waiting, .waitb o.k tok) else s.shf.stands l)

/-- R153 to R155: SPAWN sends its record after a release and completes with the answer to it; TRIG sets the completion bits of its fibres' groups; DWAIT
passes where there is no dependence, parks the fibres whose window is not complete, and is an acquire for the others, which their later memory instructions
wait for. -/
def Obligations.SpawningAndDependences : Prop :=
  let releases := fun (s t : State) => ∀ l, s.inBatch l → t.shf.fib l [] (·.written) = [] ∧ t.shf.fib l [] (·.seen) = []
  (∀ s : State,
    (∀ o : SopSpawn, SheafClear s o.g [o.a, o.a + 1, o.a + 2, o.a + 3] [o.d] (some o.k) → s.FirstTry → s.unfenced →
      s.releaseReady (s.shf.takeTimes [o.a, o.a + 1, o.a + 2, o.a + 3] s.shf.issuing) s.shf.issuing .dev = true →
      ∃ t, exec (.spawn o) s = .next t ∧ t = { s with sheafs := t.sheafs, nextId := s.nextId + 1, events := s.events ++
          [.spawnRequest ⟨s.cur, s.nextId, s.shf.readS o.a, s.shf.readS (o.a + 1), s.shf.readS (o.a + 2), s.shf.readS (o.a + 3), none⟩] } ∧
        RegistersKept s t ∧ releases s t ∧ t.shf.hold.phase = 2 ∧ t.shf.hold.waiting = true ∧ t.shf.hold.ticket = s.nextId ∧
        ∀ l, t.shf.pcOf l = s.shf.pcOf l) ∧
    (∀ (o : SopSpawn) (r : SpawnResp), s.shf.issuing ≠ 0#32 → s.shf.hold.phase = 2 → s.shf.hold.answer = some r →
      ∃ t, exec (.spawn o) s = .next t ∧ SheafDone s t [(o.d, r.beds)] (some (o.k, r.flags))) ∧
    (∀ (o : SopG) (la : Launch), SheafClear s o.g [] [] none → s.FirstTry → s.unfenced → s.releaseReady s.shf s.shf.issuing .dev = true →
      s.launch? s.shf.launch = some la →
      ∃ t la', exec (.trig o) s = .next t ∧ t = { s with sheafs := t.sheafs, launches := t.launches, events := t.events } ∧
        s.events <+: t.events ∧ RegistersKept s t ∧ releases s t ∧ t.launch? s.shf.launch = some la' ∧ la' = { la with groups := la'.groups } ∧
        (∀ g, g ∈ la'.groups ↔ g ∈ la.groups ∨ (g < 2 ^ 24 ∧ ∃ l, s.inBatch l ∧ g = (s.shf.fib l 0 (·.wid)).toNat / 2 ^ la.hdr.bitsBelow la.hdr.grplvl)) ∧
        ∀ l, t.shf.stands l = s.shf.stands l ∧ t.shf.pcOf l = if hasLane s.shf.issuing l then s.shf.npc else s.shf.pcOf l) ∧
    ∀ o : SopG, SheafClear s o.g [] [] none →
      (∀ la ∈ s.launch? s.shf.launch, la.hdr.hasdep = false) → EndsBatch s (.dwait o) [] fun _ => s.shf.npc) ∧
  ∀ (s : State) (o : SopG) (la : Launch), SheafClear s o.g [] [] none → s.launch? s.shf.launch = some la → la.hdr.hasdep = true → s.unfenced →
    let closed := fun l => s.windowDone la (groupOf la.hdr (s.shf.fib l 0 (·.wid)))
    ∃ t, exec (.dwait o) s = .next t ∧ t = { s with sheafs := t.sheafs, l1 := t.l1, events := t.events } ∧
      (t.events = s.events ∨ ((∃ l, s.inBatch l ∧ closed l = false) ∧ t.events = s.events ++ [.bedPlacement la.part])) ∧
      RegistersKept s t ∧ t.shf.batch = 0 ∧
      ∀ l, t.shf.pcOf l = (if hasLane s.shf.issuing l then s.shf.npc else s.shf.pcOf l) ∧
        (s.inBatch l → closed l = false → t.shf.stands l = some (.waiting, .dwait) ∧ t.shf.fib l none (·.fence) = none) ∧
        (¬ (s.inBatch l ∧ closed l = false) → t.shf.stands l = s.shf.stands l) ∧
        (s.inBatch l → closed l = true → if s.shf.acquireReady (1#32 <<< l.val) = true then
            t.shf.fib l none (·.fence) = none ∧ t.shf.fib l 0 (·.floor) = maxWord [s.shf.fib l 0 (·.floor), s.bell] ∧
            t.l1 = s.l1.filter fun e => e.1.1 ≠ s.shf.core
          else t.shf.fib l none (·.fence) = some ⟨true, false, .dev⟩ ∧ t.shf.fib l 0 (·.floor) = s.shf.fib l 0 (·.floor))

/-! ### Exceptions (R157 to R162, R344 to R350) -/

/-- R30, R157, R159, R344, R353: TRAP takes SOFTWARE with the next PC saved; BKPT takes BREAKPOINT, or stops its partition where the debug core has claimed
breakpoints; an empty source marked for it traps EMPTY; a fibre in handler traps at a collective; RTE, FRMRD and FRMWR without their frame trap ILLEGAL.
R158, R350: a trap that meets a full stack, no vector or one that is not a multiple of 8 escalates: the fibres park on fault, the record is kept and
logged, the bed is marked, the driver is told, and the bed is to be lifted. -/
def Obligations.TrapsTaken : Prop :=
  (∀ s : State,
     (∀ o : SopTrap, SheafClear s o.g [] [] none → s.CanTrap → ∃ t, exec (.trap o) s = .next t ∧
       TrapTaken s t (s.frameAt s.shf.issuing 0x0B 0 (o.code.setWidth 32) fun _ => s.shf.npc)) ∧
     (∀ o : SopG, SheafClear s o.g [] [] none → let claimed := ∃ la p, s.launch? s.shf.launch = some la ∧ s.part? la.part = some p ∧ p.breakpoints = true
       (¬ claimed → TrapsAtIssue s (.bkpt o) s.shf.issuing 0x0C 0 0) ∧
       (claimed → ∃ t, exec (.bkpt o) s = .next t ∧ t = { s with sheafs := t.sheafs, cores := t.cores, dumps := t.dumps } ∧
         (t.coreState s.shf.core).stopped.getLsbD (s.shf.part % 4) = true ∧ t.dumps.length = s.dumps.length + 1 ∧ RegistersKept s t ∧
         ∀ l, t.shf.pcOf l = if hasLane s.shf.issuing l then s.shf.npc else s.shf.pcOf l)) ∧
     (∀ i ∈ [Instr.iabs, .popc, .clz, .brev], ∀ o : OpA, s.shf.issuing ≠ 0#32 →
       (guardReads o.g = true → ∀ l, s.inBatch l → s.shf.fib l true (·.fullC o.g.cc) = true) → s.acting o.g = s.shf.issuing → o.a.trap = true →
       (∀ l, s.inBatch l → s.shf.emptyAt o.a.reg l = true ∧ s.shf.liveLane o.a.reg l = true) →
       TrapsAtIssue s (i o) s.shf.issuing 0x08 0 (o.a.reg.setWidth 32)) ∧
     (∀ i g, (∃ o : SopArrv, i = .arrv o ∧ g = o.g ∧ SheafClear s o.g [] [o.d] none) ∨ (∃ o : SopWaitb, i = .waitb o ∧ g = o.g ∧ SheafClear s o.g [o.a] [] none) →
       s.shf.issuing &&& s.shf.inHandler = s.shf.issuing → TrapsAtIssue s i s.shf.issuing 0x01 0 0x0C) ∧
     (s.shf.issuing ≠ 0#32 →
       (∀ o : SopG, s.shf.innermost s.shf.issuing = none → TrapsAtIssue s (.rte o) s.shf.issuing 0x01 0 0x0C) ∧
       (∀ o : SopFrmrd, s.shf.namedFrame o.frame = none → TrapsAtIssue s (.frmrd o) s.shf.issuing 0x01 0 0x0C) ∧
       (∀ o : SopFrmwr, s.shf.namedFrame o.frame = none → TrapsAtIssue s (.frmwr o) s.shf.issuing 0x01 0 0x0C) ∧
       ∀ o : SopSwr, o.sel = .mprog → s.shf.frames = [] → TrapsAtIssue s (.swr o) s.shf.issuing 0x01 0 0x0C)) ∧
  (∀ (s : State) (o : SopTrap) (la : Launch) (b : Bed), SheafClear s o.g [] [] none →
     (4 ≤ s.shf.frames.length ∨ s.hvec s.shf = 0 ∨ (s.hvec s.shf).toNat % 8 ≠ 0) →
     s.launch? s.shf.launch = some la → s.bed? s.shf.bed = some b →
     let f := s.frameAt s.shf.issuing 0x0B 0 (o.code.setWidth 32) fun _ => s.shf.npc
     ∃ t, exec (.trap o) s = .next t ∧
       t = { s with sheafs := t.sheafs, parts := t.parts, beds := t.beds, reports := s.reports ++ [.escalation la.number b.wid 0x0B]
                    events := s.events ++ [.lift s.shf.launch s.shf.bed] } ∧
       t.shf.frames = s.shf.frames ∧ t.shf.escalated = s.shf.escalated ++ [⟨f, []⟩] ∧ t.shf.batch = 0 ∧
       t.bed? s.shf.bed = some { b with escalated := true } ∧
       (∀ p, s.part? la.part = some p → ∃ q, t.part? la.part = some q ∧
         q.log.getLast? = some ⟨0x0B, 0, la.number, la.asn, s.bell, s.shf.batchPc⟩) ∧
       ∀ l, s.inBatch l → t.shf.stands l = some (.onFault, .none))

/-- R160 to R162, Table 6.5: RTE parks until every fibre of the frame has returned, and then the frame is gone and its fibres have their saved PCs and c
registers; FRMRD reads the fields of the frame named, and FRMWR writes a saved PC or c registers, or culls the fibre. -/
def Obligations.FramesAndReturns : Prop :=
  ∀ (s : State),
    (∀ (o : SopG) (i : Nat) (f : Frame), SheafClear s o.g [] [] none → s.shf.innermost s.shf.issuing = some i → s.shf.frames[i]? = some f →
      (∀ x ∈ s.shf.frames, x.mask &&& ~~~x.rte ≠ 0) →
      (f.mask &&& ~~~(f.rte ||| s.shf.issuing) ≠ 0 → ∃ t, exec (.rte o) s = .next t ∧ t = s.setShf t.shf ∧ t.shf.rows = s.shf.rows ∧
        t.shf.sregs = s.shf.sregs ∧ t.shf.frames[i]? = some { f with rte := f.rte ||| s.shf.issuing } ∧ t.shf.batch = 0 ∧
        ∀ l, t.shf.pcOf l = s.shf.pcOf l ∧ t.shf.stands l = if hasLane s.shf.issuing l then some (.atRte, .none) else s.shf.stands l) ∧
      (f.mask &&& ~~~(f.rte ||| s.shf.issuing) = 0 → f.replay = none → ∃ t, exec (.rte o) s = .next t ∧ t = s.setShf t.shf ∧
        t.shf.rows = s.shf.rows ∧ t.shf.sregs = s.shf.sregs ∧ t.shf.frames = s.shf.frames.eraseIdx i ∧ t.shf.batch = 0 ∧
        ∀ l, hasLane s.shf.held l = true → hasLane f.mask l = true →
          t.shf.pcOf l = f.pcs[l] ∧ t.shf.stands l = some (.ready, .none) ∧ t.shf.fib l 0 Fibre.ccBits = f.ccs[l] ∧
          ∀ k, t.shf.fib l false (·.fullC k) = true)) ∧
    (∀ (o : SopFrmrd) (i : Nat) (f : Frame), s.shf.namedFrame o.frame = some i → s.shf.frames[i]? = some f →
      SheafClear s o.g (if o.field = .pc ∨ o.field = .cc then [o.a] else []) [o.d] none →
      let l := laneOf (s.shf.readS o.a).toNat
      ∃ t, exec (.frmrd o) s = .next t ∧ SheafDone s t [(o.d, match o.field with
        | .cause => BitVec.ofNat 64 f.cause.toNat | .info => BitVec.ofNat 64 f.info.toNat | .addr => f.addr
        | .mask => BitVec.ofNat 64 f.mask.toNat | .fpc => f.fpc | .bell => f.bell
        | .pc => if hasLane f.mask l then f.pcs[l] else 0
        | .cc => if hasLane f.mask l then BitVec.ofNat 64 (f.ccs[l]).toNat else 0)] none) ∧
    ∀ (o : SopFrmwr) (i : Nat) (f : Frame), s.shf.namedFrame o.frame = some i → s.shf.frames[i]? = some f → SheafClear s o.g [o.a, o.b] [] none →
      let l := laneOf (s.shf.readS o.a).toNat; let x := s.shf.readS o.b
      (hasLane f.mask l = false → Passes s (.frmwr o)) ∧
      (hasLane f.mask l = true → o.field = .pc → ∃ t g, exec (.frmwr o) s = .next t ∧ t = s.setShf t.shf ∧ t.shf.frames[i]? = some g ∧
        (∀ m : Fin 32, g.pcs[m] = if m = l then x else f.pcs[m]) ∧ g = { f with pcs := g.pcs } ∧ t.shf.sregs = s.shf.sregs ∧ t.shf.rows = s.shf.rows ∧
        ∀ k, hasLane (t.shf.bar k) l = false) ∧
      (hasLane f.mask l = true → o.field = .cc → ∃ t g, exec (.frmwr o) s = .next t ∧ t = s.setShf t.shf ∧ t.shf.frames[i]? = some g ∧
        (∀ m : Fin 32, g.ccs[m] = if m = l then x.setWidth 16 else f.ccs[m]) ∧ g = { f with ccs := g.ccs } ∧ t.shf.sregs = s.shf.sregs ∧
        t.shf.rows = s.shf.rows ∧ t.shf.bars = s.shf.bars) ∧
      (hasLane f.mask l = true → hasLane s.shf.held l = true → o.field = .cull → (x = 0 → Passes s (.frmwr o)) ∧
        (x ≠ 0 → ∃ t, exec (.frmwr o) s = .next t ∧ t.mem = s.mem ∧ t.shf.lanes[l].isHeld = false ∧ ∀ g ∈ t.shf.frames, hasLane g.mask l = false))

/-! ### The matrix unit and the copy engine (R220 to R236, R385, R387) -/

/-- R220, R221, R223, R228, R233 to R236, R437: a command instruction whose record is in order queues its command and empties its status and promise;
a record that is not ends at once with its CODE; the records of MMA, MMALOOP, ACCST, ACCLDM, XCOPY and XFILL are checked as their tables say. -/
def Obligations.EngineCommandsAreQueued : Prop :=
  (∀ (s : State) (i : Instr) (d : EngineDesc) (st : Seat), engineOf i = some d →
    SheafClear s d.g d.record (d.status.toList ++ d.promise.toList) none → s.FirstTry → s.unfenced → s.shf.ops.length < 64 →
    s.seat? s.shf.core s.shf.seat = some st → (if d.matrix then st.mq.length < 16 else st.cq.length < 64) →
    (∀ code, d.make s s.shf = .refuse code → ∃ t, exec i s = .next t ∧
      SheafDone s t (d.promise.toList.map (fun p => (p, s.bell)) ++ d.status.toList.map fun r => (r, BitVec.ofNat 64 code)) none) ∧
    (∀ b, d.make s s.shf = .body b → (b.ranges ≠ [] → s.shf.writesDue s.shf.issuing = false) →
      let c0 := s.newCmd s.shf s.nextId b d.status d.promise
      let lines := (s.destLines c0).1
      (s.destLines c0).2 = [] → (∀ e ∈ lines, s.chargePool e.2 = none) →
      let c := { c0 with owned := lines, emptied := s.destWords c0 }
      ∃ t, exec i s = .next t ∧
        t = { s with sheafs := t.sheafs, seats := t.seats, homes := t.homes, beds := t.beds, nextId := s.nextId + 2, events := t.events } ∧
        (∀ u, u ≠ s.cur → t.sheaf? u = s.sheaf? u) ∧ s.events <+: t.events ∧ (d.promise.isSome = true → .promisedBellTime s.shf.core s.shf.seat s.nextId ∈ t.events) ∧
        t.seat? s.shf.core s.shf.seat = some (if d.matrix then { st with mq := st.mq ++ [c] } else { st with cq := st.cq ++ [c] }) ∧
        t.shf.ops = s.shf.ops ++ [(s.nextId + 1, ⟨s.shf.batchPc, .engine s.nextId, s.shf.issuing, s.shf.issuing, 0, lanesOf fun _ => 0, [], 0, none⟩)] ∧
        (∀ r ∈ d.status.toList ++ d.promise.toList, t.shf.fullS r = false) ∧
        (∀ r, r ∉ d.status.toList ++ d.promise.toList → t.shf.readS r = s.shf.readS r ∧ t.shf.fullS r = s.shf.fullS r) ∧
        t.shf.rows = s.shf.rows ∧ t.shf.scs = s.shf.scs ∧ t.shf.hold = Hold.none ∧ (∀ e ∈ lines, s.nextId ∈ (t.home e.2).engine) ∧
        ∀ l, t.shf.pcOf l = if hasLane s.shf.issuing l then s.shf.npc else s.shf.pcOf l)) ∧
  ∀ (s : State) (sh : Sheaf) (a : BitVec 6), let r := fun i => (sh.recWord a i).toNat
    let in4 := fun ks => ∀ k ∈ ks, r k % 4 = 0
    let clear := fun (b : CmdBody) => ∀ h, s.headerOf sh = some h → b.windowBad h = false
    (∀ o : SopMma, o.a = a → o.scale = none → ∀ loop : Bool, let n := if loop then r 8 else 1
      (r 4 ≠ 0 ∨ r 5 ≠ 0 → makeMma o loop s sh = .refuse 0x02) ∧
      (r 4 = 0 → r 5 = 0 → n = 0 ∨ 32767 < n → makeMma o loop s sh = .refuse 0x03) ∧
      (r 4 = 0 → r 5 = 0 → 1 ≤ n → n ≤ 32767 → let ka := fmtBlock o.afmt; let kb := fmtBlock o.bfmt
        let fits := r 0 % ka = 0 ∧ r 1 % ka = 0 ∧ r 2 % kb = 0 ∧ r 3 % kb = 0 ∧ (loop = true → r 6 % ka = 0 ∧ r 7 % kb = 0)
        let b := CmdBody.mma o.tile o.afmt o.bfmt o.accum (sh.recWord a 0) (sh.recWord a 1) (sh.recWord a 2) (sh.recWord a 3)
          (if loop then sh.recWord a 6 else 0) (if loop then sh.recWord a 7 else 0) n []
        (¬ fits → makeMma o loop s sh = .refuse 0x04) ∧ (fits → clear b → makeMma o loop s sh = .body b))) ∧
    (∀ (f : TFmt) (mk : Word → Word → CmdBody),
      (r 0 % rowSize f ≠ 0 ∨ r 1 % rowSize f ≠ 0 → makeRows f a mk s sh = .refuse 0x04) ∧
      (r 0 % rowSize f = 0 → r 1 % rowSize f = 0 → clear (mk (sh.recWord a 0) (sh.recWord a 1)) →
        makeRows f a mk s sh = .body (mk (sh.recWord a 0) (sh.recWord a 1)))) ∧
    (let size := 4 ≤ r 4 ∧ r 4 ≤ 65536 ∧ 1 ≤ r 5 ∧ r 5 ≤ 65535
      let b := CmdBody.xcopy (sh.recWord a 0) (sh.recWord a 1) (sh.recWord a 2) (sh.recWord a 3) (r 4) (r 5)
      (¬ size → makeXcopy a s sh = .refuse 0x03) ∧ (size → ¬ in4 [0, 1, 2, 3, 4] → makeXcopy a s sh = .refuse 0x04) ∧
      (size → in4 [0, 1, 2, 3, 4] → clear b → makeXcopy a s sh = .body b)) ∧
    let size := 4 ≤ r 1 ∧ r 1 ≤ 16777216
    let b := CmdBody.xfill (sh.recWord a 0) (r 1) (loHalf (sh.recWord a 2))
    (¬ size → makeXfill a s sh = .refuse 0x03) ∧ (size → ¬ in4 [0, 1] → makeXfill a s sh = .refuse 0x04) ∧
    (size → in4 [0, 1] → clear b → makeXfill a s sh = .body b)

/-- R234, R377: ACCRD reads 8 elements of its tile for each participant and ACCWR writes them, element 32k + l from register k of lane l, once no
earlier command names the tile; an element with an uncorrectable error traps ACCRD and is cleared by ACCWR. -/
def Obligations.TilesReadAndWritten : Prop :=
  ∀ (s : State) (st : Seat), s.seat? s.shf.core s.shf.seat = some st →
    (∀ o : OpAccrd, let i : LaneIns := ⟨o.g, [], [], [], regRange o.d 8, none⟩; let x := st.tile o.tile
      MemClear s i (fun _ => 0) 1 → (∀ c ∈ st.mq, c.body.tile? ≠ some o.tile) →
      ((∀ l, s.acts o.g l → ∀ k < 8, 32 * k + l.val ∉ x.bad) →
        LaneCompletes (.accrd o) s i ((List.range 8).map fun k => (o.d + BitVec.ofNat 8 k, fun l => x.elems.toList.getD (32 * k + l.val) 0)) none
          (fun _ => 0)) ∧
      ((∀ l, s.inBatch l → s.acts o.g l ∧ ∃ k < 8, 32 * k + l.val ∈ x.bad) → TrapsAtIssue s (.accrd o) s.shf.issuing 0x0E 0 0x0011)) ∧
    ∀ o : OpAccwr, let i : LaneIns := ⟨o.g, [vop o.a 8 0], [], [], [], none⟩
      MemClear s i (fun _ => 0) 1 → (∀ c ∈ st.mq, c.body.tile? ≠ some o.tile) →
      ∃ t st', exec (.accwr o) s = .next t ∧ LaneDone (s.modSeat s.shf.core s.shf.seat fun _ => st') t i [] none (fun _ => 0) ∧
        st' = { st with tiles := st'.tiles } ∧ (∀ a, a ≠ o.tile → st'.tile a = st.tile a) ∧ (st'.tile o.tile).int32 = (st.tile o.tile).int32 ∧
        ∀ k < 8, ∀ l : Fin 32,
          (s.acts o.g l → (st'.tile o.tile).elems.toList.getD (32 * k + l.val) 0 = s.shf.readLane (o.a.reg + BitVec.ofNat 8 k) l ∧
            32 * k + l.val ∉ (st'.tile o.tile).bad) ∧
          (¬ s.acts o.g l → (st'.tile o.tile).elems.toList.getD (32 * k + l.val) 0 = (st.tile o.tile).elems.toList.getD (32 * k + l.val) 0)

/-- R223, R224, R230 to R236, R385: a command at the head starts with $mprog 0, or ends with CODE 1 where the tile's type does not suit it; ACCZ zeroes
its tile; a step updates the whole tile; rows and copy units move their bytes; after its last unit the command ends; a promise is written, and a
fault stops the command and is set out for its batch. -/
def Obligations.EngineEvents : Prop :=
  ∀ (s : State) (core seat : Nat) (st : Seat) (c : Cmd), InQueue s core seat st c → seat < 4 →
    (Moves s core seat c → st.mq.head? = some c →
      (c.started = false → s.accFirst core seat c.id = false → let tile := st.tile (c.body.tile?.getD 0)
        (c.body.typeBad tile = true → ∃ t, exec (.matrixCommandStart core seat) s = .next t ∧ CommandEnds s t core seat c 1) ∧
        (c.body.typeBad tile = false → ∃ t st', exec (.matrixCommandStart core seat) s = .next t ∧ t.seat? core seat = some st' ∧ st'.mprog = 0 ∧
          t.cmd? c.id = some { c with started := true } ∧ (∀ a f i x y, c.body = .accldm a f i x y → (st'.tile a).int32 = i) ∧
          ((∀ a f i x y, c.body ≠ .accldm a f i x y) → st'.tiles = st.tiles))) ∧
      (c.started = true →
        (∀ a int32, c.body = .accz a int32 → ∃ t st', exec (.matrixStep core seat) s = .next t ∧ t.seat? core seat = some st' ∧
          CommandEnds s t core seat { c with units := c.units + 1 } 0 ∧ st'.tile a = { Tile.zero with int32 := int32 }) ∧
        (∀ a fa fb accum x sx y sy ix iy n scales s' data out, c.body = .mma a fa fb accum x sx y sy ix iy n scales → c.units < n →
          s.unitRead c = .go s' data out → (∀ q < 4, q ≠ seat → s.stepReady core q (isFloatFmt fa) = none) →
          let fresh := c.units = 0 ∧ accum = false
          let tile := if fresh then { (st.tile a) with elems := Vector.replicate 256 0, bad := [] } else st.tile a
          tile.bad = [] → let r := mmaStep fa fb (if scales = [] then none else some (scales.getD c.units [])) data tile
          ∃ t st', exec (.matrixStep core seat) s = .next t ∧ t.seat? core seat = some st' ∧ st'.tile a = r.1 ∧
            st'.mprog = BitVec.ofNat 64 (c.units + 1) ∧ (∀ b, b ≠ a → st'.tile b = st.tile b) ∧
            (c.units + 1 = n → CommandEnds s t core seat { c with units := n, nonfin := c.nonfin || r.2 } 0) ∧
            (c.units + 1 < n → ∃ c', t.cmd? c.id = some c' ∧ c'.units = c.units + 1 ∧ c'.nonfin = (c.nonfin || r.2))) ∧
        (∀ a f i x y s' data out, c.body = .accldm a f i x y → c.units < 16 → s.unitRead c = .go s' data out →
          ∃ t st', exec (.tileRowTransfer core seat) s = .next t ∧ t.seat? core seat = some st' ∧
            st'.tile a = (st.tile a).setRow c.units (rowIn f data.flatten) ∧ st'.mprog = BitVec.ofNat 64 (c.units + 1) ∧
            (c.units = 15 → CommandEnds s t core seat { c with units := 16 } 0)) ∧
        ∀ a f x y s' data p m, c.body = .accst a f x y → c.units < 16 → (∀ k, 16 * c.units ≤ k → k < 16 * c.units + 16 → k ∉ (st.tile a).bad) →
          s.unitRead c = .go s' data [p] → p.spot = .mem (.dev m) → p.n = rowSize f → Plain s m p.n →
          ∃ t c', exec (.tileRowTransfer core seat) s = .next t ∧ WroteAt s t m (rowOut f ((st.tile a).row c.units)) ∧
            t.cmd? c.id = some c' ∧ c'.wrote = true ∧ c'.units = c.units)) ∧
    (Moves s core seat c → st.cq.find? (fun d => d.id = c.id) = some c → st.copyBlocked c = false →
      ∀ s' data p m, (s.modCmd c.id fun d => { d with started := true }).unitRead { c with started := true } = .go s' data [p] → c.units < c.body.count → p.spot = .mem (.dev m) →
        let bs := c.body.unitBytes data p.n
        bs.length = p.n → Plain s m p.n →
        ∃ t c', exec (.copyUnit core seat c.id) s = .next t ∧ WroteAt s t m bs ∧ t.cmd? c.id = some c' ∧ c'.wrote = true ∧ c'.started = true ∧
          c'.units = c.units) ∧
    (Moves s core seat { c with wrote := false } → c.wrote = true → c.peersDue = 0 → st.cq.find? (fun d => d.id = c.id) = some c → st.copyBlocked c = false →
      ∃ t, exec (.copyUnit core seat c.id) s = .next t ∧
        (c.body.count ≤ c.units + 1 → CommandEnds s t core seat { c with units := c.units + 1 } 0) ∧
        (c.units + 1 < c.body.count → ∃ c', t.cmd? c.id = some c' ∧ c'.units = c.units + 1 ∧ c'.wrote = false)) ∧
    (∀ p sh, c.promise = some p → s.sheaf? c.sheaf = some sh → frostedCore s core = false → s.mayEnd c = true →
      ∃ t sh', exec (.promisedBellTime core seat c.id) s = .next t ∧ t = { s with sheafs := t.sheafs, seats := t.seats, hub := t.hub } ∧
        t.sheaf? c.sheaf = some sh' ∧ sh'.fullS p = true ∧ (∀ r, r ≠ p → sh'.readS r = sh.readS r ∧ sh'.fullS r = sh.fullS r) ∧
        t.cmd? c.id = some { c with promise := none }) ∧
    ∀ cause addr info log, c.fault = some (cause, addr, info, log) → c.stopped = false → s.cmdAway c (State.seatKey core seat) = false →
      ∃ t, exec (.engineFault core seat c.id) s = .next t ∧ t.cmd? c.id = some { c with stopped := true } ∧
        t = { s with seats := t.seats, hub := t.hub, events := s.events ++
          [.deferredFault ⟨c.sheaf, c.lanes, cause, addr, info, c.pc, none, some c.id, log⟩] }

/-! ### Loads, stores and atomics on their way (R166 to R186, R248 to R262, R281) -/

/-- R166, R168, R246 to R251, R262: a load's lanes are translated, and each is answered from an L1 copy that serves it; the others of a line are answered
from a cluster copy that serves them, wait on an earlier request for their sectors, or ask the line's home, with the sectors they touch; the home grants a
lease of 256 ticks to a line written lately and 4,096 to another, and fills the caches; an answer is written to the lanes still there, extended, and ends
their part of the operation. -/
def Obligations.LoadsAreAnswered : Prop :=
  ∀ s : State,
    (∀ (u k : Nat) (sh : Sheaf) (o : OpRec) (loc : Fin 32 → Loc), s.sheaf? u = some sh → frostedCore s sh.core = false → s.isLifted sh = false →
      aget sh.ops k = some o → ((∃ d w sgn, o.kind = .load d w sgn false) ∨ ∃ d, o.kind = .sload d) → o.gone = 0 → s.watches = [] →
      s.metered (s.budgetKey sh) = false → s.missEntries sh.core + 32 ≤ 256 → (∀ e ∈ sh.ops, e.1 ≠ k → e.2.unsent = 0) →
      let m := o.due &&& ~~~o.sent &&& ~~~o.faulted
      let n := opBytes o.kind
      let cl := clusterOf sh.core
      let off := fun l => (l.val, locOff (loc l))
      (∀ l, hasLane m l = true → (∃ p e, s.check cl (s.asnOf sh) (s.headerOf sh) o.addrs[l] .load = .at_ (loc l) p e) ∧ ∀ p a, loc l ≠ .peer p a) →
      let lines := ((lanesIn m).map fun l => lineOf (loc l)).eraseDups
      let mine := fun line => (lanesIn m).filter fun l => lineOf (loc l) = line
      let need := fun (ls : List (Fin 32)) => ls.foldl (fun m l => m ||| sectorMask (locOff (loc l)) n) 0#4
      let hit := fun line => (mine line).filter fun l => (aget s.l1 (sh.core, line)).any fun c =>
        c.serves s.bell (sh.fib l 0 (·.floor)) (sectorMask (locOff (loc l)) n)
      let miss := fun line => (mine line).filter fun l => !(hit line).contains l
      let inCluster := fun line => (aget s.cluster (cl, line)).filter fun c => c.serves s.bell (maxWord ((miss line).map fun l => sh.fib l 0 (·.floor)))
        (need (miss line))
      let sent : List (Nat × OpRec) := amod sh.ops k fun o => { o with sent := o.sent ||| m }
      let answer := fun (ls : List (Fin 32)) (c : Copy) => Event.loadResponse ⟨u, k, ls.map fun l => (l.val, lineValue c.bytes (locOff (loc l)) n)⟩
      ((∀ line ∈ lines, s.mustFollow sh.core line = false ∧ inCluster line = none) → ∃ t sh', exec (.pageWalk u k) s = .next t ∧ t.sheaf? u = some sh' ∧
        t = { s with sheafs := t.sheafs, tlb := t.tlb, atc := t.atc
                     events := s.events ++ lines.flatMap fun line =>
                       ((aget s.l1 (sh.core, line)).toList.flatMap fun c => if hit line = [] then [] else [answer (hit line) c]) ++
                         if miss line = [] then [] else [.homeRead ⟨sh.core, line, false, none, need (miss line), [⟨u, k, (miss line).map off, 0⟩]⟩] } ∧
        sh' = { sh with ops := sent, lanes := sh'.lanes } ∧
        ∀ l, sh'.fib l none (fun f => some { f with seen := [] }) = sh.fib l none (fun f => some { f with seen := [] }) ∧
          sh'.fib l [] (·.seen) = let line := lineOf (loc l)
            if hasLane m l = true ∧ l ∈ hit line ∧ s.storesOnWay cl line ≠ [] ∧ line ∉ sh.fib l [] (·.seen) then sh.fib l [] (·.seen) ++ [line]
            else sh.fib l [] (·.seen)) ∧
      (∀ line c, lines = [line] → aget s.l1 (sh.core, line) = none → s.mustFollow sh.core line = false → inCluster line = some c →
        ∃ t x, exec (.pageWalk u k) s = .next t ∧ t.events = s.events ++ [answer (mine line) c] ∧ t.mem = s.mem ∧ t.homes = s.homes ∧
          aget t.l1 (sh.core, line) = some x ∧ x.bytes = c.bytes ∧ x.leaseEnd = if s.bell.toNat + 512 < c.leaseEnd.toNat then s.bell + 512 else c.leaseEnd) ∧
      ∀ line q, lines = [line] → (s.events.filter fun e => match e with | .homeRead r => decide (r.core = sh.core ∧ r.line = line) | _ => false) = [.homeRead q] →
        q.ldb = false → q.prefetch ≠ some false → need (mine line) &&& ~~~q.mask = 0 →
        (∀ a, .atomicExecution a ∈ s.events → a.core = sh.core → lineOf a.word ≠ line) →
        ∃ t sh', exec (.pageWalk u k) s = .next t ∧ t.sheaf? u = some sh' ∧ sh' = { sh with ops := sent } ∧
          let joined : HomeReq := { q with who := q.who ++ (mine line).map fun l => ⟨u, k, [off l], storesBehind cl q s.events⟩ }
          t = { s with sheafs := t.sheafs, tlb := t.tlb, atc := t.atc, events := s.events.map fun e => if e = .homeRead q then .homeRead joined else e }) ∧
    (∀ (m : HomeReq), s.portFails m.line = false → s.portHolds m.line = false → s.engineHolds m.line none = false → (s.home m.line).poison = false →
      let cl := clusterOf m.core
      let h := s.home m.line
      (h.cluster = none ∨ ∃ tw, h.cluster = some (cl, tw)) →
      let lately := match m.line, h.lastwrite with
        | .dev _, some w => decide (s.bell.toNat - w.toNat < 65536)
        | .dev _, none => false
        | _, _ => true
      let e : Word := s.bell + (if lately then 256 else 4096)
      let bytes := s.homeBytes m.line 256
      let put := fun (bss : List (List (Nat × Byte))) => bss.flatten.foldl (fun l e => l.set e.1 e.2) bytes
      ∃ t, exec (.homeRead m) s = .next t ∧ t.mem = s.mem ∧ t.hostMem = s.hostMem ∧
        (∀ w ∈ m.who, w.lanes ≠ [] → ∀ sh o, s.sheaf? w.sheaf = some sh → aget sh.ops w.op = some o →
          .loadResponse ⟨w.sheaf, w.op, w.lanes.map fun x =>
            (x.1, lineValue (put ((s.storesOnWay cl m.line).take w.seen)) x.2 (opBytes o.kind))⟩ ∈ t.events) ∧
        (m.ldb = true → t.cluster = s.cluster ∧ t.l1 = s.l1) ∧
        (m.ldb = false → ∃ c, aget t.cluster (cl, m.line) = some c ∧ c.leaseEnd = e ∧ c.fetch = s.bell ∧ c.bytes = put (s.storesOnWay cl m.line) ∧
          c.valid = (m.mask ||| match aget s.cluster (cl, m.line) with
            | some old => if h.lastwrite.all fun w => decide (w.toNat ≤ old.fetch.toNat) then old.valid else 0
            | none => 0) ∧
          (t.home m.line).leasemax = maxWord [h.leasemax, e] ∧
          (m.prefetch ≠ some false → frostedCore s m.core = false → ∃ x, aget t.l1 (m.core, m.line) = some x ∧ x.bytes = c.bytes ∧
            x.valid &&& m.mask = m.mask ∧ x.leaseEnd = if s.bell.toNat + 512 < e.toNat then s.bell + 512 else e) ∧
          (m.prefetch = some false ∨ frostedCore s m.core = true → t.l1 = s.l1))) ∧
    ∀ (r : LoadResp) (sh : Sheaf) (o : OpRec), Reaches s r.sheaf sh → aget sh.ops r.op = some o →
      ∃ t sh', exec (.loadResponse r) s = .next t ∧ t = { s with sheafs := t.sheafs } ∧ t.sheaf? r.sheaf = some sh' ∧
        (∀ u, u ≠ r.sheaf → t.sheaf? u = s.sheaf? u) ∧ (∀ l, sh'.stands l = sh.stands l ∧ sh'.pcOf l = sh.pcOf l) ∧
        (∀ l x, aget r.data l.val = some x → ∀ op, aget sh'.ops r.op = some op → hasLane op.due l = false) ∧
        (∀ d n (value : BitVec 128 → BitVec 128), (∃ w sgn ldb, o.kind = .load d w sgn ldb ∧ n = widthRegs w ∧ value = extendLoad w sgn) ∨
            (∃ w64, o.kind = .pad d w64 ∧ n = (if w64 then 2 else 1) ∧ value = id) ∨ (∃ pages, o.kind = .pgdrop d pages ∧ n = 1 ∧ value = id) →
          sh'.sregs = sh.sregs ∧
          (∀ l x, aget r.data l.val = some x → hasLane o.due l = true → hasLane o.gone l = false → ∀ k < n,
            sh'.readLane (d + BitVec.ofNat 8 k) l = (value x).extractLsb' (32 * k) 32 ∧ sh'.fullLane (d + BitVec.ofNat 8 k) l = true) ∧
          ∀ q (l : Fin 32), (q ∉ regRange d n ∨ l.val ∉ r.data.map (·.1)) → (∀ e ∈ r.data, e.1 < 32) → (sh.row? q).isSome = true →
            sh'.readLane q l = sh.readLane q l ∧ sh'.fullLane q l = sh.fullLane q l) ∧
        ∀ d, o.kind = .sload d ∨ o.kind = .token d → ∀ e rest, r.data = e :: rest → sh'.readS d = e.2.setWidth 64 ∧ sh'.fullS d = true ∧
          sh'.rows = sh.rows ∧ ∀ q, q ≠ d → sh'.readS q = sh.readS q ∧ sh'.fullS q = sh.fullS q

/-- R170, R179, R182 to R186, R194, R262, R264, R278, R281, R304: a write reaches its home with its bytes alone changed, later bytes over earlier, and its Tw is at
least the bell and every lease granted; a first write of a KIND 1 or 2 line gives back what it does not need yet, and its writeback settles the rest, or leaves
the line dirty where no sector is free; an atomic applies its lanes in order and answers what each found, its Tw at a cluster that owns the line being the
largest of the bell, the Tw of the taking and the leases granted there; answers raise the horizons of their fibres; a home's record of a line is dropped, but
not while an allowance or a lease needs it. -/
def Obligations.WritesReachTheirHomes : Prop :=
  ∀ s : State,
    (∀ (m : WriteMsg) (u k core a : Nat) (lanes : Mask), m.src = .fibres u k lanes core → m.line = .dev a → a % 256 = 0 → m.cwb = false →
      s.portFails m.line = false → s.writeWaits m.line = false → s.splitOn m.line none = false → Plain s a 256 →
      ∃ t, exec (.homeWrite m) s = .next t ∧ (t.home m.line).lastwrite = some s.bell ∧ t.sheafs = s.sheafs ∧ t.hostMem = s.hostMem ∧
        .twReturn ⟨u, k, lanes, maxWord [s.bell, (s.home m.line).leasemax]⟩ ∈ t.events ∧
        (∀ c, Memory.read t.mem c = ((m.bytes.reverse.find? fun e => a + e.1 = c).map (·.2)).getD (Memory.read s.mem c)) ∧
        ∀ pool p, m.charged = true → s.kindOf m.line ≠ 0 → s.poolOf m.line = some pool → s.pool? pool = some p → p.queue = [] → (s.home m.line).dirty = none →
          p.reserve + 4 < 2 ^ 64 → s.committedOf m.line ≤ 4 → let c := s.committedOf m.line
          (t.home m.line).dirty = some (4 - c) ∧ (t.home m.line).committed = c ∧ .settle a ∈ t.events ∧
          ∃ q, t.pool? pool = some q ∧ q.reserve = p.reserve + c) ∧
    (∀ (a pool d : Nat) (p : Pool), let line : Loc := .dev a
      a % 256 = 0 → s.engineHolds line none = false → s.portHolds line = false → s.atomsDue line = false → (s.home line).dirty = some d →
      (s.home line).poison = false → s.poolOf line = some pool → s.pool? pool = some p →
      let n := blockSectors (s.kindOf line) (s.homeBytes line 256)
      let starved := (s.frameOf line).all (fun f => f.tier = 0) = true ∧ (s.home line).committed < n ∧ lpddr6Sectors < s.used0 + (n - (s.home line).committed)
      (starved → ∃ t, exec (.settle a) s = .next t ∧ t.mem = s.mem ∧ t.pools = s.pools ∧ (t.home line).dirty = some d ∧ .settle a ∈ t.events ∧
        a / 65536 % 4 ∈ t.starved) ∧
      (¬ starved → n ≤ 4 → p.queue = [] → ∃ t q, exec (.settle a) s = .next t ∧ t.mem = s.mem ∧ (t.home line).dirty = none ∧ (t.home line).committed = n ∧ t.pool? pool = some q ∧
        q.reserve = p.reserve + (4 - n) ∧ q.committed = p.committed + n - (s.home line).committed)) ∧
    (∀ (m : AtomMsg) (a : Nat), m.word = .dev a → a % 4 = 0 → (m.w64 = true → a % 8 = 0) → let line := lineOf m.word; let n := if m.w64 then 8 else 4
      s.portFails line = false → s.writeWaits line = false → s.splitBars m = false → s.maySplit m = false → m.read = none → m.merge = false → Plain s a n →
      let cl := clusterOf m.core
      let owned := atCluster m = true ∧ s.owns line cl = true
      let old := BitVec.ofNat 64 (bytesToNat (Memory.bytes s.mem a n))
      let r := atomAll m.fn m.w64 old m.lanes
      ∃ t tw, exec (.atomicExecution m) s = .next t ∧ WroteAt s t a (natToBytes n r.1.toNat) ∧ aget t.l1 (m.core, line) = none ∧
        s.bell.toNat ≤ tw.toNat ∧ (¬ owned → (s.home line).leasemax.toNat ≤ tw.toNat) ∧
        (owned → ∀ tw0, (s.home line).cluster = some (cl, tw0) → tw = maxWord [s.bell, tw0, s.grantedOn cl line] ∧ t.groups = s.groups) ∧
        (atCluster m = true → t.owns line cl = true) ∧ t.sheafs = s.sheafs ∧
        (m.ret = true → .atomicReturn ⟨m.sheaf, m.op, r.2, tw⟩ ∈ t.events) ∧
        (m.ret = false → .twReturn ⟨m.sheaf, m.op, maskOfNats (m.lanes.map (·.1)), tw⟩ ∈ t.events)) ∧
    (∀ (fn : AtomFn) (w64 : Bool) (old : Word) (ls : List (Nat × Word × Word)) (l : Nat) (b c : Word),
      (fn ≠ .rmw .fadd ∨ w64 = true → let r := atomAll fn w64 old ls
        atomAll fn w64 old (ls ++ [(l, b, c)]) = (atomNew fn w64 r.1 b c, r.2 ++ [(l, r.1)])) ∧
      (let p := ls.foldl (fun p e => (fadd32 .rn p (loHalf e.2.1)).1) (loHalf b);
        (atomAll (.rmw .fadd) false old ((l, b, c) :: ls)).1 = zext64 (fadd32 .rn (loHalf old) p).1)) ∧
    (∀ (old b c : Word), atomNew (.rmw .add) true old b c = old + b ∧ atomNew (.rmw .xchg) true old b c = b ∧
      atomNew (.rmw .and) true old b c = old &&& b ∧ atomNew (.rmw .or) true old b c = old ||| b ∧ atomNew (.rmw .xor) true old b c = old ^^^ b ∧
      atomNew (.rmw .minu) true old b c = (if b.toNat < old.toNat then b else old) ∧ atomNew (.rmw .maxu) true old b c = (if old.toNat < b.toNat then b else old) ∧
      atomNew (.rmw .mins) true old b c = (if b.toInt < old.toInt then b else old) ∧ atomNew (.rmw .maxs) true old b c = (if old.toInt < b.toInt then b else old) ∧
      atomNew .cas true old b c = (if old = c then b else old)) ∧
    (∀ (r : TwResp) (sh : Sheaf) (o : OpRec) (b : Bed), Reaches s r.sheaf sh → aget sh.ops r.op = some o → s.bed? sh.bed = some b →
      ∃ t sh', exec (.twReturn r) s = .next t ∧ t = { s with sheafs := t.sheafs, beds := t.beds } ∧ t.sheaf? r.sheaf = some sh' ∧
        t.bed? sh.bed = some { b with tw := maxWord [b.tw, r.tw] } ∧ sh'.rows = sh.rows ∧ sh'.sregs = sh.sregs ∧
        (∀ l, hasLane r.lanes l = true → ∀ op, aget sh'.ops r.op = some op → hasLane op.due l = false) ∧
        ∀ l, hasLane sh.held l = true → sh'.pcOf l = sh.pcOf l ∧
          sh'.fib l 0 (·.horizon) = if hasLane r.lanes l = true ∧ hasLane o.gone l = false then maxWord [sh.fib l 0 (·.horizon), r.tw] else sh.fib l 0 (·.horizon)) ∧
    (∀ (r : AtomResp) (sh : Sheaf) (o : OpRec) (d : BitVec 8) (w64 : Bool), Reaches s r.sheaf sh → aget sh.ops r.op = some o →
      o.kind = .atomic (some d) w64 → ∃ t sh', exec (.atomicReturn r) s = .next t ∧ t = { s with sheafs := t.sheafs, beds := t.beds } ∧
        t.sheaf? r.sheaf = some sh' ∧ sh'.sregs = sh.sregs ∧
        ∀ l x, aget r.vals l.val = some x → hasLane o.due l = true → hasLane o.gone l = false →
          sh'.readLane d l = loHalf x ∧ sh'.fullLane d l = true ∧ (w64 = true → sh'.readLane (d + 1) l = hiHalf x ∧ sh'.fullLane (d + 1) l = true) ∧
          (hasLane sh.held l = true → sh'.fib l 0 (·.horizon) = maxWord [sh.fib l 0 (·.horizon), r.tw])) ∧
    ∀ (line : Loc) (h : HomeLine), aget s.homes line = some h →
      (s.allowanceIn line = true ∨ s.hostLease line h = true → exec (.homeSliceEviction line) s = .next (s.again (.homeSliceEviction line))) ∧
      (s.allowanceIn line = false → s.hostLease line h = false → ∃ t, exec (.homeSliceEviction line) s = .next t ∧
      t = { s with homes := t.homes, watermarks := t.watermarks, events := t.events } ∧
      aget t.watermarks (sliceOf line) = some (maxWord [(aget s.watermarks (sliceOf line)).getD 0, h.leasemax]) ∧
      (h.engine = [] ∧ h.cluster = none ∧ h.dirty = none ∧ h.poison = false → aget t.homes line = none ∧ t.events = s.events) ∧
      ∀ other, other ≠ line → aget t.homes other = aget s.homes other)

/-! ### Changing a translation, and the host's (R294, R298 to R304) -/

/-- R298, R299, R294: an update is refused where its pool has no room; else it writes its entry, discards the cached translations of its range and holds the
walks there until every access under the removed entry has completed, and then its old frames rest for 4,096 ticks; the driver's answer to a host-assisted
walk of a 64 KiB piece updates or declines, as no answer for 10 ms does.
R301 to R304, Table 13.4: a completion enters the ATC of its die for its page alone, and one that a waiting access needs more of starts a page request; a
completion marked by an invalidation is discarded; PRG responses, timeouts and PRI's re-enabling do what Table 13.4 says; an invalidation removes the
translations of its range at once and completes, in order of arrival, when no access and no lease needs them. -/
def Obligations.TranslationsChange : Prop :=
  (∀ s : State,
     (∀ (u : UpdateReq) (sp : Space), aget s.spaces u.asn = some sp → (∀ e ∈ s.holding, e.1 ≠ u) → s.restingFor (decodePte u.value) = false →
       s.moves = [] →
       (s.mapFrames sp.part (decodePte u.value) = none → exec (.update u) s = .next (s.report (.updateRefused u.asn))) ∧
       (s.newFrames sp.part (decodePte u.value) = [] → u.entryAddr % 8 = 0 → Plain s u.entryAddr 8 → ∃ t, exec (.update u) s = .next t ∧
         WroteAt s t u.entryAddr (natToBytes 8 u.value.toNat) ∧ t.holding = s.holding ++ [(u, s.word64 u.entryAddr)] ∧
         t.tlb = s.tlb.filter (fun e => !(decide (e.asn = u.asn) && decide (e.base.toNat < u.va.toNat + u.len) &&
           decide (u.va.toNat < e.base.toNat + e.bytes))) ∧
         s.events <+: t.events ∧ .update u ∈ t.events ∧ t.sheafs = s.sheafs ∧ t.frames = s.frames ∧ t.hostMem = s.hostMem ∧
         (∀ va : Word, u.va.toNat ≤ va.toNat → va.toNat < u.va.toNat + u.len → t.walkHeld u.asn va = true))) ∧
     (∀ e, s.holding.find? (fun x => decide (x.1 = e.1)) = some e →
       (s.updateBusy e.1 e.2 = true → exec (.update e.1) s = .next (s.again (.update e.1))) ∧
       (s.updateBusy e.1 e.2 = false → ∃ t, exec (.update e.1) s = .next t ∧ t = { s with holding := t.holding, resting := t.resting } ∧
         t.holding = s.holding.erase e ∧
         ∀ f, f ∈ s.entryFrames e.1 e.2 → f ∉ s.entryFrames e.1 e.1.value → (f, s.bell + 4096) ∈ t.resting)) ∧
     (∀ u w, (decodePte w).size ≠ 3 → s.entryFrames u w = pteFrames (decodePte w)) ∧
     (∀ (asn : Nat) (va : Word) (w : WalkWait), s.walkWaits = [w] → w.asn = asn → w.va = pieceOf va →
       exec (.walkAnswer asn va none) s = .next { s with walkWaits := [{ w with declined := true }] } ∧
       (∀ u, exec (.walkAnswer asn va (some u)) s = .next (({ s with walkWaits := [] } : State).updateStart u)) ∧
       (w.declined = false → s.bell.toNat < w.since.toNat + 10000000 →
         exec (.walkAnswerTimeout asn va) s = .next (s.again (.walkAnswerTimeout asn va))) ∧
       (w.declined = false → w.since.toNat + 10000000 ≤ s.bell.toNat →
         exec (.walkAnswerTimeout asn va) s = .next { s with walkWaits := [{ w with declined := true }] }))) ∧
  (∀ s : State,
     (∀ (r : AtsReply) (q : AtsReq), s.atsReqs = [q] → q.die = r.die → q.fn = r.fn → q.pasid = r.pasid → q.page = r.page → q.stale = 0 →
       s.pageReqs = [] →
       (q.marked = true → exec (.atsCompletion r) s = .next s) ∧
       (q.marked = false → let rr := r.r && !r.untranslatedOnly; let ww := r.w && !r.untranslatedOnly
         let short := q.waiters.filter fun w => !(rr && (ww || !w.2))
         ∃ t, exec (.atsCompletion r) s = .next t ∧
           t = { s with atsReqs := [], atc := t.atc, pageReqs := t.pageReqs, out := t.out, events := t.events, nextId := t.nextId } ∧
           t.atc.getLast? = some ⟨r.die, r.fn, r.pasid, r.page, r.trans, rr, ww⟩ ∧
           (∀ e ∈ t.atc.dropLast, e ∈ s.atc ∧ ¬ (e.die = r.die ∧ e.fn = r.fn ∧ e.pasid = r.pasid ∧ e.page = r.page)) ∧
           (short = [] → t.pageReqs = [] ∧ t.events = s.events ∧ t.out = s.out) ∧
           (short ≠ [] → s.priOff = [] →
             let p : PageReq := ⟨r.fn, r.pasid, r.page, short.any (·.2), s.bell, none, false, (short.map (·.1)).eraseDups, [r.die], false, s.nextId % 512⟩
             t.pageReqs = [p] ∧ t.out = s.out ++ [.pageRequest p] ∧ t.events = s.events ++ [.pageRequestTimeout r.fn r.page]))) ∧
     (∀ (r : AtsReply) (q : AtsReq), s.atsReqs = [q] → q.die = r.die → q.fn = r.fn → q.pasid = r.pasid → q.page = r.page → q.stale ≠ 0 →
       exec (.atsCompletion r) s = .next { s with atsReqs := [{ q with stale := q.stale - 1 }] }) ∧
     (∀ (p : PageReq), s.pageReqs = [p] → p.retried = false → p.held = false → p.answer = none →
       exec (.prgResponse ⟨p.fn, p.pasid, p.page, .invalid⟩) s = .next { s with pageReqs := [{ p with answer := some 0x03 }] } ∧
       (p.fn ∉ s.priOff → exec (.prgResponse ⟨p.fn, p.pasid, p.page, .failure⟩) s =
         .next { s with pageReqs := [{ p with answer := some 0x03 }], priOff := s.priOff ++ [p.fn], reports := s.reports ++ [.pageRequestFailed p.fn] }) ∧
       (∀ d, p.dies = [d] → s.atsReqs = [] → let q : AtsReq := ⟨d, p.fn, p.pasid, p.page, false, 0, []⟩
         exec (.prgResponse ⟨p.fn, p.pasid, p.page, .success⟩) s = .next { s with
           pageReqs := [{ p with retried := true }], atsReqs := [q], out := s.out ++ [.atsRequest q]
           atc := s.atc.filter fun e => !(decide (e.fn = p.fn) && decide (e.pasid = p.pasid) && decide (e.page = p.page)) }) ∧
       (s.bell.toNat < p.sent.toNat + s.priTimeout →
         exec (.pageRequestTimeout p.fn p.page) s = .next (s.again (.pageRequestTimeout p.fn p.page))) ∧
       (p.sent.toNat + s.priTimeout ≤ s.bell.toNat → p.fn ∉ s.priOff → exec (.pageRequestTimeout p.fn p.page) s =
         .next { s with pageReqs := [{ p with answer := some 0x03 }], priOff := s.priOff ++ [p.fn], reports := s.reports ++ [.pageRequestFailed p.fn] })) ∧
     (∀ fn, ∃ t, exec (.priReenable fn) s = .next t ∧ t = { s with priOff := t.priOff } ∧ ∀ x, x ∈ t.priOff ↔ x ∈ s.priOff ∧ x ≠ fn) ∧
     ∀ r : InvReq, let hit := fun (fn : Nat) (pasid : Option (BitVec 20)) (page : Nat) => fn = r.fn ∧ pasid = r.pasid ∧ r.page ≤ page ∧ page < r.page + r.pages
       (∃ t pages, exec (.invalidateRequest r) s = .next t ∧ t = { s with atc := t.atc, atsReqs := t.atsReqs, invalidates := t.invalidates, events := t.events } ∧
         (∀ e, e ∈ t.atc ↔ e ∈ s.atc ∧ ¬ hit e.fn e.pasid e.page) ∧ t.events = s.events ++ [.invalidateCompletion r] ∧
         t.invalidates = s.invalidates ++ [(r, pages)] ∧ (∀ e ∈ s.atc, hit e.fn e.pasid e.page → e.trans ∈ pages) ∧
         t.atsReqs.length = s.atsReqs.length ∧ ∀ q ∈ t.atsReqs, hit q.fn q.pasid q.page → q.marked = true) ∧
       ∀ pages rest, s.invalidates = (r, pages) :: rest →
         (s.hostBusy r pages = true ∨ s.hostLeased pages = true → exec (.invalidateCompletion r) s = .next (s.again (.invalidateCompletion r))) ∧
         (s.hostBusy r pages = false → s.hostLeased pages = false → ∃ t, exec (.invalidateCompletion r) s = .next t ∧
           t = { s with invalidates := rest, atsReqs := t.atsReqs, out := t.out } ∧ (s.out ++ [.invalidated r]) <+: t.out ∧
           ∀ q ∈ t.atsReqs, hit q.fn q.pasid q.page → q.marked = false))

/-! ### The host and the peers (R305 to R311, R410) -/

/-- R305, R306, R308 to R311, R410: a host snoop is answered when the line's leases have ended, and its write is then in host memory; a host read returns the
bytes at the homes; a host or peer write is applied at its homes, and completed when the bell has reached its Tw; a peer's access outside every aperture is
answered with an error and logged; a peer's answer ends the access that waits for it, and an error or no answer within 10 ms traps it; a port or link that is
down holds its accesses until it has retrained or, for a port, 10 ms have passed. -/
def Obligations.HostAndPeerAccesses : Prop :=
  ∀ s : State,
    (∀ (line : Nat) (w : Option (List (Nat × Byte))), let l := lineOf (.host line)
      (s.engineHolds l none = true ∨ s.bell.toNat < (s.home l).leasemax.toNat → exec (.hostSnoop line w) s = .next (s.again (.hostSnoop line w))) ∧
      (s.engineHolds l none = false → (s.home l).leasemax.toNat ≤ s.bell.toNat → Memory.wf s.hostMem = true → ∃ t, exec (.hostSnoop line w) s = .next t ∧
        t = { s with hostMem := t.hostMem, homes := t.homes, events := t.events, out := s.out ++ [.snoopDone line] } ∧
        s.events <+: t.events ∧ (∀ e ∈ t.events, e ∈ s.events ∨ e = .homeSliceEviction l) ∧ ∀ c, Memory.read t.hostMem c =
          (((w.getD []).reverse.find? fun e => line / 256 * 256 + e.1 = c).map (·.2)).getD (Memory.read s.hostMem c))) ∧
    (∀ a n, (∀ l ∈ devLines a n, s.portFails l = false ∧ (s.home l).poison = false ∧ s.engineHolds l none = false ∧ s.portHolds l = false) →
      (∃ t, exec (.hostRead a n) s = .next t ∧
        t = { s with homes := t.homes, groups := t.groups, out := s.out ++ [.readData (Memory.bytes s.mem a n)] }) ∧
      ∀ m : PeerReq, m.addr = a → m.op = .read n → s.admits m = true → ∃ t, exec (.peerAccess m) s = .next t ∧
        t = { s with homes := t.homes, groups := t.groups, out := s.out ++ [.peerReply (.data (Memory.bytes s.mem a n))] }) ∧
    (∀ (r : InReq) (i : Instr) (e : Event) (done : HostOut) (a : Nat) (bs : List (Nat × Byte)), let line := lineOf (.dev a)
      ((∃ m : HostWrite, r = .host m ∧ i = .hostWrite m ∧ e = .hostWrite m ∧ done = .writeDone ∧ m.addr = a ∧ bs = m.bytes.zipIdx.map fun e => (e.2, e.1)) ∨
        ∃ m : PeerReq, r = .peer m ∧ i = .peerAccess m ∧ e = .peerAccess m ∧ done = .peerReply .done ∧ m.addr = a ∧ m.op = .write bs ∧
          s.admits m = true) →
      (s.inbound = [] → bs ≠ [] → (∀ x ∈ bs, a % 256 + x.1 < 256) → s.chargePool line = none → s.portFails line = false → s.writeWaits line = false →
        s.splitOn line none = false → Plain s (a / 256 * 256) 256 → ∃ t tw, exec i s = .next t ∧ t.events.head? = some e ∧ t.out = s.out ∧ t.sheafs = s.sheafs ∧ t.hostMem = s.hostMem ∧
          t.inbound = [⟨s.nextId, r, [], false, none, [], some tw, [], 0⟩] ∧ s.bell.toNat ≤ tw.toNat ∧ (s.home line).leasemax.toNat ≤ tw.toNat ∧
          ∀ c, Memory.read t.mem c = ((bs.reverse.find? fun x => a + x.1 = c).map (·.2)).getD (Memory.read s.mem c)) ∧
      ∀ k pool olds tw moved, s.inbound = [⟨k, r, [], false, pool, olds, some tw, moved, 0⟩] →
        (s.bell.toNat < tw.toNat → exec i s = .next (s.again e)) ∧
        (tw.toNat ≤ s.bell.toNat → ∃ t, exec i s = .next t ∧ t.inbound = [] ∧ t.out = s.out ++ [done] ∧ t.mem = s.mem ∧ t.sheafs = s.sheafs)) ∧
    (∀ m : PeerReq, s.admits m = false → (∀ i ∈ s.inbound, i.req ≠ .peer m) → ∃ t, exec (.peerAccess m) s = .next t ∧ t = { s with parts := t.parts, out := s.out ++ [.peerReply .error] } ∧
      ∀ p, s.part? (s.partOfFrame (m.addr / 65536)) = some p → ∃ q, t.part? (s.partOfFrame (m.addr / 65536)) = some q ∧
        q.log.getLast? = some ⟨0x04, BitVec.ofNat 64 m.addr, 0, 0, s.bell, 0⟩) ∧
    (∀ (id : Nat) (p : PeerPending), aget s.peers id = some p →
      (∀ u k m line bs sh o, p.what = .load u k m line → s.sheaf? u = some sh → aget sh.ops k = some o → exec (.peerAnswer id (.data bs)) s =
        .next { s with peers := adel s.peers id, events := s.events ++ [.loadResponse ⟨u, k, (lanesIn m).map fun l =>
          (l.val, lineValue bs (o.addrs[l].toNat % 256) (opBytes o.kind))⟩] }) ∧
      (∀ u k m, p.what = .write u k m → exec (.peerAnswer id .done) s =
        .next { s with peers := adel s.peers id, events := s.events ++ [.twReturn ⟨u, k, m, s.bell⟩] }) ∧
      (∀ u k ls ret vs, p.what = .atomic u k ls ret → exec (.peerAnswer id (.olds vs)) s =
        .next { s with peers := adel s.peers id, events := s.events ++ [.atomicReturn ⟨u, k, ls.zipIdx.map fun e => (e.1, vs.getD e.2 0), s.bell⟩] }) ∧
      (∀ u k ls, p.what = .atomic u k ls false → exec (.peerAnswer id .done) s =
        .next { s with peers := adel s.peers id, events := s.events ++ [.twReturn ⟨u, k, maskOfNats ls, s.bell⟩] }) ∧
      (∀ key line bs, p.what = .fetch key line →
        exec (.peerAnswer id (.data bs)) s = .next { s with peers := adel s.peers id, fetchGot := aset s.fetchGot (key, line) bs } ∧
        exec (.peerAnswer id .error) s = .next { s with peers := adel s.peers id, fetchBad := aset s.fetchBad (key, line) 0x04 }) ∧
      (∀ key part line bs, p.what = .hub key part line → exec (.peerAnswer id (.data bs)) s =
        .next { s with peers := adel s.peers id, hubGot := aset s.hubGot (key, line) (some bs) }) ∧
      (s.bell.toNat < p.sent.toNat + 10000000 → exec (.peerTimeout id) s = .next (s.again (.peerTimeout id))) ∧
      ∀ u k m line sh o, p.what = .load u k m line → s.sheaf? u = some sh → aget sh.ops k = some o → m &&& o.due ≠ 0 →
        let trapped := fun (i : Instr) (cause : BitVec 8) => ∃ t f, exec i s = .next t ∧
          t = { s with sheafs := t.sheafs, peers := adel s.peers id, peerHeld := t.peerHeld, events := s.events ++ [.deferredFault f] } ∧
          f.sheaf = u ∧ f.op = some k ∧ f.lanes = m &&& o.due ∧ f.cause = cause ∧ f.info = 0 ∧ f.fpc = o.pc ∧ f.log = true
        trapped (.peerAnswer id .error) 0x04 ∧ (p.sent.toNat + 10000000 ≤ s.bell.toNat → trapped (.peerTimeout id) 0x03)) ∧
    (∀ port, (port ∉ s.dev.cxlFailed → (∀ e ∈ s.dev.cxlDown, e.1 ≠ port) → exec (.cxlPortDown port) s =
        .next { s with dev := { s.dev with cxlDown := s.dev.cxlDown ++ [(port, s.bell)] }, events := s.events ++ [.cxlRetrainTimeout port] }) ∧
      (∃ t d, exec (.cxlPortRetrained port) s = .next t ∧ t = { s with dev := { s.dev with cxlDown := d } } ∧ ∀ e, e ∈ d ↔ e ∈ s.dev.cxlDown ∧ e.1 ≠ port) ∧
      ∀ since, s.dev.cxlDown = [(port, since)] →
        (s.bell.toNat < since.toNat + 10000000 → exec (.cxlRetrainTimeout port) s = .next (s.again (.cxlRetrainTimeout port))) ∧
        (since.toNat + 10000000 ≤ s.bell.toNat → exec (.cxlRetrainTimeout port) s = .next { s with
          dev := { s.dev with cxlDown := [], cxlFailed := s.dev.cxlFailed ++ [port] }, reports := s.reports ++ [.portDown port] })) ∧
    ∀ link, ((∀ e ∈ s.dev.ralecDown, e.1 ≠ link) → exec (.ralecLinkDown link) s =
        .next { s with dev := { s.dev with ralecDown := s.dev.ralecDown ++ [(link, s.bell)] } }) ∧
      ∃ t d, exec (.ralecLinkRetrained link) s = .next t ∧ t = { s with dev := { s.dev with ralecDown := d }, peerHeld := t.peerHeld, out := t.out } ∧
        (∀ e, e ∈ d ↔ e ∈ s.dev.ralecDown ∧ e.1 ≠ link) ∧ s.out <+: t.out ∧
        ∀ id p, id ∈ s.peerHeld → aget s.peers id = some p → p.peer = link → .peerRequest id p ∈ t.out ∧ id ∉ t.peerHeld

/-! ### Codes, waits and deferred faults (R26, R46, R72 to R76, R146, R330, R345 to R351) -/

/-- R58, R72, R73, R76, R26, R46, R146, R330, R345, R347, R354, R350: a dictionary code runs the entry it names, under its override, with the PC after the code; a refill
brings a row back; a batch that has waited 64 cycles gives up its place; a fibre wakes from NAP at its bell, and from DWAIT when its window is complete, with an acquire that its later memory instructions wait for; a load's
fault found later is delivered to its fibres where they stand, with one frame that holds its replay record; the driver ends, culls or retries an escalated bed. -/
def Obligations.CodesWaitsAndDeferredFaults : Prop :=
  ∀ s : State,
    (∀ (slot : Word) (k : Nat) (st : Seat) (i : Instr), slotCheck slot k = none → s.seat? s.shf.core s.shf.seat = some st →
      decodeCode st.dict (dictCode slot k) = .ok i → let s1 := s.modSheaf s.cur fun x => { x with npc := nextPc x.batchPc slot }
      ∃ t, exec (.dictionaryCode slot k) s = .next t ∧ exec i s1 = .next t) ∧
    (∀ (u n : Nat) (sh : Sheaf) (r : Row), s.sheaf? u = some sh → frostedCore s sh.core = false → aget sh.rows n = some r →
      s.rowsUsed sh.core + 1 ≤ physicalRows → ∃ t, exec (.rowRefill u n) s = .next t ∧
        t = { s with sheafs := amod s.sheafs u fun x => { x with rows := amod x.rows n fun r => { r with spilled := false } } }) ∧
    (∀ (u : Nat) (sh : Sheaf), s.sheaf? u = some sh → s.asleep sh = false → s.isLifted sh = false →
      (sh.hold.waiting = true → sh.hold.reason ∈ [1, 2, 3, 4] → sh.issuing ≠ 0 → sh.readyLanes &&& ~~~sh.batch ≠ 0 →
        (∀ l, hasLane sh.issuing l = true → sh.stands l = some (.ready, .none)) → let ran := (s.bell.toNat - sh.hold.since.toNat) * 85
        (ran < 6400 → exec (.setAside u) s = .next (s.again (.setAside u))) ∧
        (6400 ≤ ran → ∃ t sh', exec (.setAside u) s = .next t ∧ Stand s t u sh.issuing (.waiting, .none) ∧ t.sheaf? u = some sh' ∧
          sh'.aside = sh.aside ++ [⟨sh.issuing, sh.hold⟩] ∧ sh'.batch = 0 ∧ sh'.hold = Hold.none)) ∧
      (let naps := fun (x : Nat → Prop) (l : Fin 32) => ∃ t : Word, (sh.stands l).map (·.2) = some (.nap t) ∧ x t.toNat
        ∀ m, (∀ l, hasLane m l = true ↔ naps (fun x => x ≤ s.bell.toNat) l) → (∀ l, ¬ naps (fun x => s.bell.toNat < x) l) →
          ∃ t, exec (.napWake u) s = .next t ∧ Stand s t u m (.ready, .none)) ∧
      ∀ la m, s.launch? sh.launch = some la → (∀ l, hasLane m l = true ↔ hasLane sh.held l = true ∧ (sh.stands l).map (·.2) = some .dwait ∧
          s.windowDone la (groupOf la.hdr (sh.fib l 0 (·.wid))) = true) →
        ∃ t sh', exec (.dwaitReady u) s = .next t ∧ t = { s with sheafs := t.sheafs } ∧ t.sheaf? u = some sh' ∧ sh'.rows = sh.rows ∧
          ∀ l, hasLane sh.held l = true → sh'.pcOf l = sh.pcOf l ∧
            (hasLane m l = true → sh'.stands l = some (.ready, .none) ∧
              (sh.fib l none (·.fence) = none → sh'.fib l none (·.fence) = some ⟨true, false, .dev⟩)) ∧
            (hasLane m l = false → sh'.stands l = sh.stands l ∧ sh'.fib l none (·.fence) = sh.fib l none (·.fence))) ∧
    (∀ (m : FaultMsg) (k : Nat) (sh : Sheaf) (o : OpRec) (b : Bed) (la : Launch), Reaches s m.sheaf sh → m.op = some k → m.cmd = none →
      aget sh.ops k = some o → (∃ d w sgn ldb, o.kind = .load d w sgn ldb) → o.gone = 0 → m.lanes ≠ 0 → m.lanes &&& ~~~sh.held = 0 →
      sh.escalated = [] → sh.midway = 0 → s.bed? sh.bed = some b → b.status = .resident → s.launch? sh.launch = some la → la.rsmp = none →
      (∀ l, hasLane m.lanes l = true → sh.stands l = some (.ready, .none) ∧ sh.actedPc l = none) →
      sh.frames.length < 4 → s.hvec sh ≠ 0 → (s.hvec sh).toNat % 8 = 0 →
      ∃ t sh' f, exec (.deferredFault m) s = .next t ∧ t = { s with sheafs := t.sheafs, parts := t.parts } ∧ t.sheaf? m.sheaf = some sh' ∧
        sh'.frames = f :: sh.frames ∧ f.cause = m.cause ∧ f.info = m.info ∧ f.addr = m.addr ∧ f.mask = m.lanes ∧ f.fpc = m.fpc ∧ f.bell = s.bell ∧
        f.replay = some (.load { o with due := m.lanes, sent := 0, watched := [], faulted := 0 }) ∧
        (∀ l, hasLane m.lanes l = true → f.pcs[l] = sh.pcOf l ∧ sh'.pcOf l = s.hvec sh ∧ sh'.stands l = some (.ready, .none)) ∧
        (∀ l, hasLane m.lanes l = false → sh'.pcOf l = sh.pcOf l ∧ sh'.stands l = sh.stands l) ∧
        (∀ op, aget sh'.ops k = some op → op.due &&& m.lanes = 0) ∧ sh'.rows = sh.rows ∧ sh'.sregs = sh.sregs ∧
        (∀ p, m.log = true → s.part? la.part = some p → ∃ q, t.part? la.part = some q ∧
          q.log.getLast? = some ⟨m.cause, m.addr, la.number, la.asn, s.bell, m.fpc⟩)) ∧
    ∀ (k bk : Nat) (b : Bed) (la : Launch), s.bed? bk = some b → b.launch = k → b.escalated = true → s.launch? k = some la → la.completed = false →
      (∃ t, exec (.escalationEnd k bk) s = .next t ∧ LaunchEnded t k ∧ (NoneUnderWay s → t.mem = s.mem)) ∧
      (b.status = .lifted → (∃ t, exec (.escalationCull k bk) s = .next t ∧ t = { s with beds := t.beds, events := t.events } ∧
          t.bed? bk = some { b with choice := some .cull } ∧ .replant k bk ∈ t.events) ∧
        ∀ h, (∀ u ∈ b.sheafs, ∀ sh, s.sheaf? u = some sh → sh.escalated ≠ [] → sh.frames.length < 4) →
          ∃ t, exec (.escalationRetry k bk h) s = .next t ∧ t = { s with beds := t.beds, events := t.events } ∧
            t.bed? bk = some { b with choice := some (.retry h) } ∧ .replant k bk ∈ t.events) ∧
      ∀ h, (∃ u ∈ b.sheafs, ∃ sh, s.sheaf? u = some sh ∧ sh.escalated ≠ [] ∧ 4 ≤ sh.frames.length) → exec (.escalationRetry k bk h) s = .next s

/-! ### Rings and their commands (R313 to R325) -/

/-- R313, R314, R317: a registered ring is empty; a doorbell reads the commands up to its tail, has no effect where the tail is not ahead or a high bit is set, and
stops a ring that has run past its end; a restart lets the commands and records of a ring go on; a record is written at the tail of its completion queue, which
holds it back while it is full, once the bell has reached the Tw of its command's writes and none of them is on its way, and raises the ring's interrupt where
its command asks for it. -/
def Obligations.RingsAndRecords : Prop :=
  ∀ s : State,
    (∀ (r : RingReg) (sp : Space) (k : Nat), s.dev.recovery = false → canonical r.base = true → canonical r.cqBase = true →
      (∃ i, 6 ≤ i ∧ i ≤ 16 ∧ r.entries = 2 ^ i) → (∃ i, 6 ≤ i ∧ i ≤ 16 ∧ r.cqEntries = 2 ^ i) → aget s.spaces r.asn = some sp → sp.part = r.part →
      k < 16 → s.ring? (r.part * 16 + k) = none → (∀ i < k, s.ring? (r.part * 16 + i) ≠ none) →
      exec (.ringRegistration r) s = .next { s with rings := s.rings ++ [(r.part * 16 + k, ⟨r, 0, [], false, 0, 0, []⟩)] }) ∧
    (∀ (ring : Nat) (r : Ring) (v : Word), s.ring? ring = some r → let n := (v.toNat + 2 ^ 32 - r.readCount % 2 ^ 32) % 2 ^ 32
      let oldest := ((r.pending.head?).map (·.seq)).getD r.readCount
      let behind := (v.toNat + 2 ^ 32 - oldest % 2 ^ 32) % 2 ^ 32
      (2 ^ 32 ≤ v.toNat ∨ n = 0 ∨ 2 ^ 31 ≤ n → exec (.doorbell ring v) s = .next s) ∧
      (v.toNat < 2 ^ 32 → 1 ≤ n → n < 2 ^ 31 → r.reg.entries < behind → r.stopped = false → ∃ t, exec (.doorbell ring v) s = .next t ∧
        t = { s with rings := t.rings, reports := s.reports ++ [.ringStopped ring] } ∧ t.ring? ring = some { r with stopped := true }) ∧
      (v.toNat < 2 ^ 32 → n = 1 → behind ≤ r.reg.entries → ∀ a, let va := r.reg.base + BitVec.ofNat 64 (64 * (r.readCount % r.reg.entries))
        va.toNat % 64 = 0 → HubAt s r.reg.asn va a → let ws := wordsOf 8 (Memory.bytes s.mem a 64)
        ∃ t, exec (.doorbell ring v) s = .next t ∧ t = { s with rings := t.rings, tlb := t.tlb, homes := t.homes
                                                                events := s.events ++ [commandEvent ⟨ring, r.readCount, ws⟩] } ∧
          t.ring? ring = some { r with readCount := (r.readCount + 1) % 2 ^ 32, pending := r.pending ++ [⟨r.readCount, ws, false, 0⟩] }) ∧
      (∃ t, exec (.ringRestart ring) s = .next t ∧ t = { s with rings := t.rings, events := t.events } ∧ s.events <+: t.events ∧
        t.ring? ring = some { r with stopped := false } ∧ (r.held ≠ [] → .completionRecord ring ∈ t.events) ∧
        ∀ p ∈ r.pending, commandEvent ⟨ring, p.seq, p.words⟩ ∈ t.events) ∧
      (∀ head, ∃ t, exec (.completionQueueHead ring head) s = .next t ∧ t = { s with rings := t.rings } ∧
        t.ring? ring = some { r with cqHead := head % 2 ^ 32 }) ∧
      ∀ x rest, r.held = x :: rest → let used := (r.cqTail + 2 ^ 32 - r.cqHead % 2 ^ 32) % 2 ^ 32
        let writing := ∃ u ∈ x.writers, s.writing u = true
        (r.reg.cqEntries ≤ used ∨ s.bell.toNat < x.tw.toNat ∨ writing → exec (.completionRecord ring) s = .next (s.again (.completionRecord ring))) ∧
        (used < r.reg.cqEntries → x.tw.toNat ≤ s.bell.toNat → ¬ writing → ∀ a, let va := r.reg.cqBase + BitVec.ofNat 64 (16 * (r.cqTail % r.reg.cqEntries))
          va.toNat % 16 = 0 → a % 16 = 0 → HubAt s r.reg.asn va a → Plain s a 16 → ∃ t, exec (.completionRecord ring) s = .next t ∧
            WroteAt s t a (natToBytes 8 x.w0.toNat ++ natToBytes 8 x.w1.toNat) ∧
            t.ring? ring = some { r with cqTail := (r.cqTail + 1) % 2 ^ 32, held := rest } ∧
            t.out = s.out ++ (if x.irq then [.interrupt r.reg.part r.reg.vector] else []) ∧ t.sheafs = s.sheafs ∧ t.launches = s.launches))

/-- R315 to R318, R323 to R325, R287, Tables 14.2 and 14.3: a command with a refused word ends MALFORMED, and any new command of a failed head core TERMINATED; LAUNCH
with a header in order enters the launch table with its counter at 1 and its seed in the queue; DMA copies its units and ends; SIGNAL writes its value and
ends at its Tw; CONFIG, RAISE and LOWER change a pool, LOWER in its turn among the pool's requests, and write its GRANT before they end, or end with POOL; BALLOON
gives notice. The record of a command that has written waits for its Tw. -/
def Obligations.RingCommands : Prop :=
  ∀ (s : State) (c : Command) (r : Ring) (p : PendingCmd), CommandReady s c r p → let w := fun i => c.words.getD i 0
    let fails := fun (i : Instr) status (data : Word) => ∃ t, exec i s = .next t ∧ CommandDone t c r status data ∧ t.mem = s.mem ∧ t.launches = s.launches
    (∀ i ∈ [Instr.launch c, .dma c, .signal c, .config c, .raise c, .lower c, .balloon c],
      (∀ off, firstBad c.words = some off → fails i 0x01 (BitVec.ofNat 64 off)) ∧
      (p.started = false → ∃ t, exec i { s with dev := { s.dev with failed := true } } = .next t ∧ CommandDone t c r 0x09 0)) ∧
    (firstBad c.words = none →
      (p.started = false → spaceOk s c r 3 → ∀ a, let asn := (w 3).toNat % 4096; (w 1).toNat % 128 = 0 → HubAt s asn (w 1) a →
        let hw := wordsOf 16 (Memory.bytes s.mem a 128); let h := readHeader hw
        (headerReserved hw = false ∨ h.ok = false → fails (.launch c) 0x03 (w 1)) ∧
        (headerReserved hw = true → h.ok = true → h.dictn = 0 → h.ovfsize = 0 → h.hasdep = false → (s.entriesOf r.reg.part).length < 4096 →
          s.launches.length < 2 ^ 31 → ∃ t la, exec (.launch c) s = .next t ∧ t.launches = s.launches ++ [(s.nextId, la)] ∧
            la.hdr = h ∧ la.part = r.reg.part ∧ la.asn = asn ∧ la.cls = (w 3).toNat / 4096 % 4 ∧ la.arg = w 2 ∧ la.tag = hiHalf (w 0) ∧
            la.counter = 1 ∧ la.completed = false ∧ la.groups = [] ∧ la.dict = [] ∧ la.ring = c.ring ∧ la.seq = c.seq ∧ la.irq = (w 0).getLsbD 9 ∧
            la.number ≠ 0 ∧ (∀ e ∈ s.launches, e.2.completed = false → e.2.number ≠ la.number) ∧
            t.spawns = s.spawns ++ [⟨s.nextId, 0, none, h.entry, w 2, 0, 1, 0, [], true⟩] ∧ .bedPlacement r.reg.part ∈ t.events ∧
            t.ring? c.ring = some { r with pending := [{ p with started := true, cmd := 0 }] } ∧ t.mem = s.mem ∧ t.sheafs = s.sheafs)) ∧
      (spaceOk s c r 4 → let asn := (w 4).toNat % 4096
        (p.started = false → ∃ t, exec (.dma c) s = .next t ∧ t =
            { s with rings := t.rings, nextId := s.nextId + 1, events := .dma c :: s.events
                     hub := s.hub ++ [dmaCmd s.nextId r.reg.part asn (w 1) (w 2) (w 3).toNat] } ∧
          t.ring? c.ring = some { r with pending := [{ p with started := true, cmd := s.nextId }] }) ∧
        ∀ d, p.started = true → s.cmd? p.cmd = some d → d.id = p.cmd →
          (∀ cause va info log, d.fault = some (cause, va, info, log) → d.peersDue = 0 → ∃ t, exec (.dma c) s = .next t ∧
            CommandDoneAt t c r (if cause = 0x06 then 0x07 else 0x06) (if cause = 0x06 then info.setWidth 64 else va) d.tmax []) ∧
          (d.fault = none → d.started = true → d.wrote = false → d.body.count ≤ d.units → d.tmax.toNat ≤ s.bell.toNat →
            ∃ t, exec (.dma c) s = .next t ∧ CommandDoneAt t c r 0x00 0 d.tmax []) ∧
          (d.fault = none → d.started = true → d.wrote = false → d.units < d.body.count → ∀ s' data q m, s.unitRead d = .go s' data [q] →
            q.spot = .mem (.dev m) → let bs := d.body.unitBytes data q.n; bs.length = q.n → Plain s m q.n →
            ∃ t d', exec (.dma c) s = .next t ∧ WroteAt s t m bs ∧ t.cmd? d.id = some d' ∧ d'.wrote = true ∧ .dma c ∈ t.events)) ∧
      (spaceOk s c r 3 → (∀ a, s.inbound = [] → (w 1).toNat % 8 = 0 → a % 8 = 0 → HubAt s ((w 3).toNat % 4096) (w 1) a → Plain s a 8 →
          s.chargePool (lineOf (.dev a)) = none → s.splitOn (lineOf (.dev a)) none = false →
          ∃ t, ∃ tw : Word, exec (.signal c) s = .next t ∧ WroteAt s t a (natToBytes 8 (w 2).toNat) ∧
            t.inbound = [⟨s.nextId, .signal c.ring c.seq, [], false, none, [], some tw, [], 0⟩] ∧ s.bell.toNat ≤ tw.toNat ∧ .signal c ∈ t.events) ∧
        ∀ k failed pool olds (tw : Word) placed, s.inbound = [⟨k, .signal c.ring c.seq, [], failed, pool, olds, some tw, placed, 0⟩] →
          (failed = false → s.bell.toNat < tw.toNat → exec (.signal c) s = .next (s.again (.signal c))) ∧
          (failed = false → tw.toNat ≤ s.bell.toNat → ∃ t, exec (.signal c) s = .next t ∧ CommandDone t c r 0x00 0 ∧ t.inbound = [] ∧ t.mem = s.mem) ∧
          (failed = true → ∃ t, exec (.signal c) s = .next t ∧ t.inbound = [] ∧ t.mem = s.mem ∧
            CommandDone t c r (if pool.isSome then 0x07 else 0x06) ((pool.map (·.setWidth 64)).getD (w 1)))) ∧
      let pool : BitVec 8 := (w 1).setWidth 8; let k := poolKey r.reg.part pool; let x := (w 2).toNat
      (spaceOk s c r 6 → ∀ a, HubAt s ((w 6).toNat % 4096) (w 3) a → a % 128 = 0 → Plain s a 128 → let had := ((s.pool? k).map (·.granted)).getD 0
        let owned := ∃ f ∈ s.frames, f.2.pool = some (r.reg.part, pool.toNat)
        (owned ∨ s.ungranted + had < x → fails (.config c) 0x08 0) ∧
        (¬ owned → x ≤ s.ungranted + had → ∃ t q, exec (.config c) s = .next t ∧
          CommandDoneAt t c r 0x00 0 (t.twOf (lineOf (.dev a))) [] ∧ t.pool? k = some q ∧ q.ctrl = a ∧
          q.granted = x ∧ q.remain = x ∧ q.allow = [] ∧ q.reserve = x ∧ q.committed = 0 ∧ q.promised = 0 ∧ q.ceiling = (w 4).toNat ∧
          q.ratio = (if (w 7).toNat = 0 then 8 else (w 7).toNat) ∧ t.word64 (a + 0x20) = w 2 ∧ t.word64 (a + 0x38) = w 5)) ∧
      (s.pool? k = none → fails (.raise c) 0x08 0 ∧ fails (.lower c) 0x08 0 ∧ fails (.balloon c) 0x08 0) ∧
      ∀ q, s.pool? k = some q → let tw := fun (t : State) => t.twOf (lineOf (.dev q.ctrl)); let who : Waiter := .command c.ring c.seq
        let grant := fun (t : State) (g : Nat) => q.ctrl % 128 = 0 → Plain s q.ctrl 128 → WroteAt s t (q.ctrl + 0x20) (natToBytes 8 g)
        (s.ungranted < x → fails (.raise c) 0x08 0) ∧
        (x ≤ s.ungranted → ∃ t, exec (.raise c) s = .next t ∧ CommandDoneAt t c r 0x00 0 (tw t) [] ∧
          (q.queue = [] → ∃ q', t.pool? k = some q' ∧ q'.granted = q.granted + x ∧ q'.remain = q.remain + x ∧ q'.allow = q.allow ∧
            q'.committed = q.committed) ∧
          (q.asked = false → grant t (q.granted + x)) ∧
          let due := (s.word64 (q.ctrl + 0x40)).toNat - q.reliefDone
          (q.queue = [] → ∃ q', t.pool? k = some q' ∧ q'.reliefDone = q.reliefDone + (if q.asked then min due x else 0))) ∧
        ((∀ e ∈ q.decided, e.1.who ≠ who) → q.queue = [] → ∃ t q' y, exec (.lower c) s = .next t ∧ t.mem = s.mem ∧ .lower c ∈ t.events ∧
          t.pool? k = some q' ∧ q'.queue = [] ∧ q'.decided = q.decided ++ [(y, decide (x ≤ q.reserve))] ∧ y.who = who ∧
          (x ≤ q.reserve → q'.granted = q.granted - x ∧ q'.reserve = q.reserve - x) ∧
          (q.reserve < x → q'.granted = q.granted ∧ q'.reserve = q.reserve ∧ y.amount = q.reserve)) ∧
        (∀ y met, q.decided = [(y, met)] → y.who = who → ∃ t q', exec (.lower c) s = .next t ∧ t.pool? k = some q' ∧ q'.decided = [] ∧
          q'.granted = q.granted ∧ q'.remain = q.remain ∧ q'.allow = q.allow ∧
          (met = true → CommandDoneAt t c r 0x00 0 (tw t) [] ∧ grant t q.granted) ∧
          (met = false → CommandDone t c r 0x08 (BitVec.ofNat 64 y.amount) ∧ t.mem = s.mem)) ∧
        ∃ t, exec (.balloon c) s = .next t ∧ CommandDone t c r 0x00 0 ∧ ∀ u sh la, s.sheaf? u = some sh → s.launch? sh.launch = some la →
          poolKey la.part la.hdr.pool = k → (frostedCore s sh.core = false → t.sheaf? u = some { sh with notice := sh.notice ||| 1 }) ∧
          (frostedCore s sh.core = true → t.sheaf? u = some sh ∧ .notice u 1 ∈ (t.coreState sh.core).notices))

/-! ### Placement, completion, lifts and frost (R20, R149, R153, R253, R255, R326 to R336, R356 to R371) -/

/-- R153, R326: a valid SPAWN record adds its beds to the launch's counter and is queued at its die, and the batch that waits is answered n with Z; one that is
not valid is answered 0 with V, and one that finds neither its die's queue nor an arena free is answered 0. R333: a bed goes to the fitting core of its launch with the most free slots, or else of all. R20, R12: its sheafs begin as R20
says, their horizons 0, and their floors 0 in the seed bed and the bell in a bed of SPAWN (R266). R255: lent units are given back. R149, R154, R327: a settled bed completes, and with the last bed its launch. R328: a launch ended leaves one record,
which waits for the writes of its beds. -/
def Obligations.PlacementAndCompletion : Prop :=
  ∀ s : State,
    (∀ (m : SpawnMsg) (sh : Sheaf) (la : Launch), Reaches s m.sheaf sh → s.launch? sh.launch = some la → sh.hold.phase = 2 → sh.hold.ticket = m.key →
      sh.putBy = none → sh.aside = [] → m.slot = none →
      let h := la.hdr; let first := m.first.toNat; let n := m.count.toNat
      let valid := canonical m.entry = true ∧ m.entry.toNat % 8 = 0 ∧ 1 ≤ n ∧ n ≤ 2 ^ 40 ∧ first % 2 ^ h.bitsBelow h.bedlvl = 0 ∧
        first + n - 1 < 2 ^ h.widths.sum
      let beds := (n + 2 ^ h.bitsBelow h.bedlvl - 1) / 2 ^ h.bitsBelow h.bedlvl
      let answered := fun (t : State) (x : Word) (f : CcVal) => ∃ sh', t.sheaf? m.sheaf = some sh' ∧
        sh' = { sh with hold := { sh.hold with answer := some ⟨m.sheaf, m.key, x, f⟩ } }
      let queued := (s.spawns.filter fun r => decide (r.die = dieOf sh.core) && r.arena.isNone && !r.seed).length
      (¬ valid → ∃ t, exec (.spawnRequest m) s = .next t ∧ t = { s with sheafs := t.sheafs } ∧ answered t 0 (mkFlags false false false true)) ∧
      (valid → 4096 ≤ queued → h.ovfsize = 0 → ∃ t, exec (.spawnRequest m) s = .next t ∧ t = { s with sheafs := t.sheafs } ∧ answered t 0 0) ∧
      (valid → queued < 4096 →
        ∃ t, exec (.spawnRequest m) s = .next t ∧ t = { s with sheafs := t.sheafs, launches := t.launches, spawns := t.spawns, events := t.events } ∧
          answered t (BitVec.ofNat 64 beds) (mkFlags false true false false) ∧ .bedPlacement la.part ∈ t.events ∧
          t.spawns = s.spawns ++ [⟨sh.launch, dieOf sh.core, none, m.entry, m.arg, m.first, n, 0, [], false⟩] ∧
          t.launch? sh.launch = some { la with counter := la.counter + BitVec.ofNat 64 beds })) ∧
    (∀ k la it c, s.coreFor k la it = some c → c ∈ s.coresIn la.part ∧ s.fits k la c it = true ∧ s.boundOk la it c = true ∧
      ∀ c' ∈ s.coresIn la.part, s.fits k la c' it = true → s.boundOk la it c' = true →
        ((s.seatFor c' k).isSome = true → (s.seatFor c k).isSome = true ∧ s.slotsLeft c' ≤ s.slotsLeft c) ∧
        ((s.seatFor c k).isSome = false → s.slotsLeft c' ≤ s.slotsLeft c)) ∧
    (∀ part k la i j core r, s.nextPlace part = some (k, la, .fresh i j, core) → s.launch? k = some la → s.spawns[i]? = some r → r.arena = none →
      la.hdr.scratch = 0 → (∀ e ∈ s.sheafs, e.1 < s.nextId) → (∀ e ∈ s.beds, e.1 < s.nextId) →
      let wb := la.hdr.bitsBelow la.hdr.bedlvl
      let n := min (2 ^ wb) (r.count - j * 2 ^ wb)
      let id := r.first.toNat / 2 ^ wb + j
      let base : Word := BitVec.ofNat 64 (id * 2 ^ wb)
      let us := (List.range ((n + 31) / 32)).map fun i => s.nextId + 1 + i
      ∃ t b, exec (.bedPlacement part) s = .next t ∧ t.bed? s.nextId = some b ∧ b.launch = k ∧ b.core = core ∧ b.wid = BitVec.ofNat 64 id ∧
        b.status = .resident ∧ b.sheafs = us ∧ b.pad = [] ∧ b.padEmpty = [] ∧ t.mem = s.mem ∧ (∀ u sh, s.sheaf? u = some sh → t.sheaf? u = some sh) ∧
        ∀ x ∈ us.zipIdx, ∃ sh, t.sheaf? x.1 = some sh ∧ sh.core = core ∧ sh.launch = k ∧ sh.bed = s.nextId ∧ sh.rows = [] ∧ sh.frames = [] ∧
          sh.ops = [] ∧ sh.readS 0 = r.arg ∧ sh.readS 1 = base ∧ (∀ q : BitVec 6, q ≠ 0 → q ≠ 1 → sh.readS q = 0) ∧
          ∀ l : Fin 32, (32 * x.2 + l.val < n ↔ sh.lanes[l].isHeld = true) ∧
            (32 * x.2 + l.val < n → let wid := base + BitVec.ofNat 64 (32 * x.2 + l.val)
              sh.pcOf l = r.entry ∧ sh.stands l = some (.ready, .none) ∧ sh.fib l 0 (·.wid) = wid ∧ sh.fib l 0 (·.rank) = wid ∧
              sh.fib l 0 (·.parent) = BitVec.allOnes 64 ∧ sh.fib l 0 (·.floor) = (if r.seed then 0 else s.bell) ∧
              sh.fib l 1 (·.horizon) = 0 ∧ ∀ q, sh.fib l 1 (·.readC q) = 0)) ∧
    (∀ core, ∃ t, exec (.scratchpadReclaim core) s = .next t ∧ t = { s with l1 := t.l1, events := t.events } ∧
      (t.l1.filter fun e => e.1.1 = core).length ≤ 256 ∧ (t.l1.filter fun e => e.1.1 ≠ core) = s.l1.filter fun e => e.1.1 ≠ core) ∧
    (∀ (k bk : Nat) (b : Bed) (la : Launch) (r : Ring) (p : PendingCmd), s.bed? bk = some b → s.launch? k = some la → s.ring? la.ring = some r →
      r.pending = [p] → p.seq = la.seq → let c : Command := ⟨la.ring, la.seq, p.words⟩
      (b.status = .completing → frostedCore s b.core = true ∨ s.bedSettled bk b = false → exec (.bedCompletion k bk) s = .next (s.again (.bedCompletion k bk))) ∧
      (b.status = .completing → frostedCore s b.core = false → s.bedSettled bk b = true → ∃ t la', exec (.bedCompletion k bk) s = .next t ∧
        t.bed? bk = none ∧ t.launch? k = some la' ∧ la'.counter = la.counter - 1 ∧ (NoneUnderWay s → t.mem = s.mem) ∧
        (la.counter = 1 → la'.completed = true ∧ CommandDone t c r 0x00 (la.number.setWidth 64) ∧ ∀ e ∈ t.seats, e.2.launch ≠ k) ∧
        (la.counter ≠ 1 → la'.completed = la.completed ∧ t.rings = s.rings)) ∧
      (la.completed = false → ∃ t, ∃ tw : Word, ∃ us, exec (.endLaunch k) s = .next t ∧ LaunchEnded t k ∧ CommandDoneAt t c r 0x09 la.counter tw us ∧
        (∀ e ∈ s.beds, e.2.launch = k → e.2.tw.toNat ≤ tw.toNat) ∧ (∀ e ∈ s.sheafs, e.2.launch = k → e.1 ∈ us) ∧
        (NoneUnderWay s → t.mem = s.mem)))

/-- R356 to R358: LIFT stops a bed that finds room, and lifts it once it is drained, its sheafs as they were. R359, R358: REPLANT places it again, its floors raised to
the bell. R363 to R370: a stop request freezes a tile as it is, with an image whose late arrivals are recorded in order and which a seal closes; THAW lets it run
on where it stood, its floors raised and its TLBs empty, and refuses an image that fails its check, whose launches end (R371). -/
def Obligations.LiftsAndFrost : Prop :=
  ∀ s : State,
    (∀ (k bk : Nat) (b : Bed) (la : Launch), s.launch? k = some la → s.bed? bk = some b → b.launch = k →
      (∀ u ∈ b.sheafs, ∀ sh, s.sheaf? u = some sh → s.asleep sh = false) →
      (b.status = .resident → la.rsmp = none →
        (s.liftRoom la.part b.escalated = false → exec (.lift k bk) s = .next s) ∧
        (s.liftRoom la.part b.escalated = true → ∃ t, exec (.lift k bk) s = .next t ∧ t = { s with beds := t.beds, events := s.events ++ [.lift k bk] } ∧
          t.bed? bk = some { b with status := .lifting })) ∧
      (b.status = .lifting → (s.bedDrained bk b = false → exec (.lift k bk) s = .next (s.again (.lift k bk))) ∧
        (s.bedDrained bk b = true → la.rsmp = none → ∃ t b', exec (.lift k bk) s = .next t ∧ t.bed? bk = some b' ∧ b' = { b with status := .lifted, image := b'.image } ∧
          t = { s with beds := t.beds, seats := t.seats, seatImages := t.seatImages, nextId := t.nextId, events := t.events })) ∧
      (b.status = .lifted → b.escalated = false → b.choice = none → b.image = none → la.hdr.scratch = 0 → ∀ core,
        (s.again (.replant k bk)).nextPlace la.part = some (k, la, .replant k bk, core) →
        ∃ t b', exec (.replant k bk) s = .next t ∧ t.bed? bk = some b' ∧ b' = { b with status := .resident, core := core } ∧
          (∀ e ∈ t.events, e ≠ .replant k bk) ∧ t.mem = s.mem ∧ ∀ u ∈ b.sheafs, ∀ sh, s.sheaf? u = some sh → ∃ sh', t.sheaf? u = some sh' ∧
            sh'.core = core ∧ sh'.rows = sh.rows ∧ sh'.sregs = sh.sregs ∧ sh'.sfull = sh.sfull ∧ sh'.scs = sh.scs ∧ sh'.frames = sh.frames ∧
            sh'.ops = sh.ops ∧ ∀ l, sh'.pcOf l = sh.pcOf l ∧ sh'.stands l = sh.stands l ∧
              (hasLane sh.held l = true → s.bell.toNat ≤ (sh'.fib l 0 (·.floor)).toNat))) ∧
    (∀ core, frostedCore s core = false → (∀ e ∈ s.beds, e.2.core = core → e.2.status ≠ .lifting) → ∃ t img, exec (.stopRequest core) s = .next t ∧
      t = { s with cores := t.cores, dev := { s.dev with images := s.dev.images + 1 }, images := s.images ++ [(s.dev.images + 1, img)]
                   events := s.events ++ [.frostSeal core] } ∧ (t.coreState core).frosted = some (s.dev.images + 1) ∧
      img.core = core ∧ img.stopBell = s.bell ∧ img.sealBell = none ∧ img.late = [] ∧ img.tampered = false ∧
      img.outstand + img.credits = 1024 ∧ ∀ i < 4, img.seats.getD i 0 = (((s.seat? core i).bind fun st => s.launch? st.launch).map (·.number)).getD 0) ∧
    (∀ core id img, (s.coreState core).frosted = some id → aget s.images id = some img →
      (img.sealBell = none → ∃ t, exec (.frostSeal core) s = .next t ∧ t = { s with images := t.images } ∧
        aget t.images id = some { img with sealBell := some s.bell, lateSeal := img.late.length }) ∧
      (∀ r, ∃ t, exec (.lateArrival core r) s = .next t ∧ t = { s with images := t.images } ∧
        aget t.images id = some { img with late := img.late ++ [(s.bell, r)] })) ∧
    ∀ id img, aget s.images id = some img → (s.coreState img.core).frosted = some id →
      (∀ target, img.sealBell = none → exec (.thaw id target) s = .next (s.again (.thaw id target))) ∧
      (img.sealBell ≠ none → img.tampered = false → img.sectionsOk = true → s.mayThaw img img.core = true → img.late = [] →
        (s.coreState img.core).notices = [] → (∀ e ∈ s.beds, e.2.core = img.core → e.2.escalated = false) →
        ∃ t, exec (.thaw id img.core) s = .next t ∧ frostedCore t img.core = false ∧ aget t.images id = none ∧ t.mem = s.mem ∧ t.reports = s.reports ∧
          (∀ e ∈ t.tlb, e.cluster ≠ clusterOf img.core) ∧ ∀ u sh, s.sheaf? u = some sh → sh.core = img.core → s.isLifted sh = false →
            ∃ sh', t.sheaf? u = some sh' ∧ sh'.core = sh.core ∧ sh'.rows = sh.rows ∧ sh'.sregs = sh.sregs ∧ sh'.frames = sh.frames ∧ sh'.ops = sh.ops ∧
              sh'.hold = sh.hold ∧ sh'.batch = sh.batch ∧ ∀ l, sh'.pcOf l = sh.pcOf l ∧ sh'.stands l = sh.stands l ∧
                (hasLane sh.held l = true → s.bell.toNat ≤ (sh'.fib l 0 (·.floor)).toNat)) ∧
      ∀ target, img.sealBell ≠ none → (img.tampered = true ∨ img.sectionsOk = false) → ∃ t, exec (.thaw id target) s = .next t ∧
        .thawRefused id ∈ t.reports ∧ aget t.images id = none ∧ frostedCore t img.core = false ∧
        ∀ i < 4, ∀ st la, s.seat? img.core i = some st → s.launch? st.launch = some la → la.completed = false → LaunchEnded t st.launch

/-! ### Services, resets and the debug core (R257, R258, R289, R342, R403 to R425) -/

/-- R404 to R406, R411, R413 to R415, R403: a mode holds from its change on; a processor that has missed ten reports is restarted; HEARTBEAT rises while the head core runs,
and 500 ms without service fail the device; the driver's settings take effect, except in recovery, which ends with a verified image; throttling drives ALERT_N
and a cap lies between 1.6 and 3.2 kW; SPDM answers with version 1.3, and attests once ECDSA P-384 with SHA-384 is agreed. -/
def Obligations.ServicesAndAttestation : Prop :=
  ∀ s : State, let dev := fun (f : Services → Services) => ({ s with dev := f s.dev } : State);
    (∀ part p on, s.dev.recovery = false → s.part? part = some p →
      let puts := fun (fn : ModeFn) (q : Partition) => ∃ t, exec (.modeChange part fn on) s = .next t ∧
        t = { s with parts := t.parts } ∧ t.part? part = some q ∧ ∀ k, k ≠ part → t.part? k = s.part? k;
      puts .walks { p with walksAssisted := on } ∧ puts .cow { p with cowAssisted := on } ∧ puts .relief { p with reliefAssisted := on } ∧
      puts .migration { p with migrationAssisted := on } ∧ puts .predicates { p with predicatesAssisted := on }) ∧
    (let silent := fun a => (aget s.dev.heard a).getD 0 + 100000 ≤ s.bell.toNat;
      (∀ a, exec (.watchdogReport (some a)) s = .next (dev fun d => { d with heard := aset d.heard a s.bell.toNat })) ∧
      exec (.watchdogReport none) s = .next (dev fun d => { d with heard := aset d.heard 6 s.bell.toNat }) ∧
      (∀ a < 6, ¬ silent a → exec (.aideRestart a) s = .next s) ∧
      (∀ a < 6, silent a → ∃ t, exec (.aideRestart a) s = .next t ∧
        t = { s with events := t.events, dev := { s.dev with heard := aset s.dev.heard a s.bell.toNat } } ∧ s.events <+: t.events ∧
        ∀ e ∈ s.rings, e.2.held ≠ [] → e.2.stopped = false → .completionRecord e.1 ∈ t.events) ∧
      (¬ silent 6 → exec .frontEndRestart s = .next s) ∧
      (silent 6 → ∃ t, exec .frontEndRestart s = .next t ∧ .frontEndRestarted ∈ t.reports ∧ (NoneUnderWay s → t.mem = s.mem) ∧
        (∀ k la, s.launch? k = some la → (s.part? la.part).isSome = true → la.completed = false → LaunchEnded t k) ∧
        ∀ k r, t.ring? k = some r → r.stopped = false ∧ ∃ r', s.ring? k = some r' ∧ r.readCount = r'.readCount)) ∧
    (s.dev.failed = false → exec .heartbeat s = .next (dev fun d => { d with heartbeat := d.heartbeat + 1, serviced := s.bell.toNat })) ∧
    (s.bell.toNat < s.dev.serviced + 500000000 → exec .hubTimerExpiry s = .next s) ∧
    (s.dev.serviced + 500000000 ≤ s.bell.toNat → exec .hubTimerExpiry s = .next (dev fun d => { d with failed := true, alert := true })) ∧
    (∀ r, s.dev.recovery = true → exec (.registerWrite r) s = .next s) ∧
    (s.dev.recovery = false →
      (∀ part p hot cold, s.part? part = some p → ∃ t, exec (.registerWrite (.hotCold part hot cold)) s = .next t ∧
        t = { s with parts := t.parts } ∧ t.part? part = some { p with hot := hot, cold := cold }) ∧
      (∀ part p on, s.part? part = some p → (∃ t, exec (.registerWrite (.claimBreakpoints part on)) s = .next t ∧
        t = { s with parts := t.parts } ∧ t.part? part = some { p with breakpoints := on }) ∧
        exec (.registerWrite (.readLog part)) s = .next (s.report (.errorLog part p.log p.overwritten))) ∧
      (∀ asn part root pasid f, asn < 4096 → aget s.spaces asn = none → root % 2048 = 0 → (s.part? part).isSome = true →
        aget s.frames (root / 65536) = some f → f.tier = 0 → f.kind = 0 →
        exec (.registerWrite (.addressSpace asn part root pasid)) s = .next { s with spaces := s.spaces ++ [(asn, ⟨part, root, pasid⟩)] }) ∧
      (∀ n, exec (.registerWrite (.cxlPools n)) s = .next (if 2 ^ 37 < n ∨ lpddr6Sectors - lpddr6Margin + n < (s.pools.map (·.2.granted)).sum then s
        else { s with cxlPools := n })) ∧
      (∀ n, exec (.registerWrite (.priTimeout n)) s = .next { s with priTimeout := n }) ∧
      (∀ a, exec (.registerWrite (.aperture a)) s = .next { s with apertures := s.apertures ++ [a] }) ∧
      (∀ die n w, n < 8 → canonical w.base = true → canonical w.limit = true → w.base.toNat ≤ w.limit.toNat → w.asn < 4096 → w.sel ≠ 0 →
        exec (.registerWrite (.watch die n w)) s = .next { s with watches := aset s.watches (die, n) w }) ∧
      (∀ core part c, 1024 ≤ c → c ≤ 2 ^ 20 → ∃ t, exec (.registerWrite (.samplePeriod core part c)) s = .next t ∧ t = { s with cores := t.cores } ∧
        aget (t.coreState core).periods part = some c) ∧
      (exec (.registerWrite .takeMigrations) s = .next { s with migrations := [], reports := s.reports ++ [.migrations s.migrations s.migrationDrops] }) ∧
      ∀ part cs, part < 16 → s.part? part = none → cs.Nodup → (∀ c ∈ cs, c < 128 ∧ ∀ e ∈ s.parts, c ∉ e.2.clusters) →
        ∃ t p, exec (.registerWrite (.clusters part cs)) s = .next t ∧ t = { s with parts := s.parts ++ [(part, p)], events := t.events } ∧ p.clusters = cs ∧
          p.walksAssisted = false ∧ p.cowAssisted = false ∧ p.reliefAssisted = false ∧ p.migrationAssisted = true ∧ p.predicatesAssisted = false) ∧
    (∀ v a b, s.dev.recovery = true → let good := a = true ∧ b = true ∧ Config.fuseVersion ≤ v;
      (good → s.dev.powered = true → ∃ t, exec (.recoveryImage v a b) s = .next t ∧ t.dev.recovery = false ∧ t.dev.booted = true ∧ t.dev.failed = false ∧
        t.launches = [] ∧ t.mem = []) ∧
      (¬ good → exec (.recoveryImage v a b) s = .next (dev fun d => { d with failed := true, alert := true, booted := false }))) ∧
    (∀ die, (∃ t, exec (.thermalThrottle die) s = .next t ∧ t = dev (fun d => { d with throttling := t.dev.throttling, alert := true }) ∧
        ∀ x, x ∈ t.dev.throttling ↔ x ∈ s.dev.throttling ∨ x = die) ∧
      ∃ t, exec (.thermalThrottleEnd die) s = .next t ∧ t = dev (fun d => { d with throttling := t.dev.throttling, alert := t.dev.alert }) ∧
        (∀ x, x ∈ t.dev.throttling ↔ x ∈ s.dev.throttling ∧ x ≠ die) ∧ (t.dev.alert = true ↔ s.dev.failed = true ∨ t.dev.throttling ≠ [])) ∧
    (∀ w, s.dev.recovery = false → (1600 ≤ w → w ≤ 3200 → exec (.powerCap w) s = .next (dev fun d => { d with powerCap := w })) ∧
      (w < 1600 ∨ 3200 < w → exec (.powerCap w) s = .next s)) ∧
    (∃ t, exec .getVersion s = .next t ∧ t.out = s.out ++ [.spdm (.version 1 3)] ∧ t.dev.spdmVersion = true) ∧
    (s.dev.spdmVersion = true → exec .getCapabilities s = .next (s.emit (.spdm (.capabilities true true true false))) ∧
      exec (.negotiateAlgorithms true) s = .next ((dev fun d => { d with spdmAlgs := true }).emit (.spdm (.algorithms true true))) ∧
      exec (.negotiateAlgorithms false) s = .next (s.emit (.spdm .error))) ∧
    (s.dev.spdmAlgs = true → exec .getDigests s = .next (s.emit (.spdm (.digests (Config.certDigest 0)))) ∧
      (∀ o n, exec (.getCertificate o n) s = .next (s.emit (.spdm (.certificate ((List.range n).map fun i => Config.certByte (o + i)))))) ∧
      (∀ n, exec (.challenge n) s = .next (s.emit (.spdm (.challengeAuth n (Config.signature n))))) ∧
      ∀ i, 1 ≤ i → i ≤ 6 → exec (.getMeasurements i) s = .next (s.emit (.spdm (.measurements i [Config.measurement i])))) ∧
    (s.dev.spdmAlgs = false → ∀ i ∈ [Instr.getDigests, .getCertificate 0 1, .challenge 0, .getMeasurements 1], exec i s = .next (s.emit (.spdm .error)))

/-- R407 to R409, R388, R412, Table 19.4: a queue reset ends each command of a ring that has not started with status 0x0A, and every command of a seat's queue with
CODE 0x10; an engine reset ends those of all four seats so and logs it; no frame reissues a command so ended; either waits while its tile is frosted or one of its
commands cannot end yet. The partition rung ends the partition's launches, discards its frost images, stops its rings with an interrupt and logs it; the die rung ends
every launch with a bed or a seat on the die, logs it to their partitions and empties the die's caches; a function-level reset releases what the function had;
the whole-device rungs and the power pins leave the machine as at reset, but for the host's side, booted where it has power and its firmware is not refused. -/
def Obligations.ResetLadder : Prop :=
  ∀ s : State,
    (∀ (k : Nat) (r : Ring), s.ring? k = some r → (r.pending.map (·.seq)).Nodup → let gone := r.pending.filter fun p => !p.started
      ∃ t, exec (.queueReset (.ring k)) s = .next t ∧ t = { s with rings := t.rings, events := t.events, hubGot := t.hubGot } ∧
        (gone ≠ [] → .completionRecord k ∈ t.events) ∧ t.ring? k = some { r with
          pending := r.pending.filter (·.started), held := r.held ++ gone.map fun p => recordOf ⟨k, p.seq, p.words⟩ 0x0A 0 0 [] }) ∧
    (∀ (core : Nat) (m : Bool), (∀ n < 4, ∀ st, s.seat? core n = some st → ∀ c ∈ st.queue m, InQueue s core n st c) →
      let mine := fun (ns : List Nat) (c : Cmd) => ∃ n ∈ ns, ∃ st, s.seat? core n = some st ∧ c ∈ st.queue m
      let stays := fun (ns : List Nat) => ∃ c, mine ns c ∧ (frostedCore s core = true ∨ s.mayEnd c = false ∨ (c.wrote = true ∧ c.peersDue ≠ 0))
      let regs := fun (c : Cmd) => c.status.toList ++ c.promise.toList
      let clear := fun (ns : List Nat) => (∀ c, mine ns c → c.wrote = false) ∧
        ∀ c d, mine ns c → mine ns d → c.id ≠ d.id → c.sheaf = d.sheaf → ∀ r ∈ regs c, r ∉ regs d
      let ended := fun (ns : List Nat) (t : State) => t.mem = s.mem ∧ ∀ n ∈ ns, ∀ st, s.seat? core n = some st → ∀ c ∈ st.queue m,
        CommandEnds s t core n c 0x10 ∧ ∀ u sh, t.sheaf? u = some sh → ∀ f ∈ sh.frames, ∀ a b, f.replay ≠ some (.command a b c.id)
      (∀ n < 4, let q := if m then QueueSel.matrix core n else .copy core n
        (stays [n] → exec (.queueReset q) s = .next (s.again (.queueReset q))) ∧
        (¬ stays [n] → clear [n] → ∃ t, exec (.queueReset q) s = .next t ∧ ended [n] t)) ∧
      let e := if m then EngineSel.matrix core else .copy core
      (stays [0, 1, 2, 3] → exec (.engineReset e) s = .next (s.again (.engineReset e))) ∧
      (¬ stays [0, 1, 2, 3] → clear [0, 1, 2, 3] → ∃ t, exec (.engineReset e) s = .next t ∧ ended [0, 1, 2, 3] t ∧
        ∀ p, s.part? (s.partOfCore core) = some p → ∃ x, t.part? (s.partOfCore core) = some x ∧
          x.log.getLast? = some ⟨0x0E, BitVec.ofNat 64 core, 0, 0, s.bell, 0⟩)) ∧
    (∀ part, ∃ t, exec (.partitionReset part) s = .next t ∧ (NoneUnderWay s → t.mem = s.mem) ∧ t.pools.map (·.1) = s.pools.map (·.1) ∧
      (∀ k la, s.launch? k = some la → la.part = part → la.completed = false → LaunchEnded t k) ∧
      (∀ k la, s.launch? k = some la → (∀ e ∈ s.launches, e.1 = k → e.2.part ≠ part) → t.launch? k = some la) ∧
      (∀ k r, t.ring? k = some r → k / 16 = part → r.stopped = true) ∧ (∀ e ∈ t.images, e.2.part ≠ part) ∧
      (∀ p, s.part? part = some p → ∃ x, t.part? part = some x ∧ x.log.getLast? = some ⟨0, BitVec.ofNat 64 part, 0, 0, s.bell, 0⟩) ∧
      ∀ k r, s.ring? k = some r → k / 16 = part → .interrupt part r.reg.vector ∈ t.out) ∧
    (∀ die, let here := fun (k : Nat) => (∃ e ∈ s.beds, e.2.launch = k ∧ dieOf e.2.core = die ∧ e.2.status ≠ .lifted) ∨
        ∃ e ∈ s.seats, e.2.launch = k ∧ dieOf (e.1 / 4) = die
      ∃ t, exec (.dieReset die) s = .next t ∧ (s.allows = [] → NoneUnderWay s → t.mem = s.mem) ∧ .dieReset die ∈ t.reports ∧
      (∀ k la, s.launch? k = some la → la.completed = false → here k → LaunchEnded t k) ∧
      (∀ k la p, s.launch? k = some la → here k → s.part? la.part = some p → ∃ x, t.part? la.part = some x ∧
        x.log.getLast? = some ⟨0, BitVec.ofNat 64 die, 0, 0, s.bell, 0⟩) ∧
      (∀ e ∈ t.l1, dieOf e.1.1 ≠ die) ∧ (∀ e ∈ t.cluster, e.1.1 / 32 ≠ die) ∧ (∀ e ∈ t.icache, dieOf (e.1.1 / 4) ≠ die) ∧
      (∀ e ∈ t.tlb, e.cluster = hubCluster ∨ e.cluster / 32 ≠ die) ∧ ∀ e ∈ t.images, dieOf e.2.core ≠ die) ∧
    (∀ part, s.moves = [] → s.holding = [] → (∀ e ∈ s.events, (∀ m, e ≠ .homeWrite m) ∧ ∀ m, e ≠ .atomicExecution m) →
      ∃ t, exec (.functionLevelReset part) s = .next t ∧ .flrDone part ∈ t.out ∧ .functionReset part ∈ t.reports ∧ t.hostMem = s.hostMem ∧
        (∀ e ∈ t.launches, e.2.part ≠ part) ∧ (∀ e ∈ t.spaces, e.2.part ≠ part) ∧ (∀ e ∈ t.rings, e.1 / 16 ≠ part) ∧ (∀ e ∈ t.atc, e.fn ≠ part) ∧
        (∀ r ∈ t.pageReqs, r.fn ≠ part) ∧ (∀ e ∈ t.pools, e.1 / 256 ≠ part) ∧ (∀ e ∈ t.frames, e.2.pool.map (·.1) ≠ some part) ∧
        (∀ f i, aget s.frames f = some i → i.pool.map (·.1) = some part → ∀ a, a / 65536 = f → Memory.read t.mem a = 0) ∧
        ∀ p, t.part? part = some p → p.log = []) ∧
    (∀ (i : Instr) (p : Bool), (i ∈ [Instr.perstN, .resetN, .physicalFunctionFlr] ∧ p = s.dev.powered) ∨ (i = .pwrgdFall ∧ p = false) ∨
        ((∃ die, i = .thermalTrip die) ∧ p = false) ∨ (i = .pwrgd ∧ s.dev.powered = false ∧ p = true) →
      let stuck := p && (s.dev.recovery || Config.bootRefused s.free)
      let tripped := match i with
        | .thermalTrip _ => true
        | _ => false
      exec i s = .next { State.reset with
        free := s.free
        hostMem := s.hostMem
        events := s.events.filter Event.outside
        reports := s.reports
        out := s.out
        dev := { Services.reset with
          powered := p
          booted := p && !stuck
          keyDrawn := p && !stuck
          recovery := if p then stuck else s.dev.recovery
          failed := stuck
          alert := stuck || s.dev.throttling ≠ []
          thermtrip := tripped || (s.dev.thermtrip && !p)
          throttling := s.dev.throttling } }) ∧
    (s.dev.powered = true → exec .pwrgd s = .next s)

/-- R257, R258, R289, R290, R342, R418 to R425, Tables 10.4 and 20.1 to 20.4: an epoch halves the counts, ages the cold groups and asks for moves; a page's move sets MOVING, switches the
entry or is abandoned; a period gives each pool its tokens less its debt; a sample is of the sheaf that has waited longest; the record of a watch hit names its issuer and waits for its predicate,
and its result releases the access, traps it or stops the partition; a precise stop keeps the results that arrive, which a resume delivers in their order;
a trace unit starts and stops on its conditions. -/
def Obligations.CountsMovesAndDebug : Prop :=
  ∀ s : State,
    (∃ t, exec .epochEnd s = .next t ∧
      t = { s with groups := t.groups, migrations := t.migrations, migrationDrops := t.migrationDrops, reports := t.reports } ∧
      ∀ k g, aget s.groups k = some g → let hot := ((s.groupPart k).map (·.hot)).getD 2048; let low := ((s.groupPart k).map (·.cold)).getD 16
        let cold := if g.count ≤ low then g.cold + 1 else 0
        let asks := 16 ≤ g.since ∧ s.groupBusy k = false ∧ ((g.tier ≠ 0 ∧ hot ≤ g.count) ∨ (g.tier = 0 ∧ (8 ≤ cold ∨ s.marginGroup = some k)))
        (∃ g', aget t.groups k = some g' ∧ g'.tier = g.tier ∧ g'.count = g.count / 2 ∧ g'.cold = min cold 8 ∧
          (asks → g'.since = 0) ∧ (¬ asks → g'.since = min (g.since + 1) 16)) ∧
        (asks → s.migrations.length + s.groupKeys.length ≤ 4096 → ⟨k, decide (g.tier ≠ 0), g.count⟩ ∈ t.migrations)) ∧
    (∀ die, ∃ t, exec (.bandwidthPeriod die) s = .next t ∧ t = { s with budgets := t.budgets } ∧
      let spare := ((s.budgets.filter fun e => decide (e.1.2 = die) && decide (e.2.base ≠ 0)).map fun e => e.2.tokens + (e.2.ports.map (·.2)).sum).sum
      let favoured := ((s.budgets.filter fun e => decide (e.1.2 = die) && decide (e.2.base ≠ 0) && e.2.waited).map fun e => e.2.base).sum
      ∀ k b, aget s.budgets k = some b → (k.2 ≠ die → aget t.budgets k = some b) ∧
        (k.2 = die → b.base ≠ 0 → let given := b.base + (if b.waited then spare * b.base / favoured else 0)
          aget t.budgets k = some { b with tokens := given - b.debt, ports := [], debt := b.debt - given, waited := false })) ∧
    (∀ (m : MigrateReq) (sp : Space) (p : Pte), aget s.spaces m.asn = some sp → s.moves = [] → s.walk m.asn m.va = some (.leaf p m.entryAddr) →
      s.walkHeld m.asn m.va = false → s.walkOwned m.asn m.va = false → s.restingFor (movedPte m p) = false → p.surr = false → p.moving = false →
      (2 ≤ m.newTier.toNat → m.newKind = 0 ∧ m.newPool = 0) →
      (s.destOk sp.part p (movedPte m p) = true → exec (.migration m) s =
        .next { s with moves := [⟨m, s.word64 m.entryAddr, none, false, false, false, false, [], 0⟩], events := s.events ++ [.migration m] }) ∧
      (s.destOk sp.part p (movedPte m p) = false → exec (.migration m) s = .next (s.report (.migrationAbandoned (moveGroup p))))) ∧
    (∀ r : MoveRec, s.moves = [r] → r.failed = false → let p := decodePte r.old; let e := r.req.entryAddr
      e % 8 = 0 → Plain s e 8 →
      let writes := fun (q : Pte) (r' : MoveRec) => ∃ t, exec (.migration r.req) s = .next t ∧ WroteAt s t e (natToBytes 8 (encodePte q).toNat) ∧
        t.moves = [r'] ∧ .migration r.req ∈ t.events ∧ t.sheafs = s.sheafs ∧
        t.tlb = s.tlb.filter fun x => !(decide (x.asn = r.req.asn) && decide (x.base.toNat < (pageBase r.req.va p).toNat + pageBytes p.size) &&
          decide ((pageBase r.req.va p).toNat < x.base.toNat + x.bytes))
      (∀ sp, r.marked = false → s.word64 e = r.old → s.walkHeld r.req.asn r.req.va = false → aget s.spaces r.req.asn = some sp →
        p.tier.toNat < 2 → r.req.newTier.toNat < 2 → s.destOk sp.part p r.new = true → writes { p with moving := true } { r with marked := true }) ∧
      (r.marked = true → r.copied = true → r.switched = false → r.due = 0 → writes r.new { r with switched := true }) ∧
      (r.marked = false → s.word64 e ≠ r.old → r.copied = false → r.charged = none → ∃ t, exec (.migration r.req) s = .next t ∧ t.moves = [] ∧
        t.mem = s.mem ∧ .migrationAbandoned (moveGroup p) ∈ t.reports)) ∧
    (∀ core part, frostedCore s core = false → (aget (s.coreState core).periods part).getD 0 ≠ 0 →
      (s.samples.filter fun x => decide (x.core = core) && decide (x.part = part)).length < Config.sampleRoom →
      let cand := fun (sh : Sheaf) => (∃ u, (u, sh) ∈ s.sheafs) ∧ sh.core = core ∧ sh.part = part ∧ sh.issuing ≠ 0 ∧ s.isLifted sh = false
      (∃ sh, cand sh) → ∃ t sh x, exec (.stallSample core part) s = .next t ∧ cand sh ∧ (∀ other, cand other → other.wait ≤ sh.wait) ∧
        t = { s with samples := s.samples ++ [x] } ∧ x.core = core ∧ x.part = part ∧ x.bell = s.bell ∧ x.slot = sh.slot ∧ x.wpc = sh.batchPc ∧
        x.reason = (if sh.hold.waiting then (if sh.hold.reason = 0 then 0x03 else sh.hold.reason) else 0x05) ∧ x.wait = min sh.wait (2 ^ 32 - 1)) ∧
    (∀ (h : WatchHit) (w : WatchRange), s.hitAsleep h = false → aget s.watches (h.die, h.range) = some w →
      (s.knowsHit h = false → (w.pred = 0 → exec (.watchHit h) s = .next { s with hits := s.hits ++ [s.hitRec h], events := s.events ++ [.predicateResult h true] }) ∧
        (w.pred ≠ 0 → (∀ p, s.hitPart h = some p → p.predicatesAssisted = false) → exec (.watchHit h) s = .next { s with
          hits := s.hits ++ [s.hitRec h], events := s.events ++ [.predicateResult h (Config.predicate s.free), .predicateOverrun h] }) ∧
        ((∃ p, s.hitPart h = some p ∧ p.predicatesAssisted = true) → w.pred ≠ 0 →
          exec (.watchHit h) s = .next { s with hits := s.hits ++ [s.hitRec h], reports := s.reports ++ [.predicateAsked h] })) ∧
      (∀ (l : Nat) (sh : Sheaf) (la : Launch) (f : Fibre), h.cmd = none → h.lane = some l → s.sheaf? h.sheaf = some sh → s.launch? sh.launch = some la →
        sh.lanes[laneOf l] = .held f → s.hitRec h = ⟨h, s.bell, la.number, f.wid, none⟩) ∧
      (∀ (c : Nat) (d : Cmd) (la : Launch), h.cmd = some c → s.cmd? c = some d → s.launch? d.launch = some la →
        s.hitRec h = ⟨h, s.bell, la.number, d.wid, some (d.core, d.seat, d.body.isMatrix)⟩) ∧
      (s.knowsHit h = true → exec (.predicateOverrun h) s = .next { s with overruns := s.overruns + 1, events := s.events ++ [.predicateResult h true] }) ∧
      ∀ (rec : HitRec) (l : Fin 32) (sh : Sheaf), s.hits = [rec] → rec.hit = h → h.cmd = none → h.lane = some l.val → h.kind = .store → s.sheaf? h.sheaf = some sh → hasLane sh.batch l = true →
        let held := fun (result : Bool) (f : Hold → Hold) => ∃ t, exec (.predicateResult h result) s = .next t ∧ t.hits = [] ∧
          t.hitLog = s.hitLog ++ (if result then [rec] else []) ∧ t.sheaf? h.sheaf = some { sh with hold := f sh.hold } ∧
          t.mem = s.mem
        held false (fun x => { x with watched := x.watched ++ [(l.val, h.range)] }) ∧
        (w.action = 0 → held true fun x => { x with watched := x.watched ++ [(l.val, h.range)] }) ∧
        (w.action = 1 ∨ w.action = 2 → held true fun x =>
          { x with faults := x.faults ++ [⟨l, 0x0D, h.addr, BitVec.ofNat 32 h.range, false⟩] }) ∧
        (w.action = 3 → sh.part < 4 → ∃ t, exec (.predicateResult h true) s = .next t ∧ (t.coreState sh.core).stopped.getLsbD sh.part = true ∧
          t.sheafs = s.sheafs ∧ t.hitLog = s.hitLog ++ [rec] ∧ t.dumps.length = s.dumps.length + 1)) ∧
    (∀ core part, part < 4 → frostedCore s core = false →
      ((s.coreState core).stopped.getLsbD part = false → ∃ t, exec (.preciseStop core part) s = .next t ∧
        t = { s with cores := t.cores, dumps := s.dumps ++ [⟨core, part, s.bell,
          (s.sheafs.filter fun e => decide (e.2.core = core) && decide (e.2.part = part)).map (·.2.shown)⟩] } ∧
        ∀ q < 4, (t.coreState core).stopped.getLsbD q = (decide (q = part) || (s.coreState core).stopped.getLsbD q)) ∧
      ((s.coreState core).stopped.getLsbD part = true → ∃ s1 t : State, exec (.stopResume core part) s = .next t ∧ s1 = { s with cores := s1.cores } ∧
        (∀ q < 4, (s1.coreState core).stopped.getLsbD q = (decide (q ≠ part) && (s.coreState core).stopped.getLsbD q)) ∧
        t = ((s.coreState core).receive.filter (s.forPart core part)).foldl State.deliver s1)) ∧
    (∀ core seat c d, frostedCore s core = false → s.cmd? c = some d → d.suspended = true → ∃ t d', exec (.engineResume core seat c) s = .next t ∧
      t.cmd? c = some d' ∧ d'.suspended = false ∧ d'.units = d.units ∧ t.mem = s.mem) ∧
    ∀ core part u start stop, aget (s.coreState core).traces part = some u → ∃ t, exec (.traceTrigger core part start stop) s = .next t ∧
      t = { s with cores := t.cores } ∧ aget (t.coreState core).traces part = some { u with on := if u.on || start then !stop else u.on }
end

