-- ==== Sys2Proof/Laws/Data.lean ====
section
/-! SUPPORT. The small laws of tables, lanes and masks. -/

namespace Sys2Proof.Machine

variable {κ α β : Type} [DecidableEq κ]

/-! ### Tables -/

@[simp] theorem aget_nil (k : κ) : aget ([] : List (κ × α)) k = none := rfl

theorem aget_aset (t : List (κ × α)) (k j : κ) (v : α) : aget (aset t k v) j = if k = j then some v else aget t j := by
  induction t with
  | nil => by_cases h : k = j <;> simp [aset, aget, h]
  | cons e t ih =>
    obtain ⟨k', v'⟩ := e
    simp only [aset]
    by_cases h : k' = k
    · subst h; by_cases h2 : k' = j <;> simp [aget, h2]
    · rw [if_neg h]
      by_cases h2 : k' = j
      · subst h2; simp [aget, Ne.symm h]
      · simp [aget, h2, ih]

@[simp] theorem aget_aset_self (t : List (κ × α)) (k : κ) (v : α) : aget (aset t k v) k = some v := by simp [aget_aset]

theorem aget_aset_ne (t : List (κ × α)) {k j : κ} (v : α) (h : k ≠ j) : aget (aset t k v) j = aget t j := by
  simp [aget_aset, h]

theorem aget_adel (t : List (κ × α)) (k j : κ) : aget (adel t k) j = if k = j then none else aget t j := by
  induction t with
  | nil => simp [adel, aget]
  | cons e t ih =>
    obtain ⟨k', v'⟩ := e
    simp only [adel]
    by_cases h : k' = k
    · subst h
      rw [if_pos rfl, ih]
      by_cases h2 : k' = j <;> simp [aget, h2]
    · rw [if_neg h]
      by_cases h2 : k' = j
      · subst h2; simp [aget, Ne.symm h]
      · simp [aget, h2, ih]

theorem aget_amod (t : List (κ × α)) (k j : κ) (f : α → α) :
    aget (amod t k f) j = if k = j then (aget t j).map f else aget t j := by
  induction t with
  | nil => simp [amod, aget]
  | cons e t ih =>
    obtain ⟨k', v'⟩ := e
    simp only [amod]
    by_cases h : k' = k
    · subst h; by_cases h2 : k' = j <;> simp [aget, h2]
    · rw [if_neg h]
      by_cases h2 : k' = j
      · subst h2; simp [aget, Ne.symm h]
      · simp [aget, h2, ih]

@[simp] theorem aget_amod_self (t : List (κ × α)) (k : κ) (f : α → α) : aget (amod t k f) k = (aget t k).map f := by
  simp [aget_amod]

theorem aget_amod_ne (t : List (κ × α)) {k j : κ} (f : α → α) (h : k ≠ j) : aget (amod t k f) j = aget t j := by
  simp [aget_amod, h]

theorem amod_id (t : List (κ × α)) (k : κ) (f : α → α) (h : ∀ v, aget t k = some v → f v = v) : amod t k f = t := by
  induction t with
  | nil => rfl
  | cons e t ih =>
    obtain ⟨k', v'⟩ := e
    by_cases hk : k' = k
    · have := h v' (by simp [aget, hk])
      simp [amod, hk, this]
    · have := ih fun v hv => h v (by simpa [aget, hk] using hv)
      simp [amod, hk, this]

theorem amod_amod (t : List (κ × α)) (k : κ) (f g : α → α) : amod (amod t k f) k g = amod t k (fun v => g (f v)) := by
  induction t with
  | nil => rfl
  | cons e t ih =>
    obtain ⟨k', v'⟩ := e
    by_cases h : k' = k <;> simp [amod, h, ih]

theorem aget_amap (t : List (κ × α)) (k : κ) (f : κ → α → α) : aget (amap t f) k = (aget t k).map (f k) := by
  induction t with
  | nil => rfl
  | cons e t ih =>
    obtain ⟨k', v'⟩ := e
    by_cases h : k' = k
    · subst h; simp [amap, aget]
    · simp only [amap, List.map_cons, aget, h, if_false]
      simpa [amap] using ih

/-! ### Lanes -/

theorem allLanes_eq : allLanes = List.finRange 32 := by decide

theorem mem_allLanes (l : Fin 32) : l ∈ allLanes := by rw [allLanes_eq]; exact List.mem_finRange l

theorem lanesOf_at {α : Type} (f : Fin 32 → α) (i : Nat) (h : i < 32) : (lanesOf f)[i] = f ⟨i, h⟩ := by
  have h' : (allLanes.map f)[i]'(by simpa [allLanes] using h) = f ⟨i, h⟩ := by
    simp only [List.getElem_map, allLanes_eq, List.getElem_finRange]
    rfl
  exact h'

@[simp] theorem lanesOf_get {α : Type} (f : Fin 32 → α) (l : Fin 32) : (lanesOf f)[l.val] = f l := lanesOf_at f l.val l.isLt

theorem lanesOf_ext {α : Type} (v w : Vector α 32) (h : ∀ l : Fin 32, v[l.val] = w[l.val]) : v = w := by
  apply Vector.ext
  intro i hi
  exact h ⟨i, hi⟩

@[simp] theorem hasLane_zero (l : Fin 32) : hasLane 0#32 l = false := by simp [hasLane]
@[simp] theorem hasLane_and (a b : Mask) (l : Fin 32) : hasLane (a &&& b) l = (hasLane a l && hasLane b l) := by
  simp [hasLane]
@[simp] theorem hasLane_or (a b : Mask) (l : Fin 32) : hasLane (a ||| b) l = (hasLane a l || hasLane b l) := by
  simp [hasLane]
@[simp] theorem hasLane_not (a : Mask) (l : Fin 32) : hasLane (~~~a) l = !hasLane a l := by
  simp [hasLane]

theorem mask_ext {a b : Mask} (h : ∀ l : Fin 32, hasLane a l = hasLane b l) : a = b := by
  apply BitVec.eq_of_getLsbD_eq
  intro i hi
  exact h ⟨i, hi⟩

theorem mask_zero_iff (m : Mask) : m = 0 ↔ ∀ l : Fin 32, hasLane m l = false :=
  ⟨fun h l => by simp [h], fun h => mask_ext fun l => by simp [h l]⟩

theorem hasLane_one_shift (l m : Fin 32) : hasLane (1#32 <<< l.val) m = decide (l = m) := by
  revert l m; decide

@[simp] theorem hasLane_maskOf (p : Fin 32 → Bool) (l : Fin 32) : hasLane (maskOf p) l = p l := by
  have key : ∀ ls : List (Fin 32), hasLane (ls.foldr (fun l m => if p l then m ||| (1#32 <<< l.val) else m) 0#32) l
      = (decide (l ∈ ls) && p l) := by
    intro ls
    induction ls with
    | nil => simp [hasLane]
    | cons a t ih =>
      by_cases ha : p a = true
      · by_cases hal : a = l
        · subst hal; simp [ha, ih, hasLane_one_shift]
        · have h' : ¬ l = a := fun c => hal c.symm
          simp [ha, ih, hasLane_one_shift, hal, h']
      · by_cases hal : a = l
        · subst hal; simp [ha, ih]
        · have h' : ¬ l = a := fun c => hal c.symm
          simp [ha, ih, h']
  rw [maskOf, key]; simp [mem_allLanes]

theorem mem_lanesIn (m : Mask) (l : Fin 32) : l ∈ lanesIn m ↔ hasLane m l = true := by
  simp [lanesIn, mem_allLanes]

@[simp] theorem lanesIn_zero : lanesIn 0#32 = [] := by decide

theorem lanesIn_nil_iff (m : Mask) : lanesIn m = [] ↔ m = 0 := by
  constructor
  · intro h
    rw [mask_zero_iff]
    intro l
    by_contra hc
    have : l ∈ lanesIn m := (mem_lanesIn m l).2 (by simpa using hc)
    simp [h] at this
  · rintro rfl; simp

/-! ### Bytes -/

theorem bytesToNat_lt (bs : List Byte) : bytesToNat bs < 256 ^ bs.length := by
  induction bs with
  | nil => simp [bytesToNat]
  | cons b t ih =>
    have := b.isLt
    simp only [bytesToNat, List.length_cons, pow_succ]
    omega

@[simp] theorem natToBytes_length (n x : Nat) : (natToBytes n x).length = n := by
  induction n generalizing x with
  | zero => rfl
  | succ n ih => simp [natToBytes, ih]

theorem bytesToNat_natToBytes (n x : Nat) : bytesToNat (natToBytes n x) = x % 256 ^ n := by
  induction n generalizing x with
  | zero => simp [natToBytes, bytesToNat, Nat.mod_one]
  | succ n ih =>
    rw [show 256 ^ (n + 1) = 256 * 256 ^ n from Nat.pow_succ', Nat.mod_mul]
    simp [natToBytes, bytesToNat, ih]

end Sys2Proof.Machine
end

