-- ==== Sys2Proof/Laws/Alu.lean ====
section
/-! SUPPORT. The integer results and flags as arithmetic: what each function of Alu.lean and Flags.lean computes, said by exact numbers. -/

namespace Sys2Proof.Machine

theorem outside_iff {n : Nat} (hn : 0 < n) (r : BitVec n) (x : Int) (h : r = BitVec.ofInt n x) : outsideSigned n x = decide (r.toInt ≠ x) := by
  subst h
  unfold outsideSigned
  rw [BitVec.toInt_ofInt]
  have e : (2:Int) ^ n = 2 * 2 ^ (n-1) := by
    obtain ⟨m, rfl⟩ : ∃ m, n = m+1 := ⟨n-1, by omega⟩
    simp [pow_succ, mul_comm]
  by_cases hx : x < -(2 : Int) ^ (n - 1) ∨ (2 : Int) ^ (n - 1) ≤ x
  · have : Int.bmod x (2^n) ≠ x := by
      intro c
      have h1 := Int.le_bmod (x := x) (m := 2^n) (by positivity)
      have h2 := Int.bmod_lt (x := x) (m := 2^n) (by positivity)
      rw [c] at h1 h2
      push_cast at h1 h2
      rw [e] at h1 h2
      omega
    simp [this, hx]
  · push Not at hx
    have : Int.bmod x (2^n) = x := by
      apply Int.bmod_eq_of_le
      · push_cast; rw [e]; omega
      · push_cast; rw [e]; omega
    simp [this]; omega

theorem addWith_eq {n} (hn : 0 < n) (a b : BitVec n) (c : Bool) : addWith a b c = (a + b + BitVec.ofNat n c.toNat, flagsOfSum a b c.toNat) := by
  unfold addWith flagsOfSum
  simp only [signOf, zeroOf]
  rw [outside_iff hn (a + b + BitVec.ofNat n c.toNat)]
  rw [BitVec.ofInt_add, BitVec.ofInt_add]; simp

theorem subWith_eq {n} (hn : 0 < n) (a b : BitVec n) (c : Bool) : subWith a b c = (a - b - BitVec.ofNat n c.toNat, flagsOfDiff a b c.toNat) := by
  unfold subWith flagsOfDiff
  simp only [signOf, zeroOf]
  rw [outside_iff hn (a - b - BitVec.ofNat n c.toNat)]
  have e : ∀ x y : Int, BitVec.ofInt n (x - y) = BitVec.ofInt n x - BitVec.ofInt n y := fun x y => by
    apply BitVec.eq_of_toInt_eq; simp [BitVec.toInt_sub]
  rw [e, e]; simp

theorem mulWith_eq {n} (hn : 0 < n) (a b : BitVec n) : mulWith a b = (a * b, flagsOfProduct a b) := by
  unfold mulWith flagsOfProduct
  simp only [signOf, zeroOf]
  rw [outside_iff hn (a * b)]
  rw [BitVec.ofInt_mul]; simp

theorem iabs_eq (a : W32) : (if a.msb then -a else a) = BitVec.ofNat 32 a.toInt.natAbs := by
  apply BitVec.eq_of_toNat_eq
  rw [BitVec.toInt_eq_msb_cond]
  cases h : a.msb
  · simp
  · have := BitVec.isLt a
    simp [BitVec.toNat_neg]
    have h2 : 2^31 ≤ a.toNat := by simpa [BitVec.msb_eq_decide] using h
    omega

theorem shl_eq (a : W32) (k : Nat) : shiftL a k = BitVec.ofNat 32 (a.toNat * 2 ^ k) := by
  unfold shiftL
  apply BitVec.eq_of_toNat_eq
  split
  · rename_i h
    obtain ⟨j, rfl⟩ := Nat.exists_eq_add_of_le h
    simp only [BitVec.toNat_ofNat, pow_add]
    rw [show a.toNat * (2^32 * 2^j) = 2^32 * (a.toNat * 2^j) by ring, Nat.mul_mod_right]
  · simp [BitVec.toNat_shiftLeft, Nat.shiftLeft_eq]

theorem shr_eq (a : W32) (k : Nat) : shiftR a k = BitVec.ofNat 32 (a.toNat / 2 ^ k) := by
  unfold shiftR
  apply BitVec.eq_of_toNat_eq
  have h0 := a.isLt
  split
  · rename_i h
    have : a.toNat / 2^k = 0 := Nat.div_eq_of_lt (lt_of_lt_of_le h0 (Nat.pow_le_pow_right (by omega) h))
    simp [this]
  · have := Nat.div_le_self a.toNat (2^k)
    have hm : a.toNat / 2 ^ k % 4294967296 = a.toNat / 2 ^ k := Nat.mod_eq_of_lt (by omega)
    simp [BitVec.toNat_ushiftRight, Nat.shiftRight_eq_div_pow, hm]

theorem sar_eq (a : W32) (k : Nat) : shiftA a k = BitVec.ofInt 32 (a.toInt / 2 ^ k) := by
  have key : ∀ n, a.sshiftRight n = BitVec.ofInt 32 (a.toInt / 2^n) := by
    intro n
    unfold BitVec.sshiftRight
    rw [Int.shiftRight_eq_div_pow]; norm_cast
  unfold shiftA
  split
  · rename_i h
    rw [key 32]
    have h1 := BitVec.le_toInt a
    have h2 := BitVec.toInt_lt (x := a)
    congr 1
    have hk : (2:Int)^32 ≤ 2^k := by exact_mod_cast Nat.pow_le_pow_right (by omega) h
    norm_num at h1 h2 hk
    by_cases hn : 0 ≤ a.toInt
    · rw [Int.ediv_eq_zero_of_lt hn (by omega), Int.ediv_eq_zero_of_lt hn (by omega)]
    · have e : ∀ m : Int, 4294967296 ≤ m → a.toInt / m = -1 := by
        intro m hm
        rw [Int.ediv_eq_iff_of_pos (by omega)]; constructor <;> omega
      rw [e _ (by norm_num), e _ hk]
  · exact key k

theorem rol_eq (a b : W32) : a.rotateLeft (b.toNat % 32) = maskOf fun l => a.getLsbD ((l.val + 32 - b.toNat % 32) % 32) := by
  apply mask_ext
  intro l
  rw [hasLane_maskOf]
  unfold hasLane
  have hl := l.isLt
  rw [BitVec.getLsbD_rotateLeft]
  have hb : b.toNat % 32 < 32 := Nat.mod_lt _ (by omega)
  generalize b.toNat % 32 = k at *
  rw [Nat.mod_eq_of_lt hb]
  by_cases h : l.val < k
  · have : (l.val + 32 - k) % 32 = 32 - k + l.val := by omega
    simp [h, this]
  · have : (l.val + 32 - k) % 32 = l.val - k := by omega
    simp [h, this, hl]

theorem clz_eq (a : W32) : leadZeros a = BitVec.ofNat 32 (32 - a.toNat.size) := by
  unfold leadZeros
  congr 1
  split
  · rename_i h; subst h; simp
  · rename_i h
    have h0 : a.toNat ≠ 0 := fun c => h (BitVec.eq_of_toNat_eq (by simpa using c))
    have hs : a.toNat.size = Nat.log2 a.toNat + 1 := by
      apply le_antisymm
      · rw [Nat.size_le]; exact Nat.lt_log2_self
      · have := Nat.log2_self_le h0
        exact Nat.lt_size.2 this
    rw [hs]; omega

theorem popc_eq (a : W32) : popCount a = BitVec.ofNat 32 ((List.range 32).countP fun i => a.getLsbD i) := by
  unfold popCount laneCount lanesIn
  congr 1
  rw [List.countP_eq_length_filter, allLanes_eq]
  rw [← List.length_map (f := fun (x : Fin 32) => x.val) (as := List.filter _ _)]
  congr 1
  rw [show List.range 32 = (List.finRange 32).map (fun x => x.val) by decide, List.filter_map]
  rfl

theorem lowMask_toNat {w : Nat} (hw : w ≤ 32) : (lowMask w).toNat = 2 ^ w - 1 := by
  have h1 : 2 ^ w ≤ 2 ^ 32 := Nat.pow_le_pow_right (by omega) hw
  have h2 : 0 < 2 ^ w := Nat.two_pow_pos w
  unfold lowMask
  rw [BitVec.toNat_ofNat, Nat.mod_eq_of_lt (by omega)]

theorem and_lowMask (x : W32) {w : Nat} (hw : w ≤ 32) : (x &&& lowMask w).toNat = x.toNat % 2 ^ w := by
  rw [BitVec.toNat_and, lowMask_toNat hw, Nat.and_two_pow_sub_one_eq_mod]

theorem bfx_unsigned (a b : W32) : bitExtract true a b =
    BitVec.ofNat 32 (a.toNat / 2 ^ (b.toNat % 32) % 2 ^ (min (b.toNat / 256 % 64) 32)) := by
  unfold bitExtract
  simp only [fieldPos, fieldWidth]
  have hw : min (b.toNat / 256 % 64) 32 ≤ 32 := Nat.min_le_right _ _
  generalize min (b.toNat / 256 % 64) 32 = w at *
  generalize b.toNat % 32 = p
  apply BitVec.eq_of_toNat_eq
  have h0 := a.isLt
  have h3 := Nat.div_le_self a.toNat (2 ^ p)
  have h4 := Nat.mod_le (a.toNat / 2 ^ p) (2 ^ w)
  have h5 : a.toNat / 2 ^ p % 2 ^ w % 2 ^ 32 = a.toNat / 2 ^ p % 2 ^ w := Nat.mod_eq_of_lt (by omega)
  rw [BitVec.toNat_ofNat, h5]
  split
  · rename_i h; subst h; simp [Nat.mod_one]
  · simp [and_lowMask _ hw, BitVec.toNat_ushiftRight, Nat.shiftRight_eq_div_pow]

theorem bit_lowMask {w i : Nat} (hw : w ≤ 32) : (lowMask w).getLsbD i = decide (i < w) := by
  have : (lowMask w).getLsbD i = (lowMask w).toNat.testBit i := rfl
  rw [this, lowMask_toNat hw, Nat.testBit_two_pow_sub_one]

theorem bmod_signed (y : W32) {w : Nat} (hw : w ≤ 32) :
    BitVec.ofInt 32 (Int.bmod y.toInt (2 ^ w)) = (y.setWidth w).signExtend 32 := by
  have e : Int.bmod y.toInt (2 ^ w) = (y.setWidth w).toInt := by
    rw [BitVec.toInt_setWidth, BitVec.toInt_eq_toNat_bmod, Int.bmod_bmod_of_dvd (Nat.pow_dvd_pow 2 hw)]
  rw [e]; rfl

theorem field_signed (y : W32) {w : Nat} (hw : w ≤ 32) :
    (if w = 0 then 0 else if (y.getLsbD (w - 1)) = true then (y &&& lowMask w) ||| ~~~lowMask w else y &&& lowMask w) =
      BitVec.ofInt 32 (Int.bmod y.toInt (2 ^ w)) := by
  by_cases h0 : w = 0
  · subst h0; simp [Int.bmod_one]
  · rw [if_neg h0, bmod_signed y hw]
    apply BitVec.eq_of_getLsbD_eq
    intro i hi
    rw [BitVec.getLsbD_signExtend]
    have hm : (y.setWidth w).msb = y.getLsbD (w - 1) := by
      rw [BitVec.msb_eq_getLsbD_last]; simp; omega
    rw [hm]
    have hb : (lowMask w).getLsbD i = decide (i < w) := bit_lowMask hw
    cases hs : y.getLsbD (w - 1) <;> by_cases c : i < w <;>
      simp [BitVec.getLsbD_or, BitVec.getLsbD_and, BitVec.getLsbD_not, -BitVec.getLsbD_eq_getElem, hb, hi, c]

theorem bfx_signed (a b : W32) : bitExtract false a b =
    BitVec.ofInt 32 (Int.bmod (a.toInt / 2 ^ (b.toNat % 32)) (2 ^ (min (b.toNat / 256 % 64) 32))) := by
  have hy : (a.sshiftRight (b.toNat % 32)).toInt = a.toInt / 2 ^ (b.toNat % 32) := by
    rw [BitVec.toInt_sshiftRight, Int.shiftRight_eq_div_pow]; norm_cast
  rw [← hy, ← field_signed _ (Nat.min_le_right _ _)]
  simp [bitExtract, fieldPos, fieldWidth]

theorem bfi_eq (a b c : W32) : bitInsert a b c = maskOf fun l =>
    if b.toNat % 32 ≤ l.val ∧ l.val < b.toNat % 32 + min (b.toNat / 256 % 64) 32 then a.getLsbD (l.val - b.toNat % 32)
    else c.getLsbD l.val := by
  unfold bitInsert
  simp only [fieldPos, fieldWidth]
  have hw : min (b.toNat / 256 % 64) 32 ≤ 32 := Nat.min_le_right _ _
  generalize min (b.toNat / 256 % 64) 32 = w at *
  generalize b.toNat % 32 = p
  apply mask_ext
  intro l
  rw [hasLane_maskOf]
  unfold hasLane
  have hl := l.isLt
  simp only [BitVec.getLsbD_or, BitVec.getLsbD_and, BitVec.getLsbD_not, BitVec.getLsbD_shiftLeft, bit_lowMask hw, hl, decide_true, Bool.true_and]
  by_cases h1 : l.val < p
  · have : ¬ p ≤ l.val := by omega
    simp [h1, this]
  · have h2 : p ≤ l.val := by omega
    by_cases h3 : l.val < p + w
    · have : l.val - p < w := by omega
      simp [h1, h2, h3, this]
    · have : ¬ l.val - p < w := by omega
      simp [h1, h2, h3, this]

end Sys2Proof.Machine
end

