-- ==== Sys2Proof/Laws/State.lean ====
section
/-! SUPPORT. What each named update of the state leaves of each field: one lemma per field and update, true by unfolding. -/

namespace Sys2Proof.Machine

/-! ### Updates of the machine -/

section
variable (s : State) (u : Nat) (g : Sheaf → Sheaf)
@[simp] theorem State.modSheaf_bell : (s.modSheaf u g).bell = s.bell := rfl
@[simp] theorem State.modSheaf_free : (s.modSheaf u g).free = s.free := rfl
@[simp] theorem State.modSheaf_nextId : (s.modSheaf u g).nextId = s.nextId := rfl
@[simp] theorem State.modSheaf_events : (s.modSheaf u g).events = s.events := rfl
@[simp] theorem State.modSheaf_cur : (s.modSheaf u g).cur = s.cur := rfl
@[simp] theorem State.modSheaf_issues : (s.modSheaf u g).issues = s.issues := rfl
@[simp] theorem State.modSheaf_sheafs : (s.modSheaf u g).sheafs = amod s.sheafs u g := rfl
@[simp] theorem State.modSheaf_beds : (s.modSheaf u g).beds = s.beds := rfl
@[simp] theorem State.modSheaf_seats : (s.modSheaf u g).seats = s.seats := rfl
@[simp] theorem State.modSheaf_launches : (s.modSheaf u g).launches = s.launches := rfl
@[simp] theorem State.modSheaf_spawns : (s.modSheaf u g).spawns = s.spawns := rfl
@[simp] theorem State.modSheaf_seatImages : (s.modSheaf u g).seatImages = s.seatImages := rfl
@[simp] theorem State.modSheaf_cores : (s.modSheaf u g).cores = s.cores := rfl
@[simp] theorem State.modSheaf_mem : (s.modSheaf u g).mem = s.mem := rfl
@[simp] theorem State.modSheaf_hostMem : (s.modSheaf u g).hostMem = s.hostMem := rfl
@[simp] theorem State.modSheaf_l1 : (s.modSheaf u g).l1 = s.l1 := rfl
@[simp] theorem State.modSheaf_cluster : (s.modSheaf u g).cluster = s.cluster := rfl
@[simp] theorem State.modSheaf_homes : (s.modSheaf u g).homes = s.homes := rfl
@[simp] theorem State.modSheaf_icache : (s.modSheaf u g).icache = s.icache := rfl
@[simp] theorem State.modSheaf_watermarks : (s.modSheaf u g).watermarks = s.watermarks := rfl
@[simp] theorem State.modSheaf_frames : (s.modSheaf u g).frames = s.frames := rfl
@[simp] theorem State.modSheaf_spaces : (s.modSheaf u g).spaces = s.spaces := rfl
@[simp] theorem State.modSheaf_tlb : (s.modSheaf u g).tlb = s.tlb := rfl
@[simp] theorem State.modSheaf_walkWaits : (s.modSheaf u g).walkWaits = s.walkWaits := rfl
@[simp] theorem State.modSheaf_holding : (s.modSheaf u g).holding = s.holding := rfl
@[simp] theorem State.modSheaf_moves : (s.modSheaf u g).moves = s.moves := rfl
@[simp] theorem State.modSheaf_resting : (s.modSheaf u g).resting = s.resting := rfl
@[simp] theorem State.modSheaf_atc : (s.modSheaf u g).atc = s.atc := rfl
@[simp] theorem State.modSheaf_atsReqs : (s.modSheaf u g).atsReqs = s.atsReqs := rfl
@[simp] theorem State.modSheaf_pageReqs : (s.modSheaf u g).pageReqs = s.pageReqs := rfl
@[simp] theorem State.modSheaf_priOff : (s.modSheaf u g).priOff = s.priOff := rfl
@[simp] theorem State.modSheaf_priTimeout : (s.modSheaf u g).priTimeout = s.priTimeout := rfl
@[simp] theorem State.modSheaf_invalidates : (s.modSheaf u g).invalidates = s.invalidates := rfl
@[simp] theorem State.modSheaf_inbound : (s.modSheaf u g).inbound = s.inbound := rfl
@[simp] theorem State.modSheaf_fetchBad : (s.modSheaf u g).fetchBad = s.fetchBad := rfl
@[simp] theorem State.modSheaf_fetchGot : (s.modSheaf u g).fetchGot = s.fetchGot := rfl
@[simp] theorem State.modSheaf_peers : (s.modSheaf u g).peers = s.peers := rfl
@[simp] theorem State.modSheaf_peerHeld : (s.modSheaf u g).peerHeld = s.peerHeld := rfl
@[simp] theorem State.modSheaf_apertures : (s.modSheaf u g).apertures = s.apertures := rfl
@[simp] theorem State.modSheaf_groups : (s.modSheaf u g).groups = s.groups := rfl
@[simp] theorem State.modSheaf_migrations : (s.modSheaf u g).migrations = s.migrations := rfl
@[simp] theorem State.modSheaf_migrationDrops : (s.modSheaf u g).migrationDrops = s.migrationDrops := rfl
@[simp] theorem State.modSheaf_allows : (s.modSheaf u g).allows = s.allows := rfl
@[simp] theorem State.modSheaf_totals : (s.modSheaf u g).totals = s.totals := rfl
@[simp] theorem State.modSheaf_pools : (s.modSheaf u g).pools = s.pools := rfl
@[simp] theorem State.modSheaf_used0 : (s.modSheaf u g).used0 = s.used0 := rfl
@[simp] theorem State.modSheaf_starved : (s.modSheaf u g).starved = s.starved := rfl
@[simp] theorem State.modSheaf_cxlPools : (s.modSheaf u g).cxlPools = s.cxlPools := rfl
@[simp] theorem State.modSheaf_budgets : (s.modSheaf u g).budgets = s.budgets := rfl
@[simp] theorem State.modSheaf_parts : (s.modSheaf u g).parts = s.parts := rfl
@[simp] theorem State.modSheaf_rings : (s.modSheaf u g).rings = s.rings := rfl
@[simp] theorem State.modSheaf_hubGot : (s.modSheaf u g).hubGot = s.hubGot := rfl
@[simp] theorem State.modSheaf_hub : (s.modSheaf u g).hub = s.hub := rfl
@[simp] theorem State.modSheaf_images : (s.modSheaf u g).images = s.images := rfl
@[simp] theorem State.modSheaf_watches : (s.modSheaf u g).watches = s.watches := rfl
@[simp] theorem State.modSheaf_hits : (s.modSheaf u g).hits = s.hits := rfl
@[simp] theorem State.modSheaf_overruns : (s.modSheaf u g).overruns = s.overruns := rfl
@[simp] theorem State.modSheaf_samples : (s.modSheaf u g).samples = s.samples := rfl
@[simp] theorem State.modSheaf_sampleDrops : (s.modSheaf u g).sampleDrops = s.sampleDrops := rfl
@[simp] theorem State.modSheaf_traces : (s.modSheaf u g).traces = s.traces := rfl
@[simp] theorem State.modSheaf_dumps : (s.modSheaf u g).dumps = s.dumps := rfl
@[simp] theorem State.modSheaf_hitLog : (s.modSheaf u g).hitLog = s.hitLog := rfl
@[simp] theorem State.modSheaf_reports : (s.modSheaf u g).reports = s.reports := rfl
@[simp] theorem State.modSheaf_out : (s.modSheaf u g).out = s.out := rfl
@[simp] theorem State.modSheaf_dev : (s.modSheaf u g).dev = s.dev := rfl
end

section
variable (s : State) (sh : Sheaf)
@[simp] theorem State.setShf_bell : (s.setShf sh).bell = s.bell := rfl
@[simp] theorem State.setShf_free : (s.setShf sh).free = s.free := rfl
@[simp] theorem State.setShf_nextId : (s.setShf sh).nextId = s.nextId := rfl
@[simp] theorem State.setShf_events : (s.setShf sh).events = s.events := rfl
@[simp] theorem State.setShf_cur : (s.setShf sh).cur = s.cur := rfl
@[simp] theorem State.setShf_issues : (s.setShf sh).issues = s.issues := rfl
@[simp] theorem State.setShf_sheafs : (s.setShf sh).sheafs = amod s.sheafs s.cur fun _ => sh := rfl
@[simp] theorem State.setShf_beds : (s.setShf sh).beds = s.beds := rfl
@[simp] theorem State.setShf_seats : (s.setShf sh).seats = s.seats := rfl
@[simp] theorem State.setShf_launches : (s.setShf sh).launches = s.launches := rfl
@[simp] theorem State.setShf_spawns : (s.setShf sh).spawns = s.spawns := rfl
@[simp] theorem State.setShf_seatImages : (s.setShf sh).seatImages = s.seatImages := rfl
@[simp] theorem State.setShf_cores : (s.setShf sh).cores = s.cores := rfl
@[simp] theorem State.setShf_mem : (s.setShf sh).mem = s.mem := rfl
@[simp] theorem State.setShf_hostMem : (s.setShf sh).hostMem = s.hostMem := rfl
@[simp] theorem State.setShf_l1 : (s.setShf sh).l1 = s.l1 := rfl
@[simp] theorem State.setShf_cluster : (s.setShf sh).cluster = s.cluster := rfl
@[simp] theorem State.setShf_homes : (s.setShf sh).homes = s.homes := rfl
@[simp] theorem State.setShf_icache : (s.setShf sh).icache = s.icache := rfl
@[simp] theorem State.setShf_watermarks : (s.setShf sh).watermarks = s.watermarks := rfl
@[simp] theorem State.setShf_frames : (s.setShf sh).frames = s.frames := rfl
@[simp] theorem State.setShf_spaces : (s.setShf sh).spaces = s.spaces := rfl
@[simp] theorem State.setShf_tlb : (s.setShf sh).tlb = s.tlb := rfl
@[simp] theorem State.setShf_walkWaits : (s.setShf sh).walkWaits = s.walkWaits := rfl
@[simp] theorem State.setShf_holding : (s.setShf sh).holding = s.holding := rfl
@[simp] theorem State.setShf_moves : (s.setShf sh).moves = s.moves := rfl
@[simp] theorem State.setShf_resting : (s.setShf sh).resting = s.resting := rfl
@[simp] theorem State.setShf_atc : (s.setShf sh).atc = s.atc := rfl
@[simp] theorem State.setShf_atsReqs : (s.setShf sh).atsReqs = s.atsReqs := rfl
@[simp] theorem State.setShf_pageReqs : (s.setShf sh).pageReqs = s.pageReqs := rfl
@[simp] theorem State.setShf_priOff : (s.setShf sh).priOff = s.priOff := rfl
@[simp] theorem State.setShf_priTimeout : (s.setShf sh).priTimeout = s.priTimeout := rfl
@[simp] theorem State.setShf_invalidates : (s.setShf sh).invalidates = s.invalidates := rfl
@[simp] theorem State.setShf_inbound : (s.setShf sh).inbound = s.inbound := rfl
@[simp] theorem State.setShf_fetchBad : (s.setShf sh).fetchBad = s.fetchBad := rfl
@[simp] theorem State.setShf_fetchGot : (s.setShf sh).fetchGot = s.fetchGot := rfl
@[simp] theorem State.setShf_peers : (s.setShf sh).peers = s.peers := rfl
@[simp] theorem State.setShf_peerHeld : (s.setShf sh).peerHeld = s.peerHeld := rfl
@[simp] theorem State.setShf_apertures : (s.setShf sh).apertures = s.apertures := rfl
@[simp] theorem State.setShf_groups : (s.setShf sh).groups = s.groups := rfl
@[simp] theorem State.setShf_migrations : (s.setShf sh).migrations = s.migrations := rfl
@[simp] theorem State.setShf_migrationDrops : (s.setShf sh).migrationDrops = s.migrationDrops := rfl
@[simp] theorem State.setShf_allows : (s.setShf sh).allows = s.allows := rfl
@[simp] theorem State.setShf_totals : (s.setShf sh).totals = s.totals := rfl
@[simp] theorem State.setShf_pools : (s.setShf sh).pools = s.pools := rfl
@[simp] theorem State.setShf_used0 : (s.setShf sh).used0 = s.used0 := rfl
@[simp] theorem State.setShf_starved : (s.setShf sh).starved = s.starved := rfl
@[simp] theorem State.setShf_cxlPools : (s.setShf sh).cxlPools = s.cxlPools := rfl
@[simp] theorem State.setShf_budgets : (s.setShf sh).budgets = s.budgets := rfl
@[simp] theorem State.setShf_parts : (s.setShf sh).parts = s.parts := rfl
@[simp] theorem State.setShf_rings : (s.setShf sh).rings = s.rings := rfl
@[simp] theorem State.setShf_hubGot : (s.setShf sh).hubGot = s.hubGot := rfl
@[simp] theorem State.setShf_hub : (s.setShf sh).hub = s.hub := rfl
@[simp] theorem State.setShf_images : (s.setShf sh).images = s.images := rfl
@[simp] theorem State.setShf_watches : (s.setShf sh).watches = s.watches := rfl
@[simp] theorem State.setShf_hits : (s.setShf sh).hits = s.hits := rfl
@[simp] theorem State.setShf_overruns : (s.setShf sh).overruns = s.overruns := rfl
@[simp] theorem State.setShf_samples : (s.setShf sh).samples = s.samples := rfl
@[simp] theorem State.setShf_sampleDrops : (s.setShf sh).sampleDrops = s.sampleDrops := rfl
@[simp] theorem State.setShf_traces : (s.setShf sh).traces = s.traces := rfl
@[simp] theorem State.setShf_dumps : (s.setShf sh).dumps = s.dumps := rfl
@[simp] theorem State.setShf_hitLog : (s.setShf sh).hitLog = s.hitLog := rfl
@[simp] theorem State.setShf_reports : (s.setShf sh).reports = s.reports := rfl
@[simp] theorem State.setShf_out : (s.setShf sh).out = s.out := rfl
@[simp] theorem State.setShf_dev : (s.setShf sh).dev = s.dev := rfl
end

section
variable (s : State) (e : Event)
@[simp] theorem State.post_bell : (s.post e).bell = s.bell := rfl
@[simp] theorem State.post_free : (s.post e).free = s.free := rfl
@[simp] theorem State.post_nextId : (s.post e).nextId = s.nextId := rfl
@[simp] theorem State.post_events : (s.post e).events = s.events ++ [e] := rfl
@[simp] theorem State.post_cur : (s.post e).cur = s.cur := rfl
@[simp] theorem State.post_issues : (s.post e).issues = s.issues := rfl
@[simp] theorem State.post_sheafs : (s.post e).sheafs = s.sheafs := rfl
@[simp] theorem State.post_beds : (s.post e).beds = s.beds := rfl
@[simp] theorem State.post_seats : (s.post e).seats = s.seats := rfl
@[simp] theorem State.post_launches : (s.post e).launches = s.launches := rfl
@[simp] theorem State.post_spawns : (s.post e).spawns = s.spawns := rfl
@[simp] theorem State.post_seatImages : (s.post e).seatImages = s.seatImages := rfl
@[simp] theorem State.post_cores : (s.post e).cores = s.cores := rfl
@[simp] theorem State.post_mem : (s.post e).mem = s.mem := rfl
@[simp] theorem State.post_hostMem : (s.post e).hostMem = s.hostMem := rfl
@[simp] theorem State.post_l1 : (s.post e).l1 = s.l1 := rfl
@[simp] theorem State.post_cluster : (s.post e).cluster = s.cluster := rfl
@[simp] theorem State.post_homes : (s.post e).homes = s.homes := rfl
@[simp] theorem State.post_icache : (s.post e).icache = s.icache := rfl
@[simp] theorem State.post_watermarks : (s.post e).watermarks = s.watermarks := rfl
@[simp] theorem State.post_frames : (s.post e).frames = s.frames := rfl
@[simp] theorem State.post_spaces : (s.post e).spaces = s.spaces := rfl
@[simp] theorem State.post_tlb : (s.post e).tlb = s.tlb := rfl
@[simp] theorem State.post_walkWaits : (s.post e).walkWaits = s.walkWaits := rfl
@[simp] theorem State.post_holding : (s.post e).holding = s.holding := rfl
@[simp] theorem State.post_moves : (s.post e).moves = s.moves := rfl
@[simp] theorem State.post_resting : (s.post e).resting = s.resting := rfl
@[simp] theorem State.post_atc : (s.post e).atc = s.atc := rfl
@[simp] theorem State.post_atsReqs : (s.post e).atsReqs = s.atsReqs := rfl
@[simp] theorem State.post_pageReqs : (s.post e).pageReqs = s.pageReqs := rfl
@[simp] theorem State.post_priOff : (s.post e).priOff = s.priOff := rfl
@[simp] theorem State.post_priTimeout : (s.post e).priTimeout = s.priTimeout := rfl
@[simp] theorem State.post_invalidates : (s.post e).invalidates = s.invalidates := rfl
@[simp] theorem State.post_inbound : (s.post e).inbound = s.inbound := rfl
@[simp] theorem State.post_fetchBad : (s.post e).fetchBad = s.fetchBad := rfl
@[simp] theorem State.post_fetchGot : (s.post e).fetchGot = s.fetchGot := rfl
@[simp] theorem State.post_peers : (s.post e).peers = s.peers := rfl
@[simp] theorem State.post_peerHeld : (s.post e).peerHeld = s.peerHeld := rfl
@[simp] theorem State.post_apertures : (s.post e).apertures = s.apertures := rfl
@[simp] theorem State.post_groups : (s.post e).groups = s.groups := rfl
@[simp] theorem State.post_migrations : (s.post e).migrations = s.migrations := rfl
@[simp] theorem State.post_migrationDrops : (s.post e).migrationDrops = s.migrationDrops := rfl
@[simp] theorem State.post_allows : (s.post e).allows = s.allows := rfl
@[simp] theorem State.post_totals : (s.post e).totals = s.totals := rfl
@[simp] theorem State.post_pools : (s.post e).pools = s.pools := rfl
@[simp] theorem State.post_used0 : (s.post e).used0 = s.used0 := rfl
@[simp] theorem State.post_starved : (s.post e).starved = s.starved := rfl
@[simp] theorem State.post_cxlPools : (s.post e).cxlPools = s.cxlPools := rfl
@[simp] theorem State.post_budgets : (s.post e).budgets = s.budgets := rfl
@[simp] theorem State.post_parts : (s.post e).parts = s.parts := rfl
@[simp] theorem State.post_rings : (s.post e).rings = s.rings := rfl
@[simp] theorem State.post_hubGot : (s.post e).hubGot = s.hubGot := rfl
@[simp] theorem State.post_hub : (s.post e).hub = s.hub := rfl
@[simp] theorem State.post_images : (s.post e).images = s.images := rfl
@[simp] theorem State.post_watches : (s.post e).watches = s.watches := rfl
@[simp] theorem State.post_hits : (s.post e).hits = s.hits := rfl
@[simp] theorem State.post_overruns : (s.post e).overruns = s.overruns := rfl
@[simp] theorem State.post_samples : (s.post e).samples = s.samples := rfl
@[simp] theorem State.post_sampleDrops : (s.post e).sampleDrops = s.sampleDrops := rfl
@[simp] theorem State.post_traces : (s.post e).traces = s.traces := rfl
@[simp] theorem State.post_dumps : (s.post e).dumps = s.dumps := rfl
@[simp] theorem State.post_hitLog : (s.post e).hitLog = s.hitLog := rfl
@[simp] theorem State.post_reports : (s.post e).reports = s.reports := rfl
@[simp] theorem State.post_out : (s.post e).out = s.out := rfl
@[simp] theorem State.post_dev : (s.post e).dev = s.dev := rfl
end

section
variable (s : State) (e : Event)
@[simp] theorem State.again_bell : (s.again e).bell = s.bell := rfl
@[simp] theorem State.again_free : (s.again e).free = s.free := rfl
@[simp] theorem State.again_nextId : (s.again e).nextId = s.nextId := rfl
@[simp] theorem State.again_events : (s.again e).events = e :: s.events := rfl
@[simp] theorem State.again_cur : (s.again e).cur = s.cur := rfl
@[simp] theorem State.again_issues : (s.again e).issues = s.issues := rfl
@[simp] theorem State.again_sheafs : (s.again e).sheafs = s.sheafs := rfl
@[simp] theorem State.again_beds : (s.again e).beds = s.beds := rfl
@[simp] theorem State.again_seats : (s.again e).seats = s.seats := rfl
@[simp] theorem State.again_launches : (s.again e).launches = s.launches := rfl
@[simp] theorem State.again_spawns : (s.again e).spawns = s.spawns := rfl
@[simp] theorem State.again_seatImages : (s.again e).seatImages = s.seatImages := rfl
@[simp] theorem State.again_cores : (s.again e).cores = s.cores := rfl
@[simp] theorem State.again_mem : (s.again e).mem = s.mem := rfl
@[simp] theorem State.again_hostMem : (s.again e).hostMem = s.hostMem := rfl
@[simp] theorem State.again_l1 : (s.again e).l1 = s.l1 := rfl
@[simp] theorem State.again_cluster : (s.again e).cluster = s.cluster := rfl
@[simp] theorem State.again_homes : (s.again e).homes = s.homes := rfl
@[simp] theorem State.again_icache : (s.again e).icache = s.icache := rfl
@[simp] theorem State.again_watermarks : (s.again e).watermarks = s.watermarks := rfl
@[simp] theorem State.again_frames : (s.again e).frames = s.frames := rfl
@[simp] theorem State.again_spaces : (s.again e).spaces = s.spaces := rfl
@[simp] theorem State.again_tlb : (s.again e).tlb = s.tlb := rfl
@[simp] theorem State.again_walkWaits : (s.again e).walkWaits = s.walkWaits := rfl
@[simp] theorem State.again_holding : (s.again e).holding = s.holding := rfl
@[simp] theorem State.again_moves : (s.again e).moves = s.moves := rfl
@[simp] theorem State.again_resting : (s.again e).resting = s.resting := rfl
@[simp] theorem State.again_atc : (s.again e).atc = s.atc := rfl
@[simp] theorem State.again_atsReqs : (s.again e).atsReqs = s.atsReqs := rfl
@[simp] theorem State.again_pageReqs : (s.again e).pageReqs = s.pageReqs := rfl
@[simp] theorem State.again_priOff : (s.again e).priOff = s.priOff := rfl
@[simp] theorem State.again_priTimeout : (s.again e).priTimeout = s.priTimeout := rfl
@[simp] theorem State.again_invalidates : (s.again e).invalidates = s.invalidates := rfl
@[simp] theorem State.again_inbound : (s.again e).inbound = s.inbound := rfl
@[simp] theorem State.again_fetchBad : (s.again e).fetchBad = s.fetchBad := rfl
@[simp] theorem State.again_fetchGot : (s.again e).fetchGot = s.fetchGot := rfl
@[simp] theorem State.again_peers : (s.again e).peers = s.peers := rfl
@[simp] theorem State.again_peerHeld : (s.again e).peerHeld = s.peerHeld := rfl
@[simp] theorem State.again_apertures : (s.again e).apertures = s.apertures := rfl
@[simp] theorem State.again_groups : (s.again e).groups = s.groups := rfl
@[simp] theorem State.again_migrations : (s.again e).migrations = s.migrations := rfl
@[simp] theorem State.again_migrationDrops : (s.again e).migrationDrops = s.migrationDrops := rfl
@[simp] theorem State.again_allows : (s.again e).allows = s.allows := rfl
@[simp] theorem State.again_totals : (s.again e).totals = s.totals := rfl
@[simp] theorem State.again_pools : (s.again e).pools = s.pools := rfl
@[simp] theorem State.again_used0 : (s.again e).used0 = s.used0 := rfl
@[simp] theorem State.again_starved : (s.again e).starved = s.starved := rfl
@[simp] theorem State.again_cxlPools : (s.again e).cxlPools = s.cxlPools := rfl
@[simp] theorem State.again_budgets : (s.again e).budgets = s.budgets := rfl
@[simp] theorem State.again_parts : (s.again e).parts = s.parts := rfl
@[simp] theorem State.again_rings : (s.again e).rings = s.rings := rfl
@[simp] theorem State.again_hubGot : (s.again e).hubGot = s.hubGot := rfl
@[simp] theorem State.again_hub : (s.again e).hub = s.hub := rfl
@[simp] theorem State.again_images : (s.again e).images = s.images := rfl
@[simp] theorem State.again_watches : (s.again e).watches = s.watches := rfl
@[simp] theorem State.again_hits : (s.again e).hits = s.hits := rfl
@[simp] theorem State.again_overruns : (s.again e).overruns = s.overruns := rfl
@[simp] theorem State.again_samples : (s.again e).samples = s.samples := rfl
@[simp] theorem State.again_sampleDrops : (s.again e).sampleDrops = s.sampleDrops := rfl
@[simp] theorem State.again_traces : (s.again e).traces = s.traces := rfl
@[simp] theorem State.again_dumps : (s.again e).dumps = s.dumps := rfl
@[simp] theorem State.again_hitLog : (s.again e).hitLog = s.hitLog := rfl
@[simp] theorem State.again_reports : (s.again e).reports = s.reports := rfl
@[simp] theorem State.again_out : (s.again e).out = s.out := rfl
@[simp] theorem State.again_dev : (s.again e).dev = s.dev := rfl
end

section
variable (s : State) (r : Report)
@[simp] theorem State.report_bell : (s.report r).bell = s.bell := rfl
@[simp] theorem State.report_free : (s.report r).free = s.free := rfl
@[simp] theorem State.report_nextId : (s.report r).nextId = s.nextId := rfl
@[simp] theorem State.report_events : (s.report r).events = s.events := rfl
@[simp] theorem State.report_cur : (s.report r).cur = s.cur := rfl
@[simp] theorem State.report_issues : (s.report r).issues = s.issues := rfl
@[simp] theorem State.report_sheafs : (s.report r).sheafs = s.sheafs := rfl
@[simp] theorem State.report_beds : (s.report r).beds = s.beds := rfl
@[simp] theorem State.report_seats : (s.report r).seats = s.seats := rfl
@[simp] theorem State.report_launches : (s.report r).launches = s.launches := rfl
@[simp] theorem State.report_spawns : (s.report r).spawns = s.spawns := rfl
@[simp] theorem State.report_seatImages : (s.report r).seatImages = s.seatImages := rfl
@[simp] theorem State.report_cores : (s.report r).cores = s.cores := rfl
@[simp] theorem State.report_mem : (s.report r).mem = s.mem := rfl
@[simp] theorem State.report_hostMem : (s.report r).hostMem = s.hostMem := rfl
@[simp] theorem State.report_l1 : (s.report r).l1 = s.l1 := rfl
@[simp] theorem State.report_cluster : (s.report r).cluster = s.cluster := rfl
@[simp] theorem State.report_homes : (s.report r).homes = s.homes := rfl
@[simp] theorem State.report_icache : (s.report r).icache = s.icache := rfl
@[simp] theorem State.report_watermarks : (s.report r).watermarks = s.watermarks := rfl
@[simp] theorem State.report_frames : (s.report r).frames = s.frames := rfl
@[simp] theorem State.report_spaces : (s.report r).spaces = s.spaces := rfl
@[simp] theorem State.report_tlb : (s.report r).tlb = s.tlb := rfl
@[simp] theorem State.report_walkWaits : (s.report r).walkWaits = s.walkWaits := rfl
@[simp] theorem State.report_holding : (s.report r).holding = s.holding := rfl
@[simp] theorem State.report_moves : (s.report r).moves = s.moves := rfl
@[simp] theorem State.report_resting : (s.report r).resting = s.resting := rfl
@[simp] theorem State.report_atc : (s.report r).atc = s.atc := rfl
@[simp] theorem State.report_atsReqs : (s.report r).atsReqs = s.atsReqs := rfl
@[simp] theorem State.report_pageReqs : (s.report r).pageReqs = s.pageReqs := rfl
@[simp] theorem State.report_priOff : (s.report r).priOff = s.priOff := rfl
@[simp] theorem State.report_priTimeout : (s.report r).priTimeout = s.priTimeout := rfl
@[simp] theorem State.report_invalidates : (s.report r).invalidates = s.invalidates := rfl
@[simp] theorem State.report_inbound : (s.report r).inbound = s.inbound := rfl
@[simp] theorem State.report_fetchBad : (s.report r).fetchBad = s.fetchBad := rfl
@[simp] theorem State.report_fetchGot : (s.report r).fetchGot = s.fetchGot := rfl
@[simp] theorem State.report_peers : (s.report r).peers = s.peers := rfl
@[simp] theorem State.report_peerHeld : (s.report r).peerHeld = s.peerHeld := rfl
@[simp] theorem State.report_apertures : (s.report r).apertures = s.apertures := rfl
@[simp] theorem State.report_groups : (s.report r).groups = s.groups := rfl
@[simp] theorem State.report_migrations : (s.report r).migrations = s.migrations := rfl
@[simp] theorem State.report_migrationDrops : (s.report r).migrationDrops = s.migrationDrops := rfl
@[simp] theorem State.report_allows : (s.report r).allows = s.allows := rfl
@[simp] theorem State.report_totals : (s.report r).totals = s.totals := rfl
@[simp] theorem State.report_pools : (s.report r).pools = s.pools := rfl
@[simp] theorem State.report_used0 : (s.report r).used0 = s.used0 := rfl
@[simp] theorem State.report_starved : (s.report r).starved = s.starved := rfl
@[simp] theorem State.report_cxlPools : (s.report r).cxlPools = s.cxlPools := rfl
@[simp] theorem State.report_budgets : (s.report r).budgets = s.budgets := rfl
@[simp] theorem State.report_parts : (s.report r).parts = s.parts := rfl
@[simp] theorem State.report_rings : (s.report r).rings = s.rings := rfl
@[simp] theorem State.report_hubGot : (s.report r).hubGot = s.hubGot := rfl
@[simp] theorem State.report_hub : (s.report r).hub = s.hub := rfl
@[simp] theorem State.report_images : (s.report r).images = s.images := rfl
@[simp] theorem State.report_watches : (s.report r).watches = s.watches := rfl
@[simp] theorem State.report_hits : (s.report r).hits = s.hits := rfl
@[simp] theorem State.report_overruns : (s.report r).overruns = s.overruns := rfl
@[simp] theorem State.report_samples : (s.report r).samples = s.samples := rfl
@[simp] theorem State.report_sampleDrops : (s.report r).sampleDrops = s.sampleDrops := rfl
@[simp] theorem State.report_traces : (s.report r).traces = s.traces := rfl
@[simp] theorem State.report_dumps : (s.report r).dumps = s.dumps := rfl
@[simp] theorem State.report_hitLog : (s.report r).hitLog = s.hitLog := rfl
@[simp] theorem State.report_reports : (s.report r).reports = s.reports ++ [r] := rfl
@[simp] theorem State.report_out : (s.report r).out = s.out := rfl
@[simp] theorem State.report_dev : (s.report r).dev = s.dev := rfl
end

section
variable (s : State) (o : HostOut)
@[simp] theorem State.emit_bell : (s.emit o).bell = s.bell := rfl
@[simp] theorem State.emit_free : (s.emit o).free = s.free := rfl
@[simp] theorem State.emit_nextId : (s.emit o).nextId = s.nextId := rfl
@[simp] theorem State.emit_events : (s.emit o).events = s.events := rfl
@[simp] theorem State.emit_cur : (s.emit o).cur = s.cur := rfl
@[simp] theorem State.emit_issues : (s.emit o).issues = s.issues := rfl
@[simp] theorem State.emit_sheafs : (s.emit o).sheafs = s.sheafs := rfl
@[simp] theorem State.emit_beds : (s.emit o).beds = s.beds := rfl
@[simp] theorem State.emit_seats : (s.emit o).seats = s.seats := rfl
@[simp] theorem State.emit_launches : (s.emit o).launches = s.launches := rfl
@[simp] theorem State.emit_spawns : (s.emit o).spawns = s.spawns := rfl
@[simp] theorem State.emit_seatImages : (s.emit o).seatImages = s.seatImages := rfl
@[simp] theorem State.emit_cores : (s.emit o).cores = s.cores := rfl
@[simp] theorem State.emit_mem : (s.emit o).mem = s.mem := rfl
@[simp] theorem State.emit_hostMem : (s.emit o).hostMem = s.hostMem := rfl
@[simp] theorem State.emit_l1 : (s.emit o).l1 = s.l1 := rfl
@[simp] theorem State.emit_cluster : (s.emit o).cluster = s.cluster := rfl
@[simp] theorem State.emit_homes : (s.emit o).homes = s.homes := rfl
@[simp] theorem State.emit_icache : (s.emit o).icache = s.icache := rfl
@[simp] theorem State.emit_watermarks : (s.emit o).watermarks = s.watermarks := rfl
@[simp] theorem State.emit_frames : (s.emit o).frames = s.frames := rfl
@[simp] theorem State.emit_spaces : (s.emit o).spaces = s.spaces := rfl
@[simp] theorem State.emit_tlb : (s.emit o).tlb = s.tlb := rfl
@[simp] theorem State.emit_walkWaits : (s.emit o).walkWaits = s.walkWaits := rfl
@[simp] theorem State.emit_holding : (s.emit o).holding = s.holding := rfl
@[simp] theorem State.emit_moves : (s.emit o).moves = s.moves := rfl
@[simp] theorem State.emit_resting : (s.emit o).resting = s.resting := rfl
@[simp] theorem State.emit_atc : (s.emit o).atc = s.atc := rfl
@[simp] theorem State.emit_atsReqs : (s.emit o).atsReqs = s.atsReqs := rfl
@[simp] theorem State.emit_pageReqs : (s.emit o).pageReqs = s.pageReqs := rfl
@[simp] theorem State.emit_priOff : (s.emit o).priOff = s.priOff := rfl
@[simp] theorem State.emit_priTimeout : (s.emit o).priTimeout = s.priTimeout := rfl
@[simp] theorem State.emit_invalidates : (s.emit o).invalidates = s.invalidates := rfl
@[simp] theorem State.emit_inbound : (s.emit o).inbound = s.inbound := rfl
@[simp] theorem State.emit_fetchBad : (s.emit o).fetchBad = s.fetchBad := rfl
@[simp] theorem State.emit_fetchGot : (s.emit o).fetchGot = s.fetchGot := rfl
@[simp] theorem State.emit_peers : (s.emit o).peers = s.peers := rfl
@[simp] theorem State.emit_peerHeld : (s.emit o).peerHeld = s.peerHeld := rfl
@[simp] theorem State.emit_apertures : (s.emit o).apertures = s.apertures := rfl
@[simp] theorem State.emit_groups : (s.emit o).groups = s.groups := rfl
@[simp] theorem State.emit_migrations : (s.emit o).migrations = s.migrations := rfl
@[simp] theorem State.emit_migrationDrops : (s.emit o).migrationDrops = s.migrationDrops := rfl
@[simp] theorem State.emit_allows : (s.emit o).allows = s.allows := rfl
@[simp] theorem State.emit_totals : (s.emit o).totals = s.totals := rfl
@[simp] theorem State.emit_pools : (s.emit o).pools = s.pools := rfl
@[simp] theorem State.emit_used0 : (s.emit o).used0 = s.used0 := rfl
@[simp] theorem State.emit_starved : (s.emit o).starved = s.starved := rfl
@[simp] theorem State.emit_cxlPools : (s.emit o).cxlPools = s.cxlPools := rfl
@[simp] theorem State.emit_budgets : (s.emit o).budgets = s.budgets := rfl
@[simp] theorem State.emit_parts : (s.emit o).parts = s.parts := rfl
@[simp] theorem State.emit_rings : (s.emit o).rings = s.rings := rfl
@[simp] theorem State.emit_hubGot : (s.emit o).hubGot = s.hubGot := rfl
@[simp] theorem State.emit_hub : (s.emit o).hub = s.hub := rfl
@[simp] theorem State.emit_images : (s.emit o).images = s.images := rfl
@[simp] theorem State.emit_watches : (s.emit o).watches = s.watches := rfl
@[simp] theorem State.emit_hits : (s.emit o).hits = s.hits := rfl
@[simp] theorem State.emit_overruns : (s.emit o).overruns = s.overruns := rfl
@[simp] theorem State.emit_samples : (s.emit o).samples = s.samples := rfl
@[simp] theorem State.emit_sampleDrops : (s.emit o).sampleDrops = s.sampleDrops := rfl
@[simp] theorem State.emit_traces : (s.emit o).traces = s.traces := rfl
@[simp] theorem State.emit_dumps : (s.emit o).dumps = s.dumps := rfl
@[simp] theorem State.emit_hitLog : (s.emit o).hitLog = s.hitLog := rfl
@[simp] theorem State.emit_reports : (s.emit o).reports = s.reports := rfl
@[simp] theorem State.emit_out : (s.emit o).out = s.out ++ [o] := rfl
@[simp] theorem State.emit_dev : (s.emit o).dev = s.dev := rfl
end

section
variable (s : State) (core seat : Nat) (g : Seat → Seat)
@[simp] theorem State.modSeat_bell : (s.modSeat core seat g).bell = s.bell := rfl
@[simp] theorem State.modSeat_free : (s.modSeat core seat g).free = s.free := rfl
@[simp] theorem State.modSeat_nextId : (s.modSeat core seat g).nextId = s.nextId := rfl
@[simp] theorem State.modSeat_events : (s.modSeat core seat g).events = s.events := rfl
@[simp] theorem State.modSeat_cur : (s.modSeat core seat g).cur = s.cur := rfl
@[simp] theorem State.modSeat_issues : (s.modSeat core seat g).issues = s.issues := rfl
@[simp] theorem State.modSeat_sheafs : (s.modSeat core seat g).sheafs = s.sheafs := rfl
@[simp] theorem State.modSeat_beds : (s.modSeat core seat g).beds = s.beds := rfl
@[simp] theorem State.modSeat_seats : (s.modSeat core seat g).seats = amod s.seats (State.seatKey core seat) g := rfl
@[simp] theorem State.modSeat_launches : (s.modSeat core seat g).launches = s.launches := rfl
@[simp] theorem State.modSeat_spawns : (s.modSeat core seat g).spawns = s.spawns := rfl
@[simp] theorem State.modSeat_seatImages : (s.modSeat core seat g).seatImages = s.seatImages := rfl
@[simp] theorem State.modSeat_cores : (s.modSeat core seat g).cores = s.cores := rfl
@[simp] theorem State.modSeat_mem : (s.modSeat core seat g).mem = s.mem := rfl
@[simp] theorem State.modSeat_hostMem : (s.modSeat core seat g).hostMem = s.hostMem := rfl
@[simp] theorem State.modSeat_l1 : (s.modSeat core seat g).l1 = s.l1 := rfl
@[simp] theorem State.modSeat_cluster : (s.modSeat core seat g).cluster = s.cluster := rfl
@[simp] theorem State.modSeat_homes : (s.modSeat core seat g).homes = s.homes := rfl
@[simp] theorem State.modSeat_icache : (s.modSeat core seat g).icache = s.icache := rfl
@[simp] theorem State.modSeat_watermarks : (s.modSeat core seat g).watermarks = s.watermarks := rfl
@[simp] theorem State.modSeat_frames : (s.modSeat core seat g).frames = s.frames := rfl
@[simp] theorem State.modSeat_spaces : (s.modSeat core seat g).spaces = s.spaces := rfl
@[simp] theorem State.modSeat_tlb : (s.modSeat core seat g).tlb = s.tlb := rfl
@[simp] theorem State.modSeat_walkWaits : (s.modSeat core seat g).walkWaits = s.walkWaits := rfl
@[simp] theorem State.modSeat_holding : (s.modSeat core seat g).holding = s.holding := rfl
@[simp] theorem State.modSeat_moves : (s.modSeat core seat g).moves = s.moves := rfl
@[simp] theorem State.modSeat_resting : (s.modSeat core seat g).resting = s.resting := rfl
@[simp] theorem State.modSeat_atc : (s.modSeat core seat g).atc = s.atc := rfl
@[simp] theorem State.modSeat_atsReqs : (s.modSeat core seat g).atsReqs = s.atsReqs := rfl
@[simp] theorem State.modSeat_pageReqs : (s.modSeat core seat g).pageReqs = s.pageReqs := rfl
@[simp] theorem State.modSeat_priOff : (s.modSeat core seat g).priOff = s.priOff := rfl
@[simp] theorem State.modSeat_priTimeout : (s.modSeat core seat g).priTimeout = s.priTimeout := rfl
@[simp] theorem State.modSeat_invalidates : (s.modSeat core seat g).invalidates = s.invalidates := rfl
@[simp] theorem State.modSeat_inbound : (s.modSeat core seat g).inbound = s.inbound := rfl
@[simp] theorem State.modSeat_fetchBad : (s.modSeat core seat g).fetchBad = s.fetchBad := rfl
@[simp] theorem State.modSeat_fetchGot : (s.modSeat core seat g).fetchGot = s.fetchGot := rfl
@[simp] theorem State.modSeat_peers : (s.modSeat core seat g).peers = s.peers := rfl
@[simp] theorem State.modSeat_peerHeld : (s.modSeat core seat g).peerHeld = s.peerHeld := rfl
@[simp] theorem State.modSeat_apertures : (s.modSeat core seat g).apertures = s.apertures := rfl
@[simp] theorem State.modSeat_groups : (s.modSeat core seat g).groups = s.groups := rfl
@[simp] theorem State.modSeat_migrations : (s.modSeat core seat g).migrations = s.migrations := rfl
@[simp] theorem State.modSeat_migrationDrops : (s.modSeat core seat g).migrationDrops = s.migrationDrops := rfl
@[simp] theorem State.modSeat_allows : (s.modSeat core seat g).allows = s.allows := rfl
@[simp] theorem State.modSeat_totals : (s.modSeat core seat g).totals = s.totals := rfl
@[simp] theorem State.modSeat_pools : (s.modSeat core seat g).pools = s.pools := rfl
@[simp] theorem State.modSeat_used0 : (s.modSeat core seat g).used0 = s.used0 := rfl
@[simp] theorem State.modSeat_starved : (s.modSeat core seat g).starved = s.starved := rfl
@[simp] theorem State.modSeat_cxlPools : (s.modSeat core seat g).cxlPools = s.cxlPools := rfl
@[simp] theorem State.modSeat_budgets : (s.modSeat core seat g).budgets = s.budgets := rfl
@[simp] theorem State.modSeat_parts : (s.modSeat core seat g).parts = s.parts := rfl
@[simp] theorem State.modSeat_rings : (s.modSeat core seat g).rings = s.rings := rfl
@[simp] theorem State.modSeat_hubGot : (s.modSeat core seat g).hubGot = s.hubGot := rfl
@[simp] theorem State.modSeat_hub : (s.modSeat core seat g).hub = s.hub := rfl
@[simp] theorem State.modSeat_images : (s.modSeat core seat g).images = s.images := rfl
@[simp] theorem State.modSeat_watches : (s.modSeat core seat g).watches = s.watches := rfl
@[simp] theorem State.modSeat_hits : (s.modSeat core seat g).hits = s.hits := rfl
@[simp] theorem State.modSeat_overruns : (s.modSeat core seat g).overruns = s.overruns := rfl
@[simp] theorem State.modSeat_samples : (s.modSeat core seat g).samples = s.samples := rfl
@[simp] theorem State.modSeat_sampleDrops : (s.modSeat core seat g).sampleDrops = s.sampleDrops := rfl
@[simp] theorem State.modSeat_traces : (s.modSeat core seat g).traces = s.traces := rfl
@[simp] theorem State.modSeat_dumps : (s.modSeat core seat g).dumps = s.dumps := rfl
@[simp] theorem State.modSeat_hitLog : (s.modSeat core seat g).hitLog = s.hitLog := rfl
@[simp] theorem State.modSeat_reports : (s.modSeat core seat g).reports = s.reports := rfl
@[simp] theorem State.modSeat_out : (s.modSeat core seat g).out = s.out := rfl
@[simp] theorem State.modSeat_dev : (s.modSeat core seat g).dev = s.dev := rfl
end

section
variable (s : State) (k : Nat) (g : Launch → Launch)
@[simp] theorem State.modLaunch_bell : (s.modLaunch k g).bell = s.bell := rfl
@[simp] theorem State.modLaunch_free : (s.modLaunch k g).free = s.free := rfl
@[simp] theorem State.modLaunch_nextId : (s.modLaunch k g).nextId = s.nextId := rfl
@[simp] theorem State.modLaunch_events : (s.modLaunch k g).events = s.events := rfl
@[simp] theorem State.modLaunch_cur : (s.modLaunch k g).cur = s.cur := rfl
@[simp] theorem State.modLaunch_issues : (s.modLaunch k g).issues = s.issues := rfl
@[simp] theorem State.modLaunch_sheafs : (s.modLaunch k g).sheafs = s.sheafs := rfl
@[simp] theorem State.modLaunch_beds : (s.modLaunch k g).beds = s.beds := rfl
@[simp] theorem State.modLaunch_seats : (s.modLaunch k g).seats = s.seats := rfl
@[simp] theorem State.modLaunch_launches : (s.modLaunch k g).launches = amod s.launches k g := rfl
@[simp] theorem State.modLaunch_spawns : (s.modLaunch k g).spawns = s.spawns := rfl
@[simp] theorem State.modLaunch_seatImages : (s.modLaunch k g).seatImages = s.seatImages := rfl
@[simp] theorem State.modLaunch_cores : (s.modLaunch k g).cores = s.cores := rfl
@[simp] theorem State.modLaunch_mem : (s.modLaunch k g).mem = s.mem := rfl
@[simp] theorem State.modLaunch_hostMem : (s.modLaunch k g).hostMem = s.hostMem := rfl
@[simp] theorem State.modLaunch_l1 : (s.modLaunch k g).l1 = s.l1 := rfl
@[simp] theorem State.modLaunch_cluster : (s.modLaunch k g).cluster = s.cluster := rfl
@[simp] theorem State.modLaunch_homes : (s.modLaunch k g).homes = s.homes := rfl
@[simp] theorem State.modLaunch_icache : (s.modLaunch k g).icache = s.icache := rfl
@[simp] theorem State.modLaunch_watermarks : (s.modLaunch k g).watermarks = s.watermarks := rfl
@[simp] theorem State.modLaunch_frames : (s.modLaunch k g).frames = s.frames := rfl
@[simp] theorem State.modLaunch_spaces : (s.modLaunch k g).spaces = s.spaces := rfl
@[simp] theorem State.modLaunch_tlb : (s.modLaunch k g).tlb = s.tlb := rfl
@[simp] theorem State.modLaunch_walkWaits : (s.modLaunch k g).walkWaits = s.walkWaits := rfl
@[simp] theorem State.modLaunch_holding : (s.modLaunch k g).holding = s.holding := rfl
@[simp] theorem State.modLaunch_moves : (s.modLaunch k g).moves = s.moves := rfl
@[simp] theorem State.modLaunch_resting : (s.modLaunch k g).resting = s.resting := rfl
@[simp] theorem State.modLaunch_atc : (s.modLaunch k g).atc = s.atc := rfl
@[simp] theorem State.modLaunch_atsReqs : (s.modLaunch k g).atsReqs = s.atsReqs := rfl
@[simp] theorem State.modLaunch_pageReqs : (s.modLaunch k g).pageReqs = s.pageReqs := rfl
@[simp] theorem State.modLaunch_priOff : (s.modLaunch k g).priOff = s.priOff := rfl
@[simp] theorem State.modLaunch_priTimeout : (s.modLaunch k g).priTimeout = s.priTimeout := rfl
@[simp] theorem State.modLaunch_invalidates : (s.modLaunch k g).invalidates = s.invalidates := rfl
@[simp] theorem State.modLaunch_inbound : (s.modLaunch k g).inbound = s.inbound := rfl
@[simp] theorem State.modLaunch_fetchBad : (s.modLaunch k g).fetchBad = s.fetchBad := rfl
@[simp] theorem State.modLaunch_fetchGot : (s.modLaunch k g).fetchGot = s.fetchGot := rfl
@[simp] theorem State.modLaunch_peers : (s.modLaunch k g).peers = s.peers := rfl
@[simp] theorem State.modLaunch_peerHeld : (s.modLaunch k g).peerHeld = s.peerHeld := rfl
@[simp] theorem State.modLaunch_apertures : (s.modLaunch k g).apertures = s.apertures := rfl
@[simp] theorem State.modLaunch_groups : (s.modLaunch k g).groups = s.groups := rfl
@[simp] theorem State.modLaunch_migrations : (s.modLaunch k g).migrations = s.migrations := rfl
@[simp] theorem State.modLaunch_migrationDrops : (s.modLaunch k g).migrationDrops = s.migrationDrops := rfl
@[simp] theorem State.modLaunch_allows : (s.modLaunch k g).allows = s.allows := rfl
@[simp] theorem State.modLaunch_totals : (s.modLaunch k g).totals = s.totals := rfl
@[simp] theorem State.modLaunch_pools : (s.modLaunch k g).pools = s.pools := rfl
@[simp] theorem State.modLaunch_used0 : (s.modLaunch k g).used0 = s.used0 := rfl
@[simp] theorem State.modLaunch_starved : (s.modLaunch k g).starved = s.starved := rfl
@[simp] theorem State.modLaunch_cxlPools : (s.modLaunch k g).cxlPools = s.cxlPools := rfl
@[simp] theorem State.modLaunch_budgets : (s.modLaunch k g).budgets = s.budgets := rfl
@[simp] theorem State.modLaunch_parts : (s.modLaunch k g).parts = s.parts := rfl
@[simp] theorem State.modLaunch_rings : (s.modLaunch k g).rings = s.rings := rfl
@[simp] theorem State.modLaunch_hubGot : (s.modLaunch k g).hubGot = s.hubGot := rfl
@[simp] theorem State.modLaunch_hub : (s.modLaunch k g).hub = s.hub := rfl
@[simp] theorem State.modLaunch_images : (s.modLaunch k g).images = s.images := rfl
@[simp] theorem State.modLaunch_watches : (s.modLaunch k g).watches = s.watches := rfl
@[simp] theorem State.modLaunch_hits : (s.modLaunch k g).hits = s.hits := rfl
@[simp] theorem State.modLaunch_overruns : (s.modLaunch k g).overruns = s.overruns := rfl
@[simp] theorem State.modLaunch_samples : (s.modLaunch k g).samples = s.samples := rfl
@[simp] theorem State.modLaunch_sampleDrops : (s.modLaunch k g).sampleDrops = s.sampleDrops := rfl
@[simp] theorem State.modLaunch_traces : (s.modLaunch k g).traces = s.traces := rfl
@[simp] theorem State.modLaunch_dumps : (s.modLaunch k g).dumps = s.dumps := rfl
@[simp] theorem State.modLaunch_hitLog : (s.modLaunch k g).hitLog = s.hitLog := rfl
@[simp] theorem State.modLaunch_reports : (s.modLaunch k g).reports = s.reports := rfl
@[simp] theorem State.modLaunch_out : (s.modLaunch k g).out = s.out := rfl
@[simp] theorem State.modLaunch_dev : (s.modLaunch k g).dev = s.dev := rfl
end

section
variable (s : State) (k : Nat) (g : Bed → Bed)
@[simp] theorem State.modBed_bell : (s.modBed k g).bell = s.bell := rfl
@[simp] theorem State.modBed_free : (s.modBed k g).free = s.free := rfl
@[simp] theorem State.modBed_nextId : (s.modBed k g).nextId = s.nextId := rfl
@[simp] theorem State.modBed_events : (s.modBed k g).events = s.events := rfl
@[simp] theorem State.modBed_cur : (s.modBed k g).cur = s.cur := rfl
@[simp] theorem State.modBed_issues : (s.modBed k g).issues = s.issues := rfl
@[simp] theorem State.modBed_sheafs : (s.modBed k g).sheafs = s.sheafs := rfl
@[simp] theorem State.modBed_beds : (s.modBed k g).beds = amod s.beds k g := rfl
@[simp] theorem State.modBed_seats : (s.modBed k g).seats = s.seats := rfl
@[simp] theorem State.modBed_launches : (s.modBed k g).launches = s.launches := rfl
@[simp] theorem State.modBed_spawns : (s.modBed k g).spawns = s.spawns := rfl
@[simp] theorem State.modBed_seatImages : (s.modBed k g).seatImages = s.seatImages := rfl
@[simp] theorem State.modBed_cores : (s.modBed k g).cores = s.cores := rfl
@[simp] theorem State.modBed_mem : (s.modBed k g).mem = s.mem := rfl
@[simp] theorem State.modBed_hostMem : (s.modBed k g).hostMem = s.hostMem := rfl
@[simp] theorem State.modBed_l1 : (s.modBed k g).l1 = s.l1 := rfl
@[simp] theorem State.modBed_cluster : (s.modBed k g).cluster = s.cluster := rfl
@[simp] theorem State.modBed_homes : (s.modBed k g).homes = s.homes := rfl
@[simp] theorem State.modBed_icache : (s.modBed k g).icache = s.icache := rfl
@[simp] theorem State.modBed_watermarks : (s.modBed k g).watermarks = s.watermarks := rfl
@[simp] theorem State.modBed_frames : (s.modBed k g).frames = s.frames := rfl
@[simp] theorem State.modBed_spaces : (s.modBed k g).spaces = s.spaces := rfl
@[simp] theorem State.modBed_tlb : (s.modBed k g).tlb = s.tlb := rfl
@[simp] theorem State.modBed_walkWaits : (s.modBed k g).walkWaits = s.walkWaits := rfl
@[simp] theorem State.modBed_holding : (s.modBed k g).holding = s.holding := rfl
@[simp] theorem State.modBed_moves : (s.modBed k g).moves = s.moves := rfl
@[simp] theorem State.modBed_resting : (s.modBed k g).resting = s.resting := rfl
@[simp] theorem State.modBed_atc : (s.modBed k g).atc = s.atc := rfl
@[simp] theorem State.modBed_atsReqs : (s.modBed k g).atsReqs = s.atsReqs := rfl
@[simp] theorem State.modBed_pageReqs : (s.modBed k g).pageReqs = s.pageReqs := rfl
@[simp] theorem State.modBed_priOff : (s.modBed k g).priOff = s.priOff := rfl
@[simp] theorem State.modBed_priTimeout : (s.modBed k g).priTimeout = s.priTimeout := rfl
@[simp] theorem State.modBed_invalidates : (s.modBed k g).invalidates = s.invalidates := rfl
@[simp] theorem State.modBed_inbound : (s.modBed k g).inbound = s.inbound := rfl
@[simp] theorem State.modBed_fetchBad : (s.modBed k g).fetchBad = s.fetchBad := rfl
@[simp] theorem State.modBed_fetchGot : (s.modBed k g).fetchGot = s.fetchGot := rfl
@[simp] theorem State.modBed_peers : (s.modBed k g).peers = s.peers := rfl
@[simp] theorem State.modBed_peerHeld : (s.modBed k g).peerHeld = s.peerHeld := rfl
@[simp] theorem State.modBed_apertures : (s.modBed k g).apertures = s.apertures := rfl
@[simp] theorem State.modBed_groups : (s.modBed k g).groups = s.groups := rfl
@[simp] theorem State.modBed_migrations : (s.modBed k g).migrations = s.migrations := rfl
@[simp] theorem State.modBed_migrationDrops : (s.modBed k g).migrationDrops = s.migrationDrops := rfl
@[simp] theorem State.modBed_allows : (s.modBed k g).allows = s.allows := rfl
@[simp] theorem State.modBed_totals : (s.modBed k g).totals = s.totals := rfl
@[simp] theorem State.modBed_pools : (s.modBed k g).pools = s.pools := rfl
@[simp] theorem State.modBed_used0 : (s.modBed k g).used0 = s.used0 := rfl
@[simp] theorem State.modBed_starved : (s.modBed k g).starved = s.starved := rfl
@[simp] theorem State.modBed_cxlPools : (s.modBed k g).cxlPools = s.cxlPools := rfl
@[simp] theorem State.modBed_budgets : (s.modBed k g).budgets = s.budgets := rfl
@[simp] theorem State.modBed_parts : (s.modBed k g).parts = s.parts := rfl
@[simp] theorem State.modBed_rings : (s.modBed k g).rings = s.rings := rfl
@[simp] theorem State.modBed_hubGot : (s.modBed k g).hubGot = s.hubGot := rfl
@[simp] theorem State.modBed_hub : (s.modBed k g).hub = s.hub := rfl
@[simp] theorem State.modBed_images : (s.modBed k g).images = s.images := rfl
@[simp] theorem State.modBed_watches : (s.modBed k g).watches = s.watches := rfl
@[simp] theorem State.modBed_hits : (s.modBed k g).hits = s.hits := rfl
@[simp] theorem State.modBed_overruns : (s.modBed k g).overruns = s.overruns := rfl
@[simp] theorem State.modBed_samples : (s.modBed k g).samples = s.samples := rfl
@[simp] theorem State.modBed_sampleDrops : (s.modBed k g).sampleDrops = s.sampleDrops := rfl
@[simp] theorem State.modBed_traces : (s.modBed k g).traces = s.traces := rfl
@[simp] theorem State.modBed_dumps : (s.modBed k g).dumps = s.dumps := rfl
@[simp] theorem State.modBed_hitLog : (s.modBed k g).hitLog = s.hitLog := rfl
@[simp] theorem State.modBed_reports : (s.modBed k g).reports = s.reports := rfl
@[simp] theorem State.modBed_out : (s.modBed k g).out = s.out := rfl
@[simp] theorem State.modBed_dev : (s.modBed k g).dev = s.dev := rfl
end

section
variable (s : State) (c : Nat) (g : CoreState → CoreState)
@[simp] theorem State.modCore_bell : (s.modCore c g).bell = s.bell := rfl
@[simp] theorem State.modCore_free : (s.modCore c g).free = s.free := rfl
@[simp] theorem State.modCore_nextId : (s.modCore c g).nextId = s.nextId := rfl
@[simp] theorem State.modCore_events : (s.modCore c g).events = s.events := rfl
@[simp] theorem State.modCore_cur : (s.modCore c g).cur = s.cur := rfl
@[simp] theorem State.modCore_issues : (s.modCore c g).issues = s.issues := rfl
@[simp] theorem State.modCore_sheafs : (s.modCore c g).sheafs = s.sheafs := rfl
@[simp] theorem State.modCore_beds : (s.modCore c g).beds = s.beds := rfl
@[simp] theorem State.modCore_seats : (s.modCore c g).seats = s.seats := rfl
@[simp] theorem State.modCore_launches : (s.modCore c g).launches = s.launches := rfl
@[simp] theorem State.modCore_spawns : (s.modCore c g).spawns = s.spawns := rfl
@[simp] theorem State.modCore_seatImages : (s.modCore c g).seatImages = s.seatImages := rfl
@[simp] theorem State.modCore_cores : (s.modCore c g).cores = aset s.cores c (g (s.coreState c)) := rfl
@[simp] theorem State.modCore_mem : (s.modCore c g).mem = s.mem := rfl
@[simp] theorem State.modCore_hostMem : (s.modCore c g).hostMem = s.hostMem := rfl
@[simp] theorem State.modCore_l1 : (s.modCore c g).l1 = s.l1 := rfl
@[simp] theorem State.modCore_cluster : (s.modCore c g).cluster = s.cluster := rfl
@[simp] theorem State.modCore_homes : (s.modCore c g).homes = s.homes := rfl
@[simp] theorem State.modCore_icache : (s.modCore c g).icache = s.icache := rfl
@[simp] theorem State.modCore_watermarks : (s.modCore c g).watermarks = s.watermarks := rfl
@[simp] theorem State.modCore_frames : (s.modCore c g).frames = s.frames := rfl
@[simp] theorem State.modCore_spaces : (s.modCore c g).spaces = s.spaces := rfl
@[simp] theorem State.modCore_tlb : (s.modCore c g).tlb = s.tlb := rfl
@[simp] theorem State.modCore_walkWaits : (s.modCore c g).walkWaits = s.walkWaits := rfl
@[simp] theorem State.modCore_holding : (s.modCore c g).holding = s.holding := rfl
@[simp] theorem State.modCore_moves : (s.modCore c g).moves = s.moves := rfl
@[simp] theorem State.modCore_resting : (s.modCore c g).resting = s.resting := rfl
@[simp] theorem State.modCore_atc : (s.modCore c g).atc = s.atc := rfl
@[simp] theorem State.modCore_atsReqs : (s.modCore c g).atsReqs = s.atsReqs := rfl
@[simp] theorem State.modCore_pageReqs : (s.modCore c g).pageReqs = s.pageReqs := rfl
@[simp] theorem State.modCore_priOff : (s.modCore c g).priOff = s.priOff := rfl
@[simp] theorem State.modCore_priTimeout : (s.modCore c g).priTimeout = s.priTimeout := rfl
@[simp] theorem State.modCore_invalidates : (s.modCore c g).invalidates = s.invalidates := rfl
@[simp] theorem State.modCore_inbound : (s.modCore c g).inbound = s.inbound := rfl
@[simp] theorem State.modCore_fetchBad : (s.modCore c g).fetchBad = s.fetchBad := rfl
@[simp] theorem State.modCore_fetchGot : (s.modCore c g).fetchGot = s.fetchGot := rfl
@[simp] theorem State.modCore_peers : (s.modCore c g).peers = s.peers := rfl
@[simp] theorem State.modCore_peerHeld : (s.modCore c g).peerHeld = s.peerHeld := rfl
@[simp] theorem State.modCore_apertures : (s.modCore c g).apertures = s.apertures := rfl
@[simp] theorem State.modCore_groups : (s.modCore c g).groups = s.groups := rfl
@[simp] theorem State.modCore_migrations : (s.modCore c g).migrations = s.migrations := rfl
@[simp] theorem State.modCore_migrationDrops : (s.modCore c g).migrationDrops = s.migrationDrops := rfl
@[simp] theorem State.modCore_allows : (s.modCore c g).allows = s.allows := rfl
@[simp] theorem State.modCore_totals : (s.modCore c g).totals = s.totals := rfl
@[simp] theorem State.modCore_pools : (s.modCore c g).pools = s.pools := rfl
@[simp] theorem State.modCore_used0 : (s.modCore c g).used0 = s.used0 := rfl
@[simp] theorem State.modCore_starved : (s.modCore c g).starved = s.starved := rfl
@[simp] theorem State.modCore_cxlPools : (s.modCore c g).cxlPools = s.cxlPools := rfl
@[simp] theorem State.modCore_budgets : (s.modCore c g).budgets = s.budgets := rfl
@[simp] theorem State.modCore_parts : (s.modCore c g).parts = s.parts := rfl
@[simp] theorem State.modCore_rings : (s.modCore c g).rings = s.rings := rfl
@[simp] theorem State.modCore_hubGot : (s.modCore c g).hubGot = s.hubGot := rfl
@[simp] theorem State.modCore_hub : (s.modCore c g).hub = s.hub := rfl
@[simp] theorem State.modCore_images : (s.modCore c g).images = s.images := rfl
@[simp] theorem State.modCore_watches : (s.modCore c g).watches = s.watches := rfl
@[simp] theorem State.modCore_hits : (s.modCore c g).hits = s.hits := rfl
@[simp] theorem State.modCore_overruns : (s.modCore c g).overruns = s.overruns := rfl
@[simp] theorem State.modCore_samples : (s.modCore c g).samples = s.samples := rfl
@[simp] theorem State.modCore_sampleDrops : (s.modCore c g).sampleDrops = s.sampleDrops := rfl
@[simp] theorem State.modCore_traces : (s.modCore c g).traces = s.traces := rfl
@[simp] theorem State.modCore_dumps : (s.modCore c g).dumps = s.dumps := rfl
@[simp] theorem State.modCore_hitLog : (s.modCore c g).hitLog = s.hitLog := rfl
@[simp] theorem State.modCore_reports : (s.modCore c g).reports = s.reports := rfl
@[simp] theorem State.modCore_out : (s.modCore c g).out = s.out := rfl
@[simp] theorem State.modCore_dev : (s.modCore c g).dev = s.dev := rfl
end

section
variable (s : State) (p : Nat) (g : Partition → Partition)
@[simp] theorem State.modPart_bell : (s.modPart p g).bell = s.bell := rfl
@[simp] theorem State.modPart_free : (s.modPart p g).free = s.free := rfl
@[simp] theorem State.modPart_nextId : (s.modPart p g).nextId = s.nextId := rfl
@[simp] theorem State.modPart_events : (s.modPart p g).events = s.events := rfl
@[simp] theorem State.modPart_cur : (s.modPart p g).cur = s.cur := rfl
@[simp] theorem State.modPart_issues : (s.modPart p g).issues = s.issues := rfl
@[simp] theorem State.modPart_sheafs : (s.modPart p g).sheafs = s.sheafs := rfl
@[simp] theorem State.modPart_beds : (s.modPart p g).beds = s.beds := rfl
@[simp] theorem State.modPart_seats : (s.modPart p g).seats = s.seats := rfl
@[simp] theorem State.modPart_launches : (s.modPart p g).launches = s.launches := rfl
@[simp] theorem State.modPart_spawns : (s.modPart p g).spawns = s.spawns := rfl
@[simp] theorem State.modPart_seatImages : (s.modPart p g).seatImages = s.seatImages := rfl
@[simp] theorem State.modPart_cores : (s.modPart p g).cores = s.cores := rfl
@[simp] theorem State.modPart_mem : (s.modPart p g).mem = s.mem := rfl
@[simp] theorem State.modPart_hostMem : (s.modPart p g).hostMem = s.hostMem := rfl
@[simp] theorem State.modPart_l1 : (s.modPart p g).l1 = s.l1 := rfl
@[simp] theorem State.modPart_cluster : (s.modPart p g).cluster = s.cluster := rfl
@[simp] theorem State.modPart_homes : (s.modPart p g).homes = s.homes := rfl
@[simp] theorem State.modPart_icache : (s.modPart p g).icache = s.icache := rfl
@[simp] theorem State.modPart_watermarks : (s.modPart p g).watermarks = s.watermarks := rfl
@[simp] theorem State.modPart_frames : (s.modPart p g).frames = s.frames := rfl
@[simp] theorem State.modPart_spaces : (s.modPart p g).spaces = s.spaces := rfl
@[simp] theorem State.modPart_tlb : (s.modPart p g).tlb = s.tlb := rfl
@[simp] theorem State.modPart_walkWaits : (s.modPart p g).walkWaits = s.walkWaits := rfl
@[simp] theorem State.modPart_holding : (s.modPart p g).holding = s.holding := rfl
@[simp] theorem State.modPart_moves : (s.modPart p g).moves = s.moves := rfl
@[simp] theorem State.modPart_resting : (s.modPart p g).resting = s.resting := rfl
@[simp] theorem State.modPart_atc : (s.modPart p g).atc = s.atc := rfl
@[simp] theorem State.modPart_atsReqs : (s.modPart p g).atsReqs = s.atsReqs := rfl
@[simp] theorem State.modPart_pageReqs : (s.modPart p g).pageReqs = s.pageReqs := rfl
@[simp] theorem State.modPart_priOff : (s.modPart p g).priOff = s.priOff := rfl
@[simp] theorem State.modPart_priTimeout : (s.modPart p g).priTimeout = s.priTimeout := rfl
@[simp] theorem State.modPart_invalidates : (s.modPart p g).invalidates = s.invalidates := rfl
@[simp] theorem State.modPart_inbound : (s.modPart p g).inbound = s.inbound := rfl
@[simp] theorem State.modPart_fetchBad : (s.modPart p g).fetchBad = s.fetchBad := rfl
@[simp] theorem State.modPart_fetchGot : (s.modPart p g).fetchGot = s.fetchGot := rfl
@[simp] theorem State.modPart_peers : (s.modPart p g).peers = s.peers := rfl
@[simp] theorem State.modPart_peerHeld : (s.modPart p g).peerHeld = s.peerHeld := rfl
@[simp] theorem State.modPart_apertures : (s.modPart p g).apertures = s.apertures := rfl
@[simp] theorem State.modPart_groups : (s.modPart p g).groups = s.groups := rfl
@[simp] theorem State.modPart_migrations : (s.modPart p g).migrations = s.migrations := rfl
@[simp] theorem State.modPart_migrationDrops : (s.modPart p g).migrationDrops = s.migrationDrops := rfl
@[simp] theorem State.modPart_allows : (s.modPart p g).allows = s.allows := rfl
@[simp] theorem State.modPart_totals : (s.modPart p g).totals = s.totals := rfl
@[simp] theorem State.modPart_pools : (s.modPart p g).pools = s.pools := rfl
@[simp] theorem State.modPart_used0 : (s.modPart p g).used0 = s.used0 := rfl
@[simp] theorem State.modPart_starved : (s.modPart p g).starved = s.starved := rfl
@[simp] theorem State.modPart_cxlPools : (s.modPart p g).cxlPools = s.cxlPools := rfl
@[simp] theorem State.modPart_budgets : (s.modPart p g).budgets = s.budgets := rfl
@[simp] theorem State.modPart_parts : (s.modPart p g).parts = amod s.parts p g := rfl
@[simp] theorem State.modPart_rings : (s.modPart p g).rings = s.rings := rfl
@[simp] theorem State.modPart_hubGot : (s.modPart p g).hubGot = s.hubGot := rfl
@[simp] theorem State.modPart_hub : (s.modPart p g).hub = s.hub := rfl
@[simp] theorem State.modPart_images : (s.modPart p g).images = s.images := rfl
@[simp] theorem State.modPart_watches : (s.modPart p g).watches = s.watches := rfl
@[simp] theorem State.modPart_hits : (s.modPart p g).hits = s.hits := rfl
@[simp] theorem State.modPart_overruns : (s.modPart p g).overruns = s.overruns := rfl
@[simp] theorem State.modPart_samples : (s.modPart p g).samples = s.samples := rfl
@[simp] theorem State.modPart_sampleDrops : (s.modPart p g).sampleDrops = s.sampleDrops := rfl
@[simp] theorem State.modPart_traces : (s.modPart p g).traces = s.traces := rfl
@[simp] theorem State.modPart_dumps : (s.modPart p g).dumps = s.dumps := rfl
@[simp] theorem State.modPart_hitLog : (s.modPart p g).hitLog = s.hitLog := rfl
@[simp] theorem State.modPart_reports : (s.modPart p g).reports = s.reports := rfl
@[simp] theorem State.modPart_out : (s.modPart p g).out = s.out := rfl
@[simp] theorem State.modPart_dev : (s.modPart p g).dev = s.dev := rfl
end

section
variable (s : State) (k : Nat) (p : Pool)
@[simp] theorem State.setPool_bell : (s.setPool k p).bell = s.bell := rfl
@[simp] theorem State.setPool_free : (s.setPool k p).free = s.free := rfl
@[simp] theorem State.setPool_nextId : (s.setPool k p).nextId = s.nextId := rfl
@[simp] theorem State.setPool_events : (s.setPool k p).events = s.events := rfl
@[simp] theorem State.setPool_cur : (s.setPool k p).cur = s.cur := rfl
@[simp] theorem State.setPool_issues : (s.setPool k p).issues = s.issues := rfl
@[simp] theorem State.setPool_sheafs : (s.setPool k p).sheafs = s.sheafs := rfl
@[simp] theorem State.setPool_beds : (s.setPool k p).beds = s.beds := rfl
@[simp] theorem State.setPool_seats : (s.setPool k p).seats = s.seats := rfl
@[simp] theorem State.setPool_launches : (s.setPool k p).launches = s.launches := rfl
@[simp] theorem State.setPool_spawns : (s.setPool k p).spawns = s.spawns := rfl
@[simp] theorem State.setPool_seatImages : (s.setPool k p).seatImages = s.seatImages := rfl
@[simp] theorem State.setPool_cores : (s.setPool k p).cores = s.cores := rfl
@[simp] theorem State.setPool_mem : (s.setPool k p).mem = s.mem := rfl
@[simp] theorem State.setPool_hostMem : (s.setPool k p).hostMem = s.hostMem := rfl
@[simp] theorem State.setPool_l1 : (s.setPool k p).l1 = s.l1 := rfl
@[simp] theorem State.setPool_cluster : (s.setPool k p).cluster = s.cluster := rfl
@[simp] theorem State.setPool_homes : (s.setPool k p).homes = s.homes := rfl
@[simp] theorem State.setPool_icache : (s.setPool k p).icache = s.icache := rfl
@[simp] theorem State.setPool_watermarks : (s.setPool k p).watermarks = s.watermarks := rfl
@[simp] theorem State.setPool_frames : (s.setPool k p).frames = s.frames := rfl
@[simp] theorem State.setPool_spaces : (s.setPool k p).spaces = s.spaces := rfl
@[simp] theorem State.setPool_tlb : (s.setPool k p).tlb = s.tlb := rfl
@[simp] theorem State.setPool_walkWaits : (s.setPool k p).walkWaits = s.walkWaits := rfl
@[simp] theorem State.setPool_holding : (s.setPool k p).holding = s.holding := rfl
@[simp] theorem State.setPool_moves : (s.setPool k p).moves = s.moves := rfl
@[simp] theorem State.setPool_resting : (s.setPool k p).resting = s.resting := rfl
@[simp] theorem State.setPool_atc : (s.setPool k p).atc = s.atc := rfl
@[simp] theorem State.setPool_atsReqs : (s.setPool k p).atsReqs = s.atsReqs := rfl
@[simp] theorem State.setPool_pageReqs : (s.setPool k p).pageReqs = s.pageReqs := rfl
@[simp] theorem State.setPool_priOff : (s.setPool k p).priOff = s.priOff := rfl
@[simp] theorem State.setPool_priTimeout : (s.setPool k p).priTimeout = s.priTimeout := rfl
@[simp] theorem State.setPool_invalidates : (s.setPool k p).invalidates = s.invalidates := rfl
@[simp] theorem State.setPool_inbound : (s.setPool k p).inbound = s.inbound := rfl
@[simp] theorem State.setPool_fetchBad : (s.setPool k p).fetchBad = s.fetchBad := rfl
@[simp] theorem State.setPool_fetchGot : (s.setPool k p).fetchGot = s.fetchGot := rfl
@[simp] theorem State.setPool_peers : (s.setPool k p).peers = s.peers := rfl
@[simp] theorem State.setPool_peerHeld : (s.setPool k p).peerHeld = s.peerHeld := rfl
@[simp] theorem State.setPool_apertures : (s.setPool k p).apertures = s.apertures := rfl
@[simp] theorem State.setPool_groups : (s.setPool k p).groups = s.groups := rfl
@[simp] theorem State.setPool_migrations : (s.setPool k p).migrations = s.migrations := rfl
@[simp] theorem State.setPool_migrationDrops : (s.setPool k p).migrationDrops = s.migrationDrops := rfl
@[simp] theorem State.setPool_allows : (s.setPool k p).allows = s.allows := rfl
@[simp] theorem State.setPool_totals : (s.setPool k p).totals = s.totals := rfl
@[simp] theorem State.setPool_pools : (s.setPool k p).pools = amod s.pools k fun _ => p := rfl
@[simp] theorem State.setPool_used0 : (s.setPool k p).used0 = s.used0 := rfl
@[simp] theorem State.setPool_starved : (s.setPool k p).starved = s.starved := rfl
@[simp] theorem State.setPool_cxlPools : (s.setPool k p).cxlPools = s.cxlPools := rfl
@[simp] theorem State.setPool_budgets : (s.setPool k p).budgets = s.budgets := rfl
@[simp] theorem State.setPool_parts : (s.setPool k p).parts = s.parts := rfl
@[simp] theorem State.setPool_rings : (s.setPool k p).rings = s.rings := rfl
@[simp] theorem State.setPool_hubGot : (s.setPool k p).hubGot = s.hubGot := rfl
@[simp] theorem State.setPool_hub : (s.setPool k p).hub = s.hub := rfl
@[simp] theorem State.setPool_images : (s.setPool k p).images = s.images := rfl
@[simp] theorem State.setPool_watches : (s.setPool k p).watches = s.watches := rfl
@[simp] theorem State.setPool_hits : (s.setPool k p).hits = s.hits := rfl
@[simp] theorem State.setPool_overruns : (s.setPool k p).overruns = s.overruns := rfl
@[simp] theorem State.setPool_samples : (s.setPool k p).samples = s.samples := rfl
@[simp] theorem State.setPool_sampleDrops : (s.setPool k p).sampleDrops = s.sampleDrops := rfl
@[simp] theorem State.setPool_traces : (s.setPool k p).traces = s.traces := rfl
@[simp] theorem State.setPool_dumps : (s.setPool k p).dumps = s.dumps := rfl
@[simp] theorem State.setPool_hitLog : (s.setPool k p).hitLog = s.hitLog := rfl
@[simp] theorem State.setPool_reports : (s.setPool k p).reports = s.reports := rfl
@[simp] theorem State.setPool_out : (s.setPool k p).out = s.out := rfl
@[simp] theorem State.setPool_dev : (s.setPool k p).dev = s.dev := rfl
end

section
variable (s : State) (r : Nat) (f : Ring → Ring)
@[simp] theorem State.modRing_bell : (s.modRing r f).bell = s.bell := rfl
@[simp] theorem State.modRing_free : (s.modRing r f).free = s.free := rfl
@[simp] theorem State.modRing_nextId : (s.modRing r f).nextId = s.nextId := rfl
@[simp] theorem State.modRing_events : (s.modRing r f).events = s.events := rfl
@[simp] theorem State.modRing_cur : (s.modRing r f).cur = s.cur := rfl
@[simp] theorem State.modRing_issues : (s.modRing r f).issues = s.issues := rfl
@[simp] theorem State.modRing_sheafs : (s.modRing r f).sheafs = s.sheafs := rfl
@[simp] theorem State.modRing_beds : (s.modRing r f).beds = s.beds := rfl
@[simp] theorem State.modRing_seats : (s.modRing r f).seats = s.seats := rfl
@[simp] theorem State.modRing_launches : (s.modRing r f).launches = s.launches := rfl
@[simp] theorem State.modRing_spawns : (s.modRing r f).spawns = s.spawns := rfl
@[simp] theorem State.modRing_seatImages : (s.modRing r f).seatImages = s.seatImages := rfl
@[simp] theorem State.modRing_cores : (s.modRing r f).cores = s.cores := rfl
@[simp] theorem State.modRing_mem : (s.modRing r f).mem = s.mem := rfl
@[simp] theorem State.modRing_hostMem : (s.modRing r f).hostMem = s.hostMem := rfl
@[simp] theorem State.modRing_l1 : (s.modRing r f).l1 = s.l1 := rfl
@[simp] theorem State.modRing_cluster : (s.modRing r f).cluster = s.cluster := rfl
@[simp] theorem State.modRing_homes : (s.modRing r f).homes = s.homes := rfl
@[simp] theorem State.modRing_icache : (s.modRing r f).icache = s.icache := rfl
@[simp] theorem State.modRing_watermarks : (s.modRing r f).watermarks = s.watermarks := rfl
@[simp] theorem State.modRing_frames : (s.modRing r f).frames = s.frames := rfl
@[simp] theorem State.modRing_spaces : (s.modRing r f).spaces = s.spaces := rfl
@[simp] theorem State.modRing_tlb : (s.modRing r f).tlb = s.tlb := rfl
@[simp] theorem State.modRing_walkWaits : (s.modRing r f).walkWaits = s.walkWaits := rfl
@[simp] theorem State.modRing_holding : (s.modRing r f).holding = s.holding := rfl
@[simp] theorem State.modRing_moves : (s.modRing r f).moves = s.moves := rfl
@[simp] theorem State.modRing_resting : (s.modRing r f).resting = s.resting := rfl
@[simp] theorem State.modRing_atc : (s.modRing r f).atc = s.atc := rfl
@[simp] theorem State.modRing_atsReqs : (s.modRing r f).atsReqs = s.atsReqs := rfl
@[simp] theorem State.modRing_pageReqs : (s.modRing r f).pageReqs = s.pageReqs := rfl
@[simp] theorem State.modRing_priOff : (s.modRing r f).priOff = s.priOff := rfl
@[simp] theorem State.modRing_priTimeout : (s.modRing r f).priTimeout = s.priTimeout := rfl
@[simp] theorem State.modRing_invalidates : (s.modRing r f).invalidates = s.invalidates := rfl
@[simp] theorem State.modRing_inbound : (s.modRing r f).inbound = s.inbound := rfl
@[simp] theorem State.modRing_fetchBad : (s.modRing r f).fetchBad = s.fetchBad := rfl
@[simp] theorem State.modRing_fetchGot : (s.modRing r f).fetchGot = s.fetchGot := rfl
@[simp] theorem State.modRing_peers : (s.modRing r f).peers = s.peers := rfl
@[simp] theorem State.modRing_peerHeld : (s.modRing r f).peerHeld = s.peerHeld := rfl
@[simp] theorem State.modRing_apertures : (s.modRing r f).apertures = s.apertures := rfl
@[simp] theorem State.modRing_groups : (s.modRing r f).groups = s.groups := rfl
@[simp] theorem State.modRing_migrations : (s.modRing r f).migrations = s.migrations := rfl
@[simp] theorem State.modRing_migrationDrops : (s.modRing r f).migrationDrops = s.migrationDrops := rfl
@[simp] theorem State.modRing_allows : (s.modRing r f).allows = s.allows := rfl
@[simp] theorem State.modRing_totals : (s.modRing r f).totals = s.totals := rfl
@[simp] theorem State.modRing_pools : (s.modRing r f).pools = s.pools := rfl
@[simp] theorem State.modRing_used0 : (s.modRing r f).used0 = s.used0 := rfl
@[simp] theorem State.modRing_starved : (s.modRing r f).starved = s.starved := rfl
@[simp] theorem State.modRing_cxlPools : (s.modRing r f).cxlPools = s.cxlPools := rfl
@[simp] theorem State.modRing_budgets : (s.modRing r f).budgets = s.budgets := rfl
@[simp] theorem State.modRing_parts : (s.modRing r f).parts = s.parts := rfl
@[simp] theorem State.modRing_rings : (s.modRing r f).rings = amod s.rings r f := rfl
@[simp] theorem State.modRing_hubGot : (s.modRing r f).hubGot = s.hubGot := rfl
@[simp] theorem State.modRing_hub : (s.modRing r f).hub = s.hub := rfl
@[simp] theorem State.modRing_images : (s.modRing r f).images = s.images := rfl
@[simp] theorem State.modRing_watches : (s.modRing r f).watches = s.watches := rfl
@[simp] theorem State.modRing_hits : (s.modRing r f).hits = s.hits := rfl
@[simp] theorem State.modRing_overruns : (s.modRing r f).overruns = s.overruns := rfl
@[simp] theorem State.modRing_samples : (s.modRing r f).samples = s.samples := rfl
@[simp] theorem State.modRing_sampleDrops : (s.modRing r f).sampleDrops = s.sampleDrops := rfl
@[simp] theorem State.modRing_traces : (s.modRing r f).traces = s.traces := rfl
@[simp] theorem State.modRing_dumps : (s.modRing r f).dumps = s.dumps := rfl
@[simp] theorem State.modRing_hitLog : (s.modRing r f).hitLog = s.hitLog := rfl
@[simp] theorem State.modRing_reports : (s.modRing r f).reports = s.reports := rfl
@[simp] theorem State.modRing_out : (s.modRing r f).out = s.out := rfl
@[simp] theorem State.modRing_dev : (s.modRing r f).dev = s.dev := rfl
end

section
variable (s : State) (k : Nat) (f : Image → Image)
@[simp] theorem State.modImage_bell : (s.modImage k f).bell = s.bell := rfl
@[simp] theorem State.modImage_free : (s.modImage k f).free = s.free := rfl
@[simp] theorem State.modImage_nextId : (s.modImage k f).nextId = s.nextId := rfl
@[simp] theorem State.modImage_events : (s.modImage k f).events = s.events := rfl
@[simp] theorem State.modImage_cur : (s.modImage k f).cur = s.cur := rfl
@[simp] theorem State.modImage_issues : (s.modImage k f).issues = s.issues := rfl
@[simp] theorem State.modImage_sheafs : (s.modImage k f).sheafs = s.sheafs := rfl
@[simp] theorem State.modImage_beds : (s.modImage k f).beds = s.beds := rfl
@[simp] theorem State.modImage_seats : (s.modImage k f).seats = s.seats := rfl
@[simp] theorem State.modImage_launches : (s.modImage k f).launches = s.launches := rfl
@[simp] theorem State.modImage_spawns : (s.modImage k f).spawns = s.spawns := rfl
@[simp] theorem State.modImage_seatImages : (s.modImage k f).seatImages = s.seatImages := rfl
@[simp] theorem State.modImage_cores : (s.modImage k f).cores = s.cores := rfl
@[simp] theorem State.modImage_mem : (s.modImage k f).mem = s.mem := rfl
@[simp] theorem State.modImage_hostMem : (s.modImage k f).hostMem = s.hostMem := rfl
@[simp] theorem State.modImage_l1 : (s.modImage k f).l1 = s.l1 := rfl
@[simp] theorem State.modImage_cluster : (s.modImage k f).cluster = s.cluster := rfl
@[simp] theorem State.modImage_homes : (s.modImage k f).homes = s.homes := rfl
@[simp] theorem State.modImage_icache : (s.modImage k f).icache = s.icache := rfl
@[simp] theorem State.modImage_watermarks : (s.modImage k f).watermarks = s.watermarks := rfl
@[simp] theorem State.modImage_frames : (s.modImage k f).frames = s.frames := rfl
@[simp] theorem State.modImage_spaces : (s.modImage k f).spaces = s.spaces := rfl
@[simp] theorem State.modImage_tlb : (s.modImage k f).tlb = s.tlb := rfl
@[simp] theorem State.modImage_walkWaits : (s.modImage k f).walkWaits = s.walkWaits := rfl
@[simp] theorem State.modImage_holding : (s.modImage k f).holding = s.holding := rfl
@[simp] theorem State.modImage_moves : (s.modImage k f).moves = s.moves := rfl
@[simp] theorem State.modImage_resting : (s.modImage k f).resting = s.resting := rfl
@[simp] theorem State.modImage_atc : (s.modImage k f).atc = s.atc := rfl
@[simp] theorem State.modImage_atsReqs : (s.modImage k f).atsReqs = s.atsReqs := rfl
@[simp] theorem State.modImage_pageReqs : (s.modImage k f).pageReqs = s.pageReqs := rfl
@[simp] theorem State.modImage_priOff : (s.modImage k f).priOff = s.priOff := rfl
@[simp] theorem State.modImage_priTimeout : (s.modImage k f).priTimeout = s.priTimeout := rfl
@[simp] theorem State.modImage_invalidates : (s.modImage k f).invalidates = s.invalidates := rfl
@[simp] theorem State.modImage_inbound : (s.modImage k f).inbound = s.inbound := rfl
@[simp] theorem State.modImage_fetchBad : (s.modImage k f).fetchBad = s.fetchBad := rfl
@[simp] theorem State.modImage_fetchGot : (s.modImage k f).fetchGot = s.fetchGot := rfl
@[simp] theorem State.modImage_peers : (s.modImage k f).peers = s.peers := rfl
@[simp] theorem State.modImage_peerHeld : (s.modImage k f).peerHeld = s.peerHeld := rfl
@[simp] theorem State.modImage_apertures : (s.modImage k f).apertures = s.apertures := rfl
@[simp] theorem State.modImage_groups : (s.modImage k f).groups = s.groups := rfl
@[simp] theorem State.modImage_migrations : (s.modImage k f).migrations = s.migrations := rfl
@[simp] theorem State.modImage_migrationDrops : (s.modImage k f).migrationDrops = s.migrationDrops := rfl
@[simp] theorem State.modImage_allows : (s.modImage k f).allows = s.allows := rfl
@[simp] theorem State.modImage_totals : (s.modImage k f).totals = s.totals := rfl
@[simp] theorem State.modImage_pools : (s.modImage k f).pools = s.pools := rfl
@[simp] theorem State.modImage_used0 : (s.modImage k f).used0 = s.used0 := rfl
@[simp] theorem State.modImage_starved : (s.modImage k f).starved = s.starved := rfl
@[simp] theorem State.modImage_cxlPools : (s.modImage k f).cxlPools = s.cxlPools := rfl
@[simp] theorem State.modImage_budgets : (s.modImage k f).budgets = s.budgets := rfl
@[simp] theorem State.modImage_parts : (s.modImage k f).parts = s.parts := rfl
@[simp] theorem State.modImage_rings : (s.modImage k f).rings = s.rings := rfl
@[simp] theorem State.modImage_hubGot : (s.modImage k f).hubGot = s.hubGot := rfl
@[simp] theorem State.modImage_hub : (s.modImage k f).hub = s.hub := rfl
@[simp] theorem State.modImage_images : (s.modImage k f).images = amod s.images k f := rfl
@[simp] theorem State.modImage_watches : (s.modImage k f).watches = s.watches := rfl
@[simp] theorem State.modImage_hits : (s.modImage k f).hits = s.hits := rfl
@[simp] theorem State.modImage_overruns : (s.modImage k f).overruns = s.overruns := rfl
@[simp] theorem State.modImage_samples : (s.modImage k f).samples = s.samples := rfl
@[simp] theorem State.modImage_sampleDrops : (s.modImage k f).sampleDrops = s.sampleDrops := rfl
@[simp] theorem State.modImage_traces : (s.modImage k f).traces = s.traces := rfl
@[simp] theorem State.modImage_dumps : (s.modImage k f).dumps = s.dumps := rfl
@[simp] theorem State.modImage_hitLog : (s.modImage k f).hitLog = s.hitLog := rfl
@[simp] theorem State.modImage_reports : (s.modImage k f).reports = s.reports := rfl
@[simp] theorem State.modImage_out : (s.modImage k f).out = s.out := rfl
@[simp] theorem State.modImage_dev : (s.modImage k f).dev = s.dev := rfl
end

section
variable (s : State) (f : Services → Services)
@[simp] theorem State.modDev_bell : (s.modDev f).bell = s.bell := rfl
@[simp] theorem State.modDev_free : (s.modDev f).free = s.free := rfl
@[simp] theorem State.modDev_nextId : (s.modDev f).nextId = s.nextId := rfl
@[simp] theorem State.modDev_events : (s.modDev f).events = s.events := rfl
@[simp] theorem State.modDev_cur : (s.modDev f).cur = s.cur := rfl
@[simp] theorem State.modDev_issues : (s.modDev f).issues = s.issues := rfl
@[simp] theorem State.modDev_sheafs : (s.modDev f).sheafs = s.sheafs := rfl
@[simp] theorem State.modDev_beds : (s.modDev f).beds = s.beds := rfl
@[simp] theorem State.modDev_seats : (s.modDev f).seats = s.seats := rfl
@[simp] theorem State.modDev_launches : (s.modDev f).launches = s.launches := rfl
@[simp] theorem State.modDev_spawns : (s.modDev f).spawns = s.spawns := rfl
@[simp] theorem State.modDev_seatImages : (s.modDev f).seatImages = s.seatImages := rfl
@[simp] theorem State.modDev_cores : (s.modDev f).cores = s.cores := rfl
@[simp] theorem State.modDev_mem : (s.modDev f).mem = s.mem := rfl
@[simp] theorem State.modDev_hostMem : (s.modDev f).hostMem = s.hostMem := rfl
@[simp] theorem State.modDev_l1 : (s.modDev f).l1 = s.l1 := rfl
@[simp] theorem State.modDev_cluster : (s.modDev f).cluster = s.cluster := rfl
@[simp] theorem State.modDev_homes : (s.modDev f).homes = s.homes := rfl
@[simp] theorem State.modDev_icache : (s.modDev f).icache = s.icache := rfl
@[simp] theorem State.modDev_watermarks : (s.modDev f).watermarks = s.watermarks := rfl
@[simp] theorem State.modDev_frames : (s.modDev f).frames = s.frames := rfl
@[simp] theorem State.modDev_spaces : (s.modDev f).spaces = s.spaces := rfl
@[simp] theorem State.modDev_tlb : (s.modDev f).tlb = s.tlb := rfl
@[simp] theorem State.modDev_walkWaits : (s.modDev f).walkWaits = s.walkWaits := rfl
@[simp] theorem State.modDev_holding : (s.modDev f).holding = s.holding := rfl
@[simp] theorem State.modDev_moves : (s.modDev f).moves = s.moves := rfl
@[simp] theorem State.modDev_resting : (s.modDev f).resting = s.resting := rfl
@[simp] theorem State.modDev_atc : (s.modDev f).atc = s.atc := rfl
@[simp] theorem State.modDev_atsReqs : (s.modDev f).atsReqs = s.atsReqs := rfl
@[simp] theorem State.modDev_pageReqs : (s.modDev f).pageReqs = s.pageReqs := rfl
@[simp] theorem State.modDev_priOff : (s.modDev f).priOff = s.priOff := rfl
@[simp] theorem State.modDev_priTimeout : (s.modDev f).priTimeout = s.priTimeout := rfl
@[simp] theorem State.modDev_invalidates : (s.modDev f).invalidates = s.invalidates := rfl
@[simp] theorem State.modDev_inbound : (s.modDev f).inbound = s.inbound := rfl
@[simp] theorem State.modDev_fetchBad : (s.modDev f).fetchBad = s.fetchBad := rfl
@[simp] theorem State.modDev_fetchGot : (s.modDev f).fetchGot = s.fetchGot := rfl
@[simp] theorem State.modDev_peers : (s.modDev f).peers = s.peers := rfl
@[simp] theorem State.modDev_peerHeld : (s.modDev f).peerHeld = s.peerHeld := rfl
@[simp] theorem State.modDev_apertures : (s.modDev f).apertures = s.apertures := rfl
@[simp] theorem State.modDev_groups : (s.modDev f).groups = s.groups := rfl
@[simp] theorem State.modDev_migrations : (s.modDev f).migrations = s.migrations := rfl
@[simp] theorem State.modDev_migrationDrops : (s.modDev f).migrationDrops = s.migrationDrops := rfl
@[simp] theorem State.modDev_allows : (s.modDev f).allows = s.allows := rfl
@[simp] theorem State.modDev_totals : (s.modDev f).totals = s.totals := rfl
@[simp] theorem State.modDev_pools : (s.modDev f).pools = s.pools := rfl
@[simp] theorem State.modDev_used0 : (s.modDev f).used0 = s.used0 := rfl
@[simp] theorem State.modDev_starved : (s.modDev f).starved = s.starved := rfl
@[simp] theorem State.modDev_cxlPools : (s.modDev f).cxlPools = s.cxlPools := rfl
@[simp] theorem State.modDev_budgets : (s.modDev f).budgets = s.budgets := rfl
@[simp] theorem State.modDev_parts : (s.modDev f).parts = s.parts := rfl
@[simp] theorem State.modDev_rings : (s.modDev f).rings = s.rings := rfl
@[simp] theorem State.modDev_hubGot : (s.modDev f).hubGot = s.hubGot := rfl
@[simp] theorem State.modDev_hub : (s.modDev f).hub = s.hub := rfl
@[simp] theorem State.modDev_images : (s.modDev f).images = s.images := rfl
@[simp] theorem State.modDev_watches : (s.modDev f).watches = s.watches := rfl
@[simp] theorem State.modDev_hits : (s.modDev f).hits = s.hits := rfl
@[simp] theorem State.modDev_overruns : (s.modDev f).overruns = s.overruns := rfl
@[simp] theorem State.modDev_samples : (s.modDev f).samples = s.samples := rfl
@[simp] theorem State.modDev_sampleDrops : (s.modDev f).sampleDrops = s.sampleDrops := rfl
@[simp] theorem State.modDev_traces : (s.modDev f).traces = s.traces := rfl
@[simp] theorem State.modDev_dumps : (s.modDev f).dumps = s.dumps := rfl
@[simp] theorem State.modDev_hitLog : (s.modDev f).hitLog = s.hitLog := rfl
@[simp] theorem State.modDev_reports : (s.modDev f).reports = s.reports := rfl
@[simp] theorem State.modDev_out : (s.modDev f).out = s.out := rfl
@[simp] theorem State.modDev_dev : (s.modDev f).dev = f s.dev := rfl
end

section
variable (s : State) (reason : BitVec 8) (kind : BitVec 2) (src : BitVec 8)
@[simp] theorem State.await_bell : (s.await reason kind src).bell = s.bell := rfl
@[simp] theorem State.await_free : (s.await reason kind src).free = s.free := rfl
@[simp] theorem State.await_nextId : (s.await reason kind src).nextId = s.nextId := rfl
@[simp] theorem State.await_events : (s.await reason kind src).events = s.events := rfl
@[simp] theorem State.await_cur : (s.await reason kind src).cur = s.cur := rfl
@[simp] theorem State.await_issues : (s.await reason kind src).issues = s.issues := rfl
@[simp] theorem State.await_sheafs : (s.await reason kind src).sheafs = amod s.sheafs s.cur fun _ => s.shf.await s.bell reason kind src := rfl
@[simp] theorem State.await_beds : (s.await reason kind src).beds = s.beds := rfl
@[simp] theorem State.await_seats : (s.await reason kind src).seats = s.seats := rfl
@[simp] theorem State.await_launches : (s.await reason kind src).launches = s.launches := rfl
@[simp] theorem State.await_spawns : (s.await reason kind src).spawns = s.spawns := rfl
@[simp] theorem State.await_seatImages : (s.await reason kind src).seatImages = s.seatImages := rfl
@[simp] theorem State.await_cores : (s.await reason kind src).cores = s.cores := rfl
@[simp] theorem State.await_mem : (s.await reason kind src).mem = s.mem := rfl
@[simp] theorem State.await_hostMem : (s.await reason kind src).hostMem = s.hostMem := rfl
@[simp] theorem State.await_l1 : (s.await reason kind src).l1 = s.l1 := rfl
@[simp] theorem State.await_cluster : (s.await reason kind src).cluster = s.cluster := rfl
@[simp] theorem State.await_homes : (s.await reason kind src).homes = s.homes := rfl
@[simp] theorem State.await_icache : (s.await reason kind src).icache = s.icache := rfl
@[simp] theorem State.await_watermarks : (s.await reason kind src).watermarks = s.watermarks := rfl
@[simp] theorem State.await_frames : (s.await reason kind src).frames = s.frames := rfl
@[simp] theorem State.await_spaces : (s.await reason kind src).spaces = s.spaces := rfl
@[simp] theorem State.await_tlb : (s.await reason kind src).tlb = s.tlb := rfl
@[simp] theorem State.await_walkWaits : (s.await reason kind src).walkWaits = s.walkWaits := rfl
@[simp] theorem State.await_holding : (s.await reason kind src).holding = s.holding := rfl
@[simp] theorem State.await_moves : (s.await reason kind src).moves = s.moves := rfl
@[simp] theorem State.await_resting : (s.await reason kind src).resting = s.resting := rfl
@[simp] theorem State.await_atc : (s.await reason kind src).atc = s.atc := rfl
@[simp] theorem State.await_atsReqs : (s.await reason kind src).atsReqs = s.atsReqs := rfl
@[simp] theorem State.await_pageReqs : (s.await reason kind src).pageReqs = s.pageReqs := rfl
@[simp] theorem State.await_priOff : (s.await reason kind src).priOff = s.priOff := rfl
@[simp] theorem State.await_priTimeout : (s.await reason kind src).priTimeout = s.priTimeout := rfl
@[simp] theorem State.await_invalidates : (s.await reason kind src).invalidates = s.invalidates := rfl
@[simp] theorem State.await_inbound : (s.await reason kind src).inbound = s.inbound := rfl
@[simp] theorem State.await_fetchBad : (s.await reason kind src).fetchBad = s.fetchBad := rfl
@[simp] theorem State.await_fetchGot : (s.await reason kind src).fetchGot = s.fetchGot := rfl
@[simp] theorem State.await_peers : (s.await reason kind src).peers = s.peers := rfl
@[simp] theorem State.await_peerHeld : (s.await reason kind src).peerHeld = s.peerHeld := rfl
@[simp] theorem State.await_apertures : (s.await reason kind src).apertures = s.apertures := rfl
@[simp] theorem State.await_groups : (s.await reason kind src).groups = s.groups := rfl
@[simp] theorem State.await_migrations : (s.await reason kind src).migrations = s.migrations := rfl
@[simp] theorem State.await_migrationDrops : (s.await reason kind src).migrationDrops = s.migrationDrops := rfl
@[simp] theorem State.await_allows : (s.await reason kind src).allows = s.allows := rfl
@[simp] theorem State.await_totals : (s.await reason kind src).totals = s.totals := rfl
@[simp] theorem State.await_pools : (s.await reason kind src).pools = s.pools := rfl
@[simp] theorem State.await_used0 : (s.await reason kind src).used0 = s.used0 := rfl
@[simp] theorem State.await_starved : (s.await reason kind src).starved = s.starved := rfl
@[simp] theorem State.await_cxlPools : (s.await reason kind src).cxlPools = s.cxlPools := rfl
@[simp] theorem State.await_budgets : (s.await reason kind src).budgets = s.budgets := rfl
@[simp] theorem State.await_parts : (s.await reason kind src).parts = s.parts := rfl
@[simp] theorem State.await_rings : (s.await reason kind src).rings = s.rings := rfl
@[simp] theorem State.await_hubGot : (s.await reason kind src).hubGot = s.hubGot := rfl
@[simp] theorem State.await_hub : (s.await reason kind src).hub = s.hub := rfl
@[simp] theorem State.await_images : (s.await reason kind src).images = s.images := rfl
@[simp] theorem State.await_watches : (s.await reason kind src).watches = s.watches := rfl
@[simp] theorem State.await_hits : (s.await reason kind src).hits = s.hits := rfl
@[simp] theorem State.await_overruns : (s.await reason kind src).overruns = s.overruns := rfl
@[simp] theorem State.await_samples : (s.await reason kind src).samples = s.samples := rfl
@[simp] theorem State.await_sampleDrops : (s.await reason kind src).sampleDrops = s.sampleDrops := rfl
@[simp] theorem State.await_traces : (s.await reason kind src).traces = s.traces := rfl
@[simp] theorem State.await_dumps : (s.await reason kind src).dumps = s.dumps := rfl
@[simp] theorem State.await_hitLog : (s.await reason kind src).hitLog = s.hitLog := rfl
@[simp] theorem State.await_reports : (s.await reason kind src).reports = s.reports := rfl
@[simp] theorem State.await_out : (s.await reason kind src).out = s.out := rfl
@[simp] theorem State.await_dev : (s.await reason kind src).dev = s.dev := rfl
end

/-! ### Updates of a sheaf -/

section
variable (sh : Sheaf) (n : BitVec 8) (r : Row)
@[simp] theorem Sheaf.setRow_core : (sh.setRow n r).core = sh.core := rfl
@[simp] theorem Sheaf.setRow_slot : (sh.setRow n r).slot = sh.slot := rfl
@[simp] theorem Sheaf.setRow_part : (sh.setRow n r).part = sh.part := rfl
@[simp] theorem Sheaf.setRow_seat : (sh.setRow n r).seat = sh.seat := rfl
@[simp] theorem Sheaf.setRow_launch : (sh.setRow n r).launch = sh.launch := rfl
@[simp] theorem Sheaf.setRow_bed : (sh.setRow n r).bed = sh.bed := rfl
@[simp] theorem Sheaf.setRow_index : (sh.setRow n r).index = sh.index := rfl
@[simp] theorem Sheaf.setRow_lanes : (sh.setRow n r).lanes = sh.lanes := rfl
@[simp] theorem Sheaf.setRow_sregs : (sh.setRow n r).sregs = sh.sregs := rfl
@[simp] theorem Sheaf.setRow_sfull : (sh.setRow n r).sfull = sh.sfull := rfl
@[simp] theorem Sheaf.setRow_sprod : (sh.setRow n r).sprod = sh.sprod := rfl
@[simp] theorem Sheaf.setRow_stime : (sh.setRow n r).stime = sh.stime := rfl
@[simp] theorem Sheaf.setRow_scs : (sh.setRow n r).scs = sh.scs := rfl
@[simp] theorem Sheaf.setRow_scfull : (sh.setRow n r).scfull = sh.scfull := rfl
@[simp] theorem Sheaf.setRow_bars : (sh.setRow n r).bars = sh.bars := rfl
@[simp] theorem Sheaf.setRow_rows : (sh.setRow n r).rows = aset sh.rows n.toNat r := rfl
@[simp] theorem Sheaf.setRow_frames : (sh.setRow n r).frames = sh.frames := rfl
@[simp] theorem Sheaf.setRow_escalated : (sh.setRow n r).escalated = sh.escalated := rfl
@[simp] theorem Sheaf.setRow_fpflags : (sh.setRow n r).fpflags = sh.fpflags := rfl
@[simp] theorem Sheaf.setRow_notice : (sh.setRow n r).notice = sh.notice := rfl
@[simp] theorem Sheaf.setRow_trellis : (sh.setRow n r).trellis = sh.trellis := rfl
@[simp] theorem Sheaf.setRow_batch : (sh.setRow n r).batch = sh.batch := rfl
@[simp] theorem Sheaf.setRow_ages : (sh.setRow n r).ages = sh.ages := rfl
@[simp] theorem Sheaf.setRow_aside : (sh.setRow n r).aside = sh.aside := rfl
@[simp] theorem Sheaf.setRow_putBy : (sh.setRow n r).putBy = sh.putBy := rfl
@[simp] theorem Sheaf.setRow_ops : (sh.setRow n r).ops = sh.ops := rfl
@[simp] theorem Sheaf.setRow_prfs : (sh.setRow n r).prfs = sh.prfs := rfl
@[simp] theorem Sheaf.setRow_arrvs : (sh.setRow n r).arrvs = sh.arrvs := rfl
@[simp] theorem Sheaf.setRow_hold : (sh.setRow n r).hold = sh.hold := rfl
@[simp] theorem Sheaf.setRow_npc : (sh.setRow n r).npc = sh.npc := rfl
@[simp] theorem Sheaf.setRow_wait : (sh.setRow n r).wait = sh.wait := rfl
@[simp] theorem Sheaf.setRow_age : (sh.setRow n r).age = sh.age := rfl
@[simp] theorem Sheaf.setRow_yielded : (sh.setRow n r).yielded = sh.yielded := rfl
@[simp] theorem Sheaf.setRow_lastIssue : (sh.setRow n r).lastIssue = sh.lastIssue := rfl
end

section
variable (sh : Sheaf) (r : BitVec 6) (x : Word)
@[simp] theorem Sheaf.writeS_core : (sh.writeS r x).core = sh.core := rfl
@[simp] theorem Sheaf.writeS_slot : (sh.writeS r x).slot = sh.slot := rfl
@[simp] theorem Sheaf.writeS_part : (sh.writeS r x).part = sh.part := rfl
@[simp] theorem Sheaf.writeS_seat : (sh.writeS r x).seat = sh.seat := rfl
@[simp] theorem Sheaf.writeS_launch : (sh.writeS r x).launch = sh.launch := rfl
@[simp] theorem Sheaf.writeS_bed : (sh.writeS r x).bed = sh.bed := rfl
@[simp] theorem Sheaf.writeS_index : (sh.writeS r x).index = sh.index := rfl
@[simp] theorem Sheaf.writeS_lanes : (sh.writeS r x).lanes = sh.lanes := rfl
@[simp] theorem Sheaf.writeS_sregs : (sh.writeS r x).sregs = sh.sregs.set r.toNat x := rfl
@[simp] theorem Sheaf.writeS_sfull : (sh.writeS r x).sfull = sh.sfull ||| (1#64 <<< r.toNat) := rfl
@[simp] theorem Sheaf.writeS_sprod : (sh.writeS r x).sprod = adel sh.sprod r.toNat := rfl
@[simp] theorem Sheaf.writeS_stime : (sh.writeS r x).stime = adel sh.stime r.toNat := rfl
@[simp] theorem Sheaf.writeS_scs : (sh.writeS r x).scs = sh.scs := rfl
@[simp] theorem Sheaf.writeS_scfull : (sh.writeS r x).scfull = sh.scfull := rfl
@[simp] theorem Sheaf.writeS_bars : (sh.writeS r x).bars = sh.bars := rfl
@[simp] theorem Sheaf.writeS_rows : (sh.writeS r x).rows = sh.rows := rfl
@[simp] theorem Sheaf.writeS_frames : (sh.writeS r x).frames = sh.frames := rfl
@[simp] theorem Sheaf.writeS_escalated : (sh.writeS r x).escalated = sh.escalated := rfl
@[simp] theorem Sheaf.writeS_fpflags : (sh.writeS r x).fpflags = sh.fpflags := rfl
@[simp] theorem Sheaf.writeS_notice : (sh.writeS r x).notice = sh.notice := rfl
@[simp] theorem Sheaf.writeS_trellis : (sh.writeS r x).trellis = sh.trellis := rfl
@[simp] theorem Sheaf.writeS_batch : (sh.writeS r x).batch = sh.batch := rfl
@[simp] theorem Sheaf.writeS_ages : (sh.writeS r x).ages = sh.ages := rfl
@[simp] theorem Sheaf.writeS_aside : (sh.writeS r x).aside = sh.aside := rfl
@[simp] theorem Sheaf.writeS_putBy : (sh.writeS r x).putBy = sh.putBy := rfl
@[simp] theorem Sheaf.writeS_ops : (sh.writeS r x).ops = sh.ops := rfl
@[simp] theorem Sheaf.writeS_prfs : (sh.writeS r x).prfs = sh.prfs := rfl
@[simp] theorem Sheaf.writeS_arrvs : (sh.writeS r x).arrvs = sh.arrvs := rfl
@[simp] theorem Sheaf.writeS_hold : (sh.writeS r x).hold = sh.hold := rfl
@[simp] theorem Sheaf.writeS_npc : (sh.writeS r x).npc = sh.npc := rfl
@[simp] theorem Sheaf.writeS_wait : (sh.writeS r x).wait = sh.wait := rfl
@[simp] theorem Sheaf.writeS_age : (sh.writeS r x).age = sh.age := rfl
@[simp] theorem Sheaf.writeS_yielded : (sh.writeS r x).yielded = sh.yielded := rfl
@[simp] theorem Sheaf.writeS_lastIssue : (sh.writeS r x).lastIssue = sh.lastIssue := rfl
end

section
variable (sh : Sheaf) (r : BitVec 6) (pc : Word)
@[simp] theorem Sheaf.emptyS_core : (sh.emptyS r pc).core = sh.core := rfl
@[simp] theorem Sheaf.emptyS_slot : (sh.emptyS r pc).slot = sh.slot := rfl
@[simp] theorem Sheaf.emptyS_part : (sh.emptyS r pc).part = sh.part := rfl
@[simp] theorem Sheaf.emptyS_seat : (sh.emptyS r pc).seat = sh.seat := rfl
@[simp] theorem Sheaf.emptyS_launch : (sh.emptyS r pc).launch = sh.launch := rfl
@[simp] theorem Sheaf.emptyS_bed : (sh.emptyS r pc).bed = sh.bed := rfl
@[simp] theorem Sheaf.emptyS_index : (sh.emptyS r pc).index = sh.index := rfl
@[simp] theorem Sheaf.emptyS_lanes : (sh.emptyS r pc).lanes = sh.lanes := rfl
@[simp] theorem Sheaf.emptyS_sregs : (sh.emptyS r pc).sregs = sh.sregs := rfl
@[simp] theorem Sheaf.emptyS_sfull : (sh.emptyS r pc).sfull = sh.sfull &&& ~~~(1#64 <<< r.toNat) := rfl
@[simp] theorem Sheaf.emptyS_sprod : (sh.emptyS r pc).sprod = aset sh.sprod r.toNat pc := rfl
@[simp] theorem Sheaf.emptyS_stime : (sh.emptyS r pc).stime = adel sh.stime r.toNat := rfl
@[simp] theorem Sheaf.emptyS_scs : (sh.emptyS r pc).scs = sh.scs := rfl
@[simp] theorem Sheaf.emptyS_scfull : (sh.emptyS r pc).scfull = sh.scfull := rfl
@[simp] theorem Sheaf.emptyS_bars : (sh.emptyS r pc).bars = sh.bars := rfl
@[simp] theorem Sheaf.emptyS_rows : (sh.emptyS r pc).rows = sh.rows := rfl
@[simp] theorem Sheaf.emptyS_frames : (sh.emptyS r pc).frames = sh.frames := rfl
@[simp] theorem Sheaf.emptyS_escalated : (sh.emptyS r pc).escalated = sh.escalated := rfl
@[simp] theorem Sheaf.emptyS_fpflags : (sh.emptyS r pc).fpflags = sh.fpflags := rfl
@[simp] theorem Sheaf.emptyS_notice : (sh.emptyS r pc).notice = sh.notice := rfl
@[simp] theorem Sheaf.emptyS_trellis : (sh.emptyS r pc).trellis = sh.trellis := rfl
@[simp] theorem Sheaf.emptyS_batch : (sh.emptyS r pc).batch = sh.batch := rfl
@[simp] theorem Sheaf.emptyS_ages : (sh.emptyS r pc).ages = sh.ages := rfl
@[simp] theorem Sheaf.emptyS_aside : (sh.emptyS r pc).aside = sh.aside := rfl
@[simp] theorem Sheaf.emptyS_putBy : (sh.emptyS r pc).putBy = sh.putBy := rfl
@[simp] theorem Sheaf.emptyS_ops : (sh.emptyS r pc).ops = sh.ops := rfl
@[simp] theorem Sheaf.emptyS_prfs : (sh.emptyS r pc).prfs = sh.prfs := rfl
@[simp] theorem Sheaf.emptyS_arrvs : (sh.emptyS r pc).arrvs = sh.arrvs := rfl
@[simp] theorem Sheaf.emptyS_hold : (sh.emptyS r pc).hold = sh.hold := rfl
@[simp] theorem Sheaf.emptyS_npc : (sh.emptyS r pc).npc = sh.npc := rfl
@[simp] theorem Sheaf.emptyS_wait : (sh.emptyS r pc).wait = sh.wait := rfl
@[simp] theorem Sheaf.emptyS_age : (sh.emptyS r pc).age = sh.age := rfl
@[simp] theorem Sheaf.emptyS_yielded : (sh.emptyS r pc).yielded = sh.yielded := rfl
@[simp] theorem Sheaf.emptyS_lastIssue : (sh.emptyS r pc).lastIssue = sh.lastIssue := rfl
end

section
variable (sh : Sheaf) (k : BitVec 2) (x : CcVal)
@[simp] theorem Sheaf.writeSc_core : (sh.writeSc k x).core = sh.core := rfl
@[simp] theorem Sheaf.writeSc_slot : (sh.writeSc k x).slot = sh.slot := rfl
@[simp] theorem Sheaf.writeSc_part : (sh.writeSc k x).part = sh.part := rfl
@[simp] theorem Sheaf.writeSc_seat : (sh.writeSc k x).seat = sh.seat := rfl
@[simp] theorem Sheaf.writeSc_launch : (sh.writeSc k x).launch = sh.launch := rfl
@[simp] theorem Sheaf.writeSc_bed : (sh.writeSc k x).bed = sh.bed := rfl
@[simp] theorem Sheaf.writeSc_index : (sh.writeSc k x).index = sh.index := rfl
@[simp] theorem Sheaf.writeSc_lanes : (sh.writeSc k x).lanes = sh.lanes := rfl
@[simp] theorem Sheaf.writeSc_sregs : (sh.writeSc k x).sregs = sh.sregs := rfl
@[simp] theorem Sheaf.writeSc_sfull : (sh.writeSc k x).sfull = sh.sfull := rfl
@[simp] theorem Sheaf.writeSc_sprod : (sh.writeSc k x).sprod = sh.sprod := rfl
@[simp] theorem Sheaf.writeSc_stime : (sh.writeSc k x).stime = sh.stime := rfl
@[simp] theorem Sheaf.writeSc_scs : (sh.writeSc k x).scs = sh.scs.set k.toNat x := rfl
@[simp] theorem Sheaf.writeSc_scfull : (sh.writeSc k x).scfull = sh.scfull ||| (1#4 <<< k.toNat) := rfl
@[simp] theorem Sheaf.writeSc_bars : (sh.writeSc k x).bars = sh.bars := rfl
@[simp] theorem Sheaf.writeSc_rows : (sh.writeSc k x).rows = sh.rows := rfl
@[simp] theorem Sheaf.writeSc_frames : (sh.writeSc k x).frames = sh.frames := rfl
@[simp] theorem Sheaf.writeSc_escalated : (sh.writeSc k x).escalated = sh.escalated := rfl
@[simp] theorem Sheaf.writeSc_fpflags : (sh.writeSc k x).fpflags = sh.fpflags := rfl
@[simp] theorem Sheaf.writeSc_notice : (sh.writeSc k x).notice = sh.notice := rfl
@[simp] theorem Sheaf.writeSc_trellis : (sh.writeSc k x).trellis = sh.trellis := rfl
@[simp] theorem Sheaf.writeSc_batch : (sh.writeSc k x).batch = sh.batch := rfl
@[simp] theorem Sheaf.writeSc_ages : (sh.writeSc k x).ages = sh.ages := rfl
@[simp] theorem Sheaf.writeSc_aside : (sh.writeSc k x).aside = sh.aside := rfl
@[simp] theorem Sheaf.writeSc_putBy : (sh.writeSc k x).putBy = sh.putBy := rfl
@[simp] theorem Sheaf.writeSc_ops : (sh.writeSc k x).ops = sh.ops := rfl
@[simp] theorem Sheaf.writeSc_prfs : (sh.writeSc k x).prfs = sh.prfs := rfl
@[simp] theorem Sheaf.writeSc_arrvs : (sh.writeSc k x).arrvs = sh.arrvs := rfl
@[simp] theorem Sheaf.writeSc_hold : (sh.writeSc k x).hold = sh.hold := rfl
@[simp] theorem Sheaf.writeSc_npc : (sh.writeSc k x).npc = sh.npc := rfl
@[simp] theorem Sheaf.writeSc_wait : (sh.writeSc k x).wait = sh.wait := rfl
@[simp] theorem Sheaf.writeSc_age : (sh.writeSc k x).age = sh.age := rfl
@[simp] theorem Sheaf.writeSc_yielded : (sh.writeSc k x).yielded = sh.yielded := rfl
@[simp] theorem Sheaf.writeSc_lastIssue : (sh.writeSc k x).lastIssue = sh.lastIssue := rfl
end

section
variable (sh : Sheaf) (m : Mask) (g : Fin 32 → Fibre → Fibre)
@[simp] theorem Sheaf.modFibs_core : (sh.modFibs m g).core = sh.core := rfl
@[simp] theorem Sheaf.modFibs_slot : (sh.modFibs m g).slot = sh.slot := rfl
@[simp] theorem Sheaf.modFibs_part : (sh.modFibs m g).part = sh.part := rfl
@[simp] theorem Sheaf.modFibs_seat : (sh.modFibs m g).seat = sh.seat := rfl
@[simp] theorem Sheaf.modFibs_launch : (sh.modFibs m g).launch = sh.launch := rfl
@[simp] theorem Sheaf.modFibs_bed : (sh.modFibs m g).bed = sh.bed := rfl
@[simp] theorem Sheaf.modFibs_index : (sh.modFibs m g).index = sh.index := rfl
@[simp] theorem Sheaf.modFibs_lanes : (sh.modFibs m g).lanes = lanesOf fun l => if hasLane m l then sh.lanes[l].mod (g l) else sh.lanes[l] := rfl
@[simp] theorem Sheaf.modFibs_sregs : (sh.modFibs m g).sregs = sh.sregs := rfl
@[simp] theorem Sheaf.modFibs_sfull : (sh.modFibs m g).sfull = sh.sfull := rfl
@[simp] theorem Sheaf.modFibs_sprod : (sh.modFibs m g).sprod = sh.sprod := rfl
@[simp] theorem Sheaf.modFibs_stime : (sh.modFibs m g).stime = sh.stime := rfl
@[simp] theorem Sheaf.modFibs_scs : (sh.modFibs m g).scs = sh.scs := rfl
@[simp] theorem Sheaf.modFibs_scfull : (sh.modFibs m g).scfull = sh.scfull := rfl
@[simp] theorem Sheaf.modFibs_bars : (sh.modFibs m g).bars = sh.bars := rfl
@[simp] theorem Sheaf.modFibs_rows : (sh.modFibs m g).rows = sh.rows := rfl
@[simp] theorem Sheaf.modFibs_frames : (sh.modFibs m g).frames = sh.frames := rfl
@[simp] theorem Sheaf.modFibs_escalated : (sh.modFibs m g).escalated = sh.escalated := rfl
@[simp] theorem Sheaf.modFibs_fpflags : (sh.modFibs m g).fpflags = sh.fpflags := rfl
@[simp] theorem Sheaf.modFibs_notice : (sh.modFibs m g).notice = sh.notice := rfl
@[simp] theorem Sheaf.modFibs_trellis : (sh.modFibs m g).trellis = sh.trellis := rfl
@[simp] theorem Sheaf.modFibs_batch : (sh.modFibs m g).batch = sh.batch := rfl
@[simp] theorem Sheaf.modFibs_ages : (sh.modFibs m g).ages = sh.ages := rfl
@[simp] theorem Sheaf.modFibs_aside : (sh.modFibs m g).aside = sh.aside := rfl
@[simp] theorem Sheaf.modFibs_putBy : (sh.modFibs m g).putBy = sh.putBy := rfl
@[simp] theorem Sheaf.modFibs_ops : (sh.modFibs m g).ops = sh.ops := rfl
@[simp] theorem Sheaf.modFibs_prfs : (sh.modFibs m g).prfs = sh.prfs := rfl
@[simp] theorem Sheaf.modFibs_arrvs : (sh.modFibs m g).arrvs = sh.arrvs := rfl
@[simp] theorem Sheaf.modFibs_hold : (sh.modFibs m g).hold = sh.hold := rfl
@[simp] theorem Sheaf.modFibs_npc : (sh.modFibs m g).npc = sh.npc := rfl
@[simp] theorem Sheaf.modFibs_wait : (sh.modFibs m g).wait = sh.wait := rfl
@[simp] theorem Sheaf.modFibs_age : (sh.modFibs m g).age = sh.age := rfl
@[simp] theorem Sheaf.modFibs_yielded : (sh.modFibs m g).yielded = sh.yielded := rfl
@[simp] theorem Sheaf.modFibs_lastIssue : (sh.modFibs m g).lastIssue = sh.lastIssue := rfl
end

section
variable (sh : Sheaf) (m : Mask)
@[simp] theorem Sheaf.advance_core : (sh.advance m).core = sh.core := rfl
@[simp] theorem Sheaf.advance_slot : (sh.advance m).slot = sh.slot := rfl
@[simp] theorem Sheaf.advance_part : (sh.advance m).part = sh.part := rfl
@[simp] theorem Sheaf.advance_seat : (sh.advance m).seat = sh.seat := rfl
@[simp] theorem Sheaf.advance_launch : (sh.advance m).launch = sh.launch := rfl
@[simp] theorem Sheaf.advance_bed : (sh.advance m).bed = sh.bed := rfl
@[simp] theorem Sheaf.advance_index : (sh.advance m).index = sh.index := rfl
@[simp] theorem Sheaf.advance_lanes : (sh.advance m).lanes = (sh.modFibs m fun _ f => { f with pc := sh.npc }).lanes := rfl
@[simp] theorem Sheaf.advance_sregs : (sh.advance m).sregs = sh.sregs := rfl
@[simp] theorem Sheaf.advance_sfull : (sh.advance m).sfull = sh.sfull := rfl
@[simp] theorem Sheaf.advance_sprod : (sh.advance m).sprod = sh.sprod := rfl
@[simp] theorem Sheaf.advance_stime : (sh.advance m).stime = sh.stime := rfl
@[simp] theorem Sheaf.advance_scs : (sh.advance m).scs = sh.scs := rfl
@[simp] theorem Sheaf.advance_scfull : (sh.advance m).scfull = sh.scfull := rfl
@[simp] theorem Sheaf.advance_bars : (sh.advance m).bars = sh.bars := rfl
@[simp] theorem Sheaf.advance_rows : (sh.advance m).rows = sh.rows := rfl
@[simp] theorem Sheaf.advance_frames : (sh.advance m).frames = sh.frames := rfl
@[simp] theorem Sheaf.advance_escalated : (sh.advance m).escalated = sh.escalated := rfl
@[simp] theorem Sheaf.advance_fpflags : (sh.advance m).fpflags = sh.fpflags := rfl
@[simp] theorem Sheaf.advance_notice : (sh.advance m).notice = sh.notice := rfl
@[simp] theorem Sheaf.advance_trellis : (sh.advance m).trellis = sh.trellis := rfl
@[simp] theorem Sheaf.advance_batch : (sh.advance m).batch = sh.batch := rfl
@[simp] theorem Sheaf.advance_ages : (sh.advance m).ages = sh.ages := rfl
@[simp] theorem Sheaf.advance_aside : (sh.advance m).aside = sh.aside := rfl
@[simp] theorem Sheaf.advance_putBy : (sh.advance m).putBy = sh.putBy := rfl
@[simp] theorem Sheaf.advance_ops : (sh.advance m).ops = sh.ops := rfl
@[simp] theorem Sheaf.advance_prfs : (sh.advance m).prfs = sh.prfs := rfl
@[simp] theorem Sheaf.advance_arrvs : (sh.advance m).arrvs = sh.arrvs := rfl
@[simp] theorem Sheaf.advance_hold : (sh.advance m).hold = Hold.none := rfl
@[simp] theorem Sheaf.advance_npc : (sh.advance m).npc = sh.npc := rfl
@[simp] theorem Sheaf.advance_wait : (sh.advance m).wait = sh.wait := rfl
@[simp] theorem Sheaf.advance_age : (sh.advance m).age = sh.age := rfl
@[simp] theorem Sheaf.advance_yielded : (sh.advance m).yielded = sh.yielded := rfl
@[simp] theorem Sheaf.advance_lastIssue : (sh.advance m).lastIssue = sh.lastIssue := rfl
end

section
variable (sh : Sheaf) (m : Mask) (pc : Word)
@[simp] theorem Sheaf.goTo_core : (sh.goTo m pc).core = sh.core := rfl
@[simp] theorem Sheaf.goTo_slot : (sh.goTo m pc).slot = sh.slot := rfl
@[simp] theorem Sheaf.goTo_part : (sh.goTo m pc).part = sh.part := rfl
@[simp] theorem Sheaf.goTo_seat : (sh.goTo m pc).seat = sh.seat := rfl
@[simp] theorem Sheaf.goTo_launch : (sh.goTo m pc).launch = sh.launch := rfl
@[simp] theorem Sheaf.goTo_bed : (sh.goTo m pc).bed = sh.bed := rfl
@[simp] theorem Sheaf.goTo_index : (sh.goTo m pc).index = sh.index := rfl
@[simp] theorem Sheaf.goTo_lanes : (sh.goTo m pc).lanes = (sh.modFibs m fun _ f => { f with pc := pc }).lanes := rfl
@[simp] theorem Sheaf.goTo_sregs : (sh.goTo m pc).sregs = sh.sregs := rfl
@[simp] theorem Sheaf.goTo_sfull : (sh.goTo m pc).sfull = sh.sfull := rfl
@[simp] theorem Sheaf.goTo_sprod : (sh.goTo m pc).sprod = sh.sprod := rfl
@[simp] theorem Sheaf.goTo_stime : (sh.goTo m pc).stime = sh.stime := rfl
@[simp] theorem Sheaf.goTo_scs : (sh.goTo m pc).scs = sh.scs := rfl
@[simp] theorem Sheaf.goTo_scfull : (sh.goTo m pc).scfull = sh.scfull := rfl
@[simp] theorem Sheaf.goTo_bars : (sh.goTo m pc).bars = sh.bars := rfl
@[simp] theorem Sheaf.goTo_rows : (sh.goTo m pc).rows = sh.rows := rfl
@[simp] theorem Sheaf.goTo_frames : (sh.goTo m pc).frames = sh.frames := rfl
@[simp] theorem Sheaf.goTo_escalated : (sh.goTo m pc).escalated = sh.escalated := rfl
@[simp] theorem Sheaf.goTo_fpflags : (sh.goTo m pc).fpflags = sh.fpflags := rfl
@[simp] theorem Sheaf.goTo_notice : (sh.goTo m pc).notice = sh.notice := rfl
@[simp] theorem Sheaf.goTo_trellis : (sh.goTo m pc).trellis = sh.trellis := rfl
@[simp] theorem Sheaf.goTo_batch : (sh.goTo m pc).batch = sh.batch := rfl
@[simp] theorem Sheaf.goTo_ages : (sh.goTo m pc).ages = sh.ages := rfl
@[simp] theorem Sheaf.goTo_aside : (sh.goTo m pc).aside = sh.aside := rfl
@[simp] theorem Sheaf.goTo_putBy : (sh.goTo m pc).putBy = sh.putBy := rfl
@[simp] theorem Sheaf.goTo_ops : (sh.goTo m pc).ops = sh.ops := rfl
@[simp] theorem Sheaf.goTo_prfs : (sh.goTo m pc).prfs = sh.prfs := rfl
@[simp] theorem Sheaf.goTo_arrvs : (sh.goTo m pc).arrvs = sh.arrvs := rfl
@[simp] theorem Sheaf.goTo_hold : (sh.goTo m pc).hold = sh.hold := rfl
@[simp] theorem Sheaf.goTo_npc : (sh.goTo m pc).npc = sh.npc := rfl
@[simp] theorem Sheaf.goTo_wait : (sh.goTo m pc).wait = sh.wait := rfl
@[simp] theorem Sheaf.goTo_age : (sh.goTo m pc).age = sh.age := rfl
@[simp] theorem Sheaf.goTo_yielded : (sh.goTo m pc).yielded = sh.yielded := rfl
@[simp] theorem Sheaf.goTo_lastIssue : (sh.goTo m pc).lastIssue = sh.lastIssue := rfl
end

section
variable (sh : Sheaf)
@[simp] theorem Sheaf.switch_core : (sh.switch).core = sh.core := rfl
@[simp] theorem Sheaf.switch_slot : (sh.switch).slot = sh.slot := rfl
@[simp] theorem Sheaf.switch_part : (sh.switch).part = sh.part := rfl
@[simp] theorem Sheaf.switch_seat : (sh.switch).seat = sh.seat := rfl
@[simp] theorem Sheaf.switch_launch : (sh.switch).launch = sh.launch := rfl
@[simp] theorem Sheaf.switch_bed : (sh.switch).bed = sh.bed := rfl
@[simp] theorem Sheaf.switch_index : (sh.switch).index = sh.index := rfl
@[simp] theorem Sheaf.switch_lanes : (sh.switch).lanes = sh.lanes := rfl
@[simp] theorem Sheaf.switch_sregs : (sh.switch).sregs = sh.sregs := rfl
@[simp] theorem Sheaf.switch_sfull : (sh.switch).sfull = sh.sfull := rfl
@[simp] theorem Sheaf.switch_sprod : (sh.switch).sprod = sh.sprod := rfl
@[simp] theorem Sheaf.switch_stime : (sh.switch).stime = sh.stime := rfl
@[simp] theorem Sheaf.switch_scs : (sh.switch).scs = sh.scs := rfl
@[simp] theorem Sheaf.switch_scfull : (sh.switch).scfull = sh.scfull := rfl
@[simp] theorem Sheaf.switch_bars : (sh.switch).bars = sh.bars := rfl
@[simp] theorem Sheaf.switch_rows : (sh.switch).rows = sh.rows := rfl
@[simp] theorem Sheaf.switch_frames : (sh.switch).frames = sh.frames := rfl
@[simp] theorem Sheaf.switch_escalated : (sh.switch).escalated = sh.escalated := rfl
@[simp] theorem Sheaf.switch_fpflags : (sh.switch).fpflags = sh.fpflags := rfl
@[simp] theorem Sheaf.switch_notice : (sh.switch).notice = sh.notice := rfl
@[simp] theorem Sheaf.switch_trellis : (sh.switch).trellis = sh.trellis := rfl
@[simp] theorem Sheaf.switch_batch : (sh.switch).batch = 0 := rfl
@[simp] theorem Sheaf.switch_ages : (sh.switch).ages = sh.ages := rfl
@[simp] theorem Sheaf.switch_aside : (sh.switch).aside = sh.aside := rfl
@[simp] theorem Sheaf.switch_putBy : (sh.switch).putBy = sh.putBy := rfl
@[simp] theorem Sheaf.switch_ops : (sh.switch).ops = sh.ops := rfl
@[simp] theorem Sheaf.switch_prfs : (sh.switch).prfs = sh.prfs := rfl
@[simp] theorem Sheaf.switch_arrvs : (sh.switch).arrvs = sh.arrvs := rfl
@[simp] theorem Sheaf.switch_hold : (sh.switch).hold = Hold.none := rfl
@[simp] theorem Sheaf.switch_npc : (sh.switch).npc = sh.npc := rfl
@[simp] theorem Sheaf.switch_wait : (sh.switch).wait = sh.wait := rfl
@[simp] theorem Sheaf.switch_age : (sh.switch).age = sh.age := rfl
@[simp] theorem Sheaf.switch_yielded : (sh.switch).yielded = sh.yielded := rfl
@[simp] theorem Sheaf.switch_lastIssue : (sh.switch).lastIssue = sh.lastIssue := rfl
end

section
variable (sh : Sheaf) (bell : Word) (reason : BitVec 8) (kind : BitVec 2) (src : BitVec 8)
@[simp] theorem Sheaf.await_core : (sh.await bell reason kind src).core = sh.core := rfl
@[simp] theorem Sheaf.await_slot : (sh.await bell reason kind src).slot = sh.slot := rfl
@[simp] theorem Sheaf.await_part : (sh.await bell reason kind src).part = sh.part := rfl
@[simp] theorem Sheaf.await_seat : (sh.await bell reason kind src).seat = sh.seat := rfl
@[simp] theorem Sheaf.await_launch : (sh.await bell reason kind src).launch = sh.launch := rfl
@[simp] theorem Sheaf.await_bed : (sh.await bell reason kind src).bed = sh.bed := rfl
@[simp] theorem Sheaf.await_index : (sh.await bell reason kind src).index = sh.index := rfl
@[simp] theorem Sheaf.await_lanes : (sh.await bell reason kind src).lanes = sh.lanes := rfl
@[simp] theorem Sheaf.await_sregs : (sh.await bell reason kind src).sregs = sh.sregs := rfl
@[simp] theorem Sheaf.await_sfull : (sh.await bell reason kind src).sfull = sh.sfull := rfl
@[simp] theorem Sheaf.await_sprod : (sh.await bell reason kind src).sprod = sh.sprod := rfl
@[simp] theorem Sheaf.await_stime : (sh.await bell reason kind src).stime = sh.stime := rfl
@[simp] theorem Sheaf.await_scs : (sh.await bell reason kind src).scs = sh.scs := rfl
@[simp] theorem Sheaf.await_scfull : (sh.await bell reason kind src).scfull = sh.scfull := rfl
@[simp] theorem Sheaf.await_bars : (sh.await bell reason kind src).bars = sh.bars := rfl
@[simp] theorem Sheaf.await_rows : (sh.await bell reason kind src).rows = sh.rows := rfl
@[simp] theorem Sheaf.await_frames : (sh.await bell reason kind src).frames = sh.frames := rfl
@[simp] theorem Sheaf.await_escalated : (sh.await bell reason kind src).escalated = sh.escalated := rfl
@[simp] theorem Sheaf.await_fpflags : (sh.await bell reason kind src).fpflags = sh.fpflags := rfl
@[simp] theorem Sheaf.await_notice : (sh.await bell reason kind src).notice = sh.notice := rfl
@[simp] theorem Sheaf.await_trellis : (sh.await bell reason kind src).trellis = sh.trellis := rfl
@[simp] theorem Sheaf.await_batch : (sh.await bell reason kind src).batch = sh.batch := rfl
@[simp] theorem Sheaf.await_ages : (sh.await bell reason kind src).ages = sh.ages := rfl
@[simp] theorem Sheaf.await_aside : (sh.await bell reason kind src).aside = sh.aside := rfl
@[simp] theorem Sheaf.await_putBy : (sh.await bell reason kind src).putBy = sh.putBy := rfl
@[simp] theorem Sheaf.await_ops : (sh.await bell reason kind src).ops = sh.ops := rfl
@[simp] theorem Sheaf.await_prfs : (sh.await bell reason kind src).prfs = sh.prfs := rfl
@[simp] theorem Sheaf.await_arrvs : (sh.await bell reason kind src).arrvs = sh.arrvs := rfl
@[simp] theorem Sheaf.await_hold : (sh.await bell reason kind src).hold = { sh.hold with waiting := true, since := if sh.hold.waiting then sh.hold.since else bell, reason := reason, srcKind := kind, src := src } := rfl
@[simp] theorem Sheaf.await_npc : (sh.await bell reason kind src).npc = sh.npc := rfl
@[simp] theorem Sheaf.await_wait : (sh.await bell reason kind src).wait = sh.wait := rfl
@[simp] theorem Sheaf.await_age : (sh.await bell reason kind src).age = sh.age := rfl
@[simp] theorem Sheaf.await_yielded : (sh.await bell reason kind src).yielded = sh.yielded := rfl
@[simp] theorem Sheaf.await_lastIssue : (sh.await bell reason kind src).lastIssue = sh.lastIssue := rfl
end

section
variable (sh : Sheaf) (k : BitVec 3) (m : Mask)
@[simp] theorem Sheaf.setBar_core : (sh.setBar k m).core = sh.core := rfl
@[simp] theorem Sheaf.setBar_slot : (sh.setBar k m).slot = sh.slot := rfl
@[simp] theorem Sheaf.setBar_part : (sh.setBar k m).part = sh.part := rfl
@[simp] theorem Sheaf.setBar_seat : (sh.setBar k m).seat = sh.seat := rfl
@[simp] theorem Sheaf.setBar_launch : (sh.setBar k m).launch = sh.launch := rfl
@[simp] theorem Sheaf.setBar_bed : (sh.setBar k m).bed = sh.bed := rfl
@[simp] theorem Sheaf.setBar_index : (sh.setBar k m).index = sh.index := rfl
@[simp] theorem Sheaf.setBar_lanes : (sh.setBar k m).lanes = sh.lanes := rfl
@[simp] theorem Sheaf.setBar_sregs : (sh.setBar k m).sregs = sh.sregs := rfl
@[simp] theorem Sheaf.setBar_sfull : (sh.setBar k m).sfull = sh.sfull := rfl
@[simp] theorem Sheaf.setBar_sprod : (sh.setBar k m).sprod = sh.sprod := rfl
@[simp] theorem Sheaf.setBar_stime : (sh.setBar k m).stime = sh.stime := rfl
@[simp] theorem Sheaf.setBar_scs : (sh.setBar k m).scs = sh.scs := rfl
@[simp] theorem Sheaf.setBar_scfull : (sh.setBar k m).scfull = sh.scfull := rfl
@[simp] theorem Sheaf.setBar_bars : (sh.setBar k m).bars = sh.bars.set k.toNat m := rfl
@[simp] theorem Sheaf.setBar_rows : (sh.setBar k m).rows = sh.rows := rfl
@[simp] theorem Sheaf.setBar_frames : (sh.setBar k m).frames = sh.frames := rfl
@[simp] theorem Sheaf.setBar_escalated : (sh.setBar k m).escalated = sh.escalated := rfl
@[simp] theorem Sheaf.setBar_fpflags : (sh.setBar k m).fpflags = sh.fpflags := rfl
@[simp] theorem Sheaf.setBar_notice : (sh.setBar k m).notice = sh.notice := rfl
@[simp] theorem Sheaf.setBar_trellis : (sh.setBar k m).trellis = sh.trellis := rfl
@[simp] theorem Sheaf.setBar_batch : (sh.setBar k m).batch = sh.batch := rfl
@[simp] theorem Sheaf.setBar_ages : (sh.setBar k m).ages = sh.ages := rfl
@[simp] theorem Sheaf.setBar_aside : (sh.setBar k m).aside = sh.aside := rfl
@[simp] theorem Sheaf.setBar_putBy : (sh.setBar k m).putBy = sh.putBy := rfl
@[simp] theorem Sheaf.setBar_ops : (sh.setBar k m).ops = sh.ops := rfl
@[simp] theorem Sheaf.setBar_prfs : (sh.setBar k m).prfs = sh.prfs := rfl
@[simp] theorem Sheaf.setBar_arrvs : (sh.setBar k m).arrvs = sh.arrvs := rfl
@[simp] theorem Sheaf.setBar_hold : (sh.setBar k m).hold = sh.hold := rfl
@[simp] theorem Sheaf.setBar_npc : (sh.setBar k m).npc = sh.npc := rfl
@[simp] theorem Sheaf.setBar_wait : (sh.setBar k m).wait = sh.wait := rfl
@[simp] theorem Sheaf.setBar_age : (sh.setBar k m).age = sh.age := rfl
@[simp] theorem Sheaf.setBar_yielded : (sh.setBar k m).yielded = sh.yielded := rfl
@[simp] theorem Sheaf.setBar_lastIssue : (sh.setBar k m).lastIssue = sh.lastIssue := rfl
end

section
variable (sh : Sheaf) (m : Mask) (x : Fin 32 → BitVec 5)
@[simp] theorem Sheaf.raiseFp_core : (sh.raiseFp m x).core = sh.core := rfl
@[simp] theorem Sheaf.raiseFp_slot : (sh.raiseFp m x).slot = sh.slot := rfl
@[simp] theorem Sheaf.raiseFp_part : (sh.raiseFp m x).part = sh.part := rfl
@[simp] theorem Sheaf.raiseFp_seat : (sh.raiseFp m x).seat = sh.seat := rfl
@[simp] theorem Sheaf.raiseFp_launch : (sh.raiseFp m x).launch = sh.launch := rfl
@[simp] theorem Sheaf.raiseFp_bed : (sh.raiseFp m x).bed = sh.bed := rfl
@[simp] theorem Sheaf.raiseFp_index : (sh.raiseFp m x).index = sh.index := rfl
@[simp] theorem Sheaf.raiseFp_lanes : (sh.raiseFp m x).lanes = (sh.modFibs m fun l f => { f with fpflags := f.fpflags ||| x l }).lanes := rfl
@[simp] theorem Sheaf.raiseFp_sregs : (sh.raiseFp m x).sregs = sh.sregs := rfl
@[simp] theorem Sheaf.raiseFp_sfull : (sh.raiseFp m x).sfull = sh.sfull := rfl
@[simp] theorem Sheaf.raiseFp_sprod : (sh.raiseFp m x).sprod = sh.sprod := rfl
@[simp] theorem Sheaf.raiseFp_stime : (sh.raiseFp m x).stime = sh.stime := rfl
@[simp] theorem Sheaf.raiseFp_scs : (sh.raiseFp m x).scs = sh.scs := rfl
@[simp] theorem Sheaf.raiseFp_scfull : (sh.raiseFp m x).scfull = sh.scfull := rfl
@[simp] theorem Sheaf.raiseFp_bars : (sh.raiseFp m x).bars = sh.bars := rfl
@[simp] theorem Sheaf.raiseFp_rows : (sh.raiseFp m x).rows = sh.rows := rfl
@[simp] theorem Sheaf.raiseFp_frames : (sh.raiseFp m x).frames = sh.frames := rfl
@[simp] theorem Sheaf.raiseFp_escalated : (sh.raiseFp m x).escalated = sh.escalated := rfl
@[simp] theorem Sheaf.raiseFp_fpflags : (sh.raiseFp m x).fpflags = (lanesIn m).foldl (fun a l => a ||| x l) sh.fpflags := rfl
@[simp] theorem Sheaf.raiseFp_notice : (sh.raiseFp m x).notice = sh.notice := rfl
@[simp] theorem Sheaf.raiseFp_trellis : (sh.raiseFp m x).trellis = sh.trellis := rfl
@[simp] theorem Sheaf.raiseFp_batch : (sh.raiseFp m x).batch = sh.batch := rfl
@[simp] theorem Sheaf.raiseFp_ages : (sh.raiseFp m x).ages = sh.ages := rfl
@[simp] theorem Sheaf.raiseFp_aside : (sh.raiseFp m x).aside = sh.aside := rfl
@[simp] theorem Sheaf.raiseFp_putBy : (sh.raiseFp m x).putBy = sh.putBy := rfl
@[simp] theorem Sheaf.raiseFp_ops : (sh.raiseFp m x).ops = sh.ops := rfl
@[simp] theorem Sheaf.raiseFp_prfs : (sh.raiseFp m x).prfs = sh.prfs := rfl
@[simp] theorem Sheaf.raiseFp_arrvs : (sh.raiseFp m x).arrvs = sh.arrvs := rfl
@[simp] theorem Sheaf.raiseFp_hold : (sh.raiseFp m x).hold = sh.hold := rfl
@[simp] theorem Sheaf.raiseFp_npc : (sh.raiseFp m x).npc = sh.npc := rfl
@[simp] theorem Sheaf.raiseFp_wait : (sh.raiseFp m x).wait = sh.wait := rfl
@[simp] theorem Sheaf.raiseFp_age : (sh.raiseFp m x).age = sh.age := rfl
@[simp] theorem Sheaf.raiseFp_yielded : (sh.raiseFp m x).yielded = sh.yielded := rfl
@[simp] theorem Sheaf.raiseFp_lastIssue : (sh.raiseFp m x).lastIssue = sh.lastIssue := rfl
end

section
variable (sh : Sheaf)
@[simp] theorem Sheaf.snapped_core : (sh.snapped).core = sh.core := rfl
@[simp] theorem Sheaf.snapped_slot : (sh.snapped).slot = sh.slot := rfl
@[simp] theorem Sheaf.snapped_part : (sh.snapped).part = sh.part := rfl
@[simp] theorem Sheaf.snapped_seat : (sh.snapped).seat = sh.seat := rfl
@[simp] theorem Sheaf.snapped_launch : (sh.snapped).launch = sh.launch := rfl
@[simp] theorem Sheaf.snapped_bed : (sh.snapped).bed = sh.bed := rfl
@[simp] theorem Sheaf.snapped_index : (sh.snapped).index = sh.index := rfl
@[simp] theorem Sheaf.snapped_lanes : (sh.snapped).lanes = sh.lanes := rfl
@[simp] theorem Sheaf.snapped_sregs : (sh.snapped).sregs = sh.sregs := rfl
@[simp] theorem Sheaf.snapped_sfull : (sh.snapped).sfull = sh.sfull := rfl
@[simp] theorem Sheaf.snapped_sprod : (sh.snapped).sprod = sh.sprod := rfl
@[simp] theorem Sheaf.snapped_stime : (sh.snapped).stime = sh.stime := rfl
@[simp] theorem Sheaf.snapped_scs : (sh.snapped).scs = sh.scs := rfl
@[simp] theorem Sheaf.snapped_scfull : (sh.snapped).scfull = sh.scfull := rfl
@[simp] theorem Sheaf.snapped_bars : (sh.snapped).bars = sh.bars := rfl
@[simp] theorem Sheaf.snapped_rows : (sh.snapped).rows = sh.rows := rfl
@[simp] theorem Sheaf.snapped_frames : (sh.snapped).frames = sh.frames := rfl
@[simp] theorem Sheaf.snapped_escalated : (sh.snapped).escalated = sh.escalated := rfl
@[simp] theorem Sheaf.snapped_fpflags : (sh.snapped).fpflags = sh.fpflags := rfl
@[simp] theorem Sheaf.snapped_notice : (sh.snapped).notice = sh.notice := rfl
@[simp] theorem Sheaf.snapped_trellis : (sh.snapped).trellis = sh.trellis := rfl
@[simp] theorem Sheaf.snapped_batch : (sh.snapped).batch = sh.batch := rfl
@[simp] theorem Sheaf.snapped_ages : (sh.snapped).ages = sh.ages := rfl
@[simp] theorem Sheaf.snapped_aside : (sh.snapped).aside = sh.aside := rfl
@[simp] theorem Sheaf.snapped_putBy : (sh.snapped).putBy = sh.putBy := rfl
@[simp] theorem Sheaf.snapped_ops : (sh.snapped).ops = sh.ops := rfl
@[simp] theorem Sheaf.snapped_prfs : (sh.snapped).prfs = sh.prfs := rfl
@[simp] theorem Sheaf.snapped_arrvs : (sh.snapped).arrvs = sh.arrvs := rfl
@[simp] theorem Sheaf.snapped_hold : (sh.snapped).hold = { sh.hold with snap := some (sh.hold.snap.getD sh.sregs) } := rfl
@[simp] theorem Sheaf.snapped_npc : (sh.snapped).npc = sh.npc := rfl
@[simp] theorem Sheaf.snapped_wait : (sh.snapped).wait = sh.wait := rfl
@[simp] theorem Sheaf.snapped_age : (sh.snapped).age = sh.age := rfl
@[simp] theorem Sheaf.snapped_yielded : (sh.snapped).yielded = sh.yielded := rfl
@[simp] theorem Sheaf.snapped_lastIssue : (sh.snapped).lastIssue = sh.lastIssue := rfl
end

section
variable (sh : Sheaf)
@[simp] theorem Sheaf.seen_core : (sh.seen).core = sh.core := rfl
@[simp] theorem Sheaf.seen_slot : (sh.seen).slot = sh.slot := rfl
@[simp] theorem Sheaf.seen_part : (sh.seen).part = sh.part := rfl
@[simp] theorem Sheaf.seen_seat : (sh.seen).seat = sh.seat := rfl
@[simp] theorem Sheaf.seen_launch : (sh.seen).launch = sh.launch := rfl
@[simp] theorem Sheaf.seen_bed : (sh.seen).bed = sh.bed := rfl
@[simp] theorem Sheaf.seen_index : (sh.seen).index = sh.index := rfl
@[simp] theorem Sheaf.seen_lanes : (sh.seen).lanes = sh.lanes := rfl
@[simp] theorem Sheaf.seen_sregs : (sh.seen).sregs = sh.hold.snap.getD sh.sregs := rfl
@[simp] theorem Sheaf.seen_sfull : (sh.seen).sfull = sh.sfull := rfl
@[simp] theorem Sheaf.seen_sprod : (sh.seen).sprod = sh.sprod := rfl
@[simp] theorem Sheaf.seen_stime : (sh.seen).stime = sh.stime := rfl
@[simp] theorem Sheaf.seen_scs : (sh.seen).scs = sh.scs := rfl
@[simp] theorem Sheaf.seen_scfull : (sh.seen).scfull = sh.scfull := rfl
@[simp] theorem Sheaf.seen_bars : (sh.seen).bars = sh.bars := rfl
@[simp] theorem Sheaf.seen_rows : (sh.seen).rows = sh.rows := rfl
@[simp] theorem Sheaf.seen_frames : (sh.seen).frames = sh.frames := rfl
@[simp] theorem Sheaf.seen_escalated : (sh.seen).escalated = sh.escalated := rfl
@[simp] theorem Sheaf.seen_fpflags : (sh.seen).fpflags = sh.fpflags := rfl
@[simp] theorem Sheaf.seen_notice : (sh.seen).notice = sh.notice := rfl
@[simp] theorem Sheaf.seen_trellis : (sh.seen).trellis = sh.trellis := rfl
@[simp] theorem Sheaf.seen_batch : (sh.seen).batch = sh.batch := rfl
@[simp] theorem Sheaf.seen_ages : (sh.seen).ages = sh.ages := rfl
@[simp] theorem Sheaf.seen_aside : (sh.seen).aside = sh.aside := rfl
@[simp] theorem Sheaf.seen_putBy : (sh.seen).putBy = sh.putBy := rfl
@[simp] theorem Sheaf.seen_ops : (sh.seen).ops = sh.ops := rfl
@[simp] theorem Sheaf.seen_prfs : (sh.seen).prfs = sh.prfs := rfl
@[simp] theorem Sheaf.seen_arrvs : (sh.seen).arrvs = sh.arrvs := rfl
@[simp] theorem Sheaf.seen_hold : (sh.seen).hold = sh.hold := rfl
@[simp] theorem Sheaf.seen_npc : (sh.seen).npc = sh.npc := rfl
@[simp] theorem Sheaf.seen_wait : (sh.seen).wait = sh.wait := rfl
@[simp] theorem Sheaf.seen_age : (sh.seen).age = sh.age := rfl
@[simp] theorem Sheaf.seen_yielded : (sh.seen).yielded = sh.yielded := rfl
@[simp] theorem Sheaf.seen_lastIssue : (sh.seen).lastIssue = sh.lastIssue := rfl
end

section
variable (sh : Sheaf) (n : BitVec 8) (m : Mask) (x : Fin 32 → W32)
@[simp] theorem Sheaf.writeRow_core : (sh.writeRow n m x).core = sh.core := by unfold Sheaf.writeRow; (repeat' split) <;> rfl
@[simp] theorem Sheaf.writeRow_slot : (sh.writeRow n m x).slot = sh.slot := by unfold Sheaf.writeRow; (repeat' split) <;> rfl
@[simp] theorem Sheaf.writeRow_part : (sh.writeRow n m x).part = sh.part := by unfold Sheaf.writeRow; (repeat' split) <;> rfl
@[simp] theorem Sheaf.writeRow_seat : (sh.writeRow n m x).seat = sh.seat := by unfold Sheaf.writeRow; (repeat' split) <;> rfl
@[simp] theorem Sheaf.writeRow_launch : (sh.writeRow n m x).launch = sh.launch := by unfold Sheaf.writeRow; (repeat' split) <;> rfl
@[simp] theorem Sheaf.writeRow_bed : (sh.writeRow n m x).bed = sh.bed := by unfold Sheaf.writeRow; (repeat' split) <;> rfl
@[simp] theorem Sheaf.writeRow_index : (sh.writeRow n m x).index = sh.index := by unfold Sheaf.writeRow; (repeat' split) <;> rfl
@[simp] theorem Sheaf.writeRow_lanes : (sh.writeRow n m x).lanes = sh.lanes := by unfold Sheaf.writeRow; (repeat' split) <;> rfl
@[simp] theorem Sheaf.writeRow_sregs : (sh.writeRow n m x).sregs = sh.sregs := by unfold Sheaf.writeRow; (repeat' split) <;> rfl
@[simp] theorem Sheaf.writeRow_sfull : (sh.writeRow n m x).sfull = sh.sfull := by unfold Sheaf.writeRow; (repeat' split) <;> rfl
@[simp] theorem Sheaf.writeRow_sprod : (sh.writeRow n m x).sprod = sh.sprod := by unfold Sheaf.writeRow; (repeat' split) <;> rfl
@[simp] theorem Sheaf.writeRow_stime : (sh.writeRow n m x).stime = sh.stime := by unfold Sheaf.writeRow; (repeat' split) <;> rfl
@[simp] theorem Sheaf.writeRow_scs : (sh.writeRow n m x).scs = sh.scs := by unfold Sheaf.writeRow; (repeat' split) <;> rfl
@[simp] theorem Sheaf.writeRow_scfull : (sh.writeRow n m x).scfull = sh.scfull := by unfold Sheaf.writeRow; (repeat' split) <;> rfl
@[simp] theorem Sheaf.writeRow_bars : (sh.writeRow n m x).bars = sh.bars := by unfold Sheaf.writeRow; (repeat' split) <;> rfl
@[simp] theorem Sheaf.writeRow_frames : (sh.writeRow n m x).frames = sh.frames := by unfold Sheaf.writeRow; (repeat' split) <;> rfl
@[simp] theorem Sheaf.writeRow_escalated : (sh.writeRow n m x).escalated = sh.escalated := by unfold Sheaf.writeRow; (repeat' split) <;> rfl
@[simp] theorem Sheaf.writeRow_fpflags : (sh.writeRow n m x).fpflags = sh.fpflags := by unfold Sheaf.writeRow; (repeat' split) <;> rfl
@[simp] theorem Sheaf.writeRow_notice : (sh.writeRow n m x).notice = sh.notice := by unfold Sheaf.writeRow; (repeat' split) <;> rfl
@[simp] theorem Sheaf.writeRow_trellis : (sh.writeRow n m x).trellis = sh.trellis := by unfold Sheaf.writeRow; (repeat' split) <;> rfl
@[simp] theorem Sheaf.writeRow_batch : (sh.writeRow n m x).batch = sh.batch := by unfold Sheaf.writeRow; (repeat' split) <;> rfl
@[simp] theorem Sheaf.writeRow_ages : (sh.writeRow n m x).ages = sh.ages := by unfold Sheaf.writeRow; (repeat' split) <;> rfl
@[simp] theorem Sheaf.writeRow_aside : (sh.writeRow n m x).aside = sh.aside := by unfold Sheaf.writeRow; (repeat' split) <;> rfl
@[simp] theorem Sheaf.writeRow_putBy : (sh.writeRow n m x).putBy = sh.putBy := by unfold Sheaf.writeRow; (repeat' split) <;> rfl
@[simp] theorem Sheaf.writeRow_ops : (sh.writeRow n m x).ops = sh.ops := by unfold Sheaf.writeRow; (repeat' split) <;> rfl
@[simp] theorem Sheaf.writeRow_prfs : (sh.writeRow n m x).prfs = sh.prfs := by unfold Sheaf.writeRow; (repeat' split) <;> rfl
@[simp] theorem Sheaf.writeRow_arrvs : (sh.writeRow n m x).arrvs = sh.arrvs := by unfold Sheaf.writeRow; (repeat' split) <;> rfl
@[simp] theorem Sheaf.writeRow_hold : (sh.writeRow n m x).hold = sh.hold := by unfold Sheaf.writeRow; (repeat' split) <;> rfl
@[simp] theorem Sheaf.writeRow_npc : (sh.writeRow n m x).npc = sh.npc := by unfold Sheaf.writeRow; (repeat' split) <;> rfl
@[simp] theorem Sheaf.writeRow_wait : (sh.writeRow n m x).wait = sh.wait := by unfold Sheaf.writeRow; (repeat' split) <;> rfl
@[simp] theorem Sheaf.writeRow_age : (sh.writeRow n m x).age = sh.age := by unfold Sheaf.writeRow; (repeat' split) <;> rfl
@[simp] theorem Sheaf.writeRow_yielded : (sh.writeRow n m x).yielded = sh.yielded := by unfold Sheaf.writeRow; (repeat' split) <;> rfl
@[simp] theorem Sheaf.writeRow_lastIssue : (sh.writeRow n m x).lastIssue = sh.lastIssue := by unfold Sheaf.writeRow; (repeat' split) <;> rfl
end

section
variable (sh : Sheaf) (n : BitVec 8) (m : Mask) (pc : Word)
@[simp] theorem Sheaf.emptyRow_core : (sh.emptyRow n m pc).core = sh.core := by unfold Sheaf.emptyRow; (repeat' split) <;> rfl
@[simp] theorem Sheaf.emptyRow_slot : (sh.emptyRow n m pc).slot = sh.slot := by unfold Sheaf.emptyRow; (repeat' split) <;> rfl
@[simp] theorem Sheaf.emptyRow_part : (sh.emptyRow n m pc).part = sh.part := by unfold Sheaf.emptyRow; (repeat' split) <;> rfl
@[simp] theorem Sheaf.emptyRow_seat : (sh.emptyRow n m pc).seat = sh.seat := by unfold Sheaf.emptyRow; (repeat' split) <;> rfl
@[simp] theorem Sheaf.emptyRow_launch : (sh.emptyRow n m pc).launch = sh.launch := by unfold Sheaf.emptyRow; (repeat' split) <;> rfl
@[simp] theorem Sheaf.emptyRow_bed : (sh.emptyRow n m pc).bed = sh.bed := by unfold Sheaf.emptyRow; (repeat' split) <;> rfl
@[simp] theorem Sheaf.emptyRow_index : (sh.emptyRow n m pc).index = sh.index := by unfold Sheaf.emptyRow; (repeat' split) <;> rfl
@[simp] theorem Sheaf.emptyRow_lanes : (sh.emptyRow n m pc).lanes = sh.lanes := by unfold Sheaf.emptyRow; (repeat' split) <;> rfl
@[simp] theorem Sheaf.emptyRow_sregs : (sh.emptyRow n m pc).sregs = sh.sregs := by unfold Sheaf.emptyRow; (repeat' split) <;> rfl
@[simp] theorem Sheaf.emptyRow_sfull : (sh.emptyRow n m pc).sfull = sh.sfull := by unfold Sheaf.emptyRow; (repeat' split) <;> rfl
@[simp] theorem Sheaf.emptyRow_sprod : (sh.emptyRow n m pc).sprod = sh.sprod := by unfold Sheaf.emptyRow; (repeat' split) <;> rfl
@[simp] theorem Sheaf.emptyRow_stime : (sh.emptyRow n m pc).stime = sh.stime := by unfold Sheaf.emptyRow; (repeat' split) <;> rfl
@[simp] theorem Sheaf.emptyRow_scs : (sh.emptyRow n m pc).scs = sh.scs := by unfold Sheaf.emptyRow; (repeat' split) <;> rfl
@[simp] theorem Sheaf.emptyRow_scfull : (sh.emptyRow n m pc).scfull = sh.scfull := by unfold Sheaf.emptyRow; (repeat' split) <;> rfl
@[simp] theorem Sheaf.emptyRow_bars : (sh.emptyRow n m pc).bars = sh.bars := by unfold Sheaf.emptyRow; (repeat' split) <;> rfl
@[simp] theorem Sheaf.emptyRow_frames : (sh.emptyRow n m pc).frames = sh.frames := by unfold Sheaf.emptyRow; (repeat' split) <;> rfl
@[simp] theorem Sheaf.emptyRow_escalated : (sh.emptyRow n m pc).escalated = sh.escalated := by unfold Sheaf.emptyRow; (repeat' split) <;> rfl
@[simp] theorem Sheaf.emptyRow_fpflags : (sh.emptyRow n m pc).fpflags = sh.fpflags := by unfold Sheaf.emptyRow; (repeat' split) <;> rfl
@[simp] theorem Sheaf.emptyRow_notice : (sh.emptyRow n m pc).notice = sh.notice := by unfold Sheaf.emptyRow; (repeat' split) <;> rfl
@[simp] theorem Sheaf.emptyRow_trellis : (sh.emptyRow n m pc).trellis = sh.trellis := by unfold Sheaf.emptyRow; (repeat' split) <;> rfl
@[simp] theorem Sheaf.emptyRow_batch : (sh.emptyRow n m pc).batch = sh.batch := by unfold Sheaf.emptyRow; (repeat' split) <;> rfl
@[simp] theorem Sheaf.emptyRow_ages : (sh.emptyRow n m pc).ages = sh.ages := by unfold Sheaf.emptyRow; (repeat' split) <;> rfl
@[simp] theorem Sheaf.emptyRow_aside : (sh.emptyRow n m pc).aside = sh.aside := by unfold Sheaf.emptyRow; (repeat' split) <;> rfl
@[simp] theorem Sheaf.emptyRow_putBy : (sh.emptyRow n m pc).putBy = sh.putBy := by unfold Sheaf.emptyRow; (repeat' split) <;> rfl
@[simp] theorem Sheaf.emptyRow_ops : (sh.emptyRow n m pc).ops = sh.ops := by unfold Sheaf.emptyRow; (repeat' split) <;> rfl
@[simp] theorem Sheaf.emptyRow_prfs : (sh.emptyRow n m pc).prfs = sh.prfs := by unfold Sheaf.emptyRow; (repeat' split) <;> rfl
@[simp] theorem Sheaf.emptyRow_arrvs : (sh.emptyRow n m pc).arrvs = sh.arrvs := by unfold Sheaf.emptyRow; (repeat' split) <;> rfl
@[simp] theorem Sheaf.emptyRow_hold : (sh.emptyRow n m pc).hold = sh.hold := by unfold Sheaf.emptyRow; (repeat' split) <;> rfl
@[simp] theorem Sheaf.emptyRow_npc : (sh.emptyRow n m pc).npc = sh.npc := by unfold Sheaf.emptyRow; (repeat' split) <;> rfl
@[simp] theorem Sheaf.emptyRow_wait : (sh.emptyRow n m pc).wait = sh.wait := by unfold Sheaf.emptyRow; (repeat' split) <;> rfl
@[simp] theorem Sheaf.emptyRow_age : (sh.emptyRow n m pc).age = sh.age := by unfold Sheaf.emptyRow; (repeat' split) <;> rfl
@[simp] theorem Sheaf.emptyRow_yielded : (sh.emptyRow n m pc).yielded = sh.yielded := by unfold Sheaf.emptyRow; (repeat' split) <;> rfl
@[simp] theorem Sheaf.emptyRow_lastIssue : (sh.emptyRow n m pc).lastIssue = sh.lastIssue := by unfold Sheaf.emptyRow; (repeat' split) <;> rfl
end

section
variable (sh : Sheaf) (n : BitVec 8) (m : Mask)
@[simp] theorem Sheaf.killRow_core : (sh.killRow n m).core = sh.core := by unfold Sheaf.killRow; (repeat' split) <;> rfl
@[simp] theorem Sheaf.killRow_slot : (sh.killRow n m).slot = sh.slot := by unfold Sheaf.killRow; (repeat' split) <;> rfl
@[simp] theorem Sheaf.killRow_part : (sh.killRow n m).part = sh.part := by unfold Sheaf.killRow; (repeat' split) <;> rfl
@[simp] theorem Sheaf.killRow_seat : (sh.killRow n m).seat = sh.seat := by unfold Sheaf.killRow; (repeat' split) <;> rfl
@[simp] theorem Sheaf.killRow_launch : (sh.killRow n m).launch = sh.launch := by unfold Sheaf.killRow; (repeat' split) <;> rfl
@[simp] theorem Sheaf.killRow_bed : (sh.killRow n m).bed = sh.bed := by unfold Sheaf.killRow; (repeat' split) <;> rfl
@[simp] theorem Sheaf.killRow_index : (sh.killRow n m).index = sh.index := by unfold Sheaf.killRow; (repeat' split) <;> rfl
@[simp] theorem Sheaf.killRow_lanes : (sh.killRow n m).lanes = sh.lanes := by unfold Sheaf.killRow; (repeat' split) <;> rfl
@[simp] theorem Sheaf.killRow_sregs : (sh.killRow n m).sregs = sh.sregs := by unfold Sheaf.killRow; (repeat' split) <;> rfl
@[simp] theorem Sheaf.killRow_sfull : (sh.killRow n m).sfull = sh.sfull := by unfold Sheaf.killRow; (repeat' split) <;> rfl
@[simp] theorem Sheaf.killRow_sprod : (sh.killRow n m).sprod = sh.sprod := by unfold Sheaf.killRow; (repeat' split) <;> rfl
@[simp] theorem Sheaf.killRow_stime : (sh.killRow n m).stime = sh.stime := by unfold Sheaf.killRow; (repeat' split) <;> rfl
@[simp] theorem Sheaf.killRow_scs : (sh.killRow n m).scs = sh.scs := by unfold Sheaf.killRow; (repeat' split) <;> rfl
@[simp] theorem Sheaf.killRow_scfull : (sh.killRow n m).scfull = sh.scfull := by unfold Sheaf.killRow; (repeat' split) <;> rfl
@[simp] theorem Sheaf.killRow_bars : (sh.killRow n m).bars = sh.bars := by unfold Sheaf.killRow; (repeat' split) <;> rfl
@[simp] theorem Sheaf.killRow_frames : (sh.killRow n m).frames = sh.frames := by unfold Sheaf.killRow; (repeat' split) <;> rfl
@[simp] theorem Sheaf.killRow_escalated : (sh.killRow n m).escalated = sh.escalated := by unfold Sheaf.killRow; (repeat' split) <;> rfl
@[simp] theorem Sheaf.killRow_fpflags : (sh.killRow n m).fpflags = sh.fpflags := by unfold Sheaf.killRow; (repeat' split) <;> rfl
@[simp] theorem Sheaf.killRow_notice : (sh.killRow n m).notice = sh.notice := by unfold Sheaf.killRow; (repeat' split) <;> rfl
@[simp] theorem Sheaf.killRow_trellis : (sh.killRow n m).trellis = sh.trellis := by unfold Sheaf.killRow; (repeat' split) <;> rfl
@[simp] theorem Sheaf.killRow_batch : (sh.killRow n m).batch = sh.batch := by unfold Sheaf.killRow; (repeat' split) <;> rfl
@[simp] theorem Sheaf.killRow_ages : (sh.killRow n m).ages = sh.ages := by unfold Sheaf.killRow; (repeat' split) <;> rfl
@[simp] theorem Sheaf.killRow_aside : (sh.killRow n m).aside = sh.aside := by unfold Sheaf.killRow; (repeat' split) <;> rfl
@[simp] theorem Sheaf.killRow_putBy : (sh.killRow n m).putBy = sh.putBy := by unfold Sheaf.killRow; (repeat' split) <;> rfl
@[simp] theorem Sheaf.killRow_ops : (sh.killRow n m).ops = sh.ops := by unfold Sheaf.killRow; (repeat' split) <;> rfl
@[simp] theorem Sheaf.killRow_prfs : (sh.killRow n m).prfs = sh.prfs := by unfold Sheaf.killRow; (repeat' split) <;> rfl
@[simp] theorem Sheaf.killRow_arrvs : (sh.killRow n m).arrvs = sh.arrvs := by unfold Sheaf.killRow; (repeat' split) <;> rfl
@[simp] theorem Sheaf.killRow_hold : (sh.killRow n m).hold = sh.hold := by unfold Sheaf.killRow; (repeat' split) <;> rfl
@[simp] theorem Sheaf.killRow_npc : (sh.killRow n m).npc = sh.npc := by unfold Sheaf.killRow; (repeat' split) <;> rfl
@[simp] theorem Sheaf.killRow_wait : (sh.killRow n m).wait = sh.wait := by unfold Sheaf.killRow; (repeat' split) <;> rfl
@[simp] theorem Sheaf.killRow_age : (sh.killRow n m).age = sh.age := by unfold Sheaf.killRow; (repeat' split) <;> rfl
@[simp] theorem Sheaf.killRow_yielded : (sh.killRow n m).yielded = sh.yielded := by unfold Sheaf.killRow; (repeat' split) <;> rfl
@[simp] theorem Sheaf.killRow_lastIssue : (sh.killRow n m).lastIssue = sh.lastIssue := by unfold Sheaf.killRow; (repeat' split) <;> rfl
end

section
variable (sh : Sheaf) (n : BitVec 8)
@[simp] theorem Sheaf.freeCheck_core : (sh.freeCheck n).core = sh.core := by unfold Sheaf.freeCheck; (repeat' split) <;> rfl
@[simp] theorem Sheaf.freeCheck_slot : (sh.freeCheck n).slot = sh.slot := by unfold Sheaf.freeCheck; (repeat' split) <;> rfl
@[simp] theorem Sheaf.freeCheck_part : (sh.freeCheck n).part = sh.part := by unfold Sheaf.freeCheck; (repeat' split) <;> rfl
@[simp] theorem Sheaf.freeCheck_seat : (sh.freeCheck n).seat = sh.seat := by unfold Sheaf.freeCheck; (repeat' split) <;> rfl
@[simp] theorem Sheaf.freeCheck_launch : (sh.freeCheck n).launch = sh.launch := by unfold Sheaf.freeCheck; (repeat' split) <;> rfl
@[simp] theorem Sheaf.freeCheck_bed : (sh.freeCheck n).bed = sh.bed := by unfold Sheaf.freeCheck; (repeat' split) <;> rfl
@[simp] theorem Sheaf.freeCheck_index : (sh.freeCheck n).index = sh.index := by unfold Sheaf.freeCheck; (repeat' split) <;> rfl
@[simp] theorem Sheaf.freeCheck_lanes : (sh.freeCheck n).lanes = sh.lanes := by unfold Sheaf.freeCheck; (repeat' split) <;> rfl
@[simp] theorem Sheaf.freeCheck_sregs : (sh.freeCheck n).sregs = sh.sregs := by unfold Sheaf.freeCheck; (repeat' split) <;> rfl
@[simp] theorem Sheaf.freeCheck_sfull : (sh.freeCheck n).sfull = sh.sfull := by unfold Sheaf.freeCheck; (repeat' split) <;> rfl
@[simp] theorem Sheaf.freeCheck_sprod : (sh.freeCheck n).sprod = sh.sprod := by unfold Sheaf.freeCheck; (repeat' split) <;> rfl
@[simp] theorem Sheaf.freeCheck_stime : (sh.freeCheck n).stime = sh.stime := by unfold Sheaf.freeCheck; (repeat' split) <;> rfl
@[simp] theorem Sheaf.freeCheck_scs : (sh.freeCheck n).scs = sh.scs := by unfold Sheaf.freeCheck; (repeat' split) <;> rfl
@[simp] theorem Sheaf.freeCheck_scfull : (sh.freeCheck n).scfull = sh.scfull := by unfold Sheaf.freeCheck; (repeat' split) <;> rfl
@[simp] theorem Sheaf.freeCheck_bars : (sh.freeCheck n).bars = sh.bars := by unfold Sheaf.freeCheck; (repeat' split) <;> rfl
@[simp] theorem Sheaf.freeCheck_frames : (sh.freeCheck n).frames = sh.frames := by unfold Sheaf.freeCheck; (repeat' split) <;> rfl
@[simp] theorem Sheaf.freeCheck_escalated : (sh.freeCheck n).escalated = sh.escalated := by unfold Sheaf.freeCheck; (repeat' split) <;> rfl
@[simp] theorem Sheaf.freeCheck_fpflags : (sh.freeCheck n).fpflags = sh.fpflags := by unfold Sheaf.freeCheck; (repeat' split) <;> rfl
@[simp] theorem Sheaf.freeCheck_notice : (sh.freeCheck n).notice = sh.notice := by unfold Sheaf.freeCheck; (repeat' split) <;> rfl
@[simp] theorem Sheaf.freeCheck_trellis : (sh.freeCheck n).trellis = sh.trellis := by unfold Sheaf.freeCheck; (repeat' split) <;> rfl
@[simp] theorem Sheaf.freeCheck_batch : (sh.freeCheck n).batch = sh.batch := by unfold Sheaf.freeCheck; (repeat' split) <;> rfl
@[simp] theorem Sheaf.freeCheck_ages : (sh.freeCheck n).ages = sh.ages := by unfold Sheaf.freeCheck; (repeat' split) <;> rfl
@[simp] theorem Sheaf.freeCheck_aside : (sh.freeCheck n).aside = sh.aside := by unfold Sheaf.freeCheck; (repeat' split) <;> rfl
@[simp] theorem Sheaf.freeCheck_putBy : (sh.freeCheck n).putBy = sh.putBy := by unfold Sheaf.freeCheck; (repeat' split) <;> rfl
@[simp] theorem Sheaf.freeCheck_ops : (sh.freeCheck n).ops = sh.ops := by unfold Sheaf.freeCheck; (repeat' split) <;> rfl
@[simp] theorem Sheaf.freeCheck_prfs : (sh.freeCheck n).prfs = sh.prfs := by unfold Sheaf.freeCheck; (repeat' split) <;> rfl
@[simp] theorem Sheaf.freeCheck_arrvs : (sh.freeCheck n).arrvs = sh.arrvs := by unfold Sheaf.freeCheck; (repeat' split) <;> rfl
@[simp] theorem Sheaf.freeCheck_hold : (sh.freeCheck n).hold = sh.hold := by unfold Sheaf.freeCheck; (repeat' split) <;> rfl
@[simp] theorem Sheaf.freeCheck_npc : (sh.freeCheck n).npc = sh.npc := by unfold Sheaf.freeCheck; (repeat' split) <;> rfl
@[simp] theorem Sheaf.freeCheck_wait : (sh.freeCheck n).wait = sh.wait := by unfold Sheaf.freeCheck; (repeat' split) <;> rfl
@[simp] theorem Sheaf.freeCheck_age : (sh.freeCheck n).age = sh.age := by unfold Sheaf.freeCheck; (repeat' split) <;> rfl
@[simp] theorem Sheaf.freeCheck_yielded : (sh.freeCheck n).yielded = sh.yielded := by unfold Sheaf.freeCheck; (repeat' split) <;> rfl
@[simp] theorem Sheaf.freeCheck_lastIssue : (sh.freeCheck n).lastIssue = sh.lastIssue := by unfold Sheaf.freeCheck; (repeat' split) <;> rfl
end

end Sys2Proof.Machine
end

