-- ==== Sys2Proof/Laws/Lane.lean ====
section
/-! SUPPORT. What a lane instruction does, said once: rows lane by lane, the readiness of R30 to R32, and the shared runner. -/

namespace Sys2Proof.Machine

/-! ### The issuing sheaf -/

theorem State.sheaf?_setShf_of_some {s : State} {sh0 : Sheaf} (sh : Sheaf) (h : s.sheaf? s.cur = some sh0) :
    (s.setShf sh).sheaf? s.cur = some sh := by
  unfold State.sheaf? at h ⊢
  simp [State.setShf_sheafs, h]

theorem State.shf_of_batch {s : State} (h : s.shf.issuing ≠ 0#32) : s.sheaf? s.cur = some s.shf := by
  unfold State.shf at h ⊢
  cases hs : s.sheaf? s.cur with
  | some sh => rfl
  | none =>
    rw [hs] at h
    exact absurd (by decide) h

theorem State.shf_setShf {s : State} (sh : Sheaf) (h : s.shf.issuing ≠ 0#32) : (s.setShf sh).shf = sh := by
  have := State.sheaf?_setShf_of_some sh (State.shf_of_batch h)
  show ((s.setShf sh).sheaf? s.cur).getD Sheaf.blank = sh
  rw [this]; rfl

theorem State.setShf_setShf (s : State) (a b : Sheaf) : (s.setShf a).setShf b = s.setShf b := by
  unfold State.setShf State.modSheaf
  simp [amod_amod]

/-! ### Fibres under an update of some lanes -/

theorem Sheaf.modFibs_lane (sh : Sheaf) (m : Mask) (g : Fin 32 → Fibre → Fibre) (l : Fin 32) :
    (sh.modFibs m g).lanes[l.val] = if hasLane m l then sh.lanes[l.val].mod (g l) else sh.lanes[l.val] := by
  simp

theorem Sheaf.fib_congr {sh sh' : Sheaf} (h : sh'.lanes = sh.lanes) {α : Type} (l : Fin 32) (d : α) (g : Fibre → α) :
    sh'.fib l d g = sh.fib l d g := by unfold Sheaf.fib; rw [h]

theorem Sheaf.fib_modFibs {α : Type} (sh : Sheaf) (m : Mask) (g : Fin 32 → Fibre → Fibre) (l : Fin 32) (d : α) (f : Fibre → α) :
    (sh.modFibs m g).fib l d f = if hasLane m l then sh.fib l d (fun x => f (g l x)) else sh.fib l d f := by
  unfold Sheaf.fib
  show (match (sh.modFibs m g).lanes[l.val] with | .held x => f x | _ => d) = _
  rw [Sheaf.modFibs_lane]
  show _ = if hasLane m l then (match sh.lanes[l.val] with | .held x => f (g l x) | _ => d)
    else (match sh.lanes[l.val] with | .held x => f x | _ => d)
  cases hasLane m l <;> cases sh.lanes[l.val] <;> rfl

theorem Sheaf.held_lane (sh : Sheaf) (l : Fin 32) : hasLane sh.held l = sh.fib l false (fun _ => true) := by
  unfold Sheaf.held Sheaf.fib
  rw [hasLane_maskOf]
  cases sh.lanes[l] <;> rfl

theorem Sheaf.held_congr {sh sh' : Sheaf} (h : sh'.lanes = sh.lanes) : sh'.held = sh.held := by
  unfold Sheaf.held; rw [h]

@[simp] theorem Sheaf.held_modFibs (sh : Sheaf) (m : Mask) (g : Fin 32 → Fibre → Fibre) : (sh.modFibs m g).held = sh.held := by
  apply mask_ext; intro l
  rw [Sheaf.held_lane, Sheaf.held_lane, Sheaf.fib_modFibs]
  split <;> rfl

theorem Sheaf.issuing_held (sh : Sheaf) (l : Fin 32) (h : hasLane sh.issuing l = true) : hasLane sh.held l = true := by
  unfold Sheaf.issuing Sheaf.readyLanes Sheaf.lanesWhere at h
  rw [hasLane_and, hasLane_maskOf, Bool.and_eq_true] at h
  rw [Sheaf.held_lane]
  unfold Sheaf.fib
  cases hl : sh.lanes[l] <;> simp_all

theorem Sheaf.guarded_lane (sh : Sheaf) (g : Guard) (m : Mask) (l : Fin 32) :
    hasLane (sh.guarded g m) l = (hasLane m l && sh.fib l false (guardOf g)) := by
  unfold Sheaf.guarded; rw [hasLane_maskOf]

theorem State.acts_batch {s : State} {g : Guard} {l : Fin 32} (h : s.acts g l) : s.inBatch l := by
  unfold State.acts State.acting at h
  rw [Sheaf.guarded_lane, Bool.and_eq_true] at h
  exact h.1

/-! ### Rows, lane by lane -/

theorem Sheaf.row?_congr {sh sh' : Sheaf} (h : sh'.rows = sh.rows) (n : BitVec 8) : sh'.row? n = sh.row? n := by
  unfold Sheaf.row?; rw [h]

theorem Sheaf.row?_setRow (sh : Sheaf) (n k : BitVec 8) (r : Row) :
    (sh.setRow n r).row? k = if n = k then some r else sh.row? k := by
  unfold Sheaf.row? Sheaf.setRow
  rw [aget_aset]
  by_cases h : n = k
  · simp [h]
  · have : ¬ n.toNat = k.toNat := fun c => h (BitVec.eq_of_toNat_eq c)
    simp [h, this]

/-- What one lane sees of a name: value, full and live bit. -/
def Sheaf.cell (sh : Sheaf) (n : BitVec 8) (l : Fin 32) : W32 × Bool × Bool := (sh.readLane n l, sh.fullLane n l, sh.liveLane n l)

theorem Sheaf.cell_congr {sh sh' : Sheaf} (h : sh'.rows = sh.rows) (n : BitVec 8) (l : Fin 32) : sh'.cell n l = sh.cell n l := by
  unfold Sheaf.cell Sheaf.readLane Sheaf.fullLane Sheaf.liveLane; rw [Sheaf.row?_congr h]

@[simp] theorem hasLane_allOnes (l : Fin 32) : hasLane 4294967295#32 l = true := by revert l; decide

@[simp] theorem and_not_nil (m : Mask) : m &&& 4294967295#32 = m := mask_ext fun l => by simp

theorem Sheaf.cell_writeRow (sh : Sheaf) (n k : BitVec 8) (m : Mask) (x : Fin 32 → W32) (l : Fin 32) :
    (sh.writeRow n m x).cell k l = if n = k ∧ hasLane m l = true then (x l, true, true) else sh.cell k l := by
  unfold Sheaf.writeRow
  by_cases hm : m = 0
  · subst hm; simp
  · rw [if_neg hm]
    by_cases hk : n = k
    · subst hk
      unfold Sheaf.cell Sheaf.readLane Sheaf.fullLane Sheaf.liveLane
      rw [Sheaf.row?_setRow, if_pos rfl]
      cases hr : sh.row? n with
      | none =>
        by_cases hl : hasLane m l = true
        · simp [Row.fresh, hl]
        · simp [Row.fresh, hl]
      | some r =>
        by_cases hl : hasLane m l = true
        · simp [hl]
        · simp [hl]
    · unfold Sheaf.cell Sheaf.readLane Sheaf.fullLane Sheaf.liveLane
      rw [Sheaf.row?_setRow, if_neg hk]
      simp [hk]

theorem Sheaf.cell_killRow (sh : Sheaf) (n k : BitVec 8) (m : Mask) (l : Fin 32) (h : ¬ (n = k ∧ hasLane m l = true)) :
    (sh.killRow n m).cell k l = sh.cell k l := by
  unfold Sheaf.killRow
  cases hr : sh.row? n with
  | none => rfl
  | some r =>
    show (sh.setRow n _).cell k l = _
    unfold Sheaf.cell Sheaf.readLane Sheaf.fullLane Sheaf.liveLane
    rw [Sheaf.row?_setRow]
    by_cases hk : n = k
    · subst hk
      have hl : ¬ hasLane m l = true := fun c => h ⟨rfl, c⟩
      simp [hr, hl]
    · simp [hk]

theorem Sheaf.cell_freeCheck (sh : Sheaf) (n k : BitVec 8) (l : Fin 32) (hl : hasLane sh.held l = true)
    (hv : sh.liveLane k l = true) : (sh.freeCheck n).cell k l = sh.cell k l := by
  unfold Sheaf.freeCheck
  cases hr : sh.row? n with
  | none => rfl
  | some r =>
    show (if sh.keeps n r = true then sh else ({ sh with rows := adel sh.rows n.toNat } : Sheaf)).cell k l = _
    split
    · rfl
    · rename_i hz
      by_cases hk : n = k
      · subst hk
        unfold Sheaf.liveLane at hv
        rw [hr] at hv
        refine absurd ?_ hz
        unfold Sheaf.keeps
        rw [decide_eq_true_eq]
        intro h0
        have := (mask_zero_iff _).1 h0 l
        have hv' : hasLane r.live l = true := hv
        rw [hasLane_and, hl, hasLane_or, hv'] at this
        exact Bool.noConfusion this
      · unfold Sheaf.cell Sheaf.readLane Sheaf.fullLane Sheaf.liveLane Sheaf.row?
        have : ¬ n.toNat = k.toNat := fun c => hk (BitVec.eq_of_toNat_eq c)
        simp [aget_adel, this]

theorem Sheaf.cell_freeChecks (ns : List (BitVec 8)) (sh : Sheaf) (k : BitVec 8) (l : Fin 32) (hl : hasLane sh.held l = true)
    (hv : sh.liveLane k l = true) : (ns.foldl (fun sh r => sh.freeCheck r) sh).cell k l = sh.cell k l := by
  induction ns generalizing sh with
  | nil => rfl
  | cons n t ih =>
    have h1 := Sheaf.cell_freeCheck sh n k l hl hv
    rw [List.foldl_cons, ih _ (by rw [Sheaf.held_congr (Sheaf.freeCheck_lanes sh n)]; exact hl) ?_, h1]
    have : (sh.freeCheck n).liveLane k l = sh.liveLane k l := congrArg (·.2.2) h1
    rw [this]; exact hv

/-! ### A fold of updates that leave some part alone -/

theorem foldl_keeps {α β γ : Type} (f : α → β → α) (g : α → γ) (h : ∀ a b, g (f a b) = g a) (l : List β) (a : α) :
    g (l.foldl f a) = g a := by
  induction l generalizing a with
  | nil => rfl
  | cons b t ih => rw [List.foldl_cons, ih, h]

/-- What killing and freeing rows leaves of a sheaf: everything but its rows. -/
def Sheaf.noRows (sh : Sheaf) : Sheaf := { sh with rows := [] }

theorem Sheaf.noRows_killRow (sh : Sheaf) (n : BitVec 8) (m : Mask) : (sh.killRow n m).noRows = sh.noRows := by
  unfold Sheaf.killRow; split <;> rfl

theorem Sheaf.noRows_freeCheck (sh : Sheaf) (n : BitVec 8) : (sh.freeCheck n).noRows = sh.noRows := by
  unfold Sheaf.freeCheck; (repeat' split) <;> rfl

theorem Sheaf.noRows_writeRow (sh : Sheaf) (n : BitVec 8) (m : Mask) (x : Fin 32 → W32) : (sh.writeRow n m x).noRows = sh.noRows := by
  unfold Sheaf.writeRow; split <;> rfl

theorem Sheaf.noRows_killAll (sh : Sheaf) (srcs : List VOp) (m : Mask) : (sh.killAll srcs m).noRows = sh.noRows := by
  unfold Sheaf.killAll
  apply foldl_keeps
  intro a o
  split
  · exact foldl_keeps _ _ (fun a b => Sheaf.noRows_killRow a b m) _ _
  · rfl

theorem Sheaf.noRows_freeSrcs (sh : Sheaf) (srcs : List VOp) : (sh.freeSrcs srcs).noRows = sh.noRows := by
  unfold Sheaf.freeSrcs
  apply foldl_keeps
  intro a o
  exact foldl_keeps _ _ (fun a b => Sheaf.noRows_freeCheck a b) _ _

theorem Sheaf.eq_of_noRows {a b : Sheaf} (h : a.noRows = b.noRows) : a = { b with rows := a.rows } := by
  have : a = { a.noRows with rows := a.rows } := rfl
  rw [this, h]; rfl

theorem Sheaf.lanes_of_noRows {a b : Sheaf} (h : a.noRows = b.noRows) : a.lanes = b.lanes := by
  have : a.noRows.lanes = b.noRows.lanes := by rw [h]
  exact this

theorem Sheaf.cell_freeSrcs (sh : Sheaf) (srcs : List VOp) (k : BitVec 8) (l : Fin 32) (hl : hasLane sh.held l = true)
    (hv : sh.liveLane k l = true) : (sh.freeSrcs srcs).cell k l = sh.cell k l := by
  unfold Sheaf.freeSrcs
  induction srcs generalizing sh with
  | nil => rfl
  | cons o t ih =>
    have h1 := Sheaf.cell_freeChecks (regRange o.reg o.n) sh k l hl hv
    have h2 : ((regRange o.reg o.n).foldl (fun sh r => sh.freeCheck r) sh).lanes = sh.lanes :=
      foldl_keeps _ Sheaf.lanes (fun a b => Sheaf.freeCheck_lanes a b) _ _
    rw [List.foldl_cons, ih _ (by rw [Sheaf.held_congr h2]; exact hl) ?_, h1]
    have : _ = sh.liveLane k l := congrArg (·.2.2) h1
    exact this.trans hv

theorem Sheaf.cell_killAll (sh : Sheaf) (srcs : List VOp) (m : Mask) (k : BitVec 8) (l : Fin 32)
    (h : ¬ (k ∈ lastRegs srcs ∧ hasLane m l = true)) : (sh.killAll srcs m).cell k l = sh.cell k l := by
  unfold Sheaf.killAll
  induction srcs generalizing sh with
  | nil => rfl
  | cons o t ih =>
    rw [List.foldl_cons]
    by_cases ho : o.last = true
    · have hk : ∀ r ∈ regRange o.reg o.n, ¬ (r = k ∧ hasLane m l = true) := fun r hr c =>
        h ⟨by rw [← c.1]; simp only [lastRegs, List.filter_cons, ho, if_true, List.flatMap_cons]; exact List.mem_append_left _ hr, c.2⟩
      have ht : ¬ (k ∈ lastRegs t ∧ hasLane m l = true) := fun c =>
        h ⟨by simp only [lastRegs, List.filter_cons, ho, if_true, List.flatMap_cons]; exact List.mem_append_right _ c.1, c.2⟩
      rw [ih _ ht, if_pos ho]
      have key : ∀ (rs : List (BitVec 8)) (sh : Sheaf), (∀ r ∈ rs, ¬ (r = k ∧ hasLane m l = true)) →
          (rs.foldl (fun sh r => sh.killRow r m) sh).cell k l = sh.cell k l := by
        intro rs
        induction rs with
        | nil => intros; rfl
        | cons r rs ihr =>
          intro sh hr
          rw [List.foldl_cons, ihr _ fun x hx => hr x (List.mem_cons_of_mem _ hx)]
          exact Sheaf.cell_killRow sh r k m l (hr r (List.mem_cons_self ..))
      exact key _ _ hk
    · have ht : ¬ (k ∈ lastRegs t ∧ hasLane m l = true) := fun c =>
        h ⟨by simpa [lastRegs, List.filter_cons, ho] using c.1, c.2⟩
      rw [ih _ ht, if_neg ho]

/-! ### Readiness -/

theorem faultMask_nil : faultMask [] = 0#32 := by decide

theorem Sheaf.ccEmpty_false {sh : Sheaf} {k : BitVec 2} {m : Mask} (h : ∀ l, hasLane m l = true → sh.fib l true (·.fullC k) = true) :
    sh.ccEmpty k m = false := by
  unfold Sheaf.ccEmpty
  rw [List.any_eq_false]
  intro l hl
  simp [h l ((mem_lanesIn m l).1 hl)]

theorem Sheaf.emptyFaults_nil {sh : Sheaf} {srcs : List VOp} {m : Mask}
    (h : ∀ o ∈ srcs, ∀ l, hasLane m l = true → sh.emptyReg o l = none) : sh.emptyFaults srcs m = [] := by
  unfold Sheaf.emptyFaults
  rw [List.filterMap_eq_nil_iff]
  intro l hl
  rw [List.findSome?_eq_none_iff.2]
  · rfl
  · intro o ho
    rw [h o ho l ((mem_lanesIn m l).1 hl)]
    split <;> rfl

theorem Sheaf.laneWait_none {sh : Sheaf} {i : LaneIns} {m : Mask}
    (hs : ∀ o ∈ i.srcs, ∀ l, hasLane m l = true → sh.emptyReg o l = none) (hr : ∀ r ∈ i.sregs, sh.fullS r = true)
    (hc : ∀ k ∈ i.ccs, ∀ l, hasLane m l = true → sh.fib l true (·.fullC k) = true)
    (hd : ∀ d ∈ i.dests, ∀ l, hasLane m l = true → sh.fullLane d l = true)
    (hf : ∀ k, i.ccd = some k → ∀ l, hasLane m l = true → sh.fib l true (·.fullC k) = true)
    (hp : ∀ n ∈ i.names, ∀ r, sh.row? n = some r → r.spilled = false) : sh.laneWait i m = none := by
  unfold Sheaf.laneWait
  split
  · rfl
  · have h1 : sh.waitsOnSrc i.srcs m = none := by
      unfold Sheaf.waitsOnSrc
      rw [List.findSome?_eq_none_iff]
      intro l hl
      rw [List.findSome?_eq_none_iff]
      intro o ho
      rw [hs o ho l ((mem_lanesIn m l).1 hl)]
      split <;> rfl
    have h2 : (i.sregs.find? fun r => !sh.fullS r) = none := by
      rw [List.find?_eq_none]; intro r hr'; simp [hr r hr']
    have h3 : (i.ccs.find? fun k => sh.ccEmpty k m) = none := by
      rw [List.find?_eq_none]; intro k hk; simp [Sheaf.ccEmpty_false (hc k hk)]
    have h4 : sh.waitsOnDest i.dests m = none := by
      unfold Sheaf.waitsOnDest
      rw [List.find?_eq_none]
      intro d hd'
      have : ((lanesIn m).any fun l => !sh.fullLane d l) = false := by
        rw [List.any_eq_false]; intro l hl; simp [hd d hd' l ((mem_lanesIn m l).1 hl)]
      simp [this]
    have h5 : (i.ccd.filter fun k => sh.ccEmpty k m) = none := by
      cases hk : i.ccd with
      | none => rfl
      | some k => simp [Option.filter, Sheaf.ccEmpty_false (hf k hk)]
    have h6 : sh.spilledName i.names = none := by
      unfold Sheaf.spilledName
      rw [List.find?_eq_none]
      intro n hn
      cases hrow : sh.row? n with
      | none => simp
      | some r => simp [hp n hn r hrow]
    rw [h1, h2, h3, h4, h5, h6]
    rfl

theorem LaneClear.ready {s : State} {i : LaneIns} (h : LaneClear s i) : s.shf.laneReady i = .go [] (s.acting i.g) := by
  unfold Sheaf.laneReady
  have hg : (guardReads i.g && s.shf.ccEmpty i.g.cc s.shf.issuing) = false := by
    cases hr : guardReads i.g with
    | false => rfl
    | true => rw [Sheaf.ccEmpty_false (h.guard hr)]; rfl
  have he : s.shf.emptyFaults i.srcs (s.acting i.g) = [] := Sheaf.emptyFaults_nil h.sources
  have ha : s.shf.guarded i.g s.shf.issuing = s.acting i.g := rfl
  have hm : s.acting i.g &&& ~~~faultMask [] = s.acting i.g := by rw [faultMask_nil]; simp
  rw [hg, ha]
  simp only [he, hm, Bool.false_eq_true, if_false]
  rw [Sheaf.laneWait_none h.sources h.sregs h.flags h.dests h.flagDest h.rows]

theorem State.roomIn_enough {s : State} {u : Nat} {sh : Sheaf} {ds : List (BitVec 8)} (hu : s.sheaf? u = some sh)
    (h : s.rowsUsed sh.core + ds.length ≤ physicalRows) : s.roomIn u ds = s := by
  unfold State.roomIn
  rw [hu]
  have := List.length_filter_le (fun d => (sh.row? d).isNone) ds
  have h0 : s.rowsUsed sh.core + (ds.filter fun d => (sh.row? d).isNone).length - physicalRows = 0 := by omega
  simp only [h0]
  split <;> rfl

theorem State.roomFor_enough {s : State} {ds : List (BitVec 8)} (hb : s.shf.issuing ≠ 0#32)
    (h : s.rowsUsed s.shf.core + ds.length ≤ physicalRows) : s.roomFor ds = s :=
  State.roomIn_enough (State.shf_of_batch hb) h

@[simp] theorem State.trapLanes_nil (s : State) (old : Sheaf) : s.trapLanes old [] = s := rfl

/-- The sheaf with its completion times taken and its last reads applied (R22, R223). -/
def Sheaf.consumed (sh : Sheaf) (i : LaneIns) : Sheaf := (sh.takeTimes i.sregs sh.issuing).killAll i.srcs sh.issuing

/-- A LANE INSTRUCTION that finds everything it needs completes, with its effect on its sheaf alone. -/
theorem LaneClear.laneStep {s : State} {i : LaneIns} (h : LaneClear s i) (eff : Sheaf → Mask → Sheaf → Sheaf) :
    s.laneStep i eff = s.setShf (((eff s.shf (s.acting i.g) (s.shf.consumed i)).freeSrcs i.srcs).advance s.shf.issuing) := by
  unfold State.laneStep
  show (if s.shf.issuing = 0#32 then s else _) = _
  rw [if_neg h.batch]
  simp only [h.ready, faultMask_nil]
  have hm : s.shf.issuing &&& ~~~(0#32) = s.shf.issuing := by simp
  have hr : (if s.acting i.g = 0 then s else s.roomFor i.dests) = s := by
    split
    · rfl
    · exact State.roomFor_enough h.batch h.room
  rw [hr, hm]
  rfl

end Sys2Proof.Machine
end

