-- ==== Sys2Proof/Laws/LaneDone.lean ====
section
/-! SUPPORT. Each shared runner of the lane instructions leaves what `LaneDone` says. -/

namespace Sys2Proof.Machine

/-! ### Completion times -/

theorem Sheaf.takeTimes_fib {α : Type} (sh : Sheaf) (rs : List (BitVec 6)) (m : Mask) (l : Fin 32) (d : α) (g : Fibre → α)
    (hg : ∀ f x, g { f with horizon := x } = g f) : (sh.takeTimes rs m).fib l d g = sh.fib l d g := by
  unfold Sheaf.takeTimes
  split
  · rfl
  · rw [Sheaf.fib_modFibs]; simp only [hg]; split <;> rfl

theorem Sheaf.besides_takeTimes (sh : Sheaf) (rs : List (BitVec 6)) (m : Mask) : (sh.takeTimes rs m).besides = sh.besides := by
  unfold Sheaf.takeTimes; split <;> rfl

theorem Sheaf.besides_of_noRows {a b : Sheaf} (h : a.noRows = b.noRows) : a.besides = b.besides := by
  have : a.noRows.besides = b.noRows.besides := by rw [h]
  exact this

theorem Sheaf.fpflags_of_noRows {a b : Sheaf} (h : a.noRows = b.noRows) : a.fpflags = b.fpflags := by
  have : a.noRows.fpflags = b.noRows.fpflags := by rw [h]
  exact this

theorem Sheaf.npc_of_besides {a b : Sheaf} (h : a.besides = b.besides) : a.npc = b.npc := by
  have : a.besides.npc = b.besides.npc := by rw [h]
  exact this

theorem Sheaf.takeTimes_rows (sh : Sheaf) (rs : List (BitVec 6)) (m : Mask) : (sh.takeTimes rs m).rows = sh.rows := by
  unfold Sheaf.takeTimes; split <;> rfl

theorem Sheaf.takeTimes_held (sh : Sheaf) (rs : List (BitVec 6)) (m : Mask) : (sh.takeTimes rs m).held = sh.held := by
  unfold Sheaf.takeTimes; split
  · rfl
  · exact Sheaf.held_modFibs _ _ _

theorem Sheaf.consumed_fib {α : Type} (sh : Sheaf) (i : LaneIns) (l : Fin 32) (d : α) (g : Fibre → α)
    (hg : ∀ f x, g { f with horizon := x } = g f) : (sh.consumed i).fib l d g = sh.fib l d g := by
  unfold Sheaf.consumed
  rw [Sheaf.fib_congr (Sheaf.lanes_of_noRows (Sheaf.noRows_killAll _ _ _))]
  exact Sheaf.takeTimes_fib sh _ _ l d g hg

theorem Sheaf.consumed_held (sh : Sheaf) (i : LaneIns) : (sh.consumed i).held = sh.held := by
  unfold Sheaf.consumed
  rw [Sheaf.held_congr (Sheaf.lanes_of_noRows (Sheaf.noRows_killAll _ _ _)), Sheaf.takeTimes_held]

theorem Sheaf.besides_consumed (sh : Sheaf) (i : LaneIns) : (sh.consumed i).besides = sh.besides := by
  unfold Sheaf.consumed
  rw [Sheaf.besides_of_noRows (Sheaf.noRows_killAll _ _ _), Sheaf.besides_takeTimes]

theorem Sheaf.consumed_fpflags (sh : Sheaf) (i : LaneIns) : (sh.consumed i).fpflags = sh.fpflags := by
  unfold Sheaf.consumed
  rw [Sheaf.fpflags_of_noRows (Sheaf.noRows_killAll _ _ _)]
  unfold Sheaf.takeTimes; split <;> rfl

theorem Sheaf.consumed_cell (sh : Sheaf) (i : LaneIns) (n : BitVec 8) (l : Fin 32)
    (h : ¬ (n ∈ lastRegs i.srcs ∧ hasLane sh.issuing l = true)) : (sh.consumed i).cell n l = sh.cell n l := by
  unfold Sheaf.consumed
  rw [Sheaf.cell_killAll _ _ _ _ _ h, Sheaf.cell_congr (Sheaf.takeTimes_rows _ _ _)]

/-! ### The general form -/

/-- What an instruction does to one acting fibre: flags and exceptions. -/
def fibreEffect (fl : Option (BitVec 2 × (Fin 32 → CcVal))) (fp : Fin 32 → BitVec 5) (l : Fin 32) (f : Fibre) : Fibre :=
  match fl with
  | some (k, v) => { f.writeC k (v l) with fpflags := f.fpflags ||| fp l }
  | none => { f with fpflags := f.fpflags ||| fp l }

theorem Fibre.readC_writeC (f : Fibre) (k j : BitVec 2) (x : CcVal) : (f.writeC k x).readC j = if k = j then x else f.readC j := by
  unfold Fibre.readC Fibre.writeC
  by_cases h : k = j
  · subst h; simp
  · have : ¬ k.toNat = j.toNat := fun c => h (BitVec.eq_of_toNat_eq c)
    simp [h, this]

/-- An effect on the sheaf that writes the registers of `w` and changes the acting fibres by `fibreEffect`. -/
structure LaneEff (act : Mask) (c x : Sheaf) (w : List LaneWrite) (fl : Option (BitVec 2 × (Fin 32 → CcVal)))
    (fp : Fin 32 → BitVec 5) : Prop where
  rest : x.besides = c.besides
  lanes : x.lanes = (c.modFibs act (fibreEffect fl fp)).lanes
  written : ∀ e ∈ w, ∀ l, hasLane act l = true → x.cell e.1 l = (e.2 l, true, true)
  other : ∀ n l, ¬ (n ∈ w.map (·.1) ∧ hasLane act l = true) → x.cell n l = c.cell n l
  fpflags : x.fpflags = (lanesIn act).foldl (fun a l => a ||| fp l) c.fpflags

theorem Sheaf.advance_cell (sh : Sheaf) (m : Mask) (n : BitVec 8) (l : Fin 32) : (sh.advance m).cell n l = sh.cell n l :=
  Sheaf.cell_congr rfl n l

theorem Sheaf.advance_fib {α : Type} (sh : Sheaf) (m : Mask) (l : Fin 32) (d : α) (g : Fibre → α) :
    (sh.advance m).fib l d g = if hasLane m l then sh.fib l d (fun x => g { x with pc := sh.npc }) else sh.fib l d g := by
  exact Sheaf.fib_modFibs sh m (fun _ f => { f with pc := sh.npc }) l d g

theorem LaneClear.done {s : State} {i : LaneIns} (h : LaneClear s i) {eff : Sheaf → Mask → Sheaf → Sheaf} {w : List LaneWrite}
    {fl : Option (BitVec 2 × (Fin 32 → CcVal))} {fp : Fin 32 → BitVec 5}
    (he : LaneEff (s.acting i.g) (s.shf.consumed i) (eff s.shf (s.acting i.g) (s.shf.consumed i)) w fl fp) :
    LaneDone s (s.laneStep i eff) i w fl fp := by
  rw [h.laneStep eff]
  generalize hx : eff s.shf (s.acting i.g) (s.shf.consumed i) = x at he
  have hfree : (x.freeSrcs i.srcs).noRows = x.noRows := Sheaf.noRows_freeSrcs _ _
  have hlan : (x.freeSrcs i.srcs).lanes = x.lanes := Sheaf.lanes_of_noRows hfree
  have hheld : x.held = s.shf.held := by
    rw [Sheaf.held_congr he.lanes, Sheaf.held_modFibs, Sheaf.consumed_held]
  have hbes : (x.freeSrcs i.srcs).besides = s.shf.besides :=
    (Sheaf.besides_of_noRows hfree).trans (he.rest.trans (Sheaf.besides_consumed s.shf i))
  have hnpc : (x.freeSrcs i.srcs).npc = s.shf.npc := Sheaf.npc_of_besides hbes
  -- a fibre's part, after everything
  have hfib : ∀ {α : Type} (l : Fin 32) (d : α) (g : Fibre → α) (_ : ∀ f y, g { f with horizon := y } = g f)
      (_ : ∀ f y, g { f with pc := y } = g f),
      (((x.freeSrcs i.srcs).advance s.shf.issuing)).fib l d g =
        if hasLane (s.acting i.g) l then s.shf.fib l d (fun f => g (fibreEffect fl fp l f)) else s.shf.fib l d g := by
    intro α l d g hh hp
    rw [Sheaf.advance_fib]
    simp only [hp, ite_self]
    rw [Sheaf.fib_congr hlan, Sheaf.fib_congr he.lanes, Sheaf.fib_modFibs]
    have e1 : (s.shf.consumed i).fib l d (fun f => g (fibreEffect fl fp l f)) = s.shf.fib l d (fun f => g (fibreEffect fl fp l f)) := by
      apply Sheaf.consumed_fib
      intro f y
      have : fibreEffect fl fp l { f with horizon := y } = { fibreEffect fl fp l f with horizon := y } := by
        unfold fibreEffect; split <;> rfl
      rw [this, hh]
    rw [e1, Sheaf.consumed_fib _ _ _ _ _ hh]
  have hcell : ∀ n l, hasLane s.shf.held l = true → x.liveLane n l = true →
      ((x.freeSrcs i.srcs).advance s.shf.issuing).cell n l = x.cell n l := by
    intro n l hl hv
    rw [Sheaf.advance_cell]
    exact Sheaf.cell_freeSrcs x i.srcs n l (by rw [hheld]; exact hl) hv
  constructor
  case machine => rw [State.shf_setShf _ h.batch]
  case sheaf =>
    rw [State.shf_setShf _ h.batch]
    exact ⟨hbes, rfl⟩
  case values =>
    intro e hw l hl
    rw [State.shf_setShf _ h.batch]
    have hc := he.written e hw l hl
    have hb : hasLane s.shf.held l = true := Sheaf.issuing_held _ _ (State.acts_batch hl)
    have := hcell e.1 l hb (congrArg (·.2.2) hc)
    rw [hc] at this
    exact ⟨congrArg (·.1) this, congrArg (·.2.1) this, congrArg (·.2.2) this⟩
  case kept =>
    intro n l hl hv hw hm
    rw [State.shf_setShf _ h.batch]
    have h1 : x.cell n l = s.shf.cell n l := by
      rw [he.other n l hw]
      exact Sheaf.consumed_cell s.shf i n l hm
    have h2 := hcell n l hl ((congrArg (·.2.2) h1).trans hv)
    rw [h1] at h2
    exact ⟨congrArg (·.1) h2, congrArg (·.2.1) h2, (congrArg (·.2.2) h2).trans hv⟩
  case flags =>
    intro k v hfl l hl
    rw [State.shf_setShf _ h.batch, hfib l 0 _ (fun _ _ => rfl) (fun _ _ => rfl), if_pos (show hasLane (s.acting i.g) l = true from hl), hfl]
    have hb : hasLane s.shf.held l = true := Sheaf.issuing_held _ _ (State.acts_batch hl)
    rw [Sheaf.held_lane] at hb
    unfold Sheaf.fib at hb ⊢
    cases hlane : s.shf.lanes[l] with
    | held f =>
      show (Fibre.readC _ k) = v l
      have := Fibre.readC_writeC f k k (v l)
      rw [if_pos rfl] at this
      exact this
    | dormant e => rw [hlane] at hb; exact absurd hb (by simp)
    | empty e => rw [hlane] at hb; exact absurd hb (by simp)
  case flagsKept =>
    intro k l hno
    rw [State.shf_setShf _ h.batch, hfib l 0 _ (fun _ _ => rfl) (fun _ _ => rfl)]
    split
    · rename_i ha
      congr 1
      funext f
      cases hfl : fl with
      | none => rfl
      | some p =>
        obtain ⟨k', v⟩ := p
        have hk : ¬ k' = k := fun c => hno v (by rw [hfl, c]) ha
        have := Fibre.readC_writeC f k' k (v l)
        rw [if_neg hk] at this
        exact this
    · rfl
  case exceptions =>
    intro l
    rw [State.shf_setShf _ h.batch, hfib l 0 _ (fun _ _ => rfl) (fun _ _ => rfl)]
    have e : ∀ f, (fibreEffect fl fp l f).fpflags = f.fpflags ||| fp l := by
      intro f; unfold fibreEffect; split <;> rfl
    simp only [e]
    split
    · rename_i ha
      have hb : hasLane s.shf.held l = true := Sheaf.issuing_held _ _ (State.acts_batch ha)
      rw [Sheaf.held_lane] at hb
      unfold Sheaf.fib at hb ⊢
      cases hlane : s.shf.lanes[l] with
      | held f => rfl
      | dormant e => rw [hlane] at hb; exact absurd hb (by simp)
      | empty e => rw [hlane] at hb; exact absurd hb (by simp)
    · simp
  case sheafExceptions =>
    rw [State.shf_setShf _ h.batch]
    show (x.freeSrcs i.srcs).fpflags = _
    rw [Sheaf.fpflags_of_noRows hfree, he.fpflags, Sheaf.consumed_fpflags]
  case pcs =>
    intro l
    rw [State.shf_setShf _ h.batch]
    unfold Sheaf.pcOf
    rw [Sheaf.advance_fib, hnpc]
    have e : ∀ f, (fibreEffect fl fp l f).pc = f.pc := by intro f; unfold fibreEffect; split <;> rfl
    split
    · rename_i hb
      have hh := Sheaf.issuing_held _ _ hb
      have hh' : hasLane (x.freeSrcs i.srcs).held l = true := by rw [Sheaf.held_congr hlan, hheld]; exact hh
      rw [Sheaf.held_lane] at hh'
      unfold Sheaf.fib at hh' ⊢
      cases hlane : (x.freeSrcs i.srcs).lanes[l] with
      | held f => rfl
      | dormant e => rw [hlane] at hh'; exact absurd hh' (by simp)
      | empty e => rw [hlane] at hh'; exact absurd hh' (by simp)
    · rw [Sheaf.fib_congr hlan, Sheaf.fib_congr he.lanes, Sheaf.fib_modFibs]
      simp only [e, ite_self]
      exact Sheaf.consumed_fib _ _ _ _ _ fun _ _ => rfl
  case fibres =>
    intro l
    rw [State.shf_setShf _ h.batch, hfib l none _ (fun _ _ => rfl) (fun _ _ => rfl)]
    have e : ∀ f, (fibreEffect fl fp l f).identity = f.identity := by intro f; unfold fibreEffect; split <;> rfl
    simp only [e, ite_self]

/-! ### The runners -/

theorem Sheaf.setFlags_lanes (sh : Sheaf) (fl : SetFlags) (m : Mask) (f : Fin 32 → CcVal) :
    (sh.setFlags fl m f).lanes = (sh.modFibs m (fibreEffect (fl.map fun k => (k, f)) fun _ => 0)).lanes := by
  apply lanesOf_ext
  intro l
  cases fl with
  | none =>
    rw [Sheaf.modFibs_lane]
    show sh.lanes[l.val] = _
    cases h : sh.lanes[l.val] <;> simp [Lane.mod, fibreEffect]
  | some k =>
    show (sh.modFibs m fun l x => x.writeC k (f l)).lanes[l.val] = _
    rw [Sheaf.modFibs_lane, Sheaf.modFibs_lane]
    cases h : sh.lanes[l.val] <;> simp [Lane.mod, fibreEffect, Fibre.writeC]

theorem Sheaf.setFlags_besides (sh : Sheaf) (fl : SetFlags) (m : Mask) (f : Fin 32 → CcVal) :
    (sh.setFlags fl m f).besides = sh.besides ∧ (sh.setFlags fl m f).rows = sh.rows ∧ (sh.setFlags fl m f).fpflags = sh.fpflags := by
  cases fl <;> exact ⟨rfl, rfl, rfl⟩

theorem foldl_or_zero (ls : List (Fin 32)) (x : BitVec 5) : ls.foldl (fun a _ => a ||| (0 : BitVec 5)) x = x := by
  induction ls generalizing x with
  | nil => rfl
  | cons a t ih => rw [List.foldl_cons, ih]; simp

/-- Registers written one after another. -/
def Sheaf.writeRows (sh : Sheaf) (act : Mask) (w : List LaneWrite) : Sheaf := w.foldl (fun sh e => sh.writeRow e.1 act e.2) sh

theorem Sheaf.noRows_writeRows (sh : Sheaf) (act : Mask) (w : List LaneWrite) : (sh.writeRows act w).noRows = sh.noRows :=
  foldl_keeps (fun (sh : Sheaf) (e : LaneWrite) => sh.writeRow e.1 act e.2) Sheaf.noRows (fun a e => Sheaf.noRows_writeRow a e.1 act e.2) w sh

theorem Sheaf.cell_writeRows_other (sh : Sheaf) (act : Mask) (w : List LaneWrite) (n : BitVec 8) (l : Fin 32)
    (h : ¬ (n ∈ w.map (·.1) ∧ hasLane act l = true)) : (sh.writeRows act w).cell n l = sh.cell n l := by
  unfold Sheaf.writeRows
  induction w generalizing sh with
  | nil => rfl
  | cons e t ih =>
    rw [List.foldl_cons, ih _ fun c => h ⟨List.mem_cons_of_mem _ c.1, c.2⟩, Sheaf.cell_writeRow, if_neg]
    rintro ⟨h1, h2⟩
    exact h ⟨by rw [← h1]; exact List.mem_cons_self .., h2⟩

theorem Sheaf.cell_writeRows (sh : Sheaf) (act : Mask) (w : List LaneWrite) (hn : (w.map (·.1)).Nodup) (e : LaneWrite) (he : e ∈ w)
    (l : Fin 32) (hl : hasLane act l = true) : (sh.writeRows act w).cell e.1 l = (e.2 l, true, true) := by
  unfold Sheaf.writeRows
  induction w generalizing sh with
  | nil => simp at he
  | cons d t ih =>
    rw [List.map_cons, List.nodup_cons] at hn
    rw [List.foldl_cons]
    rcases List.mem_cons.1 he with rfl | ht
    · have := Sheaf.cell_writeRows_other (sh.writeRow e.1 act e.2) act t e.1 l fun c => hn.1 c.1
      unfold Sheaf.writeRows at this
      rw [this, Sheaf.cell_writeRow, if_pos ⟨rfl, hl⟩]
    · exact ih (sh.writeRow d.1 act d.2) hn.2 ht

theorem LaneEff.alu (act : Mask) (c : Sheaf) (w : List LaneWrite) (hn : (w.map (·.1)).Nodup) (fl : SetFlags) (f : Fin 32 → CcVal) :
    LaneEff act c ((c.writeRows act w).setFlags fl act f) w (fl.map fun k => (k, f)) fun _ => 0 := by
  obtain ⟨hb, hr, hx⟩ := Sheaf.setFlags_besides (c.writeRows act w) fl act f
  have hw := Sheaf.noRows_writeRows c act w
  have hcell : ∀ n l, ((c.writeRows act w).setFlags fl act f).cell n l = (c.writeRows act w).cell n l :=
    fun n l => Sheaf.cell_congr hr n l
  constructor
  case rest => exact hb.trans (Sheaf.besides_of_noRows hw)
  case lanes =>
    rw [Sheaf.setFlags_lanes]
    apply lanesOf_ext
    intro l
    rw [Sheaf.modFibs_lane, Sheaf.modFibs_lane, Sheaf.lanes_of_noRows (Sheaf.noRows_writeRows c act w)]
  case written => intro e he l hl; rw [hcell]; exact Sheaf.cell_writeRows c act w hn e he l hl
  case other => intro n l h; rw [hcell]; exact Sheaf.cell_writeRows_other c act w n l h
  case fpflags => rw [hx, Sheaf.fpflags_of_noRows hw]; exact (foldl_or_zero _ _).symm

theorem LaneEff.float (act : Mask) (c : Sheaf) (w : List LaneWrite) (hn : (w.map (·.1)).Nodup) (fl : SetFlags) (f : Fin 32 → CcVal)
    (fp : Fin 32 → BitVec 5) :
    LaneEff act c (((c.writeRows act w).setFlags fl act f).raiseFp act fp) w (fl.map fun k => (k, f)) fp := by
  have ha := LaneEff.alu act c w hn fl f
  generalize (c.writeRows act w).setFlags fl act f = x at ha
  constructor
  case rest => exact ha.rest
  case lanes =>
    apply lanesOf_ext
    intro l
    show (x.modFibs act fun l f => { f with fpflags := f.fpflags ||| fp l }).lanes[l.val] = _
    rw [Sheaf.modFibs_lane, Sheaf.modFibs_lane, ha.lanes, Sheaf.modFibs_lane]
    cases hasLane act l
    · rfl
    · cases c.lanes[l.val] with
      | held y => cases fl <;> simp [Lane.mod, fibreEffect, Fibre.writeC]
      | dormant e => rfl
      | empty e => rfl
  case written => exact ha.written
  case other => exact ha.other
  case fpflags =>
    show (lanesIn act).foldl (fun a l => a ||| fp l) x.fpflags = _
    rw [ha.fpflags, foldl_or_zero]

theorem pair_nodup (d : BitVec 8) : [d, d + 1].Nodup := by
  simp

/-- What a lane instruction with a 32-bit result leaves. -/
theorem aluRun_done {s : State} {i : LaneIns} (h : LaneClear s i) (d : BitVec 8) (fl : SetFlags)
    (f : Sheaf → Fin 32 → W32 × CcVal) :
    LaneDone s (aluRun s i d fl f) i [(d, fun l => (f s.shf l).1)] (fl.map fun k => (k, fun l => (f s.shf l).2)) fun _ => 0 :=
  h.done (LaneEff.alu (s.acting i.g) (s.shf.consumed i) [(d, fun l => (f s.shf l).1)] (by simp) fl fun l => (f s.shf l).2)

/-- What a lane instruction with a 64-bit result leaves. -/
theorem aluRun64_done {s : State} {i : LaneIns} (h : LaneClear s i) (d : BitVec 8) (fl : SetFlags)
    (f : Sheaf → Fin 32 → Word × CcVal) :
    LaneDone s (aluRun64 s i d fl f) i [(d, fun l => loHalf (f s.shf l).1), (d + 1, fun l => hiHalf (f s.shf l).1)]
      (fl.map fun k => (k, fun l => (f s.shf l).2)) fun _ => 0 :=
  h.done (LaneEff.alu (s.acting i.g) (s.shf.consumed i) [(d, fun l => loHalf (f s.shf l).1), (d + 1, fun l => hiHalf (f s.shf l).1)]
    (pair_nodup d) fl fun l => (f s.shf l).2)

/-- What a compare leaves. -/
theorem cmpRun_done {s : State} {i : LaneIns} (h : LaneClear s i) (k : BitVec 2) (f : Sheaf → Fin 32 → CcVal) :
    LaneDone s (cmpRun s i k f) i [] (some (k, f s.shf)) fun _ => 0 :=
  h.done (LaneEff.alu (s.acting i.g) (s.shf.consumed i) [] (by simp) (some k) (f s.shf))

/-- What a floating-point instruction leaves. -/
theorem floatRun_done {s : State} {i : LaneIns} (h : LaneClear s i) (d : BitVec 8) (f : Sheaf → Fin 32 → W32 × Exc) :
    LaneDone s (floatRun s i d f) i [(d, fun l => (f s.shf l).1)] none fun l => (f s.shf l).2 :=
  h.done (LaneEff.float (s.acting i.g) (s.shf.consumed i) [(d, fun l => (f s.shf l).1)] (by simp) none (fun _ => 0)
    fun l => (f s.shf l).2)

end Sys2Proof.Machine
end

