-- ==== Sys2Proof/Laws/Memory.lean ====
section
/-! SUPPORT. Memory: what a read sees after a write, and that every operation keeps the canonical form. -/

namespace Sys2Proof.Machine

/-! ### The canonical form -/

theorem Memory.wfFrom_le {m : Memory} {a b : Nat} (h : b ≤ a) (hw : Memory.wfFrom m a = true) : Memory.wfFrom m b = true := by
  cases m with
  | nil => rfl
  | cons e t =>
    obtain ⟨k, v⟩ := e
    simp only [Memory.wfFrom, Bool.and_eq_true, decide_eq_true_eq] at hw ⊢
    exact ⟨⟨by omega, hw.1.2⟩, hw.2⟩

theorem Memory.wfFrom_erase {m : Memory} {lo : Nat} (a : Nat) (h : Memory.wfFrom m lo = true) :
    Memory.wfFrom (Memory.erase m a) lo = true := by
  induction m generalizing lo with
  | nil => rfl
  | cons e t ih =>
    obtain ⟨k, v⟩ := e
    simp only [Memory.wfFrom, Bool.and_eq_true, decide_eq_true_eq] at h
    simp only [Memory.erase]
    split
    · exact Memory.wfFrom_le (by omega) h.2
    · split
      · simp only [Memory.wfFrom, Bool.and_eq_true, decide_eq_true_eq]
        exact ⟨h.1, ih h.2⟩
      · simp only [Memory.wfFrom, Bool.and_eq_true, decide_eq_true_eq]
        exact h

theorem Memory.wfFrom_put {m : Memory} {lo : Nat} (a : Nat) (b : Byte) (ha : lo ≤ a) (hb : b ≠ unlisted)
    (h : Memory.wfFrom m lo = true) : Memory.wfFrom (Memory.put m a b) lo = true := by
  induction m generalizing lo with
  | nil => simp [Memory.put, Memory.wfFrom, ha, hb]
  | cons e t ih =>
    obtain ⟨k, v⟩ := e
    simp only [Memory.wfFrom, Bool.and_eq_true, decide_eq_true_eq] at h
    simp only [Memory.put]
    split
    · rename_i hk
      subst hk
      simp only [Memory.wfFrom, Bool.and_eq_true, decide_eq_true_eq]
      exact ⟨⟨ha, hb⟩, h.2⟩
    · split
      · simp only [Memory.wfFrom, Bool.and_eq_true, decide_eq_true_eq]
        exact ⟨h.1, ih (by omega) h.2⟩
      · simp only [Memory.wfFrom, Bool.and_eq_true, decide_eq_true_eq]
        exact ⟨⟨ha, hb⟩, ⟨by omega, h.1.2⟩, h.2⟩

/-- A write keeps the canonical form. -/
theorem Memory.write_wf {m : Memory} (a : Nat) (b : Byte) (h : Memory.wf m = true) : Memory.wf (Memory.write m a b) = true := by
  unfold Memory.write Memory.wf
  split
  · exact Memory.wfFrom_erase a h
  · exact Memory.wfFrom_put a b (Nat.zero_le a) ‹_› h

theorem Memory.writes_wf {m : Memory} (a : Nat) (bs : List Byte) (h : Memory.wf m = true) :
    Memory.wf (Memory.writes m a bs) = true := by
  induction bs generalizing m a with
  | nil => exact h
  | cons b t ih => exact ih (a + 1) (Memory.write_wf a b h)

/-- Bytes written by offset keep the canonical form. -/
theorem Memory.foldl_write_wf {m : Memory} (a : Nat) (bs : List (Nat × Byte)) (h : Memory.wf m = true) :
    Memory.wf (bs.foldl (fun m e => Memory.write m (a + e.1) e.2) m) = true := by
  induction bs generalizing m with
  | nil => exact h
  | cons e t ih => exact ih (Memory.write_wf _ _ h)

theorem Memory.wfFrom_filter {m : Memory} {lo : Nat} (p : Host.Cell → Bool) (h : Memory.wfFrom m lo = true) :
    Memory.wfFrom (m.filter p) lo = true := by
  induction m generalizing lo with
  | nil => rfl
  | cons e t ih =>
    obtain ⟨k, v⟩ := e
    simp only [Memory.wfFrom, Bool.and_eq_true, decide_eq_true_eq] at h
    by_cases hp : p (k, v) = true
    · rw [List.filter_cons_of_pos hp]
      simp only [Memory.wfFrom, Bool.and_eq_true, decide_eq_true_eq]
      exact ⟨h.1, ih h.2⟩
    · rw [List.filter_cons_of_neg hp]
      exact Memory.wfFrom_le (by omega) (ih h.2)

/-- Dropping whole addresses keeps the canonical form. -/
theorem Memory.filter_wf {m : Memory} (p : Host.Cell → Bool) (h : Memory.wf m = true) : Memory.wf (m.filter p) = true :=
  Memory.wfFrom_filter p h

/-! ### Reads and writes -/

theorem Memory.read_below {m : Memory} {lo a : Nat} (h : Memory.wfFrom m lo = true) (ha : a < lo) : Memory.read m a = unlisted := by
  induction m generalizing lo with
  | nil => rfl
  | cons e t ih =>
    obtain ⟨k, v⟩ := e
    simp only [Memory.wfFrom, Bool.and_eq_true, decide_eq_true_eq] at h
    have : ¬ k = a := by omega
    simp only [Memory.read, if_neg this]
    exact ih h.2 (by omega)

theorem Memory.read_put_self (m : Memory) (a : Nat) (b : Byte) : Memory.read (Memory.put m a b) a = b := by
  induction m with
  | nil => simp [Memory.put, Memory.read]
  | cons e t ih =>
    obtain ⟨k, v⟩ := e
    simp only [Memory.put]
    split
    · simp [Memory.read]
    · rename_i hk
      split
      · simp [Memory.read, hk, ih]
      · simp [Memory.read]

theorem Memory.read_put_ne (m : Memory) {a c : Nat} (b : Byte) (h : a ≠ c) : Memory.read (Memory.put m a b) c = Memory.read m c := by
  induction m with
  | nil => simp [Memory.put, Memory.read, h]
  | cons e t ih =>
    obtain ⟨k, v⟩ := e
    simp only [Memory.put]
    split
    · rename_i hk; subst hk; simp [Memory.read, h]
    · split
      · simp [Memory.read, ih]
      · simp [Memory.read, h]

theorem Memory.read_erase_ne (m : Memory) {a c : Nat} (h : a ≠ c) : Memory.read (Memory.erase m a) c = Memory.read m c := by
  induction m with
  | nil => rfl
  | cons e t ih =>
    obtain ⟨k, v⟩ := e
    simp only [Memory.erase]
    split
    · rename_i hk; subst hk; simp [Memory.read, h]
    · split
      · simp [Memory.read, ih]
      · rfl

theorem Memory.read_erase_self {m : Memory} {lo : Nat} (a : Nat) (h : Memory.wfFrom m lo = true) :
    Memory.read (Memory.erase m a) a = unlisted := by
  induction m generalizing lo with
  | nil => rfl
  | cons e t ih =>
    obtain ⟨k, v⟩ := e
    simp only [Memory.wfFrom, Bool.and_eq_true, decide_eq_true_eq] at h
    simp only [Memory.erase]
    split
    · rename_i hk; subst hk; exact Memory.read_below h.2 (by omega)
    · rename_i hk
      split
      · simp only [Memory.read, if_neg hk]; exact ih h.2
      · simp only [Memory.read, if_neg hk]; exact Memory.read_below h.2 (by omega)

/-- A read after a write to the same address gives the value written. -/
theorem Memory.read_write_self {m : Memory} (a : Nat) (b : Byte) (h : Memory.wf m = true) :
    Memory.read (Memory.write m a b) a = b := by
  unfold Memory.write
  split
  · rename_i hb; rw [hb]; exact Memory.read_erase_self a h
  · exact Memory.read_put_self m a b

/-- A write leaves every other address alone. -/
theorem Memory.read_write_ne (m : Memory) {a c : Nat} (b : Byte) (h : a ≠ c) :
    Memory.read (Memory.write m a b) c = Memory.read m c := by
  unfold Memory.write
  split
  · exact Memory.read_erase_ne m h
  · exact Memory.read_put_ne m b h

theorem Memory.read_writes_out (m : Memory) {a c : Nat} (bs : List Byte) (h : c < a ∨ a + bs.length ≤ c) :
    Memory.read (Memory.writes m a bs) c = Memory.read m c := by
  induction bs generalizing m a with
  | nil => rfl
  | cons b t ih =>
    simp only [List.length_cons] at h
    rw [Memory.writes, ih _ (by omega), Memory.read_write_ne m b (by omega)]

@[simp] theorem Memory.bytes_length (m : Memory) (a n : Nat) : (Memory.bytes m a n).length = n := by
  induction n generalizing a with
  | zero => rfl
  | succ n ih => simp [Memory.bytes, ih]

theorem Memory.bytes_congr {m m' : Memory} (a n : Nat) (h : ∀ i, a ≤ i → i < a + n → Memory.read m i = Memory.read m' i) :
    Memory.bytes m a n = Memory.bytes m' a n := by
  induction n generalizing a with
  | zero => rfl
  | succ n ih =>
    rw [Memory.bytes, Memory.bytes, h a (by omega) (by omega), ih (a + 1) fun i h1 h2 => h i (by omega) (by omega)]

/-- Bytes written are the bytes read there. -/
theorem Memory.bytes_writes {m : Memory} (a : Nat) (bs : List Byte) (h : Memory.wf m = true) :
    Memory.bytes (Memory.writes m a bs) a bs.length = bs := by
  induction bs generalizing m a with
  | nil => rfl
  | cons b t ih =>
    simp only [List.length_cons, Memory.bytes, Memory.writes]
    rw [ih (a + 1) (Memory.write_wf a b h), Memory.read_writes_out _ _ (by omega), Memory.read_write_self a b h]

/-- Equal contents are equal data. -/
theorem Memory.ext_wfFrom {m m' : Memory} {lo : Nat} (h : Memory.wfFrom m lo = true) (h' : Memory.wfFrom m' lo = true)
    (he : ∀ a, Memory.read m a = Memory.read m' a) : m = m' := by
  induction m generalizing m' lo with
  | nil =>
    cases m' with
    | nil => rfl
    | cons e t =>
      obtain ⟨k, v⟩ := e
      simp only [Memory.wfFrom, Bool.and_eq_true, decide_eq_true_eq] at h'
      have := he k
      simp [Memory.read] at this
      exact absurd this.symm h'.1.2
  | cons e t ih =>
    obtain ⟨k, v⟩ := e
    cases m' with
    | nil =>
      simp only [Memory.wfFrom, Bool.and_eq_true, decide_eq_true_eq] at h
      have := he k
      simp [Memory.read] at this
      exact absurd this h.1.2
    | cons e' t' =>
      obtain ⟨k', v'⟩ := e'
      simp only [Memory.wfFrom, Bool.and_eq_true, decide_eq_true_eq] at h h'
      have hk : k = k' := by
        rcases Nat.lt_trichotomy k k' with hlt | heq | hgt
        · have := he k
          rw [Memory.read, if_pos rfl, Memory.read, if_neg (by omega), Memory.read_below h'.2 (by omega)] at this
          exact absurd this h.1.2
        · exact heq
        · have := he k'
          rw [Memory.read, if_neg (by omega), Memory.read, if_pos rfl, Memory.read_below h.2 (by omega)] at this
          exact absurd this.symm h'.1.2
      subst hk
      have hv : v = v' := by have := he k; simpa [Memory.read] using this
      subst hv
      have : t = t' := ih h.2 h'.2 fun a => by
        by_cases ha : k = a
        · subst ha; rw [Memory.read_below h.2 (by omega), Memory.read_below h'.2 (by omega)]
        · have := he a; simpa [Memory.read, ha] using this
      rw [this]

theorem Memory.ext {m m' : Memory} (h : Memory.wf m = true) (h' : Memory.wf m' = true)
    (he : ∀ a, Memory.read m a = Memory.read m' a) : m = m' := Memory.ext_wfFrom h h' he

end Sys2Proof.Machine
end

