-- ==== Sys2Proof/Laws/SheafDone.lean ====
section
/-! SUPPORT. What a sheaf instruction does, said once: readiness, a false guard, and the shared runner. -/

namespace Sys2Proof.Machine

theorem SheafClear.wait {s : State} {g : Guard} {srcs dests : List (BitVec 6)} {scd : Option (BitVec 2)}
    (h : SheafClear s g srcs dests scd) : s.shf.sheafWait srcs dests scd = none := by
  unfold Sheaf.sheafWait
  have h1 : (srcs.find? fun r => !s.shf.fullS r) = none := by
    rw [List.find?_eq_none]; intro r hr; simp [h.sources r hr]
  have h2 : (dests.find? fun r => !s.shf.fullS r) = none := by
    rw [List.find?_eq_none]; intro r hr; simp [h.dests r hr]
  have h3 : (scd.filter fun k => !s.shf.fullSc k) = none := by
    cases hk : scd with
    | none => rfl
    | some k => simp [Option.filter, h.flagDest k hk]
  rw [h1, h2, h3]
  rfl

/-- A SHEAF INSTRUCTION that runs: its effect on the state in which its completion times have been taken (R223). -/
theorem SheafClear.step {s : State} {g : Guard} {srcs dests : List (BitVec 6)} {scd : Option (BitVec 2)}
    (h : SheafClear s g srcs dests scd) (k : State → State) :
    s.sheafStep g srcs dests scd k = k (s.setShf (s.shf.takeTimes srcs s.shf.issuing)) := by
  unfold State.sheafStep
  have hg : (guardReads g && !s.shf.fullSc g.cc) = false := by
    cases hr : guardReads g with
    | false => rfl
    | true => rw [h.guardFull hr]; rfl
  show (if s.shf.issuing = 0#32 then s else _) = _
  rw [if_neg h.batch]
  simp [hg, h.guard, h.wait]

/-- A sheaf instruction whose guard is false passes its batch on (R36, R140). -/
theorem State.sheafStep_false {s : State} {g : Guard} (srcs dests : List (BitVec 6)) (scd : Option (BitVec 2)) (k : State → State)
    (hb : s.shf.issuing ≠ 0#32) (hf : guardReads g = true → s.shf.fullSc g.cc = true)
    (hg : condHolds g.cond (s.shf.readSc g.cc) = false) :
    s.sheafStep g srcs dests scd k = s.setShf (s.shf.advance s.shf.issuing) := by
  unfold State.sheafStep
  have hx : (guardReads g && !s.shf.fullSc g.cc) = false := by
    cases hr : guardReads g with
    | false => rfl
    | true => rw [hf hr]; rfl
  show (if s.shf.issuing = 0#32 then s else _) = _
  rw [if_neg hb]
  simp [hx, hg]

/-! ### s and sc registers -/

theorem Sheaf.readS_writeS (sh : Sheaf) (r q : BitVec 6) (x : Word) : (sh.writeS r x).readS q = if r = q then x else sh.readS q := by
  unfold Sheaf.readS Sheaf.writeS
  by_cases h : r = q
  · subst h; simp
  · have : ¬ r.toNat = q.toNat := fun c => h (BitVec.eq_of_toNat_eq c)
    simp [h, this]

theorem shift_one_getLsbD {n : Nat} (k i : Nat) (hi : i < n) : (1#n <<< k).getLsbD i = decide (k = i) := by
  show (BitVec.twoPow n k).getLsbD i = _
  rw [BitVec.getLsbD_twoPow]
  by_cases h : k = i
  · subst h; simp [hi]
  · simp [h]

/-- A c register's value and full bit after the write of one of them, or of none. -/
def scAfter {α : Type} (fl : Option (BitVec 2 × CcVal)) (k : BitVec 2) (old : α) (new : CcVal → α) : α :=
  match fl with
  | some p => if p.1 = k then new p.2 else old
  | none => old

theorem Sheaf.fullS_writeS (sh : Sheaf) (r q : BitVec 6) (x : Word) :
    (sh.writeS r x).fullS q = if r = q then true else sh.fullS q := by
  unfold Sheaf.fullS
  rw [Sheaf.writeS_sfull, BitVec.getLsbD_or, shift_one_getLsbD _ _ q.isLt]
  by_cases h : r = q
  · subst h; simp
  · have : ¬ r.toNat = q.toNat := fun c => h (BitVec.eq_of_toNat_eq c)
    simp [h, this]

theorem Sheaf.readSc_writeSc (sh : Sheaf) (r q : BitVec 2) (x : CcVal) : (sh.writeSc r x).readSc q = if r = q then x else sh.readSc q := by
  unfold Sheaf.readSc Sheaf.writeSc
  by_cases h : r = q
  · subst h; simp
  · have : ¬ r.toNat = q.toNat := fun c => h (BitVec.eq_of_toNat_eq c)
    simp [h, this]

theorem Sheaf.fullSc_writeSc (sh : Sheaf) (r q : BitVec 2) (x : CcVal) :
    (sh.writeSc r x).fullSc q = if r = q then true else sh.fullSc q := by
  unfold Sheaf.fullSc
  rw [Sheaf.writeSc_scfull, BitVec.getLsbD_or, shift_one_getLsbD _ _ q.isLt]
  by_cases h : r = q
  · subst h; simp
  · have : ¬ r.toNat = q.toNat := fun c => h (BitVec.eq_of_toNat_eq c)
    simp [h, this]

theorem Sheaf.pcOf_advance {sh : Sheaf} (m : Mask) (l : Fin 32) (h : hasLane m l = true → hasLane sh.held l = true) :
    (sh.advance m).pcOf l = if hasLane m l then sh.npc else sh.pcOf l := by
  unfold Sheaf.pcOf
  rw [Sheaf.advance_fib]
  split
  · rename_i hm
    have := h hm
    rw [Sheaf.held_lane] at this
    unfold Sheaf.fib at this ⊢
    cases hlane : sh.lanes[l] with
    | held f => rfl
    | dormant e => rw [hlane] at this; exact absurd this (by simp)
    | empty e => rw [hlane] at this; exact absurd this (by simp)
  · rfl

theorem Sheaf.takeTimes_issuing (sh : Sheaf) (rs : List (BitVec 6)) (m : Mask) : (sh.takeTimes rs m).issuing = sh.issuing := by
  have hb : (sh.takeTimes rs m).batch = sh.batch := by unfold Sheaf.takeTimes; split <;> rfl
  unfold Sheaf.issuing
  rw [hb]
  congr 1
  apply mask_ext
  intro l
  unfold Sheaf.readyLanes Sheaf.lanesWhere
  rw [hasLane_maskOf, hasLane_maskOf]
  exact Sheaf.takeTimes_fib sh rs m l false (fun f => decide (f.status = .ready)) fun _ _ => rfl

/-- The shared end of the sheaf instructions that write registers of their sheaf. -/
theorem SheafClear.done {s : State} {g : Guard} {srcs dests : List (BitVec 6)} {scd : Option (BitVec 2)}
    (h : SheafClear s g srcs dests scd) (w : List (BitVec 6 × Word)) (hw : w.length ≤ 1) (fl : Option (BitVec 2 × CcVal)) (f : Sheaf → Sheaf)
    (hf : ∀ sh : Sheaf, sh = s.shf.takeTimes srcs s.shf.issuing → f sh = (fl.elim id fun p sh => sh.writeSc p.1 p.2)
      (w.foldl (fun sh e => sh.writeS e.1 e.2) sh)) :
    SheafDone s (s.sheafStep g srcs dests scd fun s => s.sheafDone f) w fl := by
  rw [h.step]
  generalize hc : s.shf.takeTimes srcs s.shf.issuing = c
  have hi : c.issuing = s.shf.issuing := by rw [← hc]; exact Sheaf.takeTimes_issuing _ _ _
  have hs : (s.setShf c).shf = c := State.shf_setShf c h.batch
  have hheld : c.held = s.shf.held := by rw [← hc]; exact Sheaf.takeTimes_held _ _ _
  have hnpc : c.npc = s.shf.npc := by rw [← hc]; unfold Sheaf.takeTimes; split <;> rfl
  have hsr : c.sregs = s.shf.sregs := by rw [← hc]; unfold Sheaf.takeTimes; split <;> rfl
  have hsf : c.sfull = s.shf.sfull := by rw [← hc]; unfold Sheaf.takeTimes; split <;> rfl
  have hcs : c.scs = s.shf.scs := by rw [← hc]; unfold Sheaf.takeTimes; split <;> rfl
  have hcf : c.scfull = s.shf.scfull := by rw [← hc]; unfold Sheaf.takeTimes; split <;> rfl
  have hbes : c.besidesS = s.shf.besidesS := by rw [← hc]; unfold Sheaf.takeTimes; split <;> rfl
  have hfib : ∀ (l : Fin 32), c.fib l none (fun f => some f.besidesPc) = s.shf.fib l none (fun f => some f.besidesPc) := by
    intro l; rw [← hc]; exact Sheaf.takeTimes_fib _ _ _ _ _ _ fun _ _ => rfl
  have hpc : ∀ l : Fin 32, c.pcOf l = s.shf.pcOf l := by
    intro l; rw [← hc]; exact Sheaf.takeTimes_fib _ _ _ _ _ _ fun _ _ => rfl
  have hft := hf c hc.symm
  generalize hx : f c = x at hft
  have hxl : x.lanes = c.lanes := by
    rw [hft]; cases fl <;> exact foldl_keeps (fun (sh : Sheaf) (e : BitVec 6 × Word) => sh.writeS e.1 e.2) Sheaf.lanes (fun _ _ => rfl) w c
  have hxb : x.besidesS = c.besidesS := by
    have e : (w.foldl (fun sh e => sh.writeS e.1 e.2) c).besidesS = c.besidesS :=
      foldl_keeps (fun (sh : Sheaf) (e : BitVec 6 × Word) => sh.writeS e.1 e.2) Sheaf.besidesS (fun _ _ => rfl) w c
    rw [hft]; cases fl with
    | none => exact e
    | some p => exact e
  have hxn : x.npc = c.npc := by
    have : x.besidesS.npc = c.besidesS.npc := by rw [hxb]
    exact this
  have hdone : (s.setShf c).sheafDone f = s.setShf (x.advance s.shf.issuing) := by
    unfold State.sheafDone
    rw [hs, hi, hx, State.setShf_setShf]
  rw [hdone]
  have ht : (s.setShf (x.advance s.shf.issuing)).shf = x.advance s.shf.issuing := State.shf_setShf _ h.batch
  have hR : ∀ q, x.readS q = ((w.find? fun e => e.1 = q).map (·.2)).getD (s.shf.readS q) ∧
      x.fullS q = (decide (q ∈ w.map (·.1)) || s.shf.fullS q) := by
    intro q
    have hr0 : c.readS q = s.shf.readS q := by unfold Sheaf.readS; rw [hsr]
    have hf0 : c.fullS q = s.shf.fullS q := by unfold Sheaf.fullS; rw [hsf]
    have e1 : x.readS q = (w.foldl (fun sh e => sh.writeS e.1 e.2) c).readS q ∧
        x.fullS q = (w.foldl (fun sh e => sh.writeS e.1 e.2) c).fullS q := by rw [hft]; cases fl <;> exact ⟨rfl, rfl⟩
    rw [e1.1, e1.2]
    match w, hw with
    | [], _ => simp [hr0, hf0]
    | [e], _ =>
      show (c.writeS e.1 e.2).readS q = _ ∧ (c.writeS e.1 e.2).fullS q = _
      rw [Sheaf.readS_writeS, Sheaf.fullS_writeS, hr0, hf0]
      by_cases hq : e.1 = q
      · simp [hq]
      · have hq' : ¬ q = e.1 := fun c => hq c.symm
        simp [hq, hq']
  have hC : ∀ k, x.readSc k = scAfter fl k (s.shf.readSc k) id ∧ x.fullSc k = scAfter fl k (s.shf.fullSc k) fun _ => true := by
    intro k
    have k1 : (w.foldl (fun sh e => sh.writeS e.1 e.2) c).scs = c.scs :=
      foldl_keeps (fun (sh : Sheaf) (e : BitVec 6 × Word) => sh.writeS e.1 e.2) Sheaf.scs (fun _ _ => rfl) w c
    have k2 : (w.foldl (fun sh e => sh.writeS e.1 e.2) c).scfull = c.scfull :=
      foldl_keeps (fun (sh : Sheaf) (e : BitVec 6 × Word) => sh.writeS e.1 e.2) Sheaf.scfull (fun _ _ => rfl) w c
    generalize w.foldl (fun sh e => sh.writeS e.1 e.2) c = y at k1 k2 hft
    have r0 : y.readSc k = s.shf.readSc k := by unfold Sheaf.readSc; rw [k1, hcs]
    have f0 : y.fullSc k = s.shf.fullSc k := by unfold Sheaf.fullSc; rw [k2, hcf]
    rw [hft]
    cases fl with
    | none => exact ⟨r0, f0⟩
    | some p =>
      show (y.writeSc p.1 p.2).readSc k = _ ∧ (y.writeSc p.1 p.2).fullSc k = _
      rw [Sheaf.readSc_writeSc, Sheaf.fullSc_writeSc, r0, f0]
      exact ⟨rfl, rfl⟩
  constructor
  case machine => rw [ht]
  case sheaf => rw [ht]; exact ⟨hxb.trans hbes, rfl⟩
  case values =>
    intro e he
    rw [ht]
    show x.readS e.1 = e.2 ∧ x.fullS e.1 = true
    rw [(hR e.1).1, (hR e.1).2]
    match w, hw, he with
    | [], _, he => exact absurd he (by simp)
    | [d], _, he =>
      have : e = d := by simpa using he
      subst this; simp
  case kept =>
    intro r hr
    rw [ht]
    show x.readS r = _ ∧ x.fullS r = _
    rw [(hR r).1, (hR r).2]
    have : (w.find? fun e => e.1 = r) = none := by
      rw [List.find?_eq_none]
      intro e he c
      exact hr (List.mem_map.2 ⟨e, he, by simpa using c⟩)
    simp only [this, hr]
    simp
  case flags =>
    intro k v hfl
    rw [ht]
    show x.readSc k = v ∧ x.fullSc k = true
    rw [(hC k).1, (hC k).2, hfl]
    simp [scAfter]
  case flagsKept =>
    intro k hfl
    rw [ht]
    show x.readSc k = _ ∧ x.fullSc k = _
    rw [(hC k).1, (hC k).2]
    match fl, hfl with
    | none, _ => exact ⟨rfl, rfl⟩
    | some p, hfl =>
      have : ¬ p.1 = k := fun c => hfl p.2 (by rw [← c])
      simp [scAfter, this]
  case pcs =>
    intro l
    rw [ht, Sheaf.pcOf_advance _ _ fun hm => by
      rw [Sheaf.held_congr hxl, hheld]; exact Sheaf.issuing_held _ _ hm]
    rw [hxn, hnpc]
    have : x.pcOf l = c.pcOf l := Sheaf.fib_congr hxl l 0 _
    rw [this, hpc]
  case fibres =>
    intro l
    rw [ht, Sheaf.advance_fib]
    have e : (x.fib l none fun f => some (Fibre.besidesPc { f with pc := x.npc })) = x.fib l none fun f => some f.besidesPc := rfl
    rw [e, ite_self, Sheaf.fib_congr hxl, hfib]

end Sys2Proof.Machine
end

