-- ==== Sys2Proof/Tests/Slice0.lean ====
section
/-! SUPPORT. The model's own tests: ill-formed terms that WellFormed refuses, slots written out field by field from the
manual's tables, and, for each statement with hypotheses, a state and operands that meet them. -/

namespace Sys2Proof.Tests

open Sys2Proof Sys2Proof.Machine

set_option maxRecDepth 100000

/-! ### WellFormed refuses an ill-formed term for each of its checks -/

def al : Guard := ⟨0, 0⟩
def v (r : BitVec 8) : VSrc := ⟨r, false, false⟩
def vb (r : BitVec 8) : BSrc := .lane (v r) .straight
/-- `[s2 + v7 + 16]` and `[v9:v10 + 0]`, whose pair is odd. -/
def at27 : LmAddr := ⟨.sum 2, v 7, 16⟩
def oddPair : LmAddr := ⟨.pair, v 9, 0⟩

theorem test_wf_guard : Instr.wf (.iadd ⟨⟨1, 0⟩, 5, v 3, vb 4, none⟩) = false := by decide
theorem test_wf_sel : Instr.wf (.sel ⟨al, 5, v 3, vb 4, ⟨2, 0⟩, none⟩) = false := by decide
/-- Odd D, odd A, odd B of the 64-bit instructions (R88). -/
theorem test_wf_pairs : ∀ i ∈ [Instr.iadd64 ⟨al, 5, v 2, vb 4, none⟩, .isub64 ⟨al, 6, v 3, vb 4, none⟩, .iadd64 ⟨al, 6, v 2, vb 5, none⟩,
    .imulw ⟨al, 5, v 2, vb 4, false, none⟩, .lea ⟨al, 5, v 2, vb 4, false, 0, none⟩, .lea ⟨al, 6, v 3, vb 4, false, 0, none⟩,
    .icmp64 ⟨al, v 3, vb 4, 0⟩, .icmp64 ⟨al, v 2, vb 5, 0⟩, .leai ⟨al, 5, v 2, 1, none⟩, .leai ⟨al, 6, v 3, 1, none⟩,
    .matchv ⟨al, 1, v 3, true⟩, .v2s ⟨al, 1, v 3, .first, true⟩], i.wf = false := by decide
/-- A shift of 32, a MOVHI byte of 256 (R90). -/
theorem test_wf_immediates : ∀ i ∈ [Instr.shli ⟨al, 5, v 3, 32, none⟩, .shri ⟨al, 5, v 3, 32, none⟩, .sari ⟨al, 5, v 3, 32, none⟩,
    .movhi ⟨al, 5, v 3, 256, none⟩], i.wf = false := by decide
/-- Register alignment, SGN and PAIR of form LM (R66, Table 7.1). -/
theorem test_wf_memory : ∀ i ∈ [Instr.ld ⟨al, 5, at27, .d64, false, .shf, false⟩, .ld ⟨al, 6, at27, .q128, false, .shf, false⟩,
    .ldb ⟨al, 6, at27, .w32, true, .shf, false⟩, .ld ⟨al, 6, oddPair, .w32, false, .shf, false⟩, .st ⟨al, v 5, at27, .d64, .shf, false⟩,
    .st ⟨al, v 5, oddPair, .w32, .shf, false⟩, .lds ⟨al, 5, at27, .d64, false⟩, .lds ⟨al, 4, at27, .d64, true⟩, .sts ⟨al, v 6, at27, .q128⟩,
    .ldf ⟨al, 5, oddPair, false⟩, .ldw ⟨al, 5, oddPair, false⟩, .ste ⟨al, v 5, oddPair⟩, .prf ⟨al, oddPair, .fib⟩, .prf ⟨al, at27, .die⟩,
    .cwb ⟨al, oddPair⟩, .pgdrop ⟨al, 4, oddPair⟩], i.wf = false := by decide
/-- Registers and operations of the atomics (R181, R182, R188). -/
theorem test_wf_atomics : ∀ i ∈ [Instr.atom ⟨al, 1, v 3, v 4, .add, .dev, .relaxed⟩, .atom64 ⟨al, 2, v 3, v 4, .add, .dev, .relaxed⟩,
    .atom64 ⟨al, 2, v 4, v 5, .add, .dev, .relaxed⟩, .atom64 ⟨al, 3, v 4, v 6, .add, .dev, .relaxed⟩, .atom64 ⟨al, 2, v 4, v 6, .fadd, .dev, .relaxed⟩,
    .acas ⟨al, 1, v 3, v 4, v 5, .dev, .relaxed⟩, .acas64 ⟨al, 2, v 5, v 4, v 6, .dev, .relaxed⟩, .acas64 ⟨al, 2, v 4, v 5, v 6, .dev, .relaxed⟩,
    .acas64 ⟨al, 2, v 4, v 6, v 7, .dev, .relaxed⟩, .acas64 ⟨al, 3, v 4, v 6, v 8, .dev, .relaxed⟩, .red ⟨al, v 3, v 4, false, .add, .dev, false⟩,
    .red ⟨al, v 2, v 5, true, .add, .dev, false⟩, .red ⟨al, v 2, v 4, true, .fmax, .dev, false⟩, .satom ⟨al, v 5, at27, true, .add, false⟩,
    .satom ⟨al, v 4, oddPair, true, .add, false⟩], i.wf = false := by decide
/-- Pairs of the counter and KV instructions, groups of eight of ACCRD and ACCWR (R196, R206, R234). -/
theorem test_wf_counters : ∀ i ∈ [Instr.ctake ⟨al, 4, v 9, v 5, 1⟩, .cgive ⟨al, 4, v 9, v 5⟩, .cpeek ⟨al, 5, v 8⟩, .croll ⟨al, 4, v 9⟩,
    .kvapp ⟨al, 5, v 3, 1⟩, .kvmap ⟨al, 5, v 3, v 4, 1⟩, .accrd ⟨al, 12, 1⟩, .accwr ⟨al, v 12, 1⟩], i.wf = false := by decide
/-- SWR of a read-only register, records that pass s63, formats that do not go together, INT32 with another format (R39, R153, R227, R232, R235). -/
theorem test_wf_sheaf : ∀ i ∈ [Instr.swr ⟨al, 0, .bell⟩, .swr ⟨al, 0, .tdepth⟩, .spawn ⟨al, 1, 61, 0⟩, .mma ⟨al, 1, 59, 0, .e4m3, .int8, none, false⟩,
    .mma ⟨al, 1, 20, 0, .e4m3, .bf16, none, false⟩, .mma ⟨al, 1, 20, 0, .bf16, .bf16, some ⟨60, 0⟩, false⟩,
    .mmaloop ⟨al, 1, 56, 0, .n4, .n4, none, false⟩, .accst ⟨al, 1, 63, 0, .bf16⟩, .accldm ⟨al, 1, 63, 0, .w32, false⟩,
    .accldm ⟨al, 1, 2, 0, .bf16, true⟩, .xcopy ⟨al, 63, 2⟩, .xcopy ⟨al, 1, 59⟩, .xgather ⟨al, 1, 59⟩, .xscat ⟨al, 1, 59⟩, .xfill ⟨al, 1, 62⟩,
    .xfill ⟨al, 63, 2⟩, .frmrd ⟨al, 1, 1, .own, .cause⟩], i.wf = false := by decide

/-! ### Decoding: every opcode by a slot written out from Tables 2.2 to 2.8 -/

/-- A lane word of form L3: OP, GUARD, D, A, B, C, the marks LA LB LC EA EB EC, and MOD (Tables 2.2 and 2.3). -/
def l3 (op : BitVec 8) (g : BitVec 6) (d a b c : BitVec 8) (marks : BitVec 6) (mod : BitVec 11) : Word :=
  0#1 ++ op ++ g ++ d ++ a ++ b ++ c ++ marks ++ mod
/-- A lane word of form LI: OP, GUARD, D, A, IMM24, LA, EA, MOD7 (Table 2.6). -/
def li (op : BitVec 8) (g : BitVec 6) (d a : BitVec 8) (imm : BitVec 24) (marks : BitVec 2) (mod : BitVec 7) : Word :=
  0#1 ++ op ++ g ++ d ++ a ++ imm ++ marks ++ mod
/-- A lane word of form LM: OP, GUARD, D, A, SB, OFF14, LA LD EA ED, WIDTH, SGN, PAIR, SCOPE, ORD (Table 2.7). -/
def lm (op : BitVec 8) (g : BitVec 6) (d a : BitVec 8) (sb : BitVec 6) (off : BitVec 14) (marks : BitVec 4) (w : BitVec 3) (sgn pair : BitVec 1)
    (scope : BitVec 3) (ord : BitVec 1) : Word :=
  0#1 ++ op ++ g ++ d ++ a ++ sb ++ off ++ marks ++ w ++ sgn ++ pair ++ scope ++ ord
/-- A sheaf word: OP, GUARD, D, A, B, IMM30 (Table 2.8). -/
def sw (op : BitVec 8) (g d a b : BitVec 6) (imm : BitVec 30) : Word := 0b10#2 ++ op ++ g ++ d ++ a ++ b ++ imm

/-- `(c1.lt) OP.f2 v6, v2!, v9<rot 5>`: marks LA, MOD with XK 1, XA 5, SF 1, CC 2. -/
def ab : OpAB := ⟨⟨1, 12⟩, 6, ⟨2, true, false⟩, .lane (v 9) (.rot 5), some 2⟩
def abWord (op : BitVec 8) : Word := l3 op 0x1C 6 2 9 0 0b100000 0x12E

/-- Table 3.2, the instructions of a and b alone. -/
theorem test_decode_integer : ∀ e ∈ [(0x00#8, Instr.iadd ab), (0x01, .isub ab), (0x04, .imul ab), (0x0B, .and ab), (0x0C, .or ab), (0x0D, .xor ab),
    (0x0E, .andn ab), (0x0F, .shl ab), (0x10, .shr ab), (0x11, .sar ab), (0x12, .rol ab), (0x1A, .iadd64 ⟨ab.g, 6, ab.a, .sheaf 4, none⟩),
    (0x1B, .isub64 ⟨ab.g, 6, ab.a, .sheaf 4, none⟩)],
    decodeSlot (if e.1.toNat < 0x18 then abWord e.1 else l3 e.1 0x1C 6 2 4 0 0b100000 0x700) 0 = .ok e.2 := by decide
/-- Table 3.2, the others: C holds k, U, a register, a condition or sh. -/
theorem test_decode_integer_c : ∀ e ∈ [(l3 0x02 0 2 3 4 1 0 0, Instr.iadc ⟨al, 2, v 3, vb 4, 1, none⟩), (l3 0x03 0 2 3 4 3 0 0, .isbc ⟨al, 2, v 3, vb 4, 3, none⟩),
    (l3 0x05 0 2 3 4 1 0 0, .imulh ⟨al, 2, v 3, vb 4, true, none⟩), (l3 0x06 0 2 3 4 5 0b001001 0, .imad ⟨al, 2, v 3, vb 4, ⟨5, true, true⟩, none⟩),
    (l3 0x07 0 2 3 4 0 0 0, .imin ⟨al, 2, v 3, vb 4, false, none⟩), (l3 0x08 0 2 3 4 1 0 0, .imax ⟨al, 2, v 3, vb 4, true, none⟩),
    (l3 0x09 0 2 3 0 0 0b000100 5, .iabs ⟨al, 2, ⟨3, false, true⟩, some 1⟩), (l3 0x0A 0 0 3 4 0 0 7, .icmp ⟨al, v 3, vb 4, 3⟩),
    (l3 0x13 0 8 9 10 0 0b100000 0, .bfx ⟨al, 8, ⟨9, true, false⟩, vb 10, false, none⟩), (l3 0x14 0 2 3 4 5 0 0, .bfi ⟨al, 2, v 3, vb 4, v 5, none⟩),
    (l3 0x15 0 2 3 0 0 0 0, .popc ⟨al, 2, v 3, none⟩), (l3 0x16 0 2 3 0 0 0 0, .clz ⟨al, 2, v 3, none⟩), (l3 0x17 0 2 3 0 0 0 0, .brev ⟨al, 2, v 3, none⟩),
    (l3 0x18 0 1 2 3 0x2D 0 0, .sel ⟨al, 1, v 2, vb 3, ⟨2, 13⟩, none⟩), (l3 0x19 0 2 0 4 0 0b010010 0x400, .mov ⟨al, 2, .lane ⟨4, true, true⟩ .mirror, none⟩),
    (l3 0x1C 0 2 3 5 1 0 0, .imulw ⟨al, 2, v 3, vb 5, true, none⟩), (l3 0x1D 0 2 4 5 0xB 0 0x318, .lea ⟨al, 2, v 4, .lane (v 5) (.fly 3), true, 3, none⟩),
    (l3 0x1E 0 0 4 6 0 0 4, .icmp64 ⟨al, v 4, vb 6, 0⟩)],
    decodeSlot e.1 0 = .ok e.2 := by decide
/-- Table 3.3. -/
theorem test_decode_immediate : ∀ e ∈ [(li 0x20 0 4 4 0xFFFFFD 0 0, Instr.iaddi ⟨al, 4, v 4, 0xFFFFFD, none⟩), (li 0x21 0 4 5 7 0 0, .imuli ⟨al, 4, v 5, 7, none⟩),
    (li 0x22 0 4 5 7 0b10 6, .andi ⟨al, 4, ⟨5, true, false⟩, 7, some 2⟩), (li 0x23 0 4 5 7 0 0, .ori ⟨al, 4, v 5, 7, none⟩), (li 0x24 0 4 5 7 0 0, .xori ⟨al, 4, v 5, 7, none⟩),
    (li 0x25 0 4 5 31 0 0, .shli ⟨al, 4, v 5, 31, none⟩), (li 0x26 0 4 5 31 0 0, .shri ⟨al, 4, v 5, 31, none⟩), (li 0x27 0 4 5 0 0 0, .sari ⟨al, 4, v 5, 0, none⟩),
    (li 0x28 0 0 5 9 0 5, .icmpi ⟨al, v 5, 9, 1⟩), (li 0x29 0x02 4 0 9 0 0, .movi ⟨⟨0, 2⟩, 4, 9, none⟩), (0x15000C0C00007F00, .movhi ⟨al, 6, ⟨6, true, false⟩, 0x3F, none⟩),
    (li 0x2B 0 4 6 8 0b01 0, .leai ⟨al, 4, ⟨6, false, true⟩, 8, none⟩)], decodeSlot e.1 0 = .ok e.2 := by decide
/-- Tables 5.1 and 5.3: OPX holds the rounding, or the c register of FCMP. -/
theorem test_decode_float : ∀ e ∈ [(l3 0x40 0 6 4 5 0 0b110000 0, Instr.fadd ⟨al, 6, ⟨4, true, false⟩, .lane ⟨5, true, false⟩ .straight, .rn⟩),
    (l3 0x41 0 6 4 5 0 0 1, .fsub ⟨al, 6, v 4, vb 5, .rz⟩), (l3 0x42 0 6 4 5 0 0 2, .fmul ⟨al, 6, v 4, vb 5, .rp⟩), (0x21801416181A0001, .ffma ⟨al, 10, v 11, vb 12, v 13, .rz⟩),
    (l3 0x44 0 6 4 5 0 0 0, .fmin ⟨al, 6, v 4, vb 5⟩), (l3 0x45 0 6 4 5 0 0 0, .fmax ⟨al, 6, v 4, vb 5⟩), (0x2300000406000007, .fcmp ⟨al, v 2, vb 3, 3⟩),
    (l3 0x47 0 6 4 0 0 0 0, .fneg ⟨al, 6, v 4⟩), (l3 0x48 0 6 4 0 0 0 0, .fabs ⟨al, 6, v 4⟩), (l3 0x49 0 6 4 0 0 0 3, .frcp ⟨al, 6, v 4, .rm⟩),
    (l3 0x4A 0 6 4 0 0 0 0, .frsq ⟨al, 6, v 4, .rn⟩), (l3 0x4B 0 6 4 0 0 0 0, .fsqrt ⟨al, 6, v 4, .rn⟩), (l3 0x4C 0 6 4 5 0 0 0, .fdiv ⟨al, 6, v 4, vb 5, .rn⟩),
    (l3 0x4D 0 6 4 0 0 0 0, .fexp2 ⟨al, 6, v 4, .rn⟩), (l3 0x4E 0 6 4 0 0 0 0, .flog2 ⟨al, 6, v 4, .rn⟩), (l3 0x4F 0 6 4 0 0 0 2, .frnd ⟨al, 6, v 4, .rp⟩),
    (l3 0x50 0 6 4 0 0 0 0, .fclass ⟨al, 6, v 4⟩), (l3 0x51 0 6 4 5 0 0 0, .fscalb ⟨al, 6, v 4, vb 5, .rn⟩)], decodeSlot e.1 0 = .ok e.2 := by decide
/-- Tables 5.4 and 5.5. -/
theorem test_decode_packed_and_conversions : ∀ e ∈ [(l3 0x52 0 6 7 8 0 0 0, Instr.hadd2 ⟨al, 6, v 7, vb 8, .rn⟩), (l3 0x53 0 6 7 8 0 0 0, .hmul2 ⟨al, 6, v 7, vb 8, .rn⟩),
    (0x2A000C0E100C021B, .hfma2 ⟨al, 6, v 7, .lane (v 8) (.bcast 3), v 6, .rm⟩), (l3 0x55 0 6 7 8 9 0 0, .bfma2 ⟨al, 6, v 7, vb 8, v 9, .rn⟩),
    (l3 0x56 0 6 7 8 9 0 0x528, .bdot2 ⟨al, 6, v 7, .lane (v 8) (.up 5), v 9, .rn⟩), (l3 0x58 0 6 7 0 1 0 1, .cvtfi ⟨al, 6, v 7, true, .rz⟩),
    (l3 0x59 0 6 7 0 0 0 0, .cvtif ⟨al, 6, v 7, false, .rn⟩), (l3 0x5A 0 6 7 8 0 0 0x608, .cvtfh ⟨al, 6, v 7, .lane (v 8) (.down 1), .rn⟩),
    (l3 0x5B 0 6 7 0 1 0 0, .cvthf ⟨al, 6, v 7, 1⟩), (l3 0x5C 0 6 7 8 0 0 0, .cvtfb ⟨al, 6, v 7, vb 8, .rn⟩), (l3 0x5D 0 6 7 0 0 0 0, .cvtbf ⟨al, 6, v 7, 0⟩),
    (0x2F00282A2C078000, .cvtf8 ⟨al, 20, ⟨21, true, false⟩, .lane ⟨22, true, false⟩ .straight, true, true, .rn⟩), (l3 0x5F 0 6 7 0 3 0 0, .cvt8f ⟨al, 6, v 7, 3⟩),
    (l3 0x60 0 6 7 8 2 0 2, .cvtf4 ⟨al, 6, v 7, vb 8, 2, .rp⟩), (l3 0x61 0 6 7 0 5 0 0, .cvt4f ⟨al, 6, v 7, 5⟩), (0x31000A0800020000, .sclq ⟨al, 5, v 4, .int8⟩),
    (l3 0x63 0 6 7 0 2 0 0, .sclf ⟨al, 6, v 7, 2⟩)], decodeSlot e.1 0 = .ok e.2 := by decide
/-- Table 3.5. -/
theorem test_decode_crossing : ∀ e ∈ [(l3 0x80 0 1 2 3 0 0 0, Instr.perm ⟨al, 1, v 2, v 3⟩), (l3 0x81 0 1 2 3 0 0 0x500, .xmov ⟨al, 1, v 2, v 3, .up⟩),
    (l3 0x82 0 1 2 0 0 0 2, .vote ⟨al, 1, v 2, .ballot⟩), (l3 0x83 0 1 2 0 0 0 1, .matchv ⟨al, 1, v 2, true⟩), (0x4200181600010000, .redux ⟨al, 12, ⟨11, true, false⟩, .add⟩),
    (l3 0x85 0 1 2 0 0 0 0x1A, .scanx ⟨al, 1, v 2, .fadd, true⟩), (0x4300062800000020, .v2s ⟨al, 3, v 20, .first, false⟩), (l3 0x87 0 2 0 0 0 0 0xD, .vsrd ⟨al, 2, .fpflags⟩)],
    decodeSlot e.1 0 = .ok e.2 := by decide
/-- Table 7.1. -/
theorem test_decode_memory : ∀ e ∈ [(0x5000140E10020086, Instr.ld ⟨al, 10, at27, .w32, false, .clu, false⟩),
    (lm 0xA1 0 3 7 2 16 0 0 1 0 6 1, .ldb ⟨al, 3, at27, .b8, true, .sys, true⟩), (0x5100180E1000008B, .st ⟨al, v 12, ⟨.sum 2, v 7, 0⟩, .w32, .dev, true⟩),
    (lm 0xA3 0 4 7 2 16 0 4 0 0 2 0, .lds ⟨al, 4, at27, .q128, false⟩), (lm 0xA4 0 6 7 2 16 0b0100 3 0 0 2 0, .sts ⟨al, ⟨6, true, false⟩, at27, .d64⟩),
    (0x5280060A20010085, .ldf ⟨al, 3, ⟨.sum 4, v 5, 8⟩, true⟩), (lm 0xA6 0 6 7 2 16 0b0001 2 0 0 2 0, .ste ⟨al, ⟨6, false, true⟩, at27⟩),
    (lm 0xA7 0 6 7 2 16 0 2 0 0 2 0, .ldw ⟨al, 6, at27, false⟩), (lm 0xA8 0 0 7 2 16 0b1000 0 0 0 3 0, .prf ⟨al, ⟨.sum 2, ⟨7, true, false⟩, 16⟩, .clu⟩),
    (0x5480000020000000, .cwb ⟨al, ⟨.sum 4, v 0, 0⟩⟩), (0x5500081000000090, .pgdrop ⟨al, 4, ⟨.pair, v 8, 0⟩⟩),
    (lm 0xA0 0 5 7 2 0x3FFF 0b0010 1 1 0 1 0, .ld ⟨al, 5, ⟨.sum 2, ⟨7, false, true⟩, 0x3FFF⟩, .h16, true, .shf, false⟩)], decodeSlot e.1 0 = .ok e.2 := by decide
/-- Tables 7.3 to 7.6. -/
theorem test_decode_atomics : ∀ e ∈ [(0x580028102A00005C, Instr.atom ⟨al, 20, v 8, v 21, .add, .dev, .ar⟩), (l3 0xB1 0 20 8 22 0 0 0x444, .atom64 ⟨al, 20, v 8, v 22, .xchg, .die, .acq⟩),
    (l3 0xB2 0 20 8 21 23 0 0x018, .acas ⟨al, 20, v 8, v 21, v 23, .shf, .rel⟩), (0x59801404181C0040, .acas64 ⟨al, 10, v 2, v 12, v 14, .die, .relaxed⟩),
    (0x5A0000102A0004D0, .red ⟨al, v 8, v 21, false, .fadd, .dev, false⟩), (l3 0xB4 0 0 8 22 1 0 0x2A8, .red ⟨al, v 8, v 22, true, .minu, .bed, true⟩),
    (0x5A800A0E10000081, .satom ⟨al, v 5, ⟨.sum 2, v 7, 0⟩, false, .add, true⟩), (lm 0xB5 0 4 7 2 0 0 3 1 0 4 0, .satom ⟨al, v 4, ⟨.sum 2, v 7, 0⟩, true, .min true, false⟩),
    (0x5C00000000000054, .fence ⟨al, .rel, .dev⟩), (li 0xB8 0 0 0 0 0 0x68, .fence ⟨al, .full, .sys⟩)], decodeSlot e.1 0 = .ok e.2 := by decide
/-- Tables 8.2, 8.8, R213, R234. -/
theorem test_decode_counters_kv_tiles : ∀ e ∈ [(0x600008100A000001, Instr.ctake ⟨al, 4, v 8, v 5, 1⟩), (l3 0xC1 0 4 8 5 0 0 0, .cgive ⟨al, 4, v 8, v 5⟩), (l3 0xC2 0 4 8 0 0 0 0, .cpeek ⟨al, 4, v 8⟩),
    (0x6180181000000000, .croll ⟨al, 12, v 8⟩), (0x6400140600000002, .kvapp ⟨al, 10, v 3, 2⟩), (l3 0xC9 0 10 3 4 0 0 3, .kvmap ⟨al, 10, v 3, v 4, 3⟩),
    (0x6504000600000001, .kvshare ⟨⟨0, 2⟩, v 3, v 0, 1⟩), (0x65801A0600010000, .kvdrop ⟨al, 13, ⟨3, true, false⟩⟩), (l3 0xCC 0 10 3 0 0 0 1, .kvcow ⟨al, 10, v 3, 1⟩),
    (0x6800060204018000, .rsmp ⟨al, 3, ⟨1, true, false⟩, ⟨2, true, false⟩⟩), (0x7000200000000005, .accrd ⟨al, 16, 5⟩), (0x7080003000010005, .accwr ⟨al, ⟨24, true, false⟩, 5⟩)],
    decodeSlot e.1 0 = .ok e.2 := by decide
/-- Table 3.4, SRD and SWR. -/
theorem test_decode_sheaf : ∀ e ∈ [(sw 0x00 0x12 1 2 3 0, Instr.sadd ⟨⟨1, 2⟩, 1, 2, 3⟩), (sw 0x01 0 1 2 3 0, .ssub ⟨al, 1, 2, 3⟩), (sw 0x02 0 1 2 3 0, .smul ⟨al, 1, 2, 3⟩), (sw 0x03 0 1 2 3 0, .sand ⟨al, 1, 2, 3⟩),
    (sw 0x04 0 1 2 3 0, .sor ⟨al, 1, 2, 3⟩), (sw 0x05 0 1 2 3 0, .sxor ⟨al, 1, 2, 3⟩), (sw 0x06 0 1 2 3 0, .sshl ⟨al, 1, 2, 3⟩), (sw 0x07 0 1 2 3 0, .sshr ⟨al, 1, 2, 3⟩), (sw 0x08 0 1 2 3 0, .ssar ⟨al, 1, 2, 3⟩),
    (sw 0x09 0 3 2 1 0, .scmp ⟨al, 3, 2, 1⟩), (sw 0x0A 0 1 2 0 0, .smov ⟨al, 1, 2⟩), (0x82C0145000000001, .saddi ⟨al, 5, 5, 1⟩), (sw 0x0C 0 1 0 0 7, .smovi ⟨al, 1, 7⟩), (sw 0x0D 0 1 0 0 7, .smovhi ⟨al, 1, 7⟩),
    (sw 0x0E 0 1 2 0 8, .sld ⟨al, 1, 2, 8⟩), (sw 0x0F 0 0 2 3 8, .sst ⟨al, 2, 3, 8⟩), (0x8400A8000000000A, .srd ⟨al, 42, .mprog⟩), (0x8440000000000007, .swr ⟨al, 0, .trellis⟩), (0x8480046000000028, .scmpi ⟨al, 1, 6, 40⟩)],
    decodeSlot e.1 0 = .ok e.2 := by decide
/-- Table 6.6 and the rest of chapter 6. -/
theorem test_decode_control : ∀ e ∈ [(0x8801000000000004, Instr.bra ⟨⟨0, 1⟩, 4⟩), (0x885200003FFFFFFC, .bras ⟨⟨1, 2⟩, 0x3FFFFFFC⟩), (sw 0x22 0 0 20 0 0, .brx ⟨al, 20⟩), (0x88C0500000000006, .call ⟨al, 20, 6⟩),
    (0x8900014000000000, .ret ⟨al, 20⟩), (0x8940040000000000, .join ⟨al, 1⟩), (0x8980040000000000, .meet ⟨al, 1⟩), (sw 0x27 0 0 0 0 0, .yield ⟨al⟩), (0x8A21000000000000, .exit ⟨⟨2, 1⟩⟩), (0x8A40007000000000, .nap ⟨al, 7, 0⟩),
    (0x8A80000000000003, .bar ⟨al, 3⟩), (0x8AC0240000000003, .arrv ⟨al, 9, 3⟩), (0x8B00009000000003, .waitb ⟨al, 9, 3⟩), (0x8B4028C000000001, .spawn ⟨al, 10, 12, 1⟩), (sw 0x2E 0 0 0 0 0, .trig ⟨al⟩), (sw 0x2F 0 0 0 0 0, .dwait ⟨al⟩),
    (0x9800000000000055, .trap ⟨al, 0x55⟩), (0x9840000000000000, .rte ⟨al⟩), (0x9880000000000000, .bkpt ⟨al⟩), (0x98C0A00000000700, .frmrd ⟨al, 40, 0, .own, .cause⟩), (0x9900003100000710, .frmwr ⟨al, 3, 4, .own, .pc⟩)],
    decodeSlot e.1 0 = .ok e.2 := by decide
/-- Chapter 9, RESV and RESVX. -/
theorem test_decode_engines : ∀ e ∈ [(0x9000314007330010, Instr.mma ⟨al, 12, 20, 7, .bf16, .bf16, none, true⟩), (0x9040A14000023C30, .mmaloop ⟨al, 40, 20, 0, .e4m3, .n4, some ⟨60, 0⟩, true⟩),
    (0x9080000003800000, .accz ⟨al, 3, true⟩), (0x90C024E000100000, .accst ⟨al, 9, 14, 0, .bf16⟩), (sw 0x44 0 9 14 0 0x05080000, .accldm ⟨al, 9, 14, 5, .w32, true⟩), (0x9200798000000000, .xcopy ⟨al, 30, 24⟩),
    (0x924088A000000000, .xgather ⟨al, 34, 10⟩), (0x928081A000000000, .xfill ⟨al, 32, 26⟩), (sw 0x4B 0 34 10 0 0, .xscat ⟨al, 34, 10⟩), (0x9400180000000000, .resv ⟨al, 6, none⟩), (0x9440183000000100, .resvx ⟨al, 6, some 3⟩)],
    decodeSlot e.1 0 = .ok e.2 := by decide
/-- The packed run below Table 2.14: its three codes name entries 5, 6 and 7, the last under the override c0.ne, and run them. -/
theorem test_decode_dictionary : (∀ k < 3, decodeSlot 0xF00001C201800140 k = .ok (.dictionaryCode 0xF00001C201800140 k)) ∧
    decodeCode [0, 0, 0, 0, 0, 0x00000A0608008000, 0x10000809FFFFFA00, 0x00000E0E08000700] 0x01C2 = .ok (.iadd ⟨⟨0, 2⟩, 7, v 7, .sheaf 4, none⟩) := by decide
/-- Table 2.13: one pattern for each order, of those a slot can show. -/
theorem test_refused_patterns : ∀ e ∈ [(sw 0 0 1 2 3 0, 1, 0x0D#8), (0xC000000000000000, 2, 0x07), (0xD001000000000000, 0, 0x02), (0xD000000000010000, 0, 0x02), (l3 0x1F 0 0 0 0 0 0 0, 0, 0x01), (sw 0x13 0 0 0 0 0, 0, 0x01),
    (l3 0x00 0x10 5 3 4 0 0 0, 0, 0x0A), (l3 0x00 0 5 3 4 1 0 0, 0, 0x02), (l3 0x00 0 5 3 4 0 0 1, 0, 0x02), (lm 0xA0 0 4 7 2 16 0 5 0 0 1 0, 0, 0x03), (lm 0xA0 0 4 7 2 16 0 2 0 0 7 0, 0, 0x04), (sw 0x25 0 8 0 0 0, 0, 0x05),
    (l3 0x1A 0 5 2 4 0 0 0, 0, 0x0B), (l3 0x0A 0 0 3 4 0 0 0, 0, 0x0C), (l3 0x81 0 1 2 3 0 0 0x200, 0, 0x0C), (sw 0x11 0 0 0 0 0x009, 0, 0x0C), (li 0xB8 0 0 0 0 0 0x5C, 0, 0x0C)], decodeSlot e.1 e.2.1 = .error e.2.2 := by decide
/-- The table's numbering of a slot is the slot's own (R55). -/
theorem test_table_word : decodeTableWord 64 0x00000A0608008000 = some (.iadd ⟨al, 5, v 3, .lane ⟨4, true, false⟩ .straight, none⟩) := by decide

/-! ### Witnesses: for each statement with hypotheses, a state and operands that meet them -/

/-- A row whose lane l holds f l, live and full in every lane. -/
def rowOf (f : Fin 32 → W32) : Row := ⟨Vector.ofFn f, BitVec.allOnes 32, BitVec.allOnes 32, false, 0⟩
/-- One sheaf of 32 fibres in one batch, at the entry of the placed program: v7 holds 4 times the lane, v8:v9 a mapped address,
s3 the window of the scratchpad, the other s registers a mapped address. -/
def demoSheaf : Sheaf := { newSheaf 0 0 placedLaunch placedBed 2 placedEntry 0 0 32 0 (0, 0) with
  batch := BitVec.allOnes 32, npc := 0x10008, rows := [(7, rowOf fun l => 4 * BitVec.ofNat 32 l.val), (8, rowOf fun _ => 0x10000), (9, rowOf fun _ => 0)]
  sregs := (Vector.replicate 64 (0x10000 : Word)).set 3 0x7FF00000 }
def demoLaunch : Launch := { placedLaunch with hdr := { placedHeader with scratch := 4096 } }
/-- The demo's page is one that programs may drop. -/
def demoPte : Pte := ⟨true, true, true, true, true, false, false, 0, 0, 0, 0, 0, 1⟩
def demo : State := { State.reset.placeProgram 0 with mem := putSlot (State.reset.placeProgram 0).mem 0x4008 (encodePte demoPte), sheafs := [(1, demoSheaf)], launches := [(3, demoLaunch)] }
/-- The demo in which a trap does not escalate. -/
def demoV : State := { demo with seats := [(0, ⟨3, [], [], [], [], 0x10000, 0⟩)] }

theorem demo_shf : demo.shf = demoSheaf := rfl
theorem demoV_shf : demoV.shf = demoSheaf := rfl
theorem demo_rows (n : Nat) (r : Row) (h : aget demoSheaf.rows n = some r) : r.full = BitVec.allOnes 32 ∧ r.spilled = false := by
  have : demoSheaf.rows = [(7, rowOf fun l => 4 * BitVec.ofNat 32 l.val), (8, rowOf fun _ => 0x10000), (9, rowOf fun _ => 0)] := rfl
  rw [this] at h
  simp only [aget] at h
  split at h
  · cases h; exact ⟨rfl, rfl⟩
  · split at h
    · cases h; exact ⟨rfl, rfl⟩
    · split at h
      · cases h; exact ⟨rfl, rfl⟩
      · cases h
theorem demo_full (n : BitVec 8) (l : Fin 32) : demoSheaf.fullLane n l = true := by
  unfold Sheaf.fullLane
  cases h : demoSheaf.row? n with
  | none => rfl
  | some r =>
    simp only [(demo_rows _ _ h).1]
    revert l; decide
/-- A state whose issuing sheaf has the fibres, registers and batch of the demo's. -/
structure Like (s : State) : Prop where
  rows : s.shf.rows = demoSheaf.rows
  lanes : s.shf.lanes = demoSheaf.lanes
  sfull : s.shf.sfull = demoSheaf.sfull
  scfull : s.shf.scfull = demoSheaf.scfull
  scs : s.shf.scs = demoSheaf.scs
  batch : s.shf.batch = demoSheaf.batch
  room : s.rowsUsed s.shf.core = 3
theorem like_demo : Like demo := ⟨rfl, rfl, rfl, rfl, rfl, rfl, by decide⟩
theorem demoSheaf_cc : ∀ (k : BitVec 2) (l : Fin 32), demoSheaf.fib l true (·.fullC k) = true := by decide
theorem demoSheaf_s : ∀ r : BitVec 6, demoSheaf.fullS r = true := by decide
theorem demoSheaf_sc : ∀ k : BitVec 2, demoSheaf.fullSc k = true := by decide
theorem demoSheaf_issuing : demoSheaf.issuing = BitVec.allOnes 32 := by decide
section
variable {s : State}
theorem Like.row? (h : Like s) (n : BitVec 8) : s.shf.row? n = demoSheaf.row? n := by unfold Sheaf.row?; rw [h.rows]
theorem Like.full (h : Like s) (n : BitVec 8) (l : Fin 32) : s.shf.fullLane n l = true := by
  have : s.shf.fullLane n l = demoSheaf.fullLane n l := by unfold Sheaf.fullLane; rw [h.row?]
  rw [this, demo_full]
theorem Like.emptyAt (h : Like s) (n : BitVec 8) (l : Fin 32) : s.shf.emptyAt n l = false := by simp [Sheaf.emptyAt, h.full]
theorem Like.empty (h : Like s) (o : VOp) (l : Fin 32) : s.shf.emptyReg o l = none := by
  unfold Sheaf.emptyReg
  cases xbarLane o.x l with
  | none => rfl
  | some m => simp [h.emptyAt]
theorem Like.fib {α : Type} (h : Like s) (l : Fin 32) (d : α) (g : Fibre → α) : s.shf.fib l d g = demoSheaf.fib l d g := by
  unfold Sheaf.fib; rw [h.lanes]
theorem Like.cc (h : Like s) (k : BitVec 2) (l : Fin 32) : s.shf.fib l true (·.fullC k) = true := by rw [h.fib]; exact demoSheaf_cc k l
theorem demoSheaf_fence : ∀ l : Fin 32, demoSheaf.fib l none (·.fence) = none := by decide
theorem Like.fence (h : Like s) (l : Fin 32) : s.shf.fib l none (·.fence) = none := by rw [h.fib]; exact demoSheaf_fence l
theorem Like.unfenced (h : Like s) : s.unfenced := fun l _ => h.fence l
theorem Like.fullS (h : Like s) (r : BitVec 6) : s.shf.fullS r = true := by unfold Sheaf.fullS; rw [h.sfull]; exact demoSheaf_s r
theorem Like.fullSc (h : Like s) (k : BitVec 2) : s.shf.fullSc k = true := by unfold Sheaf.fullSc; rw [h.scfull]; exact demoSheaf_sc k
theorem Like.issuing (h : Like s) : s.shf.issuing = BitVec.allOnes 32 := by
  rw [← demoSheaf_issuing]; unfold Sheaf.issuing Sheaf.readyLanes Sheaf.lanesWhere; rw [h.lanes, h.batch]
theorem Like.issues (h : Like s) : s.shf.issuing ≠ 0#32 := by rw [h.issuing]; decide
theorem Like.spilled (h : Like s) (n : BitVec 8) (r : Row) (hr : s.shf.row? n = some r) : r.spilled = false := (demo_rows _ r (h.row? n ▸ hr)).2
theorem Like.acts (h : Like s) : ∀ l, s.acts al l := by
  have h1 : s.acting al = demo.acting al := by
    unfold State.acting Sheaf.guarded; rw [h.issuing, like_demo.issuing]; simp only [h.fib, like_demo.fib]
  have h2 : ∀ l : Fin 32, hasLane (demo.acting al) l = true := by decide
  intro l; unfold State.acts; rw [h1]; exact h2 l
theorem Like.lane (h : Like s) (i : LaneIns) (hd : i.dests.length ≤ 64 := by exact Nat.le_of_ble_eq_true rfl) : LaneClear s i where
  batch := h.issues
  guard _ l _ := h.cc _ l
  sources o _ l _ := h.empty o l
  sregs r _ := h.fullS r
  flags k _ l _ := h.cc k l
  dests d _ l _ := h.full d l
  flagDest k _ l _ := h.cc k l
  rows n _ r hr := h.spilled n r hr
  room := by rw [h.room]; unfold physicalRows; omega
theorem Like.mem (h : Like s) (i : LaneIns) (va : Fin 32 → Word) (n : Nat) (hf : s.FirstTry) (hr : s.shf.ops.length < 64) (hg : i.g = al)
    (ha : ∀ l, (va l).toNat % n = 0) (hd : i.dests.length ≤ 64 := by exact Nat.le_of_ble_eq_true rfl) : MemClear s i va n where
  lane := h.lane i hd
  first := hf
  some := ⟨0, hg ▸ h.acts 0⟩
  aligned l _ := ha l
  room := hr
  fences l _ := h.fence l
theorem Like.sheaf (h : Like s) (srcs dests : List (BitVec 6)) (scd : Option (BitVec 2)) : SheafClear s al srcs dests scd where
  batch := h.issues
  guardFull _ := h.fullSc _
  guard := rfl
  sources r _ := h.fullS r
  dests r _ := h.fullS r
  flagDest k _ := h.fullSc k

end
theorem demo_lane (i : LaneIns) (h : i.dests.length ≤ 64 := by exact Nat.le_of_ble_eq_true rfl) : LaneClear demo i := like_demo.lane i h
theorem demo_acts : ∀ l, demo.acts al l := like_demo.acts
theorem demo_first : demo.FirstTry := ⟨none, rfl⟩
theorem demo_mem (i : LaneIns) (va : Fin 32 → Word) (n : Nat) (hg : i.g = al) (ha : ∀ l, (va l).toNat % n = 0)
    (h : i.dests.length ≤ 64 := by exact Nat.le_of_ble_eq_true rfl) : MemClear demo i va n :=
  like_demo.mem i va n demo_first (by decide) hg ha h
theorem demo_can : demoV.CanTrap := by unfold State.CanTrap; decide
theorem demo_write (va : Fin 32 → Word) (a : Acc) (n : Nat) (k : AccKind) (loc : Fin 32 → Loc)
    (h : ∀ l, ∃ p e, demo.check (clusterOf demo.shf.core) (demo.asnOf demo.shf) (demo.headerOf demo.shf) (va l) a = .at_ (loc l) p e)
    (hl : ∀ l p x, loc l ≠ .peer p x) (hc : ∀ l, demo.chargePool (lineOf (loc l)) = none) : WriteClear demo al va a n k loc where
  checked l _ := h l
  here l _ := hl l
  unwatched _ _ := rfl
  ahead _ _ _ _ := rfl
  unmetered := rfl
  uncharged l _ := hc l

/-- A program of one slot loaded and placed; `theCand` is its sheaf as the next step chooses it. -/
def placed (w : Word) : State := State.reset.placeProgram w
def theCand : Cand := ⟨1, 0, 0, 0, 0, 0, 0, false, 0⟩
def chosenOf (s : State) : State := (s.chosen theCand []).withBatch 1
/-- The word a fetch delivers, or the cause of its trap. -/
def wordOf : Fetched → Option Word
  | .word w _ => some w
  | _ => none
def causeOf : Fetched → Option (BitVec 8 × Bool)
  | .trap c l => some (c, l)
  | _ => none
theorem of_wordOf {f : Fetched} {w : Word} (h : wordOf f = some w) : ∃ s1, f = .word w s1 := by
  cases f <;> simp_all [wordOf]
theorem of_causeOf {f : Fetched} {c : BitVec 8} {l : Bool} (h : causeOf f = some (c, l)) : f = .trap c l := by
  cases f <;> simp_all [causeOf]
/-- The place and the page an access passes the checks to. -/
def atOf : Checked → Option (Loc × Pte × Nat)
  | .at_ x p e => some (x, p, e)
  | _ => none
/-- The cause of a fault the checks find, and whether the walker logs it. -/
def faultOf : Checked → Option (BitVec 8 × Bool)
  | .fault c lg => some (c, lg)
  | _ => none
theorem of_faultOf {c : Checked} {k : BitVec 8} {l : Bool} (h : faultOf c = some (k, l)) : c = .fault k l := by
  cases c <;> simp_all [faultOf]
theorem of_atOf {c : Checked} {x : Loc} {p : Pte} {e : Nat} (h : atOf c = some (x, p, e)) : c = .at_ x p e := by
  cases c <;> simp_all [atOf]
/-- The entry of the placed program's page. -/
def thePte : Pte := ⟨true, true, true, true, false, false, false, 0, 0, 0, 0, 0, 1⟩
def iaddWord : Word := 0x00000A0608008000
def withVector (s : State) : State := { s with seats := [(0, ⟨3, [], [], [], [], 0x10000, 0⟩)] }
def unassigned : State := withVector (placed 0x7FC0000000000000)
def noSpaces : State := withVector { placed 0 with spaces := [] }
def fetched (s : State) : Fetched := (chosenOf s).fetchSlot 1 (chosenOf s).shf (chosenOf s).shf.batchPc
/-- A slot fetched and decoded; a slot of an unassigned opcode; a fetch that finds no address space. -/
theorem witness_StepRunsTheInstruction_issue : ∀ s ∈ [placed iaddWord, unassigned, noSpaces],
    s.nextTurn = some (.issue theCand []) ∧ (chosenOf s).shf.issuing ≠ 0#32 ∧ (chosenOf s).shf.hold.word = none ∧
    (chosenOf s).shf.batchPc.extractLsb' 0 3 = 0 := by decide
theorem witness_StepRunsTheInstruction_fetch : (∃ s1, fetched (placed iaddWord) = .word iaddWord s1) ∧
    decodeSlot iaddWord 0 = .ok (.iadd ⟨al, 5, v 3, .lane ⟨4, true, false⟩ .straight, none⟩) ∧
    (∃ s1, fetched unassigned = .word 0x7FC0000000000000 s1) ∧ decodeSlot 0x7FC0000000000000 0 = .error 0x01 ∧
    (∃ l, fetched noSpaces = .trap 0x03 l) :=
  ⟨of_wordOf (by decide), by decide, of_wordOf (by decide), by decide, ⟨true, of_causeOf (by decide)⟩⟩
theorem witness_StepRunsTheInstruction_traps : (chosenOf unassigned).CanTrap ∧ (chosenOf noSpaces).CanTrap := by
  constructor <;> (unfold State.CanTrap; decide)
theorem witness_StepRunsTheInstruction_memory : ∃ p e, (placed iaddWord).check 0 0 none 0x10000 .fetch = .at_ (.dev 0x10000) p e :=
  ⟨thePte, 0x4008, of_atOf (by decide)⟩
/-- A batch whose instruction is in progress tries its slot again, and one without its slot its fetch; an event of the front end is taken. -/
def trying (h : Hold) : State := { demo with sheafs := [(1, { demoSheaf with hold := { h with waiting := true } })] }
def retrying : State := trying { Hold.none with word := some iaddWord, phase := 2 }
def refetching : State := trying Hold.none
theorem witness_StepRunsTheInstruction_retry : (∀ s ∈ [retrying, refetching], s.nextTurn = some (.retry 1) ∧ ({ s with cur := 1 } : State).shf.issuing ≠ 0#32) ∧
    retrying.shf.hold.word = some iaddWord ∧ refetching.shf.hold.word = none ∧
    wordOf (refetching.fetchSlot 1 refetching.shf refetching.shf.batchPc) = some 0 ∧ (decodeSlot 0 0).toOption.isSome = true := by decide
/-- A batch that is ready, one whose source is empty, and one whose wait is over. -/
def weighed (full : Mask) (waiting : Bool) : State := { demo with sheafs := [(1, { demoSheaf with
  rows := [(3, { rowOf fun _ => 0 with full := full })], hold := { Hold.none with word := some iaddWord, waiting := waiting, reason := if waiting then 1 else 0 } })] }
theorem witness_StepRunsTheInstruction_weigh : (weighed 0 false).wouldHold 1 ≠ none ∧ (∀ w ∈ [true, false], (weighed (BitVec.allOnes 32) w).wouldHold 1 = none) ∧
    ∀ s ∈ [weighed 0 false, weighed (BitVec.allOnes 32) true, weighed (BitVec.allOnes 32) false], s.shf.issuing ≠ 0 ∧ s.canIssue s.shf = true ∧
      (s.shf.hold.waiting = true → s.shf.hold.unissued = true ∧ s.shf.hold.word.isSome = true) := by decide
theorem witness_StepRunsTheInstruction_event : ({ State.reset with events := [.heartbeat] } : State).nextTurn = some (.event 0) ∧ IsInstr .heartbeat .heartbeat :=
  ⟨by decide, rfl⟩
/-- The header that stands for a loaded program meets the limits of Table 6.2. -/
theorem test_placed_header : placedHeader.ok = true := by decide

theorem witness_StepKeepsCanonical : State.reset.Canonical ∧ ∃ t, step State.reset = .next t := ⟨⟨rfl, rfl⟩, _, rfl⟩
theorem witness_ProgramsKeepWhatTheDriverSet : (Instr.yield ⟨al⟩).isEvent = false ∧ ∃ t, exec (.yield ⟨al⟩) demo = .next t :=
  ⟨rfl, _, rfl⟩
theorem witness_DecodeAndEncodeAgree : (Instr.iadd ⟨al, 5, v 3, .lane ⟨4, true, false⟩ .straight, none⟩).wf = true ∧
    decodeSlot iaddWord 0 = .ok (.iadd ⟨al, 5, v 3, .lane ⟨4, true, false⟩ .straight, none⟩) := by decide
/-! In the demo state every operand form of the register instructions finds what it needs. -/
theorem witness_IntegerArithmetic (o : OpAB) (p : OpI) (q : OpABK) (r : OpABC) (u : OpABU) : LaneClear demo (insAB o.g o.d o.a o.b o.fl) ∧
    LaneClear demo (insA p.g p.d p.a p.fl) ∧ LaneClear demo { insAB q.g q.d q.a q.b q.fl with ccs := [q.k] } ∧
    LaneClear demo (insABC r.g r.d r.a r.b r.c r.fl) ∧ LaneClear demo ⟨u.g, vop u.a 1 0 :: bops u.b 1, bsregs u.b, [], [u.d, u.d + 1], u.fl⟩ :=
  ⟨demo_lane _, demo_lane _, demo_lane _, demo_lane _, demo_lane _⟩
theorem witness_IntegerOrderAndCompare (o : OpABU) (p : OpA) (q : OpCmp) (r : OpCmpI) : LaneClear demo (insAB o.g o.d o.a o.b o.fl) ∧
    LaneClear demo (insA p.g p.d p.a p.fl) ∧ LaneClear demo ⟨q.g, vop q.a 1 0 :: bops q.b 1, bsregs q.b, [], [], some q.k⟩ ∧
    LaneClear demo ⟨r.g, [vop r.a 1 0], [], [], [], some r.k⟩ :=
  ⟨demo_lane _, demo_lane _, demo_lane _, demo_lane _⟩
theorem witness_LogicAndMoves (o : OpAB) (p : OpI) (q : OpMovi) (r : OpB) (u : OpSel) : LaneClear demo (insAB o.g o.d o.a o.b o.fl) ∧
    LaneClear demo (insA p.g p.d p.a p.fl) ∧ LaneClear demo ⟨q.g, [], [], [], [q.d], q.fl⟩ ∧
    LaneClear demo ⟨r.g, bops r.b 1, bsregs r.b, [], [r.d], r.fl⟩ ∧
    LaneClear demo { insAB u.g u.d u.a u.b u.fl with ccs := if u.sel.cond = 0 then [] else [u.sel.cc] } :=
  ⟨demo_lane _, demo_lane _, demo_lane _, demo_lane _, demo_lane _⟩
theorem witness_ShiftsAndBitFields (o : OpAB) (p : OpI) (q : OpABU) (r : OpABC) (u : OpA) : LaneClear demo (insAB o.g o.d o.a o.b o.fl) ∧
    LaneClear demo (insA p.g p.d p.a p.fl) ∧ LaneClear demo (insAB q.g q.d q.a q.b q.fl) ∧ LaneClear demo (insABC r.g r.d r.a r.b r.c r.fl) ∧
    LaneClear demo (insA u.g u.d u.a u.fl) :=
  ⟨demo_lane _, demo_lane _, demo_lane _, demo_lane _, demo_lane _⟩
theorem witness_FloatingPointResults (o : FopA) (p : FopAB) (q : FopABC) : LaneClear demo (fins o.g o.d o.a) ∧ LaneClear demo (finsAB p.g p.d p.a p.b) ∧
    LaneClear demo (insABC q.g q.d q.a q.b q.c none) :=
  ⟨demo_lane _, demo_lane _, demo_lane _⟩
theorem witness_FloatingPointOrderSignAndClass (o : FopAX) (p : FopABX) (q : OpCmp) : LaneClear demo (fins o.g o.d o.a) ∧
    LaneClear demo (finsAB p.g p.d p.a p.b) ∧ LaneClear demo ⟨q.g, vop q.a 1 0 :: bops q.b 1, bsregs q.b, [], [], some q.k⟩ :=
  ⟨demo_lane _, demo_lane _, demo_lane _⟩
theorem witness_PackedPairResults (p : FopAB) (q : FopABC) : LaneClear demo (finsAB p.g p.d p.a p.b) ∧ LaneClear demo (insABC q.g q.d q.a q.b q.c none) :=
  ⟨demo_lane _, demo_lane _⟩
theorem witness_ConversionResults (o : CvtU) (p : CvtF8) (q : CvtF4) (r : OpSclq) (x : CvtSel 2) : LaneClear demo (fins o.g o.d o.a) ∧
    LaneClear demo (finsAB p.g p.d p.a p.b) ∧ LaneClear demo (finsAB q.g q.d q.a q.b) ∧ LaneClear demo (fins r.g r.d r.a) ∧ LaneClear demo (fins x.g x.d x.a) :=
  ⟨demo_lane _, demo_lane _, demo_lane _, demo_lane _, demo_lane _⟩
theorem witness_RoundingIsRound : bf16 ∈ [fp32, fp16, bf16] := by decide
theorem witness_SumsAndProductsAreRounded : (f32 0x3F800000).finite = true ∧ (f32 0x80000000).finite = true ∧ (f32 0x7F7FFFFF).finite = true := by decide
theorem witness_PermutationsAcrossLanes (o : OpPerm) (m : Fin 32 → Option (Fin 32)) : CrossClear demo o.g o.d o.a o.b m where
  lane := demo_lane _
  far l _ k _ := by simp [Sheaf.emptyAt, demo_shf, demo_full]
  row r h := (demo_rows _ r h).2
theorem witness_VotesMatchesAndReductions (o : OpVote) (p : OpMatch) (q : OpRedux) (r : OpScan) : LaneClear demo ⟨o.g, [vop o.a 1 0], [], [], [o.d], none⟩ ∧
    LaneClear demo ⟨p.g, [vop p.a (if p.w64 then 2 else 1) 0], [], [], [p.d], none⟩ ∧ LaneClear demo ⟨q.g, [vop q.a 1 0], [], [], [q.d], none⟩ ∧
    LaneClear demo ⟨r.g, [vop r.a 1 0], [], [], [r.d], none⟩ :=
  ⟨demo_lane _, demo_lane _, demo_lane _, demo_lane _⟩
theorem witness_LaneRegistersToAndFromSheafs (o : OpVsrd) (p : OpV2s) (hg : p.g = al) : LaneClear demo ⟨o.g, [], [], [], [o.d], none⟩ ∧
    demo.shf.issuing ≠ 0#32 ∧ (∀ l, demo.inBatch l → demo.shf.fib l true (·.fullC p.g.cc) = true) ∧
    ((∃ l, demo.acts p.g l) ∧ demo.acts p.g 0 ∧ ∀ l, demo.acts p.g l → (0 : Fin 32) ≤ l) ∧
    (∀ (m : Fin 32), ∀ r ∈ regRange p.a.reg 2, demo.shf.emptyAt r m = false ∧ ∀ x, demo.shf.row? r = some x → x.spilled = false) ∧
    demo.shf.fullS p.d = true ∧ demo.shf.ops.length < 64 :=
  ⟨demo_lane _, by decide, fun l _ => like_demo.cc _ l, ⟨⟨0, hg ▸ demo_acts 0⟩, hg ▸ demo_acts 0, fun l _ => Nat.zero_le _⟩,
    fun m r _ => ⟨by simp [Sheaf.emptyAt, demo_shf, demo_full], fun x h => (demo_rows _ x h).2⟩, like_demo.fullS _, by decide⟩
theorem witness_SixtyFourBitResults (o : OpAB) (p : OpLea) (q : OpI) (r : OpCmp) : LaneClear demo (ins64 o.g o.d o.a o.b o.fl) ∧
    LaneClear demo ⟨p.g, vop p.a 2 0 :: bops p.b 1, bsregs p.b, [], [p.d, p.d + 1], p.fl⟩ ∧
    LaneClear demo ⟨q.g, [vop q.a 2 0], [], [], [q.d, q.d + 1], q.fl⟩ ∧ LaneClear demo ⟨r.g, vop r.a 2 0 :: bops r.b 2, bsregs r.b, [], [], some r.k⟩ :=
  ⟨demo_lane _, demo_lane _, demo_lane _, demo_lane _⟩
theorem f32_one : f32 0x3F800000 = .fin false (2 ^ 23) (-23) := by decide
theorem f32_zero : (f32 0).toRat = 0 := by
  have : f32 0 = .fin false 0 (-149) := by decide
  rw [this]; simp [FVal.toRat]
theorem f32_one_ne : (f32 0x3F800000).toRat ≠ 0 := by rw [f32_one]; simp [FVal.toRat]
theorem witness_QuotientsAndSpecialOperands : (f32 0).finite = true ∧ (f32 0x3F800000).finite = true ∧
    (f32 0x3F800000).toRat ≠ 0 ∧ (f32 0).toRat = 0 ∧ (-149 : Int) ≤ 127 := ⟨by decide, by decide, f32_one_ne, f32_zero, by decide⟩
/-- 1 has a scale, 2^100 has none. -/
theorem witness_ConversionsByExactNumbers_scales :
    (8 ≤ 144 ∧ 144 < 248 ∧ |(FVal.fin false 1 0).toRat| ≤ ((8 + 144 % 8 : Nat) : Rat) * (2 : Rat) ^ ((144 / 8 : Nat) - 18 : Int) * 448) ∧
    ∀ c : Nat, ¬ (8 ≤ c ∧ c < 248 ∧ |(FVal.fin false 1 100).toRat| ≤ ((8 + c % 8 : Nat) : Rat) * (2 : Rat) ^ ((c / 8 : Nat) - 18 : Int) * 448) := by
  refine ⟨by norm_num [FVal.toRat], fun c h => ?_⟩
  obtain ⟨_, h2, h3⟩ := h
  have h4 : ((8 + c % 8 : Nat) : Rat) ≤ 15 := by exact_mod_cast (by omega : 8 + c % 8 ≤ 15)
  have h5 : (2 : Rat) ^ ((c / 8 : Nat) - 18 : Int) ≤ 2 ^ (12 : Int) := zpow_le_zpow_right₀ (by norm_num) (by omega)
  have h6 : ((8 + c % 8 : Nat) : Rat) * (2 : Rat) ^ ((c / 8 : Nat) - 18 : Int) ≤ 15 * 2 ^ (12 : Int) :=
    mul_le_mul h4 h5 (by positivity) (by norm_num)
  norm_num [FVal.toRat] at h3 h6
  linarith
theorem witness_ConversionsByExactNumbers : (FVal.fin false 1 0).finite = true ∧ (FVal.fin false 1 0).toRat ≠ 0 ∧ (-2 ^ 32 : Int) ≤ -8 ∧ (-8 : Int) ≤ 7 ∧
    (7 : Int) ≤ 2 ^ 32 ∧ (unpackF bf16 0x3F80).finite = true ∧ (unpackF bf16 0).finite = true ∧ (f32 0).finite = true :=
  ⟨rfl, by simp [FVal.toRat], by decide, by decide, by decide, by decide, by decide, by decide⟩

/-- `[s2 + v7]` in the demo state: 0x10000 plus four times the lane, mapped and aligned. -/
def at7 : LmAddr := ⟨.sum 2, v 7, 0⟩
/-- The place of the demo's page 0x10000 is frame 1, at the same address. -/
theorem demo_check (a : Acc) (h : a ∈ [Acc.load, .store, .atomic, .cwb, .prefetch, .counter, .pgdrop]) : ∀ l : Fin 32,
    demo.check (clusterOf demo.shf.core) (demo.asnOf demo.shf) (demo.headerOf demo.shf) (demo.shf.laneAddr at7 l) a =
      .at_ (.dev (0x10000 + 4 * l.val)) demoPte 0x4008 := by
  have : ∀ a ∈ [Acc.load, .store, .atomic, .cwb, .prefetch, .counter, .pgdrop], ∀ l : Fin 32,
    atOf (demo.check (clusterOf demo.shf.core) (demo.asnOf demo.shf) (demo.headerOf demo.shf) (demo.shf.laneAddr at7 l) a) =
      some (.dev (0x10000 + 4 * l.val), demoPte, 0x4008) := by decide
  exact fun l => of_atOf (this a h l)
theorem demo_aligned : ∀ l, (demo.shf.laneAddr at7 l).toNat % 4 = 0 := by decide
theorem demo_uncharged : ∀ l : Fin 32, demo.chargePool (lineOf (.dev (0x10000 + 4 * l.val))) = none := by decide
theorem demo_writes (a : Acc) (n : Nat) (k : AccKind) (h : a ∈ [Acc.load, .store, .atomic, .cwb, .prefetch, .counter, .pgdrop]) :
    WriteClear demo al (demo.shf.laneAddr at7) a n k fun l => .dev (0x10000 + 4 * l.val) :=
  demo_write _ _ _ _ _ (fun l => ⟨_, _, demo_check a h l⟩) (fun _ _ _ => by simp) demo_uncharged
theorem demo_poison (line : Loc) : (demo.home line).poison = false := rfl
theorem demo_release : demo.releaseReady demo.shf (demo.acting al) .sys = true := by decide
theorem demo_acquire : demo.shf.acquireReady (demo.acting al) = true := by decide
theorem witness_LoadsAreSentOut : MemClear demo (lmIns al at7 [] (regRange 5 1)) (demo.shf.laneAddr at7) 4 ∧
    ∀ l, demo.acts al l → ∀ x p e, demo.check (clusterOf demo.shf.core) (demo.asnOf demo.shf) (demo.headerOf demo.shf) (demo.shf.laneAddr at7 l) .load = .at_ x p e →
      (demo.home (lineOf x)).poison = false :=
  ⟨demo_mem _ _ _ rfl demo_aligned, fun _ _ _ _ _ _ => rfl⟩
theorem witness_StoresAreSentOut : MemClear demo (lmIns al at7 [vop (v 5) 1 3] []) (demo.shf.laneAddr at7) 4 ∧
    WriteClear demo al (demo.shf.laneAddr at7) .store 4 .store (fun l => .dev (0x10000 + 4 * l.val)) ∧
    demo.releaseReady demo.shf (demo.acting al) .sys = true :=
  ⟨demo_mem _ _ _ rfl demo_aligned, demo_writes _ _ _ (by decide), demo_release⟩

/-- The demo's sheaf with an instruction in progress. -/
def held (h : Hold) (ops : List (Nat × OpRec) := []) : State := { demo with sheafs := [(1, { demoSheaf with hold := h, ops := ops })] }
theorem like_held (h : Hold) (ops : List (Nat × OpRec)) : Like (held h ops) := ⟨rfl, rfl, rfl, rfl, rfl, rfl, rfl⟩
theorem demo_done : ∀ l : Fin 32, demo.shf.acquireReady (1#32 <<< l.val) = true ∧ demo.releaseReady demo.shf (1#32 <<< l.val) .sys = true := by decide
/-- An outstanding operation of all the demo's lanes. -/
def opRec (k : OpKind) : OpRec := ⟨0x10000, k, BitVec.allOnes 32, 0, 0, lanesOf fun l => 0x10000 + 4 * BitVec.ofNat 64 l.val, [], 0, none⟩
theorem demo_canonical : demo.Canonical := ⟨by decide, by decide⟩
/-- A load and a store of every lane are outstanding, and in the second sheaf a FENCE.full.sys besides. -/
def owing : State := held Hold.none [(8, opRec (.load 5 .w32 false false)), (9, opRec .store)]
def fencing (ops : List (Nat × OpRec)) : State := { demo with sheafs := [(1, { demoSheaf with ops := ops, lanes := lanesOf fun l => match demoSheaf.lanes[l] with
  | .held f => .held { f with fence := some ⟨true, true, .sys⟩ }
  | y => y })] }
theorem fencing_cc (ops : List (Nat × OpRec)) : ∀ (k : BitVec 2) (l : Fin 32), (fencing ops).shf.fib l true (·.fullC k) = true :=
  (by decide : ∀ (k : BitVec 2) (l : Fin 32), (fencing []).shf.fib l true (·.fullC k) = true)
theorem fencing_acts (ops : List (Nat × OpRec)) : ∀ l, (fencing ops).acts al l :=
  (by decide : ∀ l, hasLane ((fencing []).acting al) l = true)
theorem fencing_empty (ops : List (Nat × OpRec)) (o : VOp) (l : Fin 32) : (fencing ops).shf.emptyReg o l = none := by
  have h : ∀ n m, (fencing ops).shf.fullLane n m = true := demo_full
  unfold Sheaf.emptyReg
  cases xbarLane o.x l with
  | none => rfl
  | some m => simp [Sheaf.emptyAt, h]
theorem fencing_issue (ops : List (Nat × OpRec)) (i : LaneIns) (hg : i.g = al) (h : ops.length < 64)
    (hd : i.dests.length ≤ 64 := by exact Nat.le_of_ble_eq_true rfl) : IssueClear (fencing ops) i where
  lane := { batch := (by decide : (fencing []).shf.issuing ≠ 0#32)
            guard := fun _ l _ => fencing_cc ops _ l
            sources := fun o _ l _ => fencing_empty ops o l
            sregs := fun r _ => like_demo.fullS r
            flags := fun k _ l _ => fencing_cc ops k l
            dests := fun d _ l _ => like_demo.full d l
            flagDest := fun k _ l _ => fencing_cc ops k l
            rows := fun n _ r hr => like_demo.spilled n r hr
            room := by have : (fencing ops).rowsUsed (fencing ops).shf.core = 3 := rfl
                       rw [this]; unfold physicalRows; omega }
  first := ⟨none, rfl⟩
  some := ⟨0, hg ▸ fencing_acts ops 0⟩
  room := h
/-- FENCE: for each fibre done, and not done; the next memory instruction, while the fence is not ready and once it is. -/
theorem witness_AcquiresAndFences : LaneClear demo ⟨al, [], [], [], [], none⟩ ∧ demo.FirstTry ∧ (∀ l, demo.shf.fib l none (·.fence) = none) ∧
    LaneClear owing ⟨al, [], [], [], [], none⟩ ∧ owing.FirstTry ∧ (∀ l, owing.shf.fib l none (·.fence) = none) ∧
    (∀ l : Fin 32, owing.shf.acquireReady (1#32 <<< l.val) = false ∧ owing.releaseReady owing.shf (1#32 <<< l.val) .sys = false) ∧
    IssueClear (fencing []) (lmIns al at7 [] (regRange 5 1)) ∧ (∀ l, (fencing []).fenceReady (fencing []).shf l = true) ∧
    IssueClear (fencing owing.shf.ops) (lmIns al at7 [] (regRange 5 1)) ∧ (∀ l, (fencing owing.shf.ops).fenceReady (fencing owing.shf.ops).shf l = false) ∧
    ∀ l, ((fencing []).shf.laneAddr at7 l).toNat % 4 = 0 ∧ ((fencing owing.shf.ops).shf.laneAddr at7 l).toNat % 4 = 0 :=
  ⟨demo_lane _, demo_first, demoSheaf_fence, (like_held _ _).lane _, ⟨none, rfl⟩, demoSheaf_fence, by decide, fencing_issue _ _ rfl (by decide), by decide,
    fencing_issue _ _ rfl (by decide), by decide, fun l => ⟨demo_aligned l, demo_aligned l⟩⟩
theorem witness_PrefetchesWritebacksAndPages : MemClear demo (lmIns al at7 [] []) (demo.shf.laneAddr at7) 1 ∧
    WriteClear demo al (demo.shf.laneAddr at7) .cwb 1 .prefetch (fun l => .dev (0x10000 + 4 * l.val)) :=
  ⟨demo_mem _ _ _ rfl fun _ => Nat.mod_one _, demo_writes _ _ _ (by decide)⟩
/-- The walk of a prefetch of every lane: the line it asks for is in no cache and asked for by none; with no address space every lane would fault. -/
def prefetched : PrfRec := ⟨BitVec.allOnes 32, lanesOf (demoSheaf.laneAddr at7), true⟩
def prefetchSheaf : Sheaf := { demoSheaf with prfs := [(9, prefetched)] }
def prefetching (spaces : List (Nat × Space)) : State := { demo with spaces := spaces, sheafs := [(1, prefetchSheaf)] }
theorem witness_PrefetchesWritebacksAndPages_walk : let s := prefetching demo.spaces; let sh := prefetchSheaf
    (s.sheaf? 1 = some sh ∧ aget sh.ops 9 = none ∧ aget sh.prfs 9 = some prefetched) ∧
    (frostedCore s sh.core = false ∧ s.isLifted sh = false ∧ s.metered (s.budgetKey sh) = false ∧ s.missEntries sh.core + 32 ≤ 256) ∧
    (∀ l : Fin 32, s.check (clusterOf sh.core) (s.asnOf sh) (s.headerOf sh) prefetched.addrs[l] .prefetch = .at_ (.dev (0x10000 + 4 * l.val)) demoPte 0x4008) ∧
    ((∀ l : Fin 32, lineOf (.dev (0x10000 + 4 * l.val)) = .dev 0x10000) ∧ s.l1 = [] ∧ s.cluster = [] ∧ s.events = []) ∧
    ∀ l : Fin 32, ∃ c lg, (prefetching []).check (clusterOf sh.core) ((prefetching []).asnOf sh) ((prefetching []).headerOf sh) prefetched.addrs[l] .prefetch = .fault c lg := by
  refine ⟨by decide, by decide, fun l => of_atOf ?_, ⟨by decide, rfl, rfl, rfl⟩, fun l => ⟨_, _, of_faultOf (l := true) (k := 0x03) ?_⟩⟩ <;> revert l <;> decide
/-- PGDROP of the demo's page, which no other operation uses, and its later step, while a store of the page is outstanding and when none is. -/
def dropLane (l : Fin 32) : WLane := ⟨l, demo.shf.laneAddr at7 l, .dev (0x10000 + 4 * l.val), demoPte, 0x4008⟩
def dropOp : OpRec := opRec (.pgdrop 5 [(0, demoPte, 0x4008)])
def dropping (ops : List (Nat × OpRec)) : State := held Hold.none ((9, dropOp) :: ops)
theorem witness_PrefetchesWritebacksAndPages_drop : MemClear demo (lmIns al at7 [] [5]) (demo.shf.laneAddr at7) 4 ∧ demo.unmetered ∧
    (∀ l, demo.check (clusterOf demo.shf.core) (demo.asnOf demo.shf) (demo.headerOf demo.shf) (demo.shf.laneAddr at7 l) .pgdrop =
      .at_ (dropLane l).loc (dropLane l).pte (dropLane l).entry) ∧
    (∀ l, demo.watchesFor (dieOf demo.shf.core) (demo.asnOf demo.shf) (demo.shf.laneAddr at7 l) 4 .prefetch = [] ∧
      demo.behindLoad demo.shf demo.shf.ops (dropLane l) = false) ∧ demoPte.moving = false ∧ 0x4008 % 8 = 0 ∧ Plain demo 0x4008 8 :=
  ⟨demo_mem _ _ _ rfl demo_aligned, rfl, fun l => demo_check .pgdrop (by decide) l, fun _ => ⟨rfl, rfl⟩, rfl, rfl, demo_canonical, rfl, by decide⟩
theorem witness_PrefetchesWritebacksAndPages_gone : let idle := dropping []; let busy := dropping [(10, { opRec .store with sent := BitVec.allOnes 32 })]
    let waits := fun s : State => s.pageBusy (s.asnOf s.shf) (pageBase dropOp.addrs[laneOf 0] demoPte) (pageBytes demoPte.size) false || s.prefetching demoPte
    aget idle.shf.ops 9 = some dropOp ∧ aget busy.shf.ops 9 = some dropOp ∧ waits busy = true ∧ waits idle = false ∧
    ((List.range (pageFrames demoPte.size)).map fun j => demoPte.frame.toNat + j) = [1] := by decide
theorem demo_pair : ∀ l, demo.shf.readPair 8 l = 0x10000 := by decide
theorem demo_checkPair (a : Acc) (h : a ∈ [Acc.atomic, .counter]) : ∀ l : Fin 32,
    demo.check (clusterOf demo.shf.core) (demo.asnOf demo.shf) (demo.headerOf demo.shf) (demo.shf.readPair 8 l) a = .at_ (.dev 0x10000) demoPte 0x4008 := by
  have : ∀ a ∈ [Acc.atomic, .counter], ∀ l : Fin 32,
    atOf (demo.check (clusterOf demo.shf.core) (demo.asnOf demo.shf) (demo.headerOf demo.shf) (demo.shf.readPair 8 l) a) = some (.dev 0x10000, demoPte, 0x4008) := by decide
  exact fun l => of_atOf (this a h l)
def atomDemo : OpAtom := ⟨al, 20, v 8, v 7, .add, .dev, .ar⟩
theorem witness_AtomicsAreSentOut : let f : AtomDesc := ⟨al, some 20, v 8, v 7, none, false, .rmw .add, .dev, .ar⟩
    atomOf (.atom atomDemo) = some f ∧ MemClear demo f.ins (demo.shf.readPair 8) 4 ∧
    WriteClear demo al (demo.shf.readPair 8) .atomic 4 .atomic (fun _ => .dev 0x10000) ∧ (demo.home (lineOf (.dev 0x10000))).poison = false ∧
    isDev (.dev 0x10000) = true ∧ ∀ l : Fin 32, demo.releaseReady demo.shf (1#32 <<< l.val) .dev = true :=
  ⟨rfl, demo_mem _ _ _ rfl (by decide), demo_write _ _ _ _ _ (fun l => ⟨_, _, demo_checkPair .atomic (by decide) l⟩) (fun _ _ _ => by simp) (by decide),
    rfl, rfl, by decide⟩
/-- `[s3 + v7]` lies in the demo's scratchpad window, each lane at its own word. -/
def at37 : LmAddr := ⟨.sum 3, v 7, 0⟩
theorem demo_inside : ∀ l : Fin 32, demoLaunch.hdr.window.toNat ≤ (demoSheaf.laneAddr at37 l).toNat ∧
    (demoSheaf.laneAddr at37 l).toNat < demoLaunch.hdr.window.toNat + demoLaunch.hdr.scratch ∧
    4 * l.val = (demoSheaf.laneAddr at37 l).toNat - demoLaunch.hdr.window.toNat := by decide
theorem demo_pad : PadClear demo al (demo.shf.laneAddr at37) placedBed fun l => 4 * l.val where
  bed := rfl
  inside l _ := ⟨demoLaunch.hdr, rfl, demo_inside l⟩
/-- The demo with the first 32 words of its scratchpad empty. -/
def emptyPad : State := { demo with beds := [(2, { placedBed with padEmpty := List.range 32 })] }
theorem like_emptyPad : Like emptyPad := ⟨rfl, rfl, rfl, rfl, rfl, rfl, rfl⟩
theorem witness_ScratchpadAccesses : MemClear demo (lmIns al at37 [] (regRange 5 1)) (demo.shf.laneAddr at37) 4 ∧
    MemClear demo (lmIns al at37 [vop (v 5) 1 3] []) (demo.shf.laneAddr at37) 4 ∧ MemClear demo (lmIns al at37 [vop (v 5) 1 3] (regRange 5 1)) (demo.shf.laneAddr at37) 4 ∧
    PadClear demo al (demo.shf.laneAddr at37) placedBed (fun l => 4 * l.val) ∧ (∀ l : Fin 32, 4 * l.val / 4 ∉ placedBed.padEmpty) ∧
    (∀ l m : Fin 32, 4 * l.val % 4 = 0 ∧ (4 * l.val / 4 = 4 * m.val / 4 → l = m)) :=
  ⟨demo_mem _ _ _ rfl (by decide), demo_mem _ _ _ rfl (by decide), demo_mem _ _ _ rfl (by decide), demo_pad, by decide, by decide⟩
theorem witness_ScratchpadAccesses_empty : MemClear emptyPad (lmIns al at37 [vop (v 5) 1 3] []) (emptyPad.shf.laneAddr at37) 4 ∧
    (∀ l : Fin 32, 4 * l.val / 4 ∈ ({ placedBed with padEmpty := List.range 32 } : Bed).padEmpty) ∧
    PadClear emptyPad al (emptyPad.shf.laneAddr at37) { placedBed with padEmpty := List.range 32 } (fun l => 4 * l.val) :=
  ⟨like_emptyPad.mem _ _ _ ⟨none, rfl⟩ (by decide) rfl (by decide), by decide,
    { bed := rfl, inside := fun l _ => ⟨demoLaunch.hdr, rfl, demo_inside l⟩ }⟩
theorem witness_SheafLoadsStoresAndReserveReads : demo.FirstTry ∧ demo.unfenced ∧ demo.shf.ops.length < 64 ∧ SheafClear demo al [2] [5] none ∧
    (demo.shf.readS 2 + (8 : BitVec 30).signExtend 64).toNat % 8 = 0 ∧ SheafClear demo al [2, 4] [] none ∧
    WriteClear demo .al (fun _ => demo.shf.readS 2 + (8 : BitVec 30).signExtend 64) .store 8 .store (fun _ => .dev 0x10008) ∧
    (demo.shf.readS 2 + (1 : BitVec 30).signExtend 64).toNat % 8 ≠ 0 ∧ SheafClear demo al (resvSrcs ⟨al, 5, some 4⟩) [5] none ∧
    demo.launch? demo.shf.launch = some demoLaunch :=
  ⟨demo_first, like_demo.unfenced, by decide, like_demo.sheaf _ _ _, by decide, like_demo.sheaf _ _ _,
    demo_write _ _ _ _ _ (fun _ => ⟨demoPte, 0x4008, of_atOf (by decide)⟩) (fun _ _ _ => by simp) (by decide), by decide, like_demo.sheaf _ _ _, rfl⟩

/-- The demo with an operation under the key 9, and a counter of 5 at 0x10000. -/
def withOp (k : OpKind) : State := { held Hold.none [(9, opRec k)] with mem := putSlot demo.mem 0x10000 5 }
theorem demo_counter (i : LaneIns) (k : AccKind) (hg : i.g = al) (h : i.dests.length ≤ 64 := by exact Nat.le_of_ble_eq_true rfl) :
    CounterClear demo i (demo.shf.readPair 8) k fun _ => 0x10000 where
  mem := demo_mem _ _ _ hg (by decide) h
  line l _ := ⟨rfl, by decide, demoPte, 0x4008, demo_checkPair .counter (by decide) l, rfl, rfl⟩
  unwatched l _ := rfl
  still := rfl
  ahead _ _ _ _ := rfl
  unmetered := rfl
  room l _ := .inr (by decide)
theorem witness_CounterInstructions : demo.Canonical ∧ CounterClear demo ⟨al, [vop (v 8) 2 0, vop (v 7) 1 1], [], [], [5], some 1⟩ (demo.shf.readPair 8) .atomic (fun _ => 0x10000) ∧
    CounterClear demo ⟨al, [vop (v 8) 2 0, vop (v 7) 1 1], [], [], [5], none⟩ (demo.shf.readPair 8) .atomic (fun _ => 0x10000) ∧
    (demo.ctrAt 0x10000).total < 2 ^ 64 ∧ CounterClear demo ⟨al, [vop (v 8) 2 0], [], [], regRange 4 2, none⟩ (demo.shf.readPair 8) .load (fun _ => 0x10000) ∧
    CounterClear demo ⟨al, [vop (v 8) 2 0], [], [], regRange 4 2, none⟩ (demo.shf.readPair 8) .atomic (fun _ => 0x10000) :=
  ⟨demo_canonical, demo_counter _ _ rfl, demo_counter _ _ rfl, by decide, demo_counter _ _ rfl, demo_counter _ _ rfl⟩
def thePool : Pool := ⟨0x10100, 100, 200, 8, 0, 0, 50, [], [], [], 0, none, 0, false⟩
theorem withOp_reaches (k : OpKind) : Reaches (withOp k) 1 { demoSheaf with hold := Hold.none, ops := [(9, opRec k)] } := ⟨rfl, rfl, (by decide : CoreState.idle.stopped.getLsbD 0 = false)⟩
/-- One refill that the total of 5 meets, one it does not, and a roll call; a reserve's roll call; an allowance gone home; the answers. -/
theorem witness_CounterEventsAtTheHome : let s := withOp (.counter 5 false none); let p := { withOp (.reserve 5) with pools := [(256, thePool)] }
    s.Canonical ∧ ((s.sheaf? 1).bind fun sh => aget sh.ops 9).map (·.kind) = some (.counter 5 false none) ∧ s.engineHolds (lineOf (.dev 0x10000)) none = false ∧
    (s.ctrAt 0x10000).total = 5 ∧ sumOf [(0, 3), (1, 2)] ≤ 5 ∧ 5 < sumOf [(0, 3), (1, 3)] ∧ 0x10000 % 64 = 0 ∧ (s.allows.filter fun e => e.1.1 = 0).length < 256 ∧
    (((withOp (.counter 4 true none)).sheaf? 1).bind fun sh => aget sh.ops 9).map (·.kind) = some (.counter 4 true none) ∧
    ((p.sheaf? 1).bind fun sh => aget sh.ops 9).map (·.kind) = some (.reserve 5) ∧ p.pool? 256 = some thePool ∧
    (let a := { s with allows := [((0, 0x10000), ⟨3, 3, 1, 5⟩)] };
      (∀ e ∈ a.allows, e.1.2 % 64 = 0 ∧ (a.ctrAt e.1.2).total < 2 ^ 64) ∧ ∃ e ∈ a.allows, e.1.1 = 0) ∧
    Reaches s 1 { demoSheaf with hold := Hold.none, ops := [(9, opRec (.counter 5 false none))] } ∧
    Reaches (withOp (.reserve 5)) 1 { demoSheaf with hold := Hold.none, ops := [(9, opRec (.reserve 5))] } :=
  ⟨⟨by decide, by decide⟩, rfl, rfl, by decide, by decide, by decide, rfl, by decide, rfl, rfl, rfl, ⟨by decide, by decide⟩, withOp_reaches _, withOp_reaches _⟩
/-- A pool whose figure is below its low mark, one at it, a request that waits and one that has run out, and a relief. -/
def pooled (p : Pool) : State := { demo with pools := [(5, p)], bell := 20, mem := putSlot (putSlot demo.mem 0x10130 60) 0x10140 7 }
theorem witness_PoolEvents : (pooled thePool).Canonical ∧ (pooled thePool).pool? (0 * 256 + 5) = some thePool ∧
    (∀ e ∈ (pooled thePool).allows, e.1.2 + 64 ≤ thePool.ctrl ∨ thePool.ctrl + 128 ≤ e.1.2) ∧ (∀ x, ((pooled thePool).home (lineOf (.dev (thePool.ctrl + x)))).poison = false) ∧ thePool.reserve < ((pooled thePool).word64 (thePool.ctrl + 0x30)).toNat ∧
    (let q := { thePool with remain := 60 }; ((pooled q).word64 (q.ctrl + 0x30)).toNat ≤ q.reserve) ∧
    (let q := { thePool with queue := [⟨.sheaf 1 4, 0, 51, some 20⟩] }; (pooled q).pool? 5 = some q ∧ (20 : Word).toNat ≤ (pooled q).bell.toNat ∧ q.reserve < 51) ∧
    (let q := { thePool with queue := [⟨.sheaf 1 4, 0, 50, some 20⟩] }; (pooled q).pool? 5 = some q ∧ 50 ≤ q.reserve) ∧
    ((pooled thePool).word64 (thePool.ctrl + 0x40)).toNat - thePool.reliefDone = 7 ∧
    (((pooled thePool).part? 0).map (·.reliefAssisted)).getD false = false ∧ thePool.reserve < 2 ^ 64 :=
  ⟨⟨by decide, by decide⟩, rfl, by decide, fun _ => rfl, by decide, by decide, ⟨rfl, by decide, by decide⟩, ⟨rfl, by decide⟩, by decide, by decide, by decide⟩

theorem witness_KvInstructions : MemClear demo ⟨al, [vop (v 7) 1 0], [], [], regRange 4 2, some 1⟩ (fun _ => 0) 1 ∧
    MemClear demo ⟨al, [vop (v 7) 1 0, vop (v 9) 1 1], [], [], [], some 1⟩ (fun _ => 0) 1 ∧ demo.releaseReady demo.shf (demo.acting al) .dev = true ∧ (let s := held { Hold.none with phase := 2, acted := BitVec.allOnes 32 };
    s.shf.hold.phase = 2 ∧ s.shf.hold.faults = [] ∧ s.shf.issuing ≠ 0#32 ∧ s.rowsUsed s.shf.core + (regRange 4 2).length ≤ physicalRows ∧
    ∀ o ∈ s.shf.ops, o.2.kind.isKv = true → o.2.due &&& s.shf.hold.acted = 0#32) :=
  ⟨demo_mem _ _ _ rfl fun _ => rfl, demo_mem _ _ _ rfl fun _ => rfl, by decide, by decide⟩
/-- A trellis of three sequences and four pages at 0x10040: sequence 0 holds 3 tokens in page 0, sequence 1 a full page 1, sequence 2 none;
page 2 is free. `n` is the count of page 0. -/
def trellised (n : Nat) : State := { demo with
  sheafs := [(1, { demoSheaf with trellis := 0x10040 })]
  mem := [(0x10040, 0x1000000100), (0x10048, 0x20000), (0x10050, 0x10100), (0x10058, 0x10200), (0x10060, 0x10300), (0x10068, 0x10400),
    (0x10070, 0x300000004), (0x10078, 0x100000000), (0x10100, 0x100000003), (0x10108, 0x10500), (0x10110, 0x100000010), (0x10118, 0x10510),
    (0x10120, 0x100000000), (0x10128, 0x10520), (0x10200, 0x100000000 + BitVec.ofNat 64 n), (0x10208, 0x100000001), (0x10300, 1), (0x10400, 2),
    (0x10510, 1)].foldl (fun m e => putSlot m e.1 e.2) demo.mem }
def theTrellis : Trellis := ⟨0x10040, 256, 0x20000, 0x10100, 0x10200, 0x10300, 0x10400, 3, 4⟩
def kvX : KvCtx := ⟨0, 0, demoLaunch.hdr, 1, 0, 0⟩
def kvMsg (k : KvKind) (a b : W32) : KvMsg := ⟨1, 9, k, 0, a, b, [], true, false, none, none, [], [], [], false, 0, 0, none, none⟩
def runOf (n : Nat) (k : KvKind) (a b : W32) := (trellised n).kvStep kvX 0x10040 false (kvMsg k a b)
def okOf {α : Type} : Except KvStop α → Option α
  | .ok a => some a
  | _ => none
def stopOf {α : Type} : Except KvStop α → Option KvStop
  | .ok _ => none
  | .error e => some e
theorem of_okOf {α : Type} {e : Except KvStop α} {a : α} (h : okOf e = some a) : e = .ok a := by cases e <;> simp_all [okOf]
theorem of_isOk {α : Type} {e : Except KvStop α} (h : (okOf e).isSome = true) : ∃ a, e = .ok a := by cases e <;> simp_all [okOf]
theorem of_stopOf {α : Type} {e : Except KvStop α} {x : KvStop} (h : stopOf e = some x) : e = .error x := by cases e <;> simp_all [stopOf]
def seq0 : SeqEntry := ⟨0x10100, 0x10100, 1, 3, 0x10500⟩
def seq1 : SeqEntry := ⟨0x10110, 0x10110, 1, 16, 0x10510⟩
def seq2 : SeqEntry := ⟨0x10120, 0x10120, 1, 0, 0x10520⟩
theorem trellised_read : ∀ n ∈ [1, 2], okOf ((trellised n).readTrellis kvX 0x10040) = some theTrellis ∧
    okOf ((trellised n).readEntry kvX theTrellis 0) = some seq0 ∧ (trellised n).entryHeld seq0 = false := by decide
theorem witness_KvAgentSteps_runs : (∃ r, runOf 1 .map 0 2 = .ok r) ∧ runOf 1 .map 0 3 = .error (.fails kvRange) ∧
    (∃ c va i l, runOf 1 .map 3 0 = .error (.trap c va i l)) :=
  ⟨of_isOk (by decide), of_stopOf (by decide), 0x0E, 0, 0x0102, false, of_stopOf (by decide)⟩
/-- The reads and writes that the clauses name succeed, for each clause in its own sequence. -/
theorem witness_KvAgentSteps_map : okOf ((trellised 1).pageAt kvX theTrellis seq0 (2 / 16)) = some 0 ∧ 2 < seq0.len ∧ seq0.len ≤ 3 := by decide
theorem witness_KvAgentSteps_app : okOf ((trellised 1).refcnt kvX theTrellis 0) = some 1 ∧ okOf ((trellised 2).refcnt kvX theTrellis 0) = some 2 ∧
    seq0.len ≠ 16 * seq0.cap ∧ seq0.len % 16 ≠ 0 ∧ seq1.len = 16 * seq1.cap ∧ seq2.len ≠ 16 * seq2.cap ∧ seq2.len % 16 = 0 ∧
    okOf ((trellised 1).readEntry kvX theTrellis 1) = some seq1 ∧ okOf ((trellised 1).readEntry kvX theTrellis 2) = some seq2 := by decide
/-- The page of sequence 2's first token is taken from the ring and stored in its places; with no page left the CTAKE fails; a ring that is empty stops it. -/
def chainOk : Option Bool := do
  let a ← okOf ((trellised 1).freeCtr kvX theTrellis)
  let r ← okOf (State.popRing (((trellised 1).takeOne 0 a).2, 0) kvX theTrellis)
  let s2 ← okOf (State.setRec r.2 kvX theTrellis r.1 1)
  let s3 ← okOf (State.kvWrite s2 kvX (seq2.pageVa 0) 4 r.1)
  let s4 ← okOf (State.kvWrite s3 kvX seq2.va 4 (seq2.len + 1))
  return ((trellised 1).takeOne 0 a).1 && decide (s4.1.mem ≠ [])
theorem witness_KvAgentSteps_page : chainOk = some true := by decide +kernel
theorem witness_KvAgentSteps_cow : okOf ((trellised 1).pageAt kvX theTrellis seq1 ((seq1.len - 1) / 16)) = some 1 ∧ seq1.len % 16 = 0 ∧ seq1.len ≠ 0 ∧ seq2.len = 0 := by
  decide
theorem witness_KvAgentSteps_write : (trellised 1).Canonical ∧ (∃ st, State.kvWrite (trellised 1, 0) kvX seq0.va 4 (seq0.len + 1) = .ok st) ∧
    (∃ st, State.kvWrite (trellised 1, 0) kvX seq2.va 4 0 = .ok st) ∧
    okOf ((trellised 1).kvLoc kvX seq0.va .agentWrite) = some 0x10100 ∧ ((trellised 1).home (lineOf (.dev 0x10100))).poison = false ∧
    (∀ e ∈ (trellised 1).allows, e.1.2 + 64 ≤ 0x10100 ∨ 0x10104 ≤ e.1.2) :=
  ⟨⟨by decide, by decide⟩, of_isOk (by decide), of_isOk (by decide), by decide, rfl, by decide⟩

theorem witness_ResampleCountsSumToN : 0 < (([⟨1, 0, 0, 3, 4, 5⟩, ⟨1, 1, 1, 0, 4, 5⟩] : List RsmpRec).map fun r => r.w.toNat).sum := by decide
/-- The demo's fibres at an RSMP, all with weight 1 and target 32; a launch whose clone is under way; one whose clones have landed. -/
def rsmpSheaf : Sheaf := { demoSheaf with batch := 0, ops := [(9, opRec (.rsmp 5))]
                                          lanes := lanesOf fun l => .held { newFibre 0 placedLaunch placedEntry (BitVec.ofNat 64 l.val) with
                                            status := .waiting, park := .rsmp 1 32 5 [] } }
def rsmpState (la : Launch) : State := { demo with sheafs := [(1, rsmpSheaf)], launches := [(3, la)] }
theorem witness_Resampling_arrive : IssueClear demo ⟨al, [vop (v 7) 1 0, vop (v 8) 1 1], [], [], [5], none⟩ ∧
    (∀ l, hasLane demo.shf.inHandler l = false) ∧ (∀ e ∈ demo.shf.rows, ∀ l : Fin 32, hasLane e.2.full l = true) :=
  ⟨(demo_mem _ (fun _ => 0) 1 rfl fun _ => rfl).toIssueClear, by decide, by decide⟩
theorem witness_Resampling_decide : let s := rsmpState demoLaunch; let ps := sortRank (s.participants 3)
    s.launch? 3 = some demoLaunch ∧ ps ≠ [] ∧ ps.length = (s.population 3).length ∧ s.allResident 3 = true ∧
    (s.launches.filter fun e => e.2.rsmp.isSome).length < 16 ∧ s.rsmpCheck demoLaunch 3 ps = none :=
  ⟨rfl, by decide, by decide, by decide, by decide, by decide⟩
def landing : RsmpRun := ⟨[⟨1, 0, 0, 0, 0, 0, 5⟩], 1, []⟩
def cloneState : State := { rsmpState { demoLaunch with rsmp := some landing } with
  sheafs := [(1, rsmpSheaf), (4, { rsmpSheaf with slot := 1, rows := [], ops := [], lanes := Vector.replicate 32 (.empty none) })] }
theorem witness_Resampling_clone : let m : CloneMsg := ⟨3, 1, 0, 4, 0, 32, 0, 0, 1, 5⟩
    (∃ p sh f, cloneState.sheaf? m.parentSheaf = some p ∧ cloneState.sheaf? m.destSheaf = some sh ∧ frostedCore cloneState p.core = false ∧
      frostedCore cloneState sh.core = false ∧ p.lanes[laneOf m.parentLane] = .held f ∧
      cloneState.rowsUsed sh.core + (p.rows.filter fun e => (aget sh.rows e.1).isNone).length + 1 ≤ physicalRows) ∧
    (∃ l, cloneState.launch? m.launch = some l ∧ l.rsmp = some landing) ∧ m.d < 256 :=
  ⟨⟨_, _, _, rfl, rfl, rfl, rfl, rfl, by decide⟩, ⟨_, rfl, rfl⟩, by decide⟩
theorem witness_Resampling_release : let run : RsmpRun := { landing with due := 0 }; let s := rsmpState { demoLaunch with rsmp := some run }
    s.launch? 3 = some { demoLaunch with rsmp := some run } ∧ run.due = 0 ∧
    (∀ e ∈ s.population 3, ∀ sh ∈ s.sheaf? e.1, frostedCore s sh.core = false ∧ (s.coreState sh.core).stopped.getLsbD sh.part = false) ∧
    (run.keep.map fun k => (k.sheaf, k.lane)).Nodup :=
  ⟨rfl, rfl, by decide, by decide⟩

/-! Sheaf instructions, control and exceptions. -/
def demoS (x : Word) : State := { demo with sheafs := [(1, { demoSheaf with sregs := Vector.replicate 64 x })] }
theorem like_demoS (x : Word) : Like (demoS x) := ⟨rfl, rfl, rfl, rfl, rfl, rfl, rfl⟩
theorem demo_false : GuardFalse demo ⟨0, 1⟩ := ⟨like_demo.issues, fun _ => by decide, by decide⟩
theorem witness_SheafArithmetic : SheafClear demo al [2, 4] [5] none ∧ SheafClear demo al [2, 4] [] (some 1) ∧ GuardFalse demo ⟨0, 1⟩ :=
  ⟨like_demo.sheaf _ _ _, like_demo.sheaf _ _ _, demo_false⟩
/-- A frame on the demo's stack, for the lanes of a mask. -/
def frameOf (m rte : Mask) : Frame := ⟨0x0B, 0, 0, m, 0x10000, 0, lanesOf fun _ => 0x10008, lanesOf fun _ => 0, none, rte⟩
def framed (fs : List Frame) : State := { demoV with sheafs := [(1, { demoSheaf with frames := fs })] }
theorem like_framed (fs : List Frame) : Like (framed fs) := ⟨rfl, rfl, rfl, rfl, rfl, rfl, rfl⟩
def stoppedCmd : Cmd := ⟨7, 0, 0, 0, 3, 0, 1, 2, BitVec.allOnes 32, 0, 0x10000, .accz 0 false, none, none, 0, true, true, false, false, none, false, 0, [], [], [], [], none, [], false, 0, [], 0⟩
theorem witness_SpecialRegisters : SheafClear demo al [] [5] none ∧ SheafClear demo al [2] [] none ∧ (let s : State := { framed [frameOf 1 0] with seats := [(0, ⟨3, [], [], [stoppedCmd], [], 0, 0⟩)] };
    SheafClear s al [2] [] none ∧ s.shf.frames ≠ [] ∧ ∃ st, s.seat? s.shf.core s.shf.seat = some st ∧ st.mq = [stoppedCmd] ∧ stoppedCmd.stopped = true) :=
  ⟨like_demo.sheaf _ _ _, like_demo.sheaf _ _ _, Like.sheaf ⟨rfl, rfl, rfl, rfl, rfl, rfl, rfl⟩ _ _ _, by decide, _, rfl, rfl, rfl⟩
theorem witness_BranchesCallsAndReturns : demo.shf.issuing ≠ 0#32 ∧ (∀ l, demo.shf.fib l true (·.fullC 0) = true) ∧ demo.shf.fullSc 0 = true ∧
    GuardFalse demo ⟨0, 1⟩ ∧ SheafClear demo al [4] [] none ∧ (demo.shf.readS 4).toNat % 8 = 0 ∧ SheafClear (demoS 1) al [4] [] none ∧
    ((demoS 1).shf.readS 4).toNat % 8 ≠ 0 ∧ SheafClear demo al [] [5] none :=
  ⟨like_demo.issues, like_demo.cc 0, by decide, demo_false, like_demo.sheaf _ _ _, by decide, (like_demoS 1).sheaf _ _ _, by decide, like_demo.sheaf _ _ _⟩
theorem demo_noHandler : demo.noHandler := by unfold State.noHandler; decide
/-- MEET finds its mask empty, or full; NAP has its time behind it, or before it. -/
theorem witness_JoiningParkingAndLeaving : SheafClear demo al [] [] none ∧ demo.noHandler ∧ demo.shf.bar 0 = 0#32 ∧
    (let s : State := { demo with sheafs := [(1, { demoSheaf with bars := Vector.replicate 8 (BitVec.allOnes 32) })] };
      SheafClear s al [] [] none ∧ s.noHandler ∧ s.shf.bar 0 ≠ 0#32 ∧ s.shf.bar 0 &&& ~~~(s.shf.atMeet 0 ||| (s.shf.issuing &&& s.shf.bar 0)) = 0#32) ∧
    SheafClear demo al [4] [] none ∧ demo.bell.toNat < (demo.shf.readS 4 + (0 : BitVec 30).signExtend 64).toNat ∧ SheafClear (demoS 0) al [4] [] none ∧
    ((demoS 0).shf.readS 4 + (0 : BitVec 30).signExtend 64).toNat ≤ (demoS 0).bell.toNat ∧ demo.shf.frames = [] :=
  ⟨like_demo.sheaf _ _ _, demo_noHandler, by decide, ⟨Like.sheaf ⟨rfl, rfl, rfl, rfl, rfl, rfl, rfl⟩ _ _ _, by unfold State.noHandler; decide, by decide, by decide⟩,
    like_demo.sheaf _ _ _, by decide, (like_demoS 0).sheaf _ _ _, by decide, rfl⟩
/-- The demo with a batch of lane 0 alone. -/
def oneLane : State := { demo with sheafs := [(1, { demoSheaf with batch := 1 })] }
theorem oneLane_sheaf (srcs dests : List (BitVec 6)) (scd : Option (BitVec 2)) : SheafClear oneLane al srcs dests scd where
  batch := by decide
  guardFull _ := by decide
  guard := rfl
  sources r _ := demoSheaf_s r
  dests r _ := demoSheaf_s r
  flagDest k _ := demoSheaf_sc k
theorem witness_BedBarriers : demo.bed? demo.shf.bed = some placedBed ∧ demo.cur ∈ placedBed.sheafs ∧ demo.noHandler ∧ SheafClear demo al [] [] none ∧
    (∀ e ∈ demo.liveOf placedBed, e.1 = demo.cur ∧ hasLane demo.shf.issuing e.2 = true) ∧
    (∀ u ∈ placedBed.sheafs, ∀ sh ∈ demo.sheaf? u, ∀ l : Fin 32, sh.fib l .none (·.park) = .none) ∧
    oneLane.bed? oneLane.shf.bed = some placedBed ∧ oneLane.noHandler ∧ SheafClear oneLane al [] [5] none ∧ oneLane.shf.ops.length < 64 ∧
    (∃ e ∈ oneLane.liveOf placedBed, ¬ (e ∈ (placedBed.bar 0).arrived ∨ (e.1 = oneLane.cur ∧ hasLane oneLane.shf.issuing e.2 = true))) ∧
    (∀ l : Fin 32, (oneLane.cur, l) ∉ (placedBed.bar 0).arrived) ∧ SheafClear demo al [4] [] none ∧ (placedBed.bar 0).phase ≠ loHalf (demo.shf.readS 4) ∧
    SheafClear (demoS 0) al [4] [] none ∧ (placedBed.bar 0).phase = loHalf ((demoS 0).shf.readS 4) :=
  ⟨rfl, by decide, demo_noHandler, like_demo.sheaf _ _ _, by decide, by decide, rfl, by unfold State.noHandler; decide, oneLane_sheaf _ _ _, by decide,
    ⟨(1, 1), by decide, by decide⟩, by decide, like_demo.sheaf _ _ _, by decide, (like_demoS 0).sheaf _ _ _, by decide⟩
def answered : State := held { Hold.none with phase := 2, answer := some ⟨1, 7, 4, 4⟩ }
def depLaunch (b : Bool) : Launch := { demoLaunch with hdr := { demoLaunch.hdr with hasdep := b } }
def depState : State := { demo with launches := [(3, depLaunch true)] }
theorem witness_SpawningAndDependences : SheafClear demo al [10, 11, 12, 13] [5] (some 1) ∧ demo.FirstTry ∧ demo.unfenced ∧ depState.unfenced ∧
    demo.releaseReady (demo.shf.takeTimes [10, 11, 12, 13] demo.shf.issuing) demo.shf.issuing .dev = true ∧ answered.shf.issuing ≠ 0#32 ∧
    answered.shf.hold.phase = 2 ∧ answered.shf.hold.answer = some ⟨1, 7, 4, 4⟩ ∧ SheafClear demo al [] [] none ∧
    demo.releaseReady demo.shf demo.shf.issuing .dev = true ∧ demo.launch? demo.shf.launch = some demoLaunch ∧ demoLaunch.hdr.hasdep = false ∧
    SheafClear depState al [] [] none ∧ depState.launch? depState.shf.launch = some (depLaunch true) ∧ (depLaunch true).hdr.hasdep = true ∧
    (∀ l : Fin 32, depState.shf.acquireReady (1#32 <<< l.val) = true) ∧ ∀ l : Fin 32, owing.shf.acquireReady (1#32 <<< l.val) = false :=
  ⟨like_demo.sheaf _ _ _, demo_first, like_demo.unfenced, Like.unfenced ⟨rfl, rfl, rfl, rfl, rfl, rfl, rfl⟩, by decide, (like_held _ _).issues, rfl, rfl, like_demo.sheaf _ _ _, by decide, rfl, rfl,
    Like.sheaf ⟨rfl, rfl, rfl, rfl, rfl, rfl, rfl⟩ _ _ _, rfl, rfl, by decide, by decide⟩

/-- v5 mapped and empty in every lane; breakpoints claimed; all the fibres in handler. -/
def emptyV5 : State := { demoV with sheafs := [(1, { demoSheaf with rows := [(5, ⟨Vector.replicate 32 0, BitVec.allOnes 32, 0, false, 0⟩)] })] }
def claimedState : State := { demoV with parts := [(0, { Partition.new [0] with breakpoints := true })] }
theorem framed_can (fs : List Frame) (h : fs.length < 4) : (framed fs).CanTrap := ⟨h, (by decide : (0x10000 : Word) ≠ 0), (by decide : BitVec.extractLsb' 0 3 (0x10000 : Word) = 0)⟩
theorem witness_TrapsTaken : SheafClear demoV al [] [] none ∧ demoV.CanTrap ∧
    (∃ la p, demoV.launch? demoV.shf.launch = some la ∧ demoV.part? la.part = some p ∧ p.breakpoints = false) ∧
    SheafClear claimedState al [] [] none ∧ (∃ la p, claimedState.launch? claimedState.shf.launch = some la ∧ claimedState.part? la.part = some p ∧ p.breakpoints = true) ∧
    (emptyV5.shf.issuing ≠ 0#32 ∧ emptyV5.acting al = emptyV5.shf.issuing ∧ ∀ l : Fin 32, emptyV5.shf.emptyAt 5 l = true ∧ emptyV5.shf.liveLane 5 l = true) ∧
    emptyV5.CanTrap ∧ (let s := framed [frameOf (BitVec.allOnes 32) 0]; SheafClear s al [] [5] none ∧ SheafClear s al [4] [] none ∧
      s.shf.issuing &&& s.shf.inHandler = s.shf.issuing ∧ s.CanTrap) ∧
    demoV.shf.innermost demoV.shf.issuing = none ∧ demoV.shf.namedFrame .own = none ∧ demoV.shf.frames = [] :=
  ⟨Like.sheaf ⟨rfl, rfl, rfl, rfl, rfl, rfl, rfl⟩ _ _ _, demo_can, ⟨_, _, rfl, rfl, rfl⟩, Like.sheaf ⟨rfl, rfl, rfl, rfl, rfl, rfl, rfl⟩ _ _ _, ⟨_, _, rfl, rfl, rfl⟩,
    by decide, by unfold State.CanTrap; decide, ⟨(like_framed _).sheaf _ _ _, (like_framed _).sheaf _ _ _, by decide, framed_can _ (by decide)⟩, by decide, by decide, rfl⟩
theorem witness_TrapsTaken_escalation : SheafClear demo al [] [] none ∧ demo.hvec demo.shf = 0 ∧ demo.launch? demo.shf.launch = some demoLaunch ∧
    demo.bed? demo.shf.bed = some placedBed ∧ 4 ≤ (framed (List.replicate 4 (frameOf 0 0))).shf.frames.length ∧
    ¬ (({ demo with seats := [(0, ⟨3, [], [], [], [], 0x10004, 0⟩)] } : State).hvec demo.shf).toNat % 8 = 0 :=
  ⟨like_demo.sheaf _ _ _, rfl, rfl, rfl, by decide, by decide⟩
/-- RTE with a fibre still to come, and as the last; a frame read and written. -/
theorem witness_FramesAndReturns : (let s : State := { framed [frameOf (BitVec.allOnes 32) 0] with sheafs := [(1, { demoSheaf with batch := 1, frames := [frameOf (BitVec.allOnes 32) 0] })] };
    s.shf.innermost s.shf.issuing = some 0 ∧ (BitVec.allOnes 32 : Mask) &&& ~~~(0 ||| s.shf.issuing) ≠ 0) ∧
    (let s := framed [frameOf (BitVec.allOnes 32) 0]; SheafClear s al [] [] none ∧ s.shf.innermost s.shf.issuing = some 0 ∧
      s.shf.frames[0]? = some (frameOf (BitVec.allOnes 32) 0) ∧ (∀ x ∈ s.shf.frames, x.mask &&& ~~~x.rte ≠ 0) ∧
      (BitVec.allOnes 32 : Mask) &&& ~~~(0 ||| s.shf.issuing) = 0 ∧ s.shf.namedFrame .own = some 0 ∧ SheafClear s al [4] [5] none ∧ SheafClear s al [4, 6] [] none ∧
      hasLane (frameOf (BitVec.allOnes 32) 0).mask (laneOf (s.shf.readS 4).toNat) = true ∧ hasLane s.shf.held (laneOf (s.shf.readS 4).toNat) = true ∧ s.shf.readS 6 ≠ 0) ∧
    (let s := framed [frameOf 2 0]; s.shf.namedFrame (.index 0) = some 0 ∧ hasLane (frameOf 2 0).mask (laneOf (s.shf.readS 4).toNat) = false) :=
  ⟨by decide, ⟨(like_framed _).sheaf _ _ _, by decide, rfl, by decide, by decide, by decide, (like_framed _).sheaf _ _ _, (like_framed _).sheaf _ _ _, by decide, by decide, by decide⟩,
    by decide⟩

/-- The demo with s10, s11, s12 = an address, 256 and a pattern: the record of an XFILL in order. -/
def fillState : State := { demo with sheafs := [(1, { demoSheaf with sregs := (demoSheaf.sregs.set 11 256).set 12 7 })] }
def fillOp : Instr := .xfill ⟨al, 20, 10⟩
def madeOf : Made → Option (Nat ⊕ CmdBody)
  | .refuse c => some (.inl c)
  | .body b => some (.inr b)
  | _ => none
theorem of_refuse {m : Made} {c : Nat} (h : madeOf m = some (.inl c)) : m = .refuse c := by cases m <;> simp_all [madeOf]
theorem of_body {m : Made} {b : CmdBody} (h : madeOf m = some (.inr b)) : m = .body b := by cases m <;> simp_all [madeOf]
theorem like_fill : Like fillState := ⟨rfl, rfl, rfl, rfl, rfl, rfl, rfl⟩
theorem witness_EngineCommandsAreQueued : (∃ d, engineOf fillOp = some d ∧ SheafClear fillState d.g d.record (d.status.toList ++ d.promise.toList) none ∧
      d.make fillState fillState.shf = .body (.xfill 0x10000 256 7)) ∧ fillState.FirstTry ∧ fillState.unfenced ∧ fillState.shf.ops.length < 64 ∧
    (∃ st, fillState.seat? fillState.shf.core fillState.shf.seat = some st ∧ st.cq.length < 64) ∧ fillState.shf.writesDue fillState.shf.issuing = false ∧
    (let c0 := fillState.newCmd fillState.shf fillState.nextId (.xfill 0x10000 256 7) (some 21) (some 20);
      (fillState.destLines c0).2 = [] ∧ ∀ e ∈ (fillState.destLines c0).1, fillState.chargePool e.2 = none) ∧
    (∃ d, engineOf fillOp = some d ∧ d.make (demoS 1) (demoS 1).shf = .refuse 0x03) :=
  ⟨⟨_, rfl, like_fill.sheaf _ _ _, of_body (by decide)⟩, ⟨none, rfl⟩, like_fill.unfenced, by decide, ⟨_, rfl, by decide⟩, by decide, by decide, ⟨_, rfl, of_refuse (by decide)⟩⟩
/-- Records of MMA and MMALOOP refused with 2, 3 and 4 and in order; rows out of line and in order; copies of each outcome. -/
theorem witness_EngineCommandsAreQueued_records : (let r := fun (s : State) i => (s.shf.recWord 20 i).toNat;
      r demo 4 ≠ 0 ∧ r (demoS 0) 4 = 0 ∧ r (demoS 0) 5 = 0 ∧ r (demoS 0) 8 = 0 ∧ r (demoS 0) 0 % fmtBlock .bf16 = 0 ∧
      ((demoS 0).headerOf (demoS 0).shf).all (fun h => !(CmdBody.mma 0 .bf16 .bf16 true 0 0 0 0 0 0 1 []).windowBad h)) ∧
    (let s : State := { demo with sheafs := [(1, { demoSheaf with sregs := ((Vector.replicate 64 (3 : Word)).set 24 0).set 25 0 })] };
      (s.shf.recWord 20 4).toNat = 0 ∧ (s.shf.recWord 20 5).toNat = 0 ∧ (s.shf.recWord 20 0).toNat % fmtBlock .bf16 ≠ 0) ∧
    (demo.shf.recWord 20 0).toNat % rowSize .bf16 = 0 ∧ ((demoS 3).shf.recWord 20 0).toNat % rowSize .bf16 ≠ 0 ∧
    (let r := fun i => ((demoS 8).shf.recWord 20 i).toNat; 4 ≤ r 4 ∧ r 4 ≤ 65536 ∧ 1 ≤ r 5 ∧ r 5 ≤ 65535 ∧ ∀ k ∈ [0, 1, 2, 3, 4], r k % 4 = 0) ∧
    (let r := fun i => ((demoS 5).shf.recWord 20 i).toNat; 4 ≤ r 4 ∧ r 4 ≤ 65536 ∧ 1 ≤ r 5 ∧ r 5 ≤ 65535 ∧ ¬ ∀ k ∈ [0, 1, 2, 3, 4], r k % 4 = 0) ∧
    ¬ 4 ≤ ((demoS 3).shf.recWord 20 4).toNat := by decide
theorem demo_seat : demo.seat? demo.shf.core demo.shf.seat = some ⟨3, [], [], [], [], 0, 0⟩ := rfl
def badTile : State := { demoV with seats := [(0, ⟨3, [], [(5, { Tile.zero with bad := List.range 32 })], [], [], 0x10000, 0⟩)] }
theorem witness_TilesReadAndWritten : MemClear demo ⟨al, [], [], [], regRange 8 8, none⟩ (fun _ => 0) 1 ∧ (∀ c ∈ (⟨3, [], [], [], [], 0, 0⟩ : Seat).mq, c.body.tile? ≠ some 5) ∧
    (∀ l : Fin 32, ∀ k < 8, 32 * k + l.val ∉ ((⟨3, [], [], [], [], 0, 0⟩ : Seat).tile 5).bad) ∧ MemClear demo ⟨al, [vop (v 8) 8 0], [], [], [], none⟩ (fun _ => 0) 1 ∧
    MemClear badTile ⟨al, [], [], [], regRange 8 8, none⟩ (fun _ => 0) 1 ∧
    (∀ l : Fin 32, 32 * 0 + l.val ∈ ({ Tile.zero with bad := List.range 32 } : Tile).bad) ∧ badTile.CanTrap :=
  ⟨demo_mem _ _ _ rfl fun _ => rfl, by decide, fun _ _ _ => by simp [Seat.tile, aget, Tile.zero], demo_mem _ _ _ rfl fun _ => rfl,
    Like.mem ⟨rfl, rfl, rfl, rfl, rfl, rfl, rfl⟩ _ _ _ ⟨none, rfl⟩ (by decide) rfl fun _ => rfl, by decide, by unfold State.CanTrap; decide⟩
/-- A command of a body in the demo's seat. -/
def cmdOf (b : CmdBody) (started : Bool) : Cmd := { stoppedCmd with body := b, started := started, stopped := false, status := some 21, promise := some 20 }
def queued (c : Cmd) : State := { demo with seats := [(0, ⟨3, [], [], [c], [], 0, 0⟩)] }
def copying (c : Cmd) : State := { demo with seats := [(0, ⟨3, [], [], [], [c], 0, 0⟩)] }
theorem queued_in (c : Cmd) : InQueue (queued c) 0 0 ⟨3, [], [], [c], [], 0, 0⟩ c := by
  have h : (queued c).hub = [] := rfl
  have hs : (queued c).seats = [(0, ⟨3, [], [], [c], [], 0, 0⟩)] := rfl
  exact ⟨rfl, by simp [State.seatOf, hs, State.seatKey], by simp [State.cmd?, State.seatOf, h, hs], by simp [h]⟩
theorem copying_in (c : Cmd) : InQueue (copying c) 0 0 ⟨3, [], [], [], [c], 0, 0⟩ c := by
  have h : (copying c).hub = [] := rfl
  have hs : (copying c).seats = [(0, ⟨3, [], [], [], [c], 0, 0⟩)] := rfl
  exact ⟨rfl, by simp [State.seatOf, hs, State.seatKey], by simp [State.cmd?, State.seatOf, h, hs], by simp [h]⟩
def goOf : UnitEnd → Option (List (List Byte) × List Piece)
  | .go _ d p => some (d, p)
  | _ => none
theorem of_goOf {u : UnitEnd} {d : List (List Byte)} {p : List Piece} (h : goOf u = some (d, p)) : ∃ s, u = .go s d p := by
  cases u <;> simp_all [goOf]
theorem of_goes {u : UnitEnd} (h : (goOf u).isSome = true) : ∃ s d p, u = .go s d p := by cases u <;> simp_all [goOf]
def aStep : CmdBody := .mma 5 .int8 .int8 false 0x10000 64 0x10400 64 0 0 2 []
def aRow : CmdBody := .accst 5 .w32 0x10000 64
def aLoad : CmdBody := .accldm 5 .w32 true 0x10000 64
def aFill : CmdBody := .xfill 0x10000 512 7
theorem queued_moves (b : CmdBody) (h : b ∈ [.accz 5 true, aStep, aRow, aLoad]) : Moves (queued (cmdOf b true)) 0 0 (cmdOf b true) where
  here := by revert b; decide
  ends := by revert b; decide
  free := ⟨rfl, rfl, rfl, rfl, rfl⟩
/-- Commands at the head of the matrix queue, not started and started, whose units may go. -/
theorem witness_EngineEvents : Moves (queued (cmdOf aStep true)) 0 0 (cmdOf aStep true) ∧
    (queued (cmdOf aStep false)).accFirst 0 0 7 = false ∧ aStep.typeBad Tile.zero = false ∧
    (CmdBody.mma 5 .bf16 .bf16 false 0 0 0 0 0 0 1 []).typeBad { Tile.zero with int32 := true } = true ∧
    (∃ s d p, (queued (cmdOf aStep true)).unitRead (cmdOf aStep true) = .go s d p) ∧ (∀ q < 4, q ≠ 0 → (queued (cmdOf aStep true)).seat? 0 q = none) ∧
    (∃ s d p, (queued (cmdOf aLoad true)).unitRead (cmdOf aLoad true) = .go s d p) ∧
    (∃ s d, (queued (cmdOf aRow true)).unitRead (cmdOf aRow true) = .go s d [⟨0x10000, 64, .mem (.dev 0x10000)⟩]) ∧ rowSize .w32 = 64 :=
  ⟨queued_moves _ (by decide), by decide, by decide, by decide, of_goes (by decide), by decide, of_goes (by decide), (of_goOf (d := []) (by decide)).imp fun _ h => ⟨_, h⟩, rfl⟩
theorem demo_plain (s : State) (a n : Nat) (h : s.Canonical) (hh : s.homes = []) (ha : s.allows = []) : Plain s a n where
  canonical := h
  poison := by
    have : s.homes = [] := hh
    simp only [State.home, this, aget, HomeLine.none]
    split <;> rfl
  counters := by simp [ha]
theorem copying_canonical (c : Cmd) : (copying c).Canonical := demo_canonical
def filling : Cmd := cmdOf aFill true
theorem witness_EngineEvents_copy : Moves (copying filling) 0 0 filling ∧ (⟨3, [], [], [], [filling], 0, 0⟩ : Seat).copyBlocked filling = false ∧
    (∃ s, ((copying filling).modCmd 7 fun d => { d with started := true }).unitRead filling = .go s [] [⟨0x10000, 256, .mem (.dev 0x10000)⟩]) ∧
    filling.units < filling.body.count ∧ (filling.body.unitBytes [] 256).length = 256 ∧ Plain (copying filling) 0x10000 256 ∧
    (let c : Cmd := { filling with wrote := true }; Moves (copying c) 0 0 { c with wrote := false } ∧ c.peersDue = 0 ∧ (⟨3, [], [], [], [c], 0, 0⟩ : Seat).copyBlocked c = false ∧
      c.units + 1 < c.body.count ∧ ({ c with units := 1 } : Cmd).body.count ≤ 1 + 1) ∧
    (∃ sh, filling.promise = some 20 ∧ (copying filling).sheaf? filling.sheaf = some sh ∧ frostedCore (copying filling) 0 = false ∧ (copying filling).mayEnd filling = true) :=
  ⟨⟨by decide, by decide, by decide⟩, by decide, of_goOf (by decide), by decide, by decide, demo_plain _ _ _ demo_canonical rfl rfl,
    ⟨⟨by decide, by decide, by decide⟩, rfl, by decide, by decide, by decide⟩, ⟨_, rfl, rfl, by decide, by decide⟩⟩
/-- Loads on their way: translated, at their home, answered. -/
def loading : State := withOp (.load 5 .w32 false false)
theorem witness_LoadsAreAnswered : let o := opRec (.load 5 .w32 false false)
    (∃ sh, loading.sheaf? 1 = some sh ∧ frostedCore loading sh.core = false ∧ loading.isLifted sh = false ∧ aget sh.ops 9 = some o) ∧ o.gone = 0 ∧
    loading.watches = [] ∧ loading.metered (loading.budgetKey demoSheaf) = false ∧ loading.missEntries 0 + 32 ≤ 256 ∧ isLdb o.kind = false ∧
    (∀ l : Fin 32, atOf (loading.check 0 0 (some demoLaunch.hdr) o.addrs[l] .load) = some (.dev (0x10000 + 4 * l.val), demoPte, 0x4008) ∧
      loading.mustFollow 0 (lineOf (.dev (0x10000 + 4 * l.val))) = false) ∧ loading.cluster = [] :=
  ⟨⟨_, rfl, rfl, rfl, rfl⟩, rfl, rfl, rfl, by decide, rfl, by decide, rfl⟩
/-- The line of every lane is in the cluster's copy alone; or an earlier request for its sectors, alone in its line, is on its way. -/
def aCopy : Copy := ⟨List.replicate 256 7, 15, 100, 0, 0⟩
def aRead : HomeReq := ⟨0, .dev 0x10000, false, none, 15, [⟨1, 9, [(0, 0)], 0⟩]⟩
theorem witness_LoadsAreAnswered_others : let s : State := { loading with cluster := [((0, .dev 0x10000), aCopy)] }; let r : State := { loading with events := [.homeRead aRead] }
    let need := (List.finRange 32).foldl (fun m l => m ||| sectorMask (locOff (.dev (0x10000 + 4 * l.val))) 4) 0#4
    s.mustFollow 0 (.dev 0x10000) = false ∧ s.l1 = [] ∧ aCopy.serves s.bell (maxWord ((List.finRange 32).map fun l => demoSheaf.fib l 0 (·.floor))) need = true ∧
    r.events = [.homeRead aRead] ∧ need &&& ~~~aRead.mask = 0 := by decide
theorem witness_LoadsAreAnswered_home : let line := lineOf (.dev 0x10000)
    loading.portFails line = false ∧ loading.portHolds line = false ∧ loading.engineHolds line none = false ∧ (loading.home line).poison = false ∧
    (loading.home line).cluster = none ∧ Reaches loading 1 { demoSheaf with hold := Hold.none, ops := [(9, opRec (.load 5 .w32 false false))] } ∧
    Reaches (withOp (.sload 5)) 1 { demoSheaf with hold := Hold.none, ops := [(9, opRec (.sload 5))] } :=
  ⟨rfl, rfl, rfl, rfl, rfl, withOp_reaches _, withOp_reaches _⟩
/-- A write that reaches its home; a charged first write of a KIND 1 line in a pool; its writeback. -/
def kindOne (d : Option Nat) : State := { demo with
  frames := aset demo.frames 1 ⟨0, 1, some (0, 5), false⟩, pools := [(5, thePool)]
  homes := [(.dev 0x10000, { HomeLine.none with dirty := d })] }
theorem witness_WritesReachTheirHomes : (lineOf (.dev 0x10000)) = .dev 0x10000 ∧ demo.portFails (.dev 0x10000) = false ∧ demo.writeWaits (.dev 0x10000) = false ∧
    demo.splitOn (.dev 0x10000) none = false ∧ Plain demo 0x10000 256 ∧ thePool.queue = [] ∧ (kindOne none).portFails (.dev 0x10000) = false ∧ (kindOne none).writeWaits (.dev 0x10000) = false ∧
    (kindOne none).kindOf (.dev 0x10000) ≠ 0 ∧ (kindOne none).poolOf (.dev 0x10000) = some 5 ∧
    (kindOne none).pool? 5 = some thePool ∧ ((kindOne none).home (.dev 0x10000)).dirty = none ∧ thePool.reserve + 4 < 2 ^ 64 ∧
    (kindOne none).committedOf (.dev 0x10000) ≤ 4 ∧ ((kindOne (some 4)).home (.dev 0x10000)).dirty = some 4 ∧ (kindOne (some 4)).engineHolds (.dev 0x10000) none = false ∧
    (kindOne (some 4)).portHolds (.dev 0x10000) = false ∧ (kindOne (some 4)).atomsDue (.dev 0x10000) = false ∧ (kindOne (some 4)).used0 + 8 ≤ lpddr6Sectors ∧
    blockSectors ((kindOne (some 4)).kindOf (.dev 0x10000)) ((kindOne (some 4)).homeBytes (.dev 0x10000) 256) ≤ 4 :=
  ⟨by decide, rfl, by decide, by decide, demo_plain _ _ _ demo_canonical rfl rfl, rfl, rfl, by decide, by decide, by decide, rfl, rfl, by decide, by decide, rfl, by decide,
    by decide, by decide, by decide, by decide⟩
/-- A writeback that finds no free sector; an atomic to a line of its home, and one of cluster scope to a line its cluster owns. -/
def fullHome : State := { kindOne (some 4) with used0 := lpddr6Sectors, mem := [(0x10000, 0x123456789ABCDEF)].foldl (fun m e => putSlot m e.1 e.2) demo.mem }
def anAtom (sc : Scope) : AtomMsg := ⟨1, 9, 0, .dev 0x10000, false, .rmw .add, sc, true, [(0, 1, 0)], false, false, 0, none⟩
def ownedLine : State := { demo with homes := [(.dev 0x10000, { HomeLine.none with cluster := some (0, 5) })] }
theorem witness_WritesReachTheirHomes_full : (fullHome.home (.dev 0x10000)).committed < blockSectors (fullHome.kindOf (.dev 0x10000)) (fullHome.homeBytes (.dev 0x10000) 256) ∧
    (fullHome.frameOf (.dev 0x10000)).all (fun f => f.tier = 0) = true := by decide
theorem witness_WritesReachTheirHomes_atomic : (∀ s ∈ [demo, ownedLine], ∀ sc ∈ [Scope.dev, .clu], s.portFails (.dev 0x10000) = false ∧ s.writeWaits (.dev 0x10000) = false ∧
      s.splitBars (anAtom sc) = false ∧ s.maySplit (anAtom sc) = false ∧ (anAtom sc).read = none ∧ (anAtom sc).merge = false) ∧
    Plain demo 0x10000 4 ∧ demo.owns (.dev 0x10000) 0 = false ∧ atCluster (anAtom .clu) = true ∧ atCluster (anAtom .dev) = false ∧ ownedLine.owns (.dev 0x10000) 0 = true :=
  ⟨by decide, demo_plain _ _ _ demo_canonical rfl rfl, by decide, by decide, by decide, by decide⟩
/-- A line whose record a host lease or an allowance needs. -/
theorem witness_WritesReachTheirHomes_evicted : demo.allowanceIn (.dev 0x10000) = false ∧ demo.hostLease (.dev 0x10000) HomeLine.none = false ∧
    ({ demo with allows := [((0, 0x10000), ⟨3, 3, 1, 5⟩)] } : State).allowanceIn (.dev 0x10000) = true ∧
    demo.hostLease (.host 0) { HomeLine.none with leasemax := 9 } = true := by decide
theorem witness_WritesReachTheirHomes_answers : demo.bed? demoSheaf.bed = some placedBed ∧ Reaches (withOp .store) 1 { demoSheaf with hold := Hold.none, ops := [(9, opRec .store)] } ∧
    Reaches (withOp (.atomic (some 5) true)) 1 { demoSheaf with hold := Hold.none, ops := [(9, opRec (.atomic (some 5) true))] } ∧ 0x10000 % 8 = 0 ∧
    aget (kindOne none).homes (.dev 0x10000) = some { HomeLine.none with dirty := none } :=
  ⟨rfl, withOp_reaches _, withOp_reaches _, rfl, rfl⟩

/-! Translations, the host and the peers. -/
theorem witness_TranslationsChange : aget demo.spaces 0 = some ⟨0, 0, none⟩ ∧ demo.holding = [] ∧ demo.restingFor (decodePte 0) = false ∧ demo.moves = [] ∧
    (demo.mapFrames 0 (decodePte (encodePte { demoPte with frame := 9 }))).isNone = true ∧ demo.newFrames 0 (decodePte 0) = [] ∧ 0x4008 % 8 = 0 ∧
    Plain demo 0x4008 8 :=
  ⟨rfl, rfl, rfl, rfl, by decide, by decide, rfl, demo_plain _ _ _ demo_canonical rfl rfl⟩
def theUpdate : UpdateReq := ⟨0, 0x4008, 0, 0x10000, 65536⟩
def updating (ops : List (Nat × OpRec)) : State := { held Hold.none ops with holding := [(theUpdate, encodePte demoPte)], bell := 5 }
def waitingWalk (b : Word) : State := { demo with walkWaits := [⟨0, 0x20000, 0, false, []⟩], bell := b }
theorem witness_TranslationsChange_update : (updating []).holding.find? (fun x => decide (x.1 = theUpdate)) = some (theUpdate, encodePte demoPte) ∧
    (updating []).updateBusy theUpdate (encodePte demoPte) = false ∧ (updating [(9, { opRec .store with sent := BitVec.allOnes 32 })]).updateBusy theUpdate (encodePte demoPte) = true ∧
    (waitingWalk 9999999).walkWaits = [⟨0, 0x20000, 0, false, []⟩] ∧ pieceOf 0x20008 = 0x20000 ∧ (waitingWalk 9999999).bell.toNat < (0 : Word).toNat + 10000000 ∧
    (0 : Word).toNat + 10000000 ≤ (waitingWalk 10000000).bell.toNat := by decide
def anAts (marked : Bool) (stale : Nat) : State := { demo with atsReqs := [⟨0, 0, none, 5, marked, stale, [((1, some 9), true)]⟩] }
def aPage : PageReq := ⟨0, none, 5, true, 3, none, false, [(1, some 9)], [0], false, 2⟩
def paged (b : Word) : State := { demo with pageReqs := [aPage], bell := b, priTimeout := 10 }
theorem witness_TranslationsChange_host : (anAts false 0).atsReqs = [⟨0, 0, none, 5, false, 0, [((1, some 9), true)]⟩] ∧ (anAts false 0).pageReqs = [] ∧
    (anAts false 0).priOff = [] ∧ (anAts true 0).atsReqs = [⟨0, 0, none, 5, true, 0, [((1, some 9), true)]⟩] ∧
    (anAts false 1).atsReqs = [⟨0, 0, none, 5, false, 1, [((1, some 9), true)]⟩] ∧ (paged 12).pageReqs = [aPage] ∧ 0 ∉ (paged 12).priOff ∧ (paged 12).atsReqs = [] ∧
    (paged 12).bell.toNat < aPage.sent.toNat + (paged 12).priTimeout ∧ aPage.sent.toNat + (paged 13).priTimeout ≤ (paged 13).bell.toNat ∧
    (let s : State := { demo with invalidates := [(⟨0, none, 5, 1⟩, [7])] }; s.hostBusy ⟨0, none, 5, 1⟩ [7] = false ∧ s.hostLeased [7] = false) ∧
    (let s : State := { demo with invalidates := [(⟨0, none, 5, 1⟩, [7])], homes := [(lineOf (.host 0x7000), { HomeLine.none with leasemax := 9 })] };
      s.hostBusy ⟨0, none, 5, 1⟩ [7] = true ∨ s.hostLeased [7] = true) := by decide
theorem witness_HostAndPeerAccesses : demo.engineHolds (lineOf (.host 0)) none = false ∧ (demo.home (lineOf (.host 0))).leasemax.toNat ≤ demo.bell.toNat ∧
    Memory.wf demo.hostMem = true ∧ (let s : State := { demo with homes := [(.host 0, { HomeLine.none with leasemax := 9 })] };
      s.bell.toNat < (s.home (lineOf (.host 0))).leasemax.toNat) ∧
    (∀ l ∈ devLines 0x100FE 4, demo.portFails l = false ∧ (demo.home l).poison = false ∧ demo.engineHolds l none = false ∧ demo.portHolds l = false) ∧
    (let s : State := { demo with apertures := [⟨2, 1, 1, true⟩] }; s.admits ⟨2, 0x10000, .read 8⟩ = true ∧ s.admits ⟨2, 0x10000, .write [(0, 7)]⟩ = true) ∧
    demo.admits ⟨2, 0x10000, .read 8⟩ = false ∧ demo.inbound = [] ∧ (∀ x ∈ [(0, (7 : Byte)), (1, 8)], 0x10000 % 256 + x.1 < 256) ∧
    demo.chargePool (lineOf (.dev 0x10000)) = none ∧ demo.splitOn (lineOf (.dev 0x10000)) none = false ∧ demo.portFails (lineOf (.dev 0x10000)) = false ∧ demo.writeWaits (lineOf (.dev 0x10000)) = false := by decide
theorem witness_HostAndPeerAccesses_plain : Plain demo (0x10000 / 256 * 256) 256 := demo_plain _ _ _ demo_canonical rfl rfl
/-- A write from outside that waits for its time, and one whose time has come. -/
theorem witness_HostAndPeerAccesses_waits : let s : State := { demo with inbound := [⟨8, .host ⟨0, 0x10000, [7]⟩, [], false, none, [], some 5, [], 0⟩] }
    s.bell.toNat < (5 : Word).toNat ∧ (5 : Word).toNat ≤ ({ s with bell := 5 } : State).bell.toNat := by decide
def asking (w : PeerWait) : State := { withOp (.load 5 .w32 false false) with peers := [(8, ⟨2, 0x10000, .read 256, 0x10000, 0, w⟩)] }
theorem witness_HostAndPeerAccesses_answers : ∀ w ∈ [PeerWait.load 1 9 1 (.peer 2 0x10000), .write 1 9 1, .atomic 1 9 [0] true, .atomic 1 9 [0] false, .fetch 0 (.peer 2 0x10000), .hub 8 0 (.peer 2 0x10000)],
    aget (asking w).peers 8 = some ⟨2, 0x10000, .read 256, 0x10000, 0, w⟩ ∧ (∃ sh, (asking w).sheaf? 1 = some sh ∧ aget sh.ops 9 = some (opRec (.load 5 .w32 false false))) ∧
    (asking w).bell.toNat < 0 + 10000000 ∧ 0 + 10000000 ≤ ({ asking w with bell := 10000000 } : State).bell.toNat ∧ (1 : Mask) &&& (opRec (.load 5 .w32 false false)).due ≠ 0 := by
  intro w _
  exact ⟨rfl, ⟨_, rfl, rfl⟩, (by decide : (0 : Word).toNat < 0 + 10000000),
    (by decide : 0 + 10000000 ≤ (10000000 : Word).toNat), (by decide : (1 : Mask) &&& BitVec.allOnes 32 ≠ 0)⟩
theorem witness_HostAndPeerAccesses_ports : 3 ∉ demo.dev.cxlFailed ∧ (∀ e ∈ demo.dev.cxlDown, e.1 ≠ 3) ∧ (∀ e ∈ demo.dev.ralecDown, e.1 ≠ 3) ∧
    (let s : State := { demo with dev := { demo.dev with cxlDown := [(3, 0)] }, bell := 9999999 }; s.dev.cxlDown = [(3, 0)] ∧ s.bell.toNat < (0 : Word).toNat + 10000000) ∧
    (let s : State := { demo with dev := { demo.dev with cxlDown := [(3, 0)] }, bell := 10000000 }; (0 : Word).toNat + 10000000 ≤ s.bell.toNat) ∧
    (let s : State := { asking (.write 1 9 1) with peerHeld := [8], dev := { demo.dev with ralecDown := [(2, 0)] } }; 8 ∈ s.peerHeld ∧ (aget s.peers 8).map (·.peer) = some 2) := by decide

def coded : State := { demo with seats := [(0, ⟨3, [0, 0, 0, 0, 0, 0x00000A0608008000, 0x10000809FFFFFA00, 0x00000E0E08000700], [], [], [], 0, 0⟩)] }
/-- The batch of lane 0 waits while the other lanes are ready; fibres nap until 5, or wait at DWAIT. -/
def asideState (b : Word) : State := { demo with bell := b, sheafs := [(1, { demoSheaf with batch := 1, hold := { Hold.none with waiting := true, reason := 1 } })] }
def parked (p : Park) : State := { demo with bell := 5, sheafs := [(1, { demoSheaf with batch := 0
                                                                                        lanes := lanesOf fun _ => .held { newFibre 0 placedLaunch placedEntry 0 with status := .waiting, park := p } })] }
theorem witness_CodesWaitsAndDeferredFaults : slotCheck 0xF00001C201800140 2 = none ∧ (∃ st, coded.seat? coded.shf.core coded.shf.seat = some st ∧
      decodeCode st.dict (dictCode 0xF00001C201800140 2) = .ok (.iadd ⟨⟨0, 2⟩, 7, v 7, .sheaf 4, none⟩)) ∧
    aget demoSheaf.rows 7 = some (rowOf fun l => 4 * BitVec.ofNat 32 l.val) ∧ demo.rowsUsed 0 + 1 ≤ physicalRows :=
  ⟨by decide, ⟨_, rfl, by decide⟩, rfl, by decide⟩
theorem witness_CodesWaitsAndDeferredFaults_aside : (∀ b ∈ [75, 76], let s := asideState (BitVec.ofNat 64 b); s.asleep s.shf = false ∧ s.isLifted s.shf = false ∧ s.shf.hold.waiting = true ∧ s.shf.hold.reason = 1 ∧ s.shf.issuing ≠ 0 ∧
      s.shf.readyLanes &&& ~~~s.shf.batch ≠ 0 ∧ ∀ l, hasLane s.shf.issuing l = true → s.shf.stands l = some (.ready, .none)) ∧
    (75 - 0) * 85 < 6400 ∧ 6400 ≤ (76 - 0) * 85 := by decide
theorem witness_CodesWaitsAndDeferredFaults_parked : (∀ l, ((parked (.nap 5)).shf.stands l).map (·.2) = some (.nap 5)) ∧
    (∀ l, ((parked .dwait).shf.stands l).map (·.2) = some .dwait) ∧ ∀ g, (parked .dwait).windowDone demoLaunch g = true :=
  ⟨by decide, by decide, fun _ => rfl⟩
def faulted : State := { withOp (.load 5 .w32 false false) with seats := [(0, ⟨3, [], [], [], [], 0x10000, 0⟩)] }
def escalatedBed (st : BedStatus) : Bed := { placedBed with escalated := true, status := st }
theorem witness_CodesWaitsAndDeferredFaults_fault : (let sh := { demoSheaf with hold := Hold.none, ops := [(9, opRec (.load 5 .w32 false false))] }
    Reaches faulted 1 sh ∧ aget sh.ops 9 = some (opRec (.load 5 .w32 false false)) ∧ (BitVec.allOnes 32 : Mask) &&& ~~~sh.held = 0 ∧ sh.escalated = [] ∧ sh.midway = 0 ∧
      faulted.bed? sh.bed = some placedBed ∧ placedBed.status = .resident ∧ faulted.launch? sh.launch = some demoLaunch ∧ demoLaunch.rsmp = none ∧
      (∀ l, sh.stands l = some (.ready, .none) ∧ sh.actedPc l = none) ∧ sh.frames.length < 4 ∧ faulted.hvec sh ≠ 0 ∧ (faulted.hvec sh).toNat % 8 = 0) ∧
    (∀ st ∈ [BedStatus.resident, .lifted], let s : State := { demo with beds := [(2, escalatedBed st)] }; s.bed? 2 = some (escalatedBed st) ∧
      (escalatedBed st).launch = 3 ∧ s.launch? 3 = some demoLaunch ∧ demoLaunch.completed = false ∧ demoSheaf.frames.length < 4) ∧
    (let e : Escalation := ⟨frameOf 1 0, []⟩; let s : State := { demo with beds := [(2, escalatedBed .lifted)], sheafs := [(1, { demoSheaf with escalated := [e], frames := List.replicate 4 (frameOf 0 0) })] };
      ∃ u ∈ (escalatedBed .lifted).sheafs, ∃ sh, s.sheaf? u = some sh ∧ sh.escalated ≠ [] ∧ 4 ≤ sh.frames.length) :=
  ⟨⟨⟨rfl, rfl, by decide⟩, rfl, by decide, rfl, by decide, rfl, rfl, rfl, rfl, by decide, by decide, by decide, by decide⟩,
    fun _ _ => ⟨rfl, rfl, rfl, rfl, by decide⟩, 1, by decide, _, rfl, by decide, by decide⟩

/-! The front end. -/
def theReg : RingReg := ⟨0, 0x10000, 64, 0x11000, 64, 0, 3⟩
def ringed (r : Ring) : State := { demo with rings := [(0, r)] }
def emptyRing : Ring := ⟨theReg, 0, [], false, 0, 0, []⟩
theorem demo_hub (s : State) (va : Word) (a : Nat) (h1 : atOf (s.check hubCluster 0 none va .load) = some (.dev a, demoPte, 0x4008))
    (h2 : atOf (s.check hubCluster 0 none va .store) = some (.dev a, demoPte, 0x4008)) (h3 : s.writeWaits (lineOf (.dev a)) = false)
    (h4 : (s.home (lineOf (.dev a))).poison = false) (h5 : s.portFails (lineOf (.dev a)) = false) : HubAt s 0 va a :=
  ⟨⟨_, _, of_atOf h1, rfl, rfl, rfl, rfl⟩, ⟨_, _, of_atOf h2, rfl, rfl, rfl, rfl⟩, h3, h4, h5⟩
theorem witness_RingsAndRecords : demo.dev.recovery = false ∧ canonical theReg.base = true ∧ canonical theReg.cqBase = true ∧ theReg.entries = 2 ^ 6 ∧
    aget demo.spaces theReg.asn = some ⟨0, 0, none⟩ ∧ demo.ring? (0 * 16 + 0) = none ∧ (ringed emptyRing).ring? 0 = some emptyRing ∧
    ((65 : Word).toNat + 2 ^ 32 - 0) % 2 ^ 32 = 65 ∧ theReg.entries < 65 ∧ ((1 : Word).toNat + 2 ^ 32 - 0) % 2 ^ 32 = 1 ∧
    (theReg.base + BitVec.ofNat 64 (64 * (0 % 64))).toNat % 64 = 0 := by decide
theorem witness_RingsAndRecords_command : HubAt (ringed emptyRing) 0 (theReg.base + BitVec.ofNat 64 (64 * (0 % 64))) 0x10000 :=
  demo_hub _ _ _ (by decide) (by decide) (by decide) rfl rfl
/-- A record of a command whose writes end at 4, with a writer: it finds room in its queue, or none. -/
def holding (tail : Nat) : Ring := { emptyRing with held := [⟨1, 2, true, 4, [1]⟩], cqTail := tail }
theorem witness_RingsAndRecords_record : (holding 63).held = [⟨1, 2, true, 4, [1]⟩] ∧ (ringed (holding 63)).bell.toNat < (4 : Word).toNat ∧ (ringed (holding 63)).writing 1 = false ∧
    ({ ringed (holding 63) with events := [.homeWrite ⟨.fibres 1 9 1 0, .dev 0x10000, [(0, 7)], false, false⟩] } : State).writing 1 = true ∧ (63 + 2 ^ 32 - 0 % 2 ^ 32) % 2 ^ 32 < theReg.cqEntries ∧
    theReg.cqEntries ≤ (64 + 2 ^ 32 - 0 % 2 ^ 32) % 2 ^ 32 ∧ HubAt (ringed (holding 63)) 0 (theReg.cqBase + BitVec.ofNat 64 (16 * (63 % 64))) 0x113F0 ∧
    (theReg.cqBase + BitVec.ofNat 64 (16 * (63 % 64))).toNat % 16 = 0 ∧ Plain (ringed (holding 63)) 0x113F0 16 :=
  ⟨rfl, by decide, by decide, by decide, by decide, by decide, demo_hub _ _ _ (by decide) (by decide) (by decide) rfl rfl, by decide, demo_plain _ _ _ demo_canonical rfl rfl⟩
/-- A command of some words, pending alone. -/
def pend (ws : List Word) (started : Bool) (cmd : Nat) : PendingCmd := ⟨0, ws, started, cmd⟩
def commanded (ws : List Word) (started : Bool := false) (cmd : Nat := 0) : State := ringed { emptyRing with readCount := 1, pending := [pend ws started cmd] }
theorem commanded_ready (ws : List Word) (b : Bool) (k : Nat) : CommandReady (commanded ws b k) ⟨0, 0, ws⟩ { emptyRing with readCount := 1, pending := [pend ws b k] } (pend ws b k) :=
  ⟨rfl, rfl, rfl, ⟨rfl, rfl⟩, rfl⟩
def launchWords : List Word := [0x500000201, 0x10080, 7, 0, 0, 0, 0, 0]
def dmaWords : List Word := [2, 0x10000, 0x11000, 0x100, 0, 0, 0, 0]
def signalWords : List Word := [3, 0x10100, 9, 0, 0, 0, 0, 0]
def configWords : List Word := [4, 6, 100, 0x10180, 200, 5, 0, 0]
def raiseWords : List Word := [4, 0x105, 10, 0, 0, 0, 0, 0]
def lowerWords (n : Word) : List Word := [4, 0x205, n, 0, 0, 0, 0, 0]
def balloonWords : List Word := [4, 0x305, 0, 0, 0, 0, 0, 0]
theorem commanded_space (ws : List Word) (b : Bool) (k i : Nat) (h : ws.getD i 0 = 0) :
    spaceOk (commanded ws b k) ⟨0, 0, ws⟩ { emptyRing with readCount := 1, pending := [pend ws b k] } i :=
  ⟨⟨0, 0, none⟩, by rw [show (Command.mk 0 0 ws).words = ws from rfl, h]; rfl, rfl⟩
theorem witness_RingCommands : firstBad [0, 0, 0, 0, 0, 0, 0, 0] = some 0 ∧ firstBad launchWords = none ∧ firstBad dmaWords = none ∧ firstBad signalWords = none ∧
    firstBad configWords = none ∧ firstBad raiseWords = none ∧ firstBad (lowerWords 50) = none ∧ firstBad balloonWords = none := by decide
/-- The header at 0x10080 in order, and one of zeros. -/
def headed : State := { commanded launchWords with mem := [(0x10080, 0x10000), (0x10088, 0x104000000140B), (0x10098, 0x7FF00000)].foldl (fun m e => putSlot m e.1 e.2) demo.mem }
theorem witness_RingCommands_launch : HubAt headed 0 0x10080 0x10080 ∧ (let hw := wordsOf 16 (Memory.bytes headed.mem 0x10080 128); let h := readHeader hw;
    headerReserved hw = true ∧ h.ok = true ∧ h.dictn = 0 ∧ h.ovfsize = 0 ∧ h.hasdep = false) ∧ (headed.entriesOf 0).length < 4096 ∧ headed.launches.length < 2 ^ 31 ∧
    HubAt (commanded launchWords) 0 0x10080 0x10080 ∧ (readHeader (wordsOf 16 (Memory.bytes (commanded launchWords).mem 0x10080 128))).ok = false ∧
    spaceOk (commanded launchWords) ⟨0, 0, launchWords⟩ { emptyRing with readCount := 1, pending := [pend launchWords false 0] } 3 :=
  ⟨demo_hub _ _ _ (by decide) (by decide) (by decide) rfl rfl, by decide, by decide, by decide,
    demo_hub _ _ _ (by decide) (by decide) (by decide) rfl rfl, by decide, commanded_space _ _ _ _ rfl⟩
def dmaHub (f : Cmd → Cmd) : State := { commanded dmaWords true 7 with hub := [f (dmaCmd 7 0 0 0x10000 0x11000 0x100)] }
theorem witness_RingCommands_dma : spaceOk (commanded dmaWords) ⟨0, 0, dmaWords⟩ { emptyRing with readCount := 1, pending := [pend dmaWords false 0] } 4 ∧
    (∀ f ∈ [fun c : Cmd => { c with fault := some (3, 0x10000, 4, true) }, fun c => { c with started := true, units := 1 }, fun c => { c with started := true }],
      (dmaHub f).cmd? 7 = some (f (dmaCmd 7 0 0 0x10000 0x11000 0x100)) ∧ (f (dmaCmd 7 0 0 0x10000 0x11000 0x100)).id = 7) ∧
    (dmaCmd 7 0 0 0x10000 0x11000 0x100).body.count ≤ 1 ∧ (dmaCmd 7 0 0 0x10000 0x11000 0x100).tmax.toNat ≤ (dmaHub id).bell.toNat ∧
    0 < (dmaCmd 7 0 0 0x10000 0x11000 0x100).body.count ∧
    (∃ s' d, (dmaHub fun c => { c with started := true }).unitRead { dmaCmd 7 0 0 0x10000 0x11000 0x100 with started := true } = .go s' d [⟨0x11000, 256, .mem (.dev 0x11000)⟩] ∧
      ((dmaCmd 7 0 0 0x10000 0x11000 0x100).body.unitBytes d 256).length = 256) ∧ Plain (dmaHub id) 0x11000 256 := by
  refine ⟨commanded_space _ _ _ _ rfl, ?_, by decide, by decide, by decide, ?_, demo_plain _ _ _ demo_canonical rfl rfl⟩
  · intro f h; simp only [List.mem_cons, List.not_mem_nil, or_false] at h; obtain rfl | rfl | rfl := h <;> exact ⟨rfl, rfl⟩
  · obtain ⟨s', h⟩ := of_goOf (u := (dmaHub fun c => { c with started := true }).unitRead { dmaCmd 7 0 0 0x10000 0x11000 0x100 with started := true })
      (d := [List.replicate 256 0]) (p := [⟨0x11000, 256, .mem (.dev 0x11000)⟩]) (by decide +kernel)
    exact ⟨s', _, h, by decide +kernel⟩
theorem witness_RingCommands_signal : (commanded signalWords).inbound = [] ∧ (0x10100 : Word).toNat % 8 = 0 ∧ HubAt (commanded signalWords) 0 0x10100 0x10100 ∧
    Plain (commanded signalWords) 0x10100 8 ∧ (commanded signalWords).chargePool (lineOf (.dev 0x10100)) = none ∧ (commanded signalWords).splitOn (lineOf (.dev 0x10100)) none = false ∧
    spaceOk (commanded signalWords) ⟨0, 0, signalWords⟩ { emptyRing with readCount := 1, pending := [pend signalWords false 0] } 3 ∧
    (let s : State := { commanded signalWords with inbound := [⟨8, .signal 0 0, [], false, none, [], some 5, [], 0⟩] };
      s.bell.toNat < (5 : Word).toNat ∧ (5 : Word).toNat ≤ ({ s with bell := 5 } : State).bell.toNat) :=
  ⟨rfl, by decide, demo_hub _ _ _ (by decide) (by decide) (by decide) rfl rfl, demo_plain _ _ _ demo_canonical rfl rfl, by decide, by decide, commanded_space _ _ _ _ rfl, by decide, by decide⟩
def pooledCommand (ws : List Word) (p : Pool) : State := { commanded ws with pools := [(5, p)] }
theorem witness_RingCommands_pools : spaceOk (commanded configWords) ⟨0, 0, configWords⟩ { emptyRing with readCount := 1, pending := [pend configWords false 0] } 6 ∧
    HubAt (commanded configWords) 0 0x10180 0x10180 ∧ Plain (commanded configWords) 0x10180 128 ∧
    (∀ f ∈ (commanded configWords).frames, f.2.pool ≠ some (0, 6)) ∧ 100 ≤ (commanded configWords).ungranted + (((commanded configWords).pool? 6).map (·.granted)).getD 0 ∧
    (let s : State := { commanded configWords with frames := aset demo.frames 9 ⟨0, 0, some (0, 6), false⟩ }; ∃ f ∈ s.frames, f.2.pool = some (0, 6)) ∧
    (commanded configWords).ungranted + 0 < (commanded [4, 6, 0xFFFFFFFFFFFF, 0x10180, 200, 5, 0, 0]).ungranted + 1 ∧
    (commanded raiseWords).pool? (poolKey 0 5) = none ∧ (pooledCommand raiseWords thePool).pool? (poolKey 0 5) = some thePool ∧
    10 ≤ (pooledCommand raiseWords thePool).ungranted ∧ (pooledCommand raiseWords thePool).ungranted < (0xFFFFFFFFFFFF : Word).toNat ∧
    thePool.queue = [] ∧ thePool.decided = [] ∧ thePool.reserve < 51 ∧ 50 ≤ thePool.reserve ∧ thePool.ctrl % 128 = 0 ∧
    (let y : WaitCharge := ⟨.command 0 0, 0, 50, none⟩; (pooledCommand (lowerWords 50) { thePool with decided := [(y, true)] }).pool? (poolKey 0 5) = some { thePool with decided := [(y, true)] } ∧
      y.who = .command 0 0) ∧ (pooledCommand raiseWords thePool).Canonical :=
  ⟨commanded_space _ _ _ _ rfl, demo_hub _ _ _ (by decide) (by decide) (by decide) rfl rfl, demo_plain _ _ _ demo_canonical rfl rfl, by decide, by decide,
    ⟨(9, ⟨0, 0, some (0, 6), false⟩), by decide, rfl⟩, by decide, rfl, rfl, by decide, by decide, rfl, rfl, by decide, by decide, rfl, ⟨rfl, rfl⟩, demo_canonical⟩

/-! Placement, lifts and frost. -/
def spawning : State := held { Hold.none with phase := 2, waiting := true, reason := 1, ticket := 7 }
theorem spawning_there : spawning.sheaf? 1 = some { demoSheaf with hold := { Hold.none with phase := 2, waiting := true, reason := 1, ticket := 7 } } := rfl
theorem witness_PlacementAndCompletion : Reaches spawning 1 { demoSheaf with hold := { Hold.none with phase := 2, waiting := true, reason := 1, ticket := 7 } } ∧
    spawning.launch? demoSheaf.launch = some demoLaunch ∧ demoSheaf.putBy = none ∧ demoSheaf.aside = [] ∧
    (let h := demoLaunch.hdr; canonical 0x10000 = true ∧ (0x10000 : Word).toNat % 8 = 0 ∧ 1 ≤ 40 ∧ 40 ≤ 2 ^ 40 ∧ 2048 % 2 ^ h.bitsBelow h.bedlvl = 0 ∧ 2048 + 40 - 1 < 2 ^ h.widths.sum ∧
      ¬ 2047 % 2 ^ h.bitsBelow h.bedlvl = 0) ∧ (spawning.spawns.filter fun r => decide (r.die = dieOf 0) && r.arena.isNone && !r.seed).length < 4096 :=
  ⟨⟨rfl, rfl, (by decide : CoreState.idle.stopped.getLsbD 0 = false)⟩, rfl, rfl, rfl, by decide, by decide⟩
/-- The die's queue is full; nothing is under way whose undoing could change a byte. -/
theorem witness_PlacementAndCompletion_full : (({ spawning with spawns := List.replicate 4096 ⟨3, 0, none, 0x10000, 5, 2048, 40, 0, [], false⟩ } : State).spawns.filter
    fun r => decide (r.die = dieOf 0) && r.arena.isNone && !r.seed).length = 4096 ∧ demoLaunch.hdr.ovfsize = 0 ∧
    ({ Hold.none with phase := 2, waiting := true, reason := 1, ticket := 7 } : Hold).ticket = 7 ∧ NoneUnderWay demo := by
  refine ⟨by simp [dieOf], rfl, rfl, ⟨by decide, fun _ h => ?_⟩⟩
  rw [(rfl : demo.events = [])] at h; cases h
/-- A record of 40 fibres in bed 1 waits, and core 0 holds the launch's seat. -/
def placing : State := { demo with spawns := [⟨3, 0, none, 0x10000, 5, 2048, 40, 0, [], false⟩]
                                   launches := [(3, { demoLaunch with hdr := { demoLaunch.hdr with scratch := 0 } })] }
theorem witness_PlacementAndCompletion_place : (placing.nextPlace 0).map (fun x => (x.1, x.2.2)) = some (3, .fresh 0 0, 0) ∧
    (placing.coreFor 3 { demoLaunch with hdr := { demoLaunch.hdr with scratch := 0 } } (.fresh 0 0)) = some 0 ∧
    placing.spawns[0]? = some ⟨3, 0, none, 0x10000, 5, 2048, 40, 0, [], false⟩ ∧ (∀ e ∈ placing.sheafs, e.1 < placing.nextId) ∧
    ∀ e ∈ placing.beds, e.1 < placing.nextId := by decide
/-- A bed that is complete once its Tw of 5 is reached, the last of its launch; the same launch ended. -/
def completing (b : Word) : State := { demo with bell := b, beds := [(2, { placedBed with status := .completing, tw := 5 })], sheafs := []
                                                 rings := [(0, { emptyRing with readCount := 1, pending := [pend launchWords true 0] })] }
theorem witness_PlacementAndCompletion_complete : let bed : Bed := { placedBed with status := .completing, tw := 5 }
    (completing 5).bed? 2 = some bed ∧ (completing 5).launch? 3 = some demoLaunch ∧ (completing 5).ring? demoLaunch.ring = some { emptyRing with readCount := 1, pending := [pend launchWords true 0] } ∧
    (pend launchWords true 0).seq = demoLaunch.seq ∧ (completing 4).bedSettled 2 bed = false ∧ (completing 5).bedSettled 2 bed = true ∧
    frostedCore (completing 5) bed.core = false ∧ demoLaunch.counter = 1 ∧ demoLaunch.completed = false := by decide
def lifted (st : BedStatus) : State := { demo with beds := [(2, { placedBed with status := st })], launches := [(3, { demoLaunch with hdr := { demoLaunch.hdr with scratch := 0 } })]}
/-- A bed to be lifted finds room where no image is kept, and none where as many are kept as the region holds; it is drained once its store is. -/
theorem witness_LiftsAndFrost : (∀ st ∈ [BedStatus.resident, .lifting, .lifted], (lifted st).bed? 2 = some { placedBed with status := st } ∧
      (∀ u ∈ placedBed.sheafs, ∀ sh ∈ (lifted st).sheaf? u, (lifted st).asleep sh = false)) ∧
    (lifted .lifting).bedDrained 2 { placedBed with status := .lifting } = true ∧
    ({ lifted .lifting with sheafs := [(1, { demoSheaf with ops := [(9, opRec .store)] })] } : State).bedDrained 2 { placedBed with status := .lifting } = false ∧
    (let s := (lifted .lifted).again (.replant 3 2); (s.nextPlace 0).map (fun x => (x.1, x.2.2)) = some (3, .replant 3 2, 0)) := by decide
theorem witness_LiftsAndFrost_room : (lifted .resident).liftRoom 0 false = true := by
  have h : (lifted .resident).imagesUsed 0 = 0 := by decide
  simp [State.liftRoom, h, Config.liftRoom]
theorem witness_LiftsAndFrost_full : ∃ s : State, s.liftRoom 0 false = false :=
  ⟨{ demo with beds := List.replicate (Config.liftRoom 0) (2, { placedBed with status := .lifted }) }, by
    have h : ∀ bs, State.launch? { demo with beds := bs } 3 = some demoLaunch := fun _ => rfl
    have h2 : demoLaunch.part = 0 := rfl
    unfold State.liftRoom State.imagesUsed
    simp [placedBed, h, h2]⟩
def anImage (sl : Option Word) : Image := ⟨0, 0, 0, sl, 0, 1024, [], 0, [], [1], false⟩
def frosted (img : Image) : State := { demo with cores := [(0, { CoreState.idle with frosted := some 1 })], images := [(1, img)] }
theorem witness_LiftsAndFrost_frost : frostedCore demo 0 = false ∧ (∀ e ∈ demo.beds, e.2.core = 0 → e.2.status ≠ .lifting) ∧
    ((frosted (anImage none)).coreState 0).frosted = some 1 ∧ aget (frosted (anImage none)).images 1 = some (anImage none) ∧
    (let s := frosted (anImage (some 3)); let img := anImage (some 3); img.sealBell ≠ none ∧ img.tampered = false ∧ img.sectionsOk = true ∧ s.mayThaw img img.core = true ∧ img.late = [] ∧
      (s.coreState img.core).notices = [] ∧ ∀ e ∈ s.beds, e.2.core = img.core → e.2.escalated = false) ∧
    ({ anImage (some 3) with sections := [] } : Image).sectionsOk = false ∧
    (frosted { anImage (some 3) with tampered := true }).seat? 0 0 = some ⟨3, [], [], [], [], 0, 0⟩ := by decide

/-! Services, resets and the debug core. -/
def atBell (b : Word) (f : Services → Services := id) : State := { demo with bell := b, dev := f demo.dev }
theorem witness_ServicesAndAttestation : demo.dev.recovery = false ∧ demo.part? 0 = some (Partition.new [0]) ∧
    (aget (atBell 99999).dev.heard 0).getD 0 + 100000 = 100000 ∧ ¬ (aget (atBell 99999).dev.heard 0).getD 0 + 100000 ≤ (atBell 99999).bell.toNat ∧
    (aget (atBell 100000).dev.heard 6).getD 0 + 100000 ≤ (atBell 100000).bell.toNat ∧ demo.dev.failed = false ∧
    (atBell 499999999).bell.toNat < (atBell 499999999).dev.serviced + 500000000 ∧ (atBell 500000000).dev.serviced + 500000000 ≤ (atBell 500000000).bell.toNat ∧
    (atBell 0 fun d => { d with recovery := true }).dev.recovery = true ∧ (atBell 0 fun d => { d with recovery := true }).dev.powered = true ∧
    aget demo.spaces 7 = none ∧ 0x10000 % 4096 = 0 ∧ aget demo.frames (0x10000 / 65536) = some ⟨0, 0, none, false⟩ ∧ canonical 0x10000 = true ∧
    demo.part? 3 = none ∧ [1, 2].Nodup ∧ (∀ c ∈ [1, 2], c < 128 ∧ ∀ e ∈ demo.parts, c ∉ e.2.clusters) ∧
    (atBell 0 fun d => { d with spdmVersion := true }).dev.spdmVersion = true ∧ (atBell 0 fun d => { d with spdmAlgs := true }).dev.spdmAlgs = true ∧ demo.dev.spdmAlgs = false := by decide
/-- An image of the fuses' own version is admitted. -/
theorem witness_ServicesAndAttestation_image : true = true ∧ true = true ∧ Config.fuseVersion ≤ Config.fuseVersion := ⟨rfl, rfl, Nat.le_refl _⟩
theorem witness_ResetLadder : (∀ b ∈ [true, false], (commanded launchWords b).ring? 0 = some { emptyRing with readCount := 1, pending := [pend launchWords b 0] }) ∧
    (cmdOf aFill true).wrote = false ∧ (copying (cmdOf aFill true)).mayEnd (cmdOf aFill true) = true ∧ frostedCore (copying (cmdOf aFill true)) 0 = false ∧
    (⟨3, [], [], [], [cmdOf aFill true], 0, 0⟩ : Seat).queue false = [cmdOf aFill true] ∧ (∀ k < 4, k ≠ 0 → (copying (cmdOf aFill true)).seat? 0 k = none) ∧
    demo.moves = [] ∧ demo.holding = [] ∧ demo.events = [] ∧ (atBell 0 fun d => { d with powered := false }).dev.powered = false ∧ demo.allows = [] ∧
    (∀ e ∈ demo.beds, e.2.launch = 3 ∧ dieOf e.2.core = 0 ∧ e.2.status ≠ .lifted) := by decide
theorem witness_ResetLadder_queue : InQueue (copying (cmdOf aFill true)) 0 0 ⟨3, [], [], [], [cmdOf aFill true], 0, 0⟩ (cmdOf aFill true) ∧
    InQueue (queued (cmdOf aStep true)) 0 0 ⟨3, [], [], [cmdOf aStep true], [], 0, 0⟩ (cmdOf aStep true) := ⟨copying_in _, queued_in _⟩
/-- Every seat of the tile's queues as the clauses ask; a command that cannot end yet; a partition and a function with a ring, a launch and a log. -/
theorem witness_ResetLadder_seats : (∀ n < 4, ∀ st, (copying filling).seat? 0 n = some st → ∀ c ∈ st.queue false, InQueue (copying filling) 0 n st c) ∧
    (copying { filling with wrote := true, peersDue := 1 }).seat? 0 0 = some ⟨3, [], [], [], [{ filling with wrote := true, peersDue := 1 }], 0, 0⟩ ∧
    (∀ n ∈ [1, 2, 3], (copying filling).seat? 0 n = none) ∧ NoneUnderWay demo ∧ demo.launch? 3 = some demoLaunch ∧ demoLaunch.part = 0 ∧ demo.part? 0 = some (Partition.new [0]) ∧
    (commanded launchWords).ring? 0 = some { emptyRing with readCount := 1, pending := [pend launchWords false 0] } ∧ ([pend launchWords false 0].map (·.seq)).Nodup := by
  have h : ∀ n ∈ [1, 2, 3], (copying filling).seat? 0 n = none := by decide
  refine ⟨fun n hn st hs c hc => ?_, rfl, h, witness_PlacementAndCompletion_full.2.2.2, rfl, rfl, rfl, rfl, by decide⟩
  obtain rfl | hn0 := Nat.eq_zero_or_pos n
  · obtain rfl : st = ⟨3, [], [], [], [filling], 0, 0⟩ := (Option.some.inj ((rfl : (copying filling).seat? 0 0 = some _).symm.trans hs)).symm
    obtain rfl : c = filling := List.mem_singleton.mp hc
    exact copying_in _
  · have : n ∈ [1, 2, 3] := by simp; omega
    rw [h n this] at hs; cases hs
def counted (g : GroupCount) : State := { demo with groups := [(16, g)] }
def aMove : MigrateReq := ⟨0, 0x4008, 0x10000, 1, 9, 0, 0⟩
def moving (f : MoveRec → MoveRec) : State := { demo with moves := [f ⟨aMove, encodePte demoPte, none, false, false, false, false, [], 0⟩] }
theorem witness_CountsMovesAndDebug : (let s := counted ⟨1, 2048, 0, 16⟩; let t := counted ⟨0, 16, 7, 16⟩; let u := counted ⟨0, 17, 7, 16⟩;
    aget s.groups 16 = some ⟨1, 2048, 0, 16⟩ ∧ ((s.groupPart 16).map (·.hot)).getD 2048 ≤ 2048 ∧ s.groupBusy 16 = false ∧ s.migrations.length + s.groupKeys.length ≤ 4096 ∧
    16 ≤ ((t.groupPart 16).map (·.cold)).getD 16 ∧ ¬ 17 ≤ ((u.groupPart 16).map (·.cold)).getD 16) ∧
    aget ({ demo with budgets := [((0, 0), ⟨10, 3, [], [], 5, true⟩)] } : State).budgets (0, 0) = some ⟨10, 3, [], [], 5, true⟩ ∧
    aget demo.spaces aMove.asn = some ⟨0, 0, none⟩ ∧ demo.moves = [] ∧ demo.walk 0 0x10000 = some (.leaf demoPte 0x4008) ∧ demo.walkHeld 0 0x10000 = false ∧ demo.walkOwned 0 0x10000 = false ∧
    demo.restingFor (movedPte aMove demoPte) = false ∧ demoPte.surr = false ∧ demoPte.moving = false ∧ demo.destOk 0 demoPte (movedPte aMove demoPte) = true ∧
    demo.destOk 0 demoPte (movedPte { aMove with newFrame := 1 } demoPte) = false := by decide
theorem witness_CountsMovesAndDebug_moves : 0x4008 % 8 = 0 ∧ Plain (moving id) 0x4008 8 ∧ (moving id).word64 0x4008 = encodePte demoPte ∧
    (moving id).walkHeld 0 0x10000 = false ∧ (decodePte (encodePte demoPte)).tier.toNat < 2 ∧ aMove.newTier.toNat < 2 ∧
    ({ moving id with mem := putSlot demo.mem 0x4008 0 } : State).word64 0x4008 ≠ encodePte demoPte ∧
    (moving fun r => { r with marked := true, copied := true }).moves = [⟨aMove, encodePte demoPte, none, false, true, true, false, [], 0⟩] :=
  ⟨rfl, demo_plain _ _ _ demo_canonical rfl rfl, by decide, by decide, by decide, by decide, by decide, rfl⟩
def sampled : State := { demo with cores := [(0, { CoreState.idle with periods := [(0, 1024)], stopped := 1, traces := [(0, ⟨.never, .never, false, false⟩)] })] }
theorem witness_CountsMovesAndDebug_debug : frostedCore sampled 0 = false ∧ (aget (sampled.coreState 0).periods 0).getD 0 ≠ 0 ∧ sampled.samples = [] ∧
    (∃ sh, (∃ u, (u, sh) ∈ sampled.sheafs) ∧ sh.core = 0 ∧ sh.part = 0 ∧ sh.issuing ≠ 0 ∧ sampled.isLifted sh = false) ∧
    (demo.coreState 0).stopped.getLsbD 0 = false ∧ (sampled.coreState 0).stopped.getLsbD 0 = true ∧ (aget (sampled.coreState 0).traces 0).isSome = true :=
  ⟨by decide, by decide, rfl, ⟨demoSheaf, ⟨1, by simp [sampled, demo]⟩, rfl, rfl, by decide, by decide⟩, by decide, by decide, by decide⟩
theorem witness_CountsMovesAndDebug_room : (0 : Nat) < Config.sampleRoom := Nat.succ_pos _
def aHit : WatchHit := ⟨0, 2, 1, some 0, none, 0x10000, 0x10000, .store, [7]⟩
def watched (act : BitVec 2) (pred : Word) (hs : List HitRec) : State := { demo with watches := [((0, 2), ⟨0x10000, 0x10010, 0, 2, act, true, pred⟩)], hits := hs }
def aHitRec : HitRec := ⟨aHit, 0, 1, 0, none⟩
theorem witness_CountsMovesAndDebug_record : (watched 0 1 [aHitRec]).hits = [aHitRec] ∧ aHitRec.hit = aHit ∧ (watched 0 1 [aHitRec]).knowsHit aHit = true ∧
    (watched 0 1 []).knowsHit aHit = false ∧ (∃ f, demoSheaf.lanes[laneOf 0] = .held f) ∧ (demo.launch? demoSheaf.launch).isSome = true :=
  ⟨rfl, rfl, by decide, by decide, ⟨_, rfl⟩, by decide⟩
theorem witness_CountsMovesAndDebug_watch : (∀ p ∈ [0, 0x20000], ∀ act < 4, (watched (BitVec.ofNat 2 act) (BitVec.ofNat 64 p) []).hitAsleep aHit = false ∧
      aget (watched (BitVec.ofNat 2 act) (BitVec.ofNat 64 p) []).watches (aHit.die, aHit.range) = some ⟨0x10000, 0x10010, 0, 2, BitVec.ofNat 2 act, true, BitVec.ofNat 64 p⟩ ∧
      (∀ q ∈ (watched (BitVec.ofNat 2 act) (BitVec.ofNat 64 p) []).hitPart aHit, q.predicatesAssisted = false)) ∧ hasLane demoSheaf.batch 0 = true ∧ demoSheaf.part < 4 ∧
    (let s : State := { watched 3 1 [] with parts := [(0, { Partition.new [0] with predicatesAssisted := true })] }; ∃ p, s.hitPart aHit = some p ∧ p.predicatesAssisted = true) :=
  ⟨by decide, by decide, by decide, ⟨_, rfl, rfl⟩⟩
def suspendedCmd : Cmd := { cmdOf aFill true with suspended := true }
theorem witness_CountsMovesAndDebug_resume : (copying suspendedCmd).cmd? suspendedCmd.id = some suspendedCmd ∧ suspendedCmd.suspended = true := ⟨(copying_in _).cmd, rfl⟩
theorem witness_CountsMovesAndDebug_engineRecord : ({ aHit with cmd := some suspendedCmd.id, lane := none } : WatchHit).cmd = some suspendedCmd.id ∧
    (copying suspendedCmd).cmd? suspendedCmd.id = some suspendedCmd ∧ ((copying suspendedCmd).launch? suspendedCmd.launch).isSome = true :=
  ⟨rfl, (copying_in _).cmd, by decide⟩


end Sys2Proof.Tests
end

section
/-! SUPPORT. Integer lane instructions complete: a runner of Integer.lean whose result and flags are known leaves them in every acting lane. -/

namespace Sys2Proof.Machine

/-! ### A runner with a known result completes -/

/-- A result of class log (R83), its value known. -/
theorem logOf_of_eq {n : Nat} {x y : BitVec n} (h : x = y) : logOf x = (y, flagsOfResult y) := by rw [h]; rfl

theorem resultA_of_runA {i : OpA → Instr} {f : W32 → W32 × CcVal} {r : W32 → W32} {fl : W32 → CcVal} {s : State}
    (hi : ∀ o, exec (i o) s = .next (runA o f s)) (hf : ∀ a, f a = (r a, fl a)) : ResultA i r fl s := by
  obtain rfl : f = fun a => (r a, fl a) := funext hf
  exact fun o h => ⟨_, hi o, aluRun_done h ..⟩

theorem resultAB_of_runAB {i : OpAB → Instr} {f : W32 → W32 → W32 × CcVal} {r : W32 → W32 → W32} {fl : W32 → W32 → CcVal} {s : State}
    (hi : ∀ o, exec (i o) s = .next (runAB o f s)) (hf : ∀ a b, f a b = (r a b, fl a b)) : ResultAB i r fl s := by
  obtain rfl : f = fun a b => (r a b, fl a b) := funext₂ hf
  exact fun o h => ⟨_, hi o, aluRun_done h ..⟩

theorem resultABU_of_runABU {i : OpABU → Instr} {f : Bool → W32 → W32 → W32} {r : Bool → W32 → W32 → W32} {s : State}
    (hi : ∀ o, exec (i o) s = .next (runABU o (fun u a b => logOf (f u a b)) s)) (hf : ∀ u a b, f u a b = r u a b) : ResultABU i r s := by
  obtain rfl : f = r := funext fun u => funext₂ (hf u)
  exact fun o h => ⟨_, hi o, aluRun_done h ..⟩

theorem resultABC_of_runABC {i : OpABC → Instr} {f : W32 → W32 → W32 → W32} {r : W32 → W32 → W32 → W32} {s : State}
    (hi : ∀ o, exec (i o) s = .next (runABC o (fun a b c => logOf (f a b c)) s)) (hf : ∀ a b c, f a b c = r a b c) : ResultABC i r s := by
  obtain rfl : f = r := funext fun a => funext₂ (hf a)
  exact fun o h => ⟨_, hi o, aluRun_done h ..⟩

theorem resultI_of_runI {i : OpI → Instr} (f : BitVec 24 → W32 → W32 × CcVal) {r : W32 → BitVec 24 → W32} {fl : W32 → BitVec 24 → CcVal}
    {s : State} (hi : ∀ o, exec (i o) s = .next (runI o (f o.imm) s)) (hf : ∀ a k, f k a = (r a k, fl a k)) : ResultI i r fl s := by
  obtain rfl : f = fun k a => (r a k, fl a k) := funext₂ fun k a => hf a k
  exact fun o h => ⟨_, hi o, aluRun_done h ..⟩

/-! ### Shifts and bit fields (R84, R86, R90) -/

/-- Settles O11: each runner completes with its function of Alu.lean, which the laws of Laws/Alu.lean say by exact numbers. -/
theorem shiftsAndBitFields : Obligations.ShiftsAndBitFields := by
  intro s
  refine ⟨?shl, ?shr, ?sar, ?rol, ?shli, ?shri, ?sari, ?bfx, ?bfi, ?popc, ?clz, ?brev⟩
  case shl => exact resultAB_of_runAB (fun _ => rfl) fun a b => logOf_of_eq (shl_eq a b.toNat)
  case shr => exact resultAB_of_runAB (fun _ => rfl) fun a b => logOf_of_eq (shr_eq a b.toNat)
  case sar => exact resultAB_of_runAB (fun _ => rfl) fun a b => logOf_of_eq (sar_eq a b.toNat)
  case rol => exact resultAB_of_runAB (fun _ => rfl) fun a b => logOf_of_eq (rol_eq a b)
  case shli => exact resultI_of_runI (fun k a => logOf (shiftL a k.toNat)) (fun _ => rfl) fun a k => logOf_of_eq (shl_eq a k.toNat)
  case shri => exact resultI_of_runI (fun k a => logOf (shiftR a k.toNat)) (fun _ => rfl) fun a k => logOf_of_eq (shr_eq a k.toNat)
  case sari => exact resultI_of_runI (fun k a => logOf (shiftA a k.toNat)) (fun _ => rfl) fun a k => logOf_of_eq (sar_eq a k.toNat)
  case bfx =>
    refine resultABU_of_runABU (fun _ => rfl) fun u a b => ?_
    cases u with
    | true => exact bfx_unsigned a b
    | false => exact bfx_signed a b
  case bfi => exact resultABC_of_runABC (fun _ => rfl) bfi_eq
  case popc => exact resultA_of_runA (fun _ => rfl) fun a => logOf_of_eq (popc_eq a)
  case clz => exact resultA_of_runA (fun _ => rfl) fun a => logOf_of_eq (clz_eq a)
  case brev => exact resultA_of_runA (fun _ => rfl) fun _ => logOf_of_eq rfl

end Sys2Proof.Machine
end

section
/-! SUPPORT. The lane-crossing instructions VOTE, MATCH, REDUX and SCANX: what each leaves, and the integer reductions by exact numbers. -/

namespace Sys2Proof.Machine

/-! ### What the participants hold (R94, R97) -/

/-- Only the exceptions of the acting lanes count. -/
theorem LaneDone.congr_exceptions {s t : State} {i : LaneIns} {w : List LaneWrite} {fl : Option (BitVec 2 × (Fin 32 → CcVal))}
    {fp fq : Fin 32 → BitVec 5} (h : LaneDone s t i w fl fp) (he : ∀ l ∈ lanesIn (s.acting i.g), fp l = fq l) : LaneDone s t i w fl fq where
  __ := h
  exceptions l := by
    rw [h.exceptions l]
    split
    next hl => rw [he l ((mem_lanesIn _ l).2 hl)]
    next => rfl
  sheafExceptions := by
    rw [h.sheafExceptions]
    exact List.foldl_ext _ _ _ fun x l hl => by rw [he l hl]

theorem voteRun_done {s : State} {g : Guard} {d : BitVec 8} {a : VSrc} {n : Nat} (h : LaneClear s ⟨g, [vop a n 0], [], [], [d], none⟩)
    (f : Sheaf → Mask → Fin 32 → W32) :
    LaneDone s (voteRun s g d a n f) ⟨g, [vop a n 0], [], [], [d], none⟩ [(d, f s.shf (s.acting g))] none fun _ => 0 :=
  h.done (LaneEff.alu (s.acting g) (s.shf.consumed _) [(d, f s.shf (s.acting g))] (by simp) none fun _ => 0)

theorem all_lanesIn_iff (m : Mask) (p : Fin 32 → Bool) : (lanesIn m).all p = true ↔ ∀ l, hasLane m l = true → p l = true := by
  simp only [List.all_eq_true, mem_lanesIn]

theorem any_lanesIn_iff (m : Mask) (p : Fin 32 → Bool) : (lanesIn m).any p = true ↔ ∃ l, hasLane m l = true ∧ p l = true := by
  simp only [List.any_eq_true, mem_lanesIn]

/-- The participants that pass a test are none of the lanes exactly when no participant passes it. -/
theorem maskOf_ne_zero_iff (m : Mask) (p : Fin 32 → Bool) : maskOf (fun l => hasLane m l && p l) ≠ 0 ↔ (lanesIn m).any p = true := by
  rw [Ne, mask_zero_iff, any_lanesIn_iff]
  simp

/-- The participants that pass a test are all of them exactly when every participant passes it. -/
theorem maskOf_eq_self_iff (m : Mask) (p : Fin 32 → Bool) : maskOf (fun l => hasLane m l && p l) = m ↔ (lanesIn m).all p = true := by
  rw [all_lanesIn_iff]
  constructor
  · intro h l hl
    rw [← h, hasLane_maskOf, Bool.and_eq_true] at hl
    exact hl.2
  · intro h
    refine mask_ext fun l => ?_
    rw [hasLane_maskOf]
    cases hl : hasLane m l with
    | false => rfl
    | true => exact h l hl

/-- Every element equals the first exactly when every two are equal. -/
theorem all_eq_head_iff {α : Type} (x : α) (t : List α) : (∀ y ∈ t, y = x) ↔ ∀ y ∈ x :: t, ∀ z ∈ x :: t, y = z := by
  constructor
  · intro h y hy z hz
    have first : ∀ u ∈ x :: t, u = x := List.forall_mem_cons.2 ⟨rfl, h⟩
    exact (first y hy).trans (first z hz).symm
  · exact fun h y hy => h y (List.mem_cons_of_mem _ hy) x (List.mem_cons_self ..)

theorem voteValue_any (sh : Sheaf) (a : BitVec 8) (m : Mask) :
    voteValue .any sh a m = if (lanesIn m).any (fun l => sh.readLane a l ≠ 0) then 1 else 0 :=
  if_congr (maskOf_ne_zero_iff m _) rfl rfl

theorem voteValue_all (sh : Sheaf) (a : BitVec 8) (m : Mask) :
    voteValue .all sh a m = if (lanesIn m).all (fun l => sh.readLane a l ≠ 0) then 1 else 0 :=
  if_congr (maskOf_eq_self_iff m _) rfl rfl

theorem voteValue_ballot (sh : Sheaf) (a : BitVec 8) (m : Mask) :
    voteValue .ballot sh a m = maskOf fun l => hasLane m l && sh.readLane a l ≠ 0 := rfl

theorem voteValue_eq (sh : Sheaf) (a : BitVec 8) (m : Mask) :
    voteValue .eq sh a m =
      if (lanesIn m).all (fun l => (lanesIn m).all fun k => sh.readLane a l = sh.readLane a k) then 1 else 0 := by
  unfold voteValue
  cases hl : lanesIn m with
  | nil => rfl
  | cons l ls =>
    refine if_congr ?_ rfl rfl
    have := all_eq_head_iff (sh.readLane a l) (ls.map (sh.readLane a))
    rw [← List.map_cons] at this
    simpa only [List.all_eq_true, decide_eq_true_eq, List.forall_mem_map] using this

/-- Two pairs are equal when both registers are. -/
theorem Sheaf.readPair_beq (sh : Sheaf) (n : BitVec 8) (j l : Fin 32) :
    (sh.readPair n j == sh.readPair n l) =
      (sh.readLane n j == sh.readLane n l && sh.readLane (n + 1) j == sh.readLane (n + 1) l) := by
  rw [Bool.eq_iff_iff, Bool.and_eq_true, beq_iff_eq, beq_iff_eq, beq_iff_eq]
  unfold Sheaf.readPair joinPair
  constructor
  · intro h
    have lo : sh.readLane n j = sh.readLane n l := by
      simpa only [BitVec.setWidth_append_eq_right] using congrArg (BitVec.setWidth 32) h
    rw [lo, BitVec.append_left_inj] at h
    exact ⟨lo, h⟩
  · rintro ⟨h0, h1⟩
    rw [h0, h1]

/-- What MATCH gives lane l (Table 3.5): the participants whose A, one register or a pair, is that of lane l. -/
def matchValue (w64 : Bool) (sh : Sheaf) (a : BitVec 8) (act : Mask) (l : Fin 32) : W32 :=
  maskOf fun j => hasLane act j && (if w64 then sh.readPair a j == sh.readPair a l else sh.readLane a j == sh.readLane a l)

theorem matchValue_eq (w64 : Bool) (sh : Sheaf) (a : BitVec 8) (act : Mask) (l : Fin 32) :
    matchValue w64 sh a act l = maskOf fun j =>
      hasLane act j && sh.readLane a j == sh.readLane a l && (!w64 || sh.readLane (a + 1) j == sh.readLane (a + 1) l) := by
  refine congrArg maskOf (funext fun j => ?_)
  rw [Bool.and_assoc]
  cases w64 with
  | true => exact congrArg _ (sh.readPair_beq a j l)
  | false => exact congrArg _ (Bool.and_true _).symm

/-! ### Reductions over the participants (R99) -/

/-- The fold that lane l sees: over A of the participants that `below` names for it, ascending. -/
def State.reduced (s : State) (g : Guard) (a : VSrc) (op : RedOp) (below : Fin 32 → Fin 32 → Bool) (l : Fin 32) : W32 × Exc :=
  redFold op (((lanesIn (s.acting g)).filter (below l)).map (s.shf.readLane a.reg))

theorem redRun_done {s : State} {g : Guard} {d : BitVec 8} {a : VSrc} (h : LaneClear s ⟨g, [vop a 1 0], [], [], [d], none⟩)
    (op : RedOp) (below : Fin 32 → Fin 32 → Bool) :
    LaneDone s (redRun s g d a op below) ⟨g, [vop a 1 0], [], [], [d], none⟩ [(d, fun l => (s.reduced g a op below l).1)] none
      fun _ => (lanesIn (s.acting g)).foldl (fun e l => e ||| (s.reduced g a op below l).2) 0 :=
  h.done (LaneEff.float (s.acting g) (s.shf.consumed _) [(d, fun l => (s.reduced g a op below l).1)] (by simp) none (fun _ => 0) _)

/-- Or-ing in the same exceptions once for each of some lanes raises them once. -/
theorem foldl_or_same {α : Type} (e x : BitVec 5) (ls : List α) (h : ls ≠ []) : ls.foldl (fun y _ => y ||| e) x = x ||| e := by
  cases ls with
  | nil => exact absurd rfl h
  | cons a t =>
    rw [List.foldl_cons]
    clear h
    induction t with
    | nil => rfl
    | cons b t ih => rw [List.foldl_cons, BitVec.or_assoc, BitVec.or_self, ih]

theorem reduced_everyone (s : State) (g : Guard) (a : VSrc) (op : RedOp) (l : Fin 32) :
    s.reduced g a op (fun _ _ => true) l = redFold op ((lanesIn (s.acting g)).map (s.shf.readLane a.reg)) := by
  unfold State.reduced
  rw [List.filter_true]

/-- The lanes SCANX combines for lane l: those below it, and itself where the scan is inclusive. -/
theorem scan_below (excl : Bool) (l m : Fin 32) :
    (if excl then decide (m.val < l.val) else decide (m.val ≤ l.val)) = (decide (m.val < l.val) || (!excl && decide (m = l))) := by
  cases excl with
  | true => simp
  | false =>
    simp only [Bool.not_false, Bool.true_and, Bool.false_eq_true, if_false, ← Bool.decide_or, decide_eq_decide, Fin.ext_iff]
    exact Nat.le_iff_lt_or_eq

/-! ### The integer reductions (Table 3.6) -/

/-- A combination that raises nothing and takes a lone value as it is folds without exceptions. -/
theorem redFold_cons {op : RedOp} {g : W32 → W32 → W32} (hg : ∀ a b, redApply op a b = (g a b, 0)) (h1 : ∀ x, redFirst op x = (x, 0))
    (x : W32) (xs : List W32) : redFold op (x :: xs) = (xs.foldl g x, 0) := by
  have steps : xs.foldl (fun (r : W32 × Exc) y => let t := redApply op r.1 y; (t.1, t.2 ||| r.2)) (x, 0) = (xs.foldl g x, 0) :=
    List.foldl_hom (fun y => (y, (0 : Exc))) fun y z => by simp only [hg, BitVec.or_self]
  cases xs with
  | nil => exact h1 x
  | cons y ys => exact steps

theorem foldl_add (x : W32) (xs : List W32) : xs.foldl (· + ·) x = BitVec.ofNat 32 (((x :: xs).map (·.toNat)).sum) := by
  induction xs generalizing x with
  | nil => simp
  | cons y ys ih =>
    rw [List.foldl_cons, ih]
    apply BitVec.eq_of_toNat_eq
    simp [BitVec.toNat_add, ← Nat.add_assoc]

section Choice
variable {g : W32 → W32 → W32}

/-- A fold that chooses one of two at each step gives one of the values. -/
theorem foldl_choice_mem (hg : ∀ a b, g a b = a ∨ g a b = b) (x : W32) (xs : List W32) : xs.foldl g x ∈ x :: xs := by
  induction xs generalizing x with
  | nil => exact List.mem_cons_self ..
  | cons y ys ih =>
    rw [List.foldl_cons]
    rcases List.mem_cons.1 (ih (g x y)) with h | h
    · rw [h]
      rcases hg x y with e | e <;> simp [e]
    · exact List.mem_cons_of_mem _ (List.mem_cons_of_mem _ h)

/-- A fold that takes at each step a value under both gives a value under all. -/
theorem foldl_choice_le {α : Type} [Preorder α] (key : W32 → α) (hg : ∀ a b, key (g a b) ≤ key a ∧ key (g a b) ≤ key b)
    (x : W32) (xs : List W32) : ∀ y ∈ x :: xs, key (xs.foldl g x) ≤ key y := by
  induction xs generalizing x with
  | nil => simp
  | cons y ys ih =>
    have first : key (ys.foldl g (g x y)) ≤ key (g x y) := ih (g x y) _ (List.mem_cons_self ..)
    rw [List.foldl_cons, List.forall_mem_cons, List.forall_mem_cons]
    exact ⟨first.trans (hg x y).1, first.trans (hg x y).2, fun z hz => ih (g x y) z (List.mem_cons_of_mem _ hz)⟩

end Choice

/-- A fold that keeps the first of two unless the second comes before it gives one of the values, with the least key. -/
theorem foldl_least {α : Type} [LinearOrder α] (key : W32 → α) (lt : W32 → W32 → Bool) (hlt : ∀ a b, lt b a = true ↔ key b < key a)
    (x : W32) (xs : List W32) : (xs.foldl (fun a b => if lt b a then b else a) x) ∈ x :: xs ∧
      ∀ y ∈ x :: xs, key (xs.foldl (fun a b => if lt b a then b else a) x) ≤ key y := by
  refine ⟨foldl_choice_mem (fun a b => ?_) x xs, foldl_choice_le key (fun a b => ?_) x xs⟩
  · exact (ite_eq_or_eq _ b a).symm
  · by_cases h : lt b a = true
    · rw [if_pos h]
      exact ⟨((hlt a b).1 h).le, le_rfl⟩
    · rw [if_neg h]
      exact ⟨le_rfl, not_lt.1 fun c => h ((hlt a b).2 c)⟩

theorem foldl_and_getLsbD (x : W32) (xs : List W32) (i : Nat) :
    (xs.foldl (· &&& ·) x).getLsbD i = (x :: xs).all fun y => y.getLsbD i := by
  induction xs generalizing x with
  | nil => simp
  | cons y ys ih => rw [List.foldl_cons, ih, List.all_cons, List.all_cons, List.all_cons, BitVec.getLsbD_and, Bool.and_assoc]

theorem foldl_or_getLsbD (x : W32) (xs : List W32) (i : Nat) :
    (xs.foldl (· ||| ·) x).getLsbD i = (x :: xs).any fun y => y.getLsbD i := by
  induction xs generalizing x with
  | nil => simp
  | cons y ys ih => rw [List.foldl_cons, ih, List.any_cons, List.any_cons, List.any_cons, BitVec.getLsbD_or, Bool.or_assoc]

/-- Bit i of an exclusive or is set when an odd number of the values have it. -/
theorem foldl_xor_getLsbD (x : W32) (xs : List W32) (i : Nat) :
    (xs.foldl (· ^^^ ·) x).getLsbD i = decide (((x :: xs).countP fun y => y.getLsbD i) % 2 = 1) := by
  induction xs generalizing x with
  | nil => cases h : x.getLsbD i <;> simp [h, -BitVec.getLsbD_eq_getElem]
  | cons y ys ih =>
    rw [List.foldl_cons, ih, decide_eq_decide]
    simp only [List.countP_cons, BitVec.getLsbD_xor]
    cases x.getLsbD i <;> cases y.getLsbD i <;> simp [Nat.add_assoc]

theorem redFold_add (x : W32) (xs : List W32) : redFold .add (x :: xs) = (BitVec.ofNat 32 (((x :: xs).map (·.toNat)).sum), 0) := by
  rw [redFold_cons (fun _ _ => rfl) (fun _ => rfl), foldl_add]

theorem redFold_minu (x : W32) (xs : List W32) : (redFold .minu (x :: xs)).1 ∈ x :: xs ∧
    ∀ y ∈ x :: xs, (redFold .minu (x :: xs)).1.toNat ≤ y.toNat := by
  rw [redFold_cons (fun _ _ => rfl) (fun _ => rfl)]
  exact foldl_least BitVec.toNat BitVec.ult (fun _ _ => decide_eq_true_iff) x xs

theorem redFold_maxu (x : W32) (xs : List W32) : (redFold .maxu (x :: xs)).1 ∈ x :: xs ∧
    ∀ y ∈ x :: xs, y.toNat ≤ (redFold .maxu (x :: xs)).1.toNat := by
  rw [redFold_cons (fun _ _ => rfl) (fun _ => rfl)]
  exact foldl_least (fun y => OrderDual.toDual y.toNat) (fun b a => a.ult b) (fun _ _ => decide_eq_true_iff) x xs

theorem redFold_mins (x : W32) (xs : List W32) : (redFold .mins (x :: xs)).1 ∈ x :: xs ∧
    ∀ y ∈ x :: xs, (redFold .mins (x :: xs)).1.toInt ≤ y.toInt := by
  rw [redFold_cons (fun _ _ => rfl) (fun _ => rfl)]
  exact foldl_least BitVec.toInt BitVec.slt (fun _ _ => decide_eq_true_iff) x xs

theorem redFold_maxs (x : W32) (xs : List W32) : (redFold .maxs (x :: xs)).1 ∈ x :: xs ∧
    ∀ y ∈ x :: xs, y.toInt ≤ (redFold .maxs (x :: xs)).1.toInt := by
  rw [redFold_cons (fun _ _ => rfl) (fun _ => rfl)]
  exact foldl_least (fun y => OrderDual.toDual y.toInt) (fun b a => a.slt b) (fun _ _ => decide_eq_true_iff) x xs

theorem redFold_and (x : W32) (xs : List W32) (i : Nat) :
    (redFold .and (x :: xs)).1.getLsbD i = (x :: xs).all fun y => y.getLsbD i := by
  rw [redFold_cons (fun _ _ => rfl) (fun _ => rfl)]
  exact foldl_and_getLsbD x xs i

theorem redFold_or (x : W32) (xs : List W32) (i : Nat) :
    (redFold .or (x :: xs)).1.getLsbD i = (x :: xs).any fun y => y.getLsbD i := by
  rw [redFold_cons (fun _ _ => rfl) (fun _ => rfl)]
  exact foldl_or_getLsbD x xs i

theorem redFold_xor (x : W32) (xs : List W32) (i : Nat) :
    (redFold .xor (x :: xs)).1.getLsbD i = decide (((x :: xs).countP fun y => y.getLsbD i) % 2 = 1) := by
  rw [redFold_cons (fun _ _ => rfl) (fun _ => rfl)]
  exact foldl_xor_getLsbD x xs i

/-! ### The instructions complete -/

theorem vote_completes {s : State} (o : OpVote) (h : LaneClear s ⟨o.g, [vop o.a 1 0], [], [], [o.d], none⟩) :
    LaneCompletes (.vote o) s ⟨o.g, [vop o.a 1 0], [], [], [o.d], none⟩ [(o.d, fun _ => voteValue o.mode s.shf o.a.reg (s.acting o.g))]
      none fun _ => 0 :=
  ⟨_, rfl, voteRun_done h _⟩

theorem matchv_completes {s : State} (o : OpMatch) (h : LaneClear s ⟨o.g, [vop o.a (if o.w64 then 2 else 1) 0], [], [], [o.d], none⟩) :
    LaneCompletes (.matchv o) s ⟨o.g, [vop o.a (if o.w64 then 2 else 1) 0], [], [], [o.d], none⟩
      [(o.d, matchValue o.w64 s.shf o.a.reg (s.acting o.g))] none fun _ => 0 :=
  ⟨_, rfl, voteRun_done h fun sh act => matchValue o.w64 sh o.a.reg act⟩

theorem redux_completes {s : State} (o : OpRedux) (h : LaneClear s ⟨o.g, [vop o.a 1 0], [], [], [o.d], none⟩) :
    let r := redFold o.op ((lanesIn (s.acting o.g)).map (s.shf.readLane o.a.reg))
    LaneCompletes (.redux o) s ⟨o.g, [vop o.a 1 0], [], [], [o.d], none⟩ [(o.d, fun _ => r.1)] none fun _ => r.2 := by
  have done := redRun_done h o.op fun _ _ => true
  simp only [reduced_everyone] at done
  refine ⟨_, rfl, done.congr_exceptions fun l hl => ?_⟩
  rw [foldl_or_same _ _ _ (List.ne_nil_of_mem hl)]
  exact BitVec.zero_or

theorem scanx_completes {s : State} (o : OpScan) (h : LaneClear s ⟨o.g, [vop o.a 1 0], [], [], [o.d], none⟩) :
    let below := fun l m : Fin 32 => decide (m.val < l.val) || (!o.excl && decide (m = l))
    LaneCompletes (.scanx o) s ⟨o.g, [vop o.a 1 0], [], [], [o.d], none⟩ [(o.d, fun l => (s.reduced o.g o.a o.op below l).1)] none
      fun _ => (lanesIn (s.acting o.g)).foldl (fun e l => e ||| (s.reduced o.g o.a o.op below l).2) 0 := by
  intro below
  have hb : (fun l m : Fin 32 => if o.excl then decide (m.val < l.val) else decide (m.val ≤ l.val)) = below :=
    funext₂ (scan_below o.excl)
  rw [← hb]
  exact ⟨_, rfl, redRun_done h ..⟩

/-- Settles O22: the runners leave what the participants hold, and an integer reduction is a fold of one combination. -/
theorem votesMatchesAndReductions : Obligations.VotesMatchesAndReductions := by
  refine ⟨fun s => ⟨?vote, ?matchv, redux_completes, scanx_completes⟩, fun x xs => ?reductions⟩
  case vote =>
    rintro ⟨g, d, a, mode⟩ n h
    have done := vote_completes _ h
    cases mode with
    | any => rw [voteValue_any] at done; exact done
    | all => rw [voteValue_all] at done; exact done
    | ballot => rw [voteValue_ballot] at done; exact done
    | eq => rw [voteValue_eq] at done; exact done
  case matchv =>
    intro o n h
    have done := matchv_completes o h
    rw [funext (matchValue_eq o.w64 s.shf o.a.reg (s.acting o.g))] at done
    exact done
  case reductions =>
    exact ⟨redFold_add x xs, (redFold_minu x xs).1, (redFold_minu x xs).2, (redFold_maxu x xs).1, (redFold_maxu x xs).2,
      (redFold_mins x xs).1, (redFold_mins x xs).2, (redFold_maxs x xs).1, (redFold_maxs x xs).2,
      fun i => ⟨redFold_and x xs i, redFold_or x xs i, redFold_xor x xs i⟩⟩

end Sys2Proof.Machine
end

section
/-! SUPPORT. The resample draw, the order of the participants by rank, and the counts: g, its monotone steps, and their telescoping sum (R216). -/

namespace Sys2Proof.Machine

/-! ### The draw -/

theorem toNat_xor_ushiftRight (z : Word) (k : Nat) : (z ^^^ z >>> k).toNat = z.toNat ^^^ z.toNat / 2 ^ k := by
  rw [BitVec.toNat_xor, BitVec.toNat_ushiftRight, Nat.shiftRight_eq_div_pow]

theorem toNat_mul_ofNat (z : Word) (m : Nat) : (z * BitVec.ofNat 64 m).toNat = z.toNat * m % 2 ^ 64 := by
  rw [BitVec.toNat_mul, BitVec.toNat_ofNat, Nat.mul_mod_mod]

theorem toNat_add_succ_mul_ofNat (seed k : Word) (m : Nat) :
    (seed + (k + 1) * BitVec.ofNat 64 m).toNat = (seed.toNat + (k.toNat + 1) * m) % 2 ^ 64 := by
  have one : (1 : Word).toNat = 1 := rfl
  rw [BitVec.toNat_add, toNat_mul_ofNat, BitVec.toNat_add, one, Nat.mod_mul_mod, Nat.add_mod_mod]

/-- Every step of the draw is the step on numbers modulo 2^64. -/
theorem rsmpDraw_eq (seed k : Word) :
    let z0 := (seed.toNat + (k.toNat + 1) * 0x9E3779B97F4A7C15) % 2 ^ 64
    let z1 := (z0 ^^^ z0 / 2 ^ 30) * 0xBF58476D1CE4E5B9 % 2 ^ 64
    let z2 := (z1 ^^^ z1 / 2 ^ 27) * 0x94D049BB133111EB % 2 ^ 64
    let z3 := z2 ^^^ z2 / 2 ^ 31
    rsmpDraw seed k = z3 / 2 ^ 32 := by
  simp only [rsmpDraw, BitVec.toNat_ushiftRight _ 32, Nat.shiftRight_eq_div_pow, toNat_xor_ushiftRight, toNat_mul_ofNat, toNat_add_succ_mul_ofNat]

/-! ### The order by rank -/

/-- Participants in ascending rank. -/
abbrev rankLe (a b : RsmpRec) : Prop := a.rank.toNat ≤ b.rank.toNat

theorem byRank_eq_orderedInsert (r : RsmpRec) (l : List RsmpRec) : byRank r l = l.orderedInsert rankLe r := by
  induction l with
  | nil => rfl
  | cons q t ih => rw [byRank, ih, List.orderedInsert_cons]

/-- The sort of the participants is the library's insertion sort. -/
theorem sortRank_eq_insertionSort (l : List RsmpRec) : sortRank l = l.insertionSort rankLe :=
  congrArg (fun f => l.foldr f []) (funext₂ byRank_eq_orderedInsert)

theorem sortRank_pairwise (l : List RsmpRec) : (sortRank l).Pairwise rankLe := by
  have : Std.Total rankLe := ⟨fun _ _ => Nat.le_total ..⟩
  have : IsTrans RsmpRec rankLe := ⟨fun _ _ _ => Nat.le_trans⟩
  rw [sortRank_eq_insertionSort]
  exact List.pairwise_insertionSort rankLe l

theorem sortRank_perm (l : List RsmpRec) : (sortRank l).Perm l := by
  rw [sortRank_eq_insertionSort]
  exact List.perm_insertionSort rankLe l

/-! ### The function g -/

section
variable {d w : Nat} (hd : d < 2 ^ 32) (hw : 0 < w)
include hd hw

/-- The draw lies below 2^32, so the natural subtraction in g never cuts off. -/
theorem draw_mul_succ_le : d * w + 1 ≤ 2 ^ 32 * w := Nat.mul_lt_mul_of_pos_right hd hw

theorem rsmpG_eq (n c : Nat) : rsmpG n d w c = (n * 2 ^ 32 * c + (2 ^ 32 * w - (d * w + 1))) / (2 ^ 32 * w) := by
  rw [rsmpG, Nat.sub_sub, Nat.add_sub_assoc (draw_mul_succ_le hd hw)]

theorem rsmpG_eq_floor (n c : Nat) :
    (rsmpG n d w c : Int) = ⌊((n * 2 ^ 32 * c - d * w + 2 ^ 32 * w - 1 : Rat) / (2 ^ 32 * w))⌋ := by
  have numerator : (n * 2 ^ 32 * c - d * w + 2 ^ 32 * w - 1 : Rat) = (n * 2 ^ 32 * c + (2 ^ 32 * w - (d * w + 1)) : Nat) := by
    rw [Nat.cast_add, Nat.cast_sub (draw_mul_succ_le hd hw)]
    push_cast
    ring
  have denominator : (2 ^ 32 * w : Rat) = (2 ^ 32 * w : Nat) := by push_cast; rfl
  rw [numerator, denominator, Rat.floor_natCast_div_natCast, rsmpG_eq hd hw, Int.natCast_div]

theorem rsmpG_zero (n : Nat) : rsmpG n d w 0 = 0 := by
  rw [rsmpG_eq hd hw, Nat.mul_zero, Nat.zero_add]
  exact Nat.div_eq_of_lt (Nat.sub_lt (by omega) (Nat.succ_pos _))

/-- At C = W the numerator is N times the denominator and the remainder that g(0) leaves. -/
theorem rsmpG_total (n : Nat) : rsmpG n d w w = n := by
  have g0 := rsmpG_zero hd hw n
  rw [rsmpG_eq hd hw, Nat.mul_zero, Nat.zero_add] at g0
  rw [rsmpG_eq hd hw, Nat.mul_assoc, Nat.mul_comm n, Nat.mul_add_div (by omega), g0, Nat.add_zero]

end

theorem rsmpG_mono (n d w : Nat) : Monotone (rsmpG n d w) := fun a b h => by
  have : n * 2 ^ 32 * a ≤ n * 2 ^ 32 * b := Nat.mul_le_mul_left _ h
  exact Nat.div_le_div_right (by omega)

/-! ### The counts -/

/-- The sum of the weights. -/
abbrev weightSum (rs : List RsmpRec) : Nat := (rs.map fun r => r.w.toNat).sum

theorem weightSum_cons (r : RsmpRec) (t : List RsmpRec) : weightSum (r :: t) = r.w.toNat + weightSum t := rfl

theorem weightSum_take_mono (rs : List RsmpRec) (i : Nat) : weightSum (rs.take i) ≤ weightSum (rs.take (i + 1)) :=
  (((List.take_prefix_take_left (Nat.le_succ i)).sublist).map _).sum_le_sum fun _ _ => Nat.zero_le _

section
variable (n d w : Nat)

theorem rsmpCounts_map_fst (c : Nat) (rs : List RsmpRec) : (rsmpCounts n d w c rs).map (·.1) = rs := by
  induction rs generalizing c with
  | nil => rfl
  | cons r t ih => rw [rsmpCounts, List.map_cons, ih]

/-- The counts telescope. -/
theorem rsmpCounts_sum (c : Nat) (rs : List RsmpRec) :
    ((rsmpCounts n d w c rs).map (·.2)).sum = rsmpG n d w (c + weightSum rs) - rsmpG n d w c := by
  induction rs generalizing c with
  | nil => exact (Nat.sub_self _).symm
  | cons r t ih =>
    have first := rsmpG_mono n d w (Nat.le_add_right c r.w.toNat)
    have rest := rsmpG_mono n d w (Nat.le_add_right (c + r.w.toNat) (weightSum t))
    rw [rsmpCounts, List.map_cons, List.sum_cons, ih, weightSum_cons, ← Nat.add_assoc, Nat.add_comm]
    exact Nat.sub_add_sub_cancel rest first

theorem rsmpCounts_of_weight_zero (c : Nat) (rs : List RsmpRec) : ∀ e ∈ rsmpCounts n d w c rs, e.1.w = 0 → e.2 = 0 := by
  induction rs generalizing c with
  | nil => exact fun e he => absurd he List.not_mem_nil
  | cons r t ih =>
    rw [rsmpCounts, List.forall_mem_cons]
    exact ⟨fun (hr : r.w = 0) => by simp [hr], ih _⟩

/-- The count of a participant is the step of g over its weight. -/
theorem rsmpCounts_getElem (c : Nat) (rs : List RsmpRec) (i : Nat) (h : i < (rsmpCounts n d w c rs).length) :
    ((rsmpCounts n d w c rs)[i]).2 = rsmpG n d w (c + weightSum (rs.take (i + 1))) - rsmpG n d w (c + weightSum (rs.take i)) := by
  induction rs generalizing c i with
  | nil => exact absurd h (Nat.not_lt_zero i)
  | cons r t ih =>
    cases i with
    | zero => simp [rsmpCounts, weightSum]
    | succ i => simpa [rsmpCounts, weightSum, Nat.add_assoc] using ih (c + r.w.toNat) i (Nat.lt_of_succ_lt_succ h)

end

/-- Settles O36: the counts are steps of the monotone g, so their sum telescopes to g(W) - g(0) = N. -/
theorem resampleCountsSumToN : Obligations.ResampleCountsSumToN := by
  refine ⟨rsmpDraw_eq, fun rs => ⟨sortRank_pairwise rs, sortRank_perm rs⟩, fun n d rs hd hw => ?_⟩
  have sum_eq := rsmpCounts_sum n d (weightSum rs) 0 rs
  rw [Nat.zero_add, rsmpG_zero hd hw, Nat.sub_zero] at sum_eq
  refine ⟨rsmpG_eq_floor hd hw n, rsmpG_zero hd hw n, rsmpG_total hd hw n, rsmpCounts_map_fst n d _ 0 rs,
    sum_eq.trans (rsmpG_total hd hw n), rsmpCounts_of_weight_zero n d _ 0 rs, fun i h => ?_⟩
  have step := rsmpCounts_getElem n d (weightSum rs) 0 rs i h
  rw [Nat.zero_add, Nat.zero_add] at step
  rw [step, Nat.cast_sub (rsmpG_mono n d _ (weightSum_take_mono rs i))]

end Sys2Proof.Machine
end
